-- ==== Sys2Proof/Word.lean ====
section
/-! DEFINITION. Word and name types of the PZ-740: bytes and counter words, the fixed name sets of the manual
(sources, subjects, views, states, notice classes, lines), and one container per name set (one value per
subject, group, bridge side, sector, line, notice class, channel), with `get` and `set`. -/

namespace Sys2Proof

abbrev Byte := BitVec 8
abbrev Word16 := BitVec 16
abbrev Word32 := BitVec 32

/-- A saturating 16-bit counter raised by 1 (00, "Saturating counters"). -/
def satInc16 (x : Word16) : Word16 := if x = 0xFFFF#16 then x else x + 1

/-- A saturating 32-bit counter raised by 1 (00, "Saturating counters"). -/
def satInc32 (x : Word32) : Word32 := if x = 0xFFFFFFFF#32 then x else x + 1

/-! ### Name sets -/

/-- The three sync sources (R1). -/
inductive Source | sya | syb | syc
  deriving DecidableEq, Repr, Inhabited

/-- The five subjects (R65). -/
inductive Subject | g0 | g1 | g2 | g3 | bus
  deriving DecidableEq, Repr, Inhabited

/-- The four rectifier groups. -/
inductive Group | g0 | g1 | g2 | g3
  deriving DecidableEq, Repr, Inhabited

/-- The two bridges of a group. -/
inductive Side | a | b
  deriving DecidableEq, Repr, Inhabited

/-- The nine channels (chapter 2): the bridge currents IA0 to IB3, and VB. -/
inductive Channel
  | bridge (g : Group) (d : Side)
  | vb
  deriving DecidableEq, Repr, Inhabited

/-- The four views (00, "Views"). -/
inductive View | a | b | s | v
  deriving DecidableEq, Repr, Inhabited

/-- Edge polarity (R1). -/
inductive Polarity | rising | falling
  deriving DecidableEq, Repr, Inhabited

/-- Tracker states (R5). -/
inductive TrackerState | search | warmup | locked | holdover
  deriving DecidableEq, Repr, Inhabited

/-- Subject states (R65). -/
inductive SubjectState | disabled | waiting | measuring
  deriving DecidableEq, Repr, Inhabited

/-- Conditions (R88). -/
inductive Condition | healthy | watch | alarm
  deriving DecidableEq, Repr, Inhabited

/-- Outcomes and last outcomes (R88, R92). -/
inductive LastOutcome | none | aborted | clipped | lowload | exceed | pass
  deriving DecidableEq, Repr, Inhabited

/-- The twelve notice classes, in class-number order (R168). -/
inductive NoticeClass
  | restart | sync | condG0 | condG1 | condG2 | condG3 | condBus | gap | clip | store | profile | save
  deriving DecidableEq, Repr, Inhabited

/-- The four alarm lines. -/
inductive LineId | alm0 | alm1 | alm2 | alm3
  deriving DecidableEq, Repr, Inhabited

/-- What a line selects of a subject (R156). -/
inductive Selection | none | watch | alarm
  deriving DecidableEq, Repr, Inhabited

/-- Phases of an alarm line (R156). -/
inductive LinePhase | idle | on | off
  deriving DecidableEq, Repr, Inhabited

/-- Logical states of an alarm pin (R156). -/
inductive Pin | active | inactive | highZ
  deriving DecidableEq, Repr, Inhabited

/-- Record kinds (R125). -/
inductive RecordKind | exceed | gap | manual | sync
  deriving DecidableEq, Repr, Inhabited

/-- Reset causes (R211). -/
inductive Cause | power | pin | request
  deriving DecidableEq, Repr, Inhabited

/-- Last save results (R205). -/
inductive SaveResult | none | ok | failed
  deriving DecidableEq, Repr, Inhabited

/-- Settings sources (R205). -/
inductive SettingsSource | image | defaults
  deriving DecidableEq, Repr, Inhabited

/-- Refusal codes of the station link (R198). -/
inductive RefusalCode | unknown | length | argument | state | busy | sequence | notfound | range
  deriving DecidableEq, Repr, Inhabited

/-- Address classes of a frame (R184); unknown until the address byte is taken. -/
inductive AddrClass | unknown | own | broadcast | foreign
  deriving DecidableEq, Repr, Inhabited

/-- A quantity of a limit entry (R72): an order, or RIPPLE. -/
inductive Quantity
  | order (h : Nat)
  | ripple
  deriving DecidableEq, Repr, Inhabited

/-- The group a subject is, if it is one. -/
def Subject.group? : Subject → Option Group
  | .g0 => some .g0
  | .g1 => some .g1
  | .g2 => some .g2
  | .g3 => some .g3
  | .bus => Option.none

/-- The subject that a group is. -/
def Group.subject : Group → Subject
  | .g0 => .g0
  | .g1 => .g1
  | .g2 => .g2
  | .g3 => .g3

/-- The COND class of a subject (R99). -/
def Subject.condClass : Subject → NoticeClass
  | .g0 => .condG0
  | .g1 => .condG1
  | .g2 => .condG2
  | .g3 => .condG3
  | .bus => .condBus

/-! ### Containers: one value per name -/

/-- One value per sync source. -/
structure PerSource (α : Type) where
  sya : α
  syb : α
  syc : α
  deriving DecidableEq, Repr, Inhabited

def PerSource.get {α : Type} (p : PerSource α) : Source → α
  | .sya => p.sya
  | .syb => p.syb
  | .syc => p.syc

/-- One value per subject. -/
structure PerSubject (α : Type) where
  g0 : α
  g1 : α
  g2 : α
  g3 : α
  bus : α
  deriving DecidableEq, Repr, Inhabited

def PerSubject.get {α : Type} (p : PerSubject α) : Subject → α
  | .g0 => p.g0
  | .g1 => p.g1
  | .g2 => p.g2
  | .g3 => p.g3
  | .bus => p.bus

def PerSubject.set {α : Type} (p : PerSubject α) (i : Subject) (x : α) : PerSubject α :=
  match i with
  | .g0 => { p with g0 := x }
  | .g1 => { p with g1 := x }
  | .g2 => { p with g2 := x }
  | .g3 => { p with g3 := x }
  | .bus => { p with bus := x }

/-- The container whose value at each subject is `f` of it. -/
def PerSubject.ofFn {α : Type} (f : Subject → α) : PerSubject α :=
  ⟨f .g0, f .g1, f .g2, f .g3, f .bus⟩

/-- One value per group. -/
structure PerGroup (α : Type) where
  g0 : α
  g1 : α
  g2 : α
  g3 : α
  deriving DecidableEq, Repr, Inhabited

def PerGroup.get {α : Type} (p : PerGroup α) : Group → α
  | .g0 => p.g0
  | .g1 => p.g1
  | .g2 => p.g2
  | .g3 => p.g3

def PerGroup.set {α : Type} (p : PerGroup α) (i : Group) (x : α) : PerGroup α :=
  match i with
  | .g0 => { p with g0 := x }
  | .g1 => { p with g1 := x }
  | .g2 => { p with g2 := x }
  | .g3 => { p with g3 := x }

def PerGroup.ofFn {α : Type} (f : Group → α) : PerGroup α :=
  ⟨f .g0, f .g1, f .g2, f .g3⟩

/-- One value per bridge of a group. -/
structure PerSide (α : Type) where
  a : α
  b : α
  deriving DecidableEq, Repr, Inhabited

def PerSide.get {α : Type} (p : PerSide α) : Side → α
  | .a => p.a
  | .b => p.b

def PerSide.ofFn {α : Type} (f : Side → α) : PerSide α := ⟨f .a, f .b⟩

/-- One value per sector 0 to 5 of a bridge. -/
structure PerSector (α : Type) where
  s0 : α
  s1 : α
  s2 : α
  s3 : α
  s4 : α
  s5 : α
  deriving DecidableEq, Repr, Inhabited

/-- The container whose value at sector j is `f j`. -/
def PerSector.ofFn {α : Type} (f : Fin 6 → α) : PerSector α :=
  ⟨f 0, f 1, f 2, f 3, f 4, f 5⟩

def PerSector.get {α : Type} (p : PerSector α) (j : Fin 6) : α :=
  match j with
  | 0 => p.s0
  | 1 => p.s1
  | 2 => p.s2
  | 3 => p.s3
  | 4 => p.s4
  | 5 => p.s5

/-- The six values in sector order. -/
def PerSector.toList {α : Type} (p : PerSector α) : List α := [p.s0, p.s1, p.s2, p.s3, p.s4, p.s5]

/-- One value per alarm line. -/
structure PerLine (α : Type) where
  alm0 : α
  alm1 : α
  alm2 : α
  alm3 : α
  deriving DecidableEq, Repr, Inhabited

def PerLine.get {α : Type} (p : PerLine α) : LineId → α
  | .alm0 => p.alm0
  | .alm1 => p.alm1
  | .alm2 => p.alm2
  | .alm3 => p.alm3

def PerLine.set {α : Type} (p : PerLine α) (i : LineId) (x : α) : PerLine α :=
  match i with
  | .alm0 => { p with alm0 := x }
  | .alm1 => { p with alm1 := x }
  | .alm2 => { p with alm2 := x }
  | .alm3 => { p with alm3 := x }

def PerLine.ofFn {α : Type} (f : LineId → α) : PerLine α :=
  ⟨f .alm0, f .alm1, f .alm2, f .alm3⟩

/-- One value per channel. -/
structure PerChannel (α : Type) where
  cur : PerGroup (PerSide α)
  vb : α
  deriving DecidableEq, Repr, Inhabited

def PerChannel.get {α : Type} (p : PerChannel α) : Channel → α
  | .bridge g d => (p.cur.get g).get d
  | .vb => p.vb

def PerChannel.ofFn {α : Type} (f : Channel → α) : PerChannel α :=
  ⟨PerGroup.ofFn fun g => PerSide.ofFn fun d => f (.bridge g d), f .vb⟩

/-- One value per notice class. -/
structure PerClass (α : Type) where
  restart : α
  sync : α
  condG0 : α
  condG1 : α
  condG2 : α
  condG3 : α
  condBus : α
  gap : α
  clip : α
  store : α
  profile : α
  save : α
  deriving DecidableEq, Repr, Inhabited

def PerClass.get {α : Type} (p : PerClass α) : NoticeClass → α
  | .restart => p.restart
  | .sync => p.sync
  | .condG0 => p.condG0
  | .condG1 => p.condG1
  | .condG2 => p.condG2
  | .condG3 => p.condG3
  | .condBus => p.condBus
  | .gap => p.gap
  | .clip => p.clip
  | .store => p.store
  | .profile => p.profile
  | .save => p.save

def PerClass.ofFn {α : Type} (f : NoticeClass → α) : PerClass α :=
  ⟨f .restart, f .sync, f .condG0, f .condG1, f .condG2, f .condG3, f .condBus, f .gap, f .clip,
    f .store, f .profile, f .save⟩

/-- The container with `x` at class `c` and the values of `p` elsewhere. -/
def PerClass.set {α : Type} (p : PerClass α) (c : NoticeClass) (x : α) : PerClass α :=
  PerClass.ofFn fun d => if d = c then x else p.get d

def Subject.all : List Subject := [.g0, .g1, .g2, .g3, .bus]
def Group.all : List Group := [.g0, .g1, .g2, .g3]
def LineId.all : List LineId := [.alm0, .alm1, .alm2, .alm3]
def NoticeClass.all : List NoticeClass :=
  [.restart, .sync, .condG0, .condG1, .condG2, .condG3, .condBus, .gap, .clip, .store, .profile, .save]

/-! ### Settings data (R1, R72, R73, R156, R168, R204) -/

/-- The sync settings (R1). -/
structure SyncSettings where
  list : List Source
  offsets : PerSource Nat
  polarity : Polarity
  depth : Nat
  warmUpTarget : Nat
  deriving DecidableEq, Repr, Inhabited

/-- A view's reference and order list (R72). -/
structure ViewSettings where
  reference : Nat
  orders : List Nat
  deriving DecidableEq, Repr, Inhabited

/-- A limit entry (R72). -/
structure LimitEntry where
  view : View
  quantity : Quantity
  limit : Nat
  step : Nat
  deriving DecidableEq, Repr, Inhabited

/-- The gap part of a group profile (R72). -/
structure GapPart where
  enable : Bool
  offsets : PerSide Nat
  percent : Nat
  cycles : Nat
  floor : Nat
  deriving DecidableEq, Repr, Inhabited

/-- What a profile says of its views and bridges: three views and a gap part for a group (R72), one view
for BUS (R73). -/
inductive ProfileBody
  | group (a b s : ViewSettings) (gap : GapPart)
  | bus (v : ViewSettings)
  deriving DecidableEq, Repr, Inhabited

/-- A profile (R72, R73). -/
structure Profile where
  enabledAtStart : Bool
  waveOnExceed : Bool
  threshold : Nat
  floor : Nat
  body : ProfileBody
  limits : List LimitEntry
  deriving DecidableEq, Repr, Inhabited

/-- The notice settings (R168). -/
structure NoticeSettings where
  enable : PerClass Bool
  level : PerClass Nat
  floor : Nat
  master : Bool
  deriving DecidableEq, Repr, Inhabited

/-- The settings of one alarm line (R156). -/
structure LineSettings where
  subjects : PerSubject Selection
  gaps : PerGroup Bool
  syncAbsent : Bool
  pulsed : Bool
  activeHigh : Bool
  onTime : Nat
  offTime : Nat
  deriving DecidableEq, Repr, Inhabited

/-- The working settings, as one copy (R204, R206). -/
structure WorkingSettings where
  sync : SyncSettings
  window : Nat
  profiles : PerSubject Profile
  notices : NoticeSettings
  lines : PerLine LineSettings
  deriving DecidableEq, Repr, Inhabited

end Sys2Proof
end

