-- ==== Sys2Proof/Config.lean ====
section
/-! DEFINITION. What an implementation of the PZ-740 fixes and the values the manual leaves open: constants
without a body (no proof can see a value of one), and the fixed figures of the part. -/

namespace Sys2Proof

/-- The stored order and form of the image's contents, as the bytes its check value runs over. The layout is
internal (R206), so it is a constant without a body (log entry 12). -/
opaque Config.imageBytes : WorkingSettings → List Byte

/-- The contents a save cut short by a reset leaves in the image (R210: whatever part of it had been written), a
free value (log entry 13). -/
opaque Config.partImage : Nat → WorkingSettings

/-- The check value a save cut short by a reset leaves in the image (R210), a free value (log entry 13). -/
opaque Config.partCheck : Nat → Word16

/-- Whether the Subject Table takes the abort that LOAD-DEFAULTS causes before LOAD-DEFAULTS itself. R83 allows
either, so it is a free value (log entry 14). -/
opaque Config.tableTakesAbortFirst : Nat → Bool

/-- The shortest and longest period the grid runs at, in ticks (R7, R9). -/
def Config.minPeriod : Nat := 153847
def Config.maxPeriod : Nat := 250000

/-- The search timer's end, in ticks: 1 s (R8). -/
def Config.searchLimit : Nat := 10000000

/-- Records the Capture Store holds (R124). -/
def Config.storeCapacity : Nat := 48

/-- The end of the record number counter (R128). -/
def Config.lastNumber : Nat := 4294967295

end Sys2Proof
end

