-- ==== Sys2Proof/Syntax.lean ====
section
/-! DEFINITION. The commands of the PZ-740: one constructor per row of spec/opcode_table.json, with the row's
operands. -/

namespace Sys2Proof

/-- A good request frame as it reaches the Link Controller (R181, R187): the tick at which the stop bit of its high
check byte ends, whether it was broadcast (R193) or addressed to this station, its tag and its body. -/
structure Frame where
  time : Nat
  broadcast : Bool
  tag : Byte
  body : List Byte
  deriving DecidableEq, Repr

/-- The straps as read during a reset (R179): the number formed from ADDR0 to ADDR3, and BAUDSEL. -/
structure Straps where
  address : BitVec 4
  baudsel : Bool
  deriving DecidableEq, Repr

/-- The request kinds (R221). -/
inductive RequestKind
  | identify
  | readStatus
  | clearCounters
  | setSync
  | readSync
  | setWindow
  | setProfile
  | readProfile
  | enable
  | disable
  | readResult
  | clearGap
  | capture
  | readRecord
  | readWave
  | retain
  | release
  | retainMap
  | markFirst
  | markLast
  | purge
  | setNotices
  | fetchNotices
  | setLines
  | readLines
  | saveSettings
  | loadDefaults
  | restart
  deriving DecidableEq, Repr

/-- An indication that the Alarm Line Driver follows (R157). -/
inductive Item
  | condition (i : Subject)
  | gapAny (g : Group)
  | syncAbsent
  deriving DecidableEq, Repr

/-- The commands, one constructor per row of the table. -/
inductive Instr
  /-- ACCEPTED_TRANSITION (R2, R3). -/
  | acceptedTransition
  /-- EDGE (R11): the tracker takes the oldest edge handed over. -/
  | edge
  /-- LATE_ZONE_CLOSE (R12). -/
  | lateZoneClose
  /-- SEARCH_TIMER_EXPIRY (R8). -/
  | searchTimerExpiry
  /-- CYCLE_START (R9). -/
  | cycleStart
  /-- SAMPLE_SET (R25): the conversion in progress completes at tick `time`. -/
  | sampleSet (time : Nat)
  /-- WINDOW_START (R37, R38): the Engine takes a cycle start. -/
  | windowStart
  /-- CYCLE_END (R41): the Engine takes a cycle end. -/
  | cycleEnd
  /-- WINDOW_ABORT (R45): the Engine takes an abort cause or a grid stop. -/
  | windowAbort
  /-- DISABLE_MESSAGE (R47): the Engine takes the oldest message of a disabled subject. -/
  | disableMessage
  /-- WINDOW_END_NAMING (R71): the Subject Table takes the oldest naming. -/
  | windowEndNaming
  /-- WINDOW_REPORT (R90): the Verdict Unit takes the report in flight for a subject. -/
  | windowReport (i : Subject)
  /-- ABORT_REPORT (R91). -/
  | abortReport (i : Subject)
  /-- VERDICT_ORDER (R105): the Verdict Unit takes the oldest order for a subject. -/
  | verdictOrder (i : Subject)
  /-- GAP_EXAMINATION (R109): the Gap Detector takes the cycle end for a group. -/
  | gapExamination (g : Group)
  /-- COPY_REQUEST (R32): the Front End takes the n-th copy request in flight. -/
  | copyRequest (n : Nat)
  /-- FILING (R129): the Capture Store takes the n-th filing in flight. -/
  | filing (n : Nat)
  /-- NOTICE_RAISE (R169): the Notice Unit takes a raise of a class. -/
  | noticeRaise (c : NoticeClass)
  /-- INDICATION_CHANGE (R157): the Alarm Line Driver takes the oldest change of an item. -/
  | indicationChange (x : Item)
  /-- PULSE_TIMER_EXPIRY (R160). -/
  | pulseTimerExpiry (l : LineId)
  /-- CHARACTER (R181): a character completes at the receiver; `time` is the end of its stop bit, `stopError` a
  stop-bit error. -/
  | character (time : Nat) (value : Byte) (stopError : Bool)
  /-- INTER_BYTE_TIMEOUT (R183). -/
  | interByteTimeout
  /-- REPLY_BEGIN (R194) at the tick the Link Controller chose. -/
  | replyBegin (time : Nat)
  /-- REPLY_END (R196). -/
  | replyEnd
  /-- UNDEFINED_KIND (R188). -/
  | undefinedKind (kind : Byte) (f : Frame)
  /-- IDENTIFY (R220). -/
  | identify (f : Frame)
  /-- READ-STATUS (R200). -/
  | readStatus (f : Frame)
  /-- CLEAR-COUNTERS (R202). -/
  | clearCounters (f : Frame)
  /-- SET-SYNC (R21). -/
  | setSync (f : Frame)
  /-- READ-SYNC (R22). -/
  | readSync (f : Frame)
  /-- SET-WINDOW (R49, R50). -/
  | setWindow (f : Frame)
  /-- SET-PROFILE (R75 to R77). -/
  | setProfile (f : Frame)
  /-- READ-PROFILE (R81). -/
  | readProfile (f : Frame)
  /-- ENABLE (R67, R68). -/
  | enable (f : Frame)
  /-- DISABLE (R67, R69, R70). -/
  | disable (f : Frame)
  /-- READ-RESULT (R102). -/
  | readResult (f : Frame)
  /-- CLEAR-GAP (R121). -/
  | clearGap (f : Frame)
  /-- CAPTURE (R132 to R134). -/
  | capture (f : Frame)
  /-- READ-RECORD (R135 to R138). -/
  | readRecord (f : Frame)
  /-- READ-WAVE (R140 to R142). -/
  | readWave (f : Frame)
  /-- RETAIN (R143). -/
  | retain (f : Frame)
  /-- RELEASE (R144). -/
  | release (f : Frame)
  /-- RETAIN-MAP (R146). -/
  | retainMap (f : Frame)
  /-- MARK-FIRST (R147). -/
  | markFirst (f : Frame)
  /-- MARK-LAST (R148). -/
  | markLast (f : Frame)
  /-- PURGE (R150). -/
  | purge (f : Frame)
  /-- SET-NOTICES (R175, R176). -/
  | setNotices (f : Frame)
  /-- FETCH-NOTICES (R172 to R174). -/
  | fetchNotices (f : Frame)
  /-- SET-LINES (R163 to R165). -/
  | setLines (f : Frame)
  /-- READ-LINES (R166). -/
  | readLines (f : Frame)
  /-- SAVE-SETTINGS (R207). -/
  | saveSettings (f : Frame)
  /-- SAVE_COMPLETION (R209) at tick `time`; `contents` and `check` are what the image reads back as. -/
  | saveCompletion (time : Nat) (contents : WorkingSettings) (check : Word16)
  /-- LOAD-DEFAULTS (R217). -/
  | loadDefaults (f : Frame)
  /-- RESTART (R218). -/
  | restart (f : Frame)
  /-- POWER_RESET (R211, R227): the power-on detector sees a supply of `millivolts`. -/
  | powerReset (time : Nat) (millivolts : Nat)
  /-- PIN_RESET (R211): at tick `time` RSTN has been low for `low` ticks. -/
  | pinReset (time : Nat) (low : Nat)
  /-- RESET_END (R213) at tick `time`, with the straps as read during the reset. -/
  | resetEnd (time : Nat) (straps : Straps)
  /-- END_OF_START_UP (R215). -/
  | endOfStartUp (time : Nat)
  /-- QUALIFIER_SAMPLE (R2) at tick `time`. `inputs` are the voltages in microvolts that each sync input has passed
  through since the sample before, oldest first; the comparators follow them (R227). -/
  | qualifierSample (time : Nat) (inputs : PerSource (List Int))
  /-- INSTANT (R9, R25): the next instant falls; `inputs` are the nine inputs in units of one code (R24). -/
  | instant (inputs : PerChannel Int)
  /-- DETECTOR_CLEARING_EVENT (R120): the Gap Detector takes the oldest clearing for a group. -/
  | detectorClearingEvent (g : Group)
  deriving DecidableEq, Repr

end Sys2Proof
end

