-- ==== Sys2Proof/Decode.lean ====
section
/-! DEFINITION. Decoding. The table gives no row any bits, so no word spells a command. What the block decodes is
the kind byte of a frame: its kind (R188, R221) and the body length the kind requires (R189). -/

namespace Sys2Proof

/-- The command that a word spells by the table's bits: none, because no row of the table gives bits. -/
def decodeTableWord (_nbits _w : Nat) : Option Instr := none

/-- The code of a request kind (R221). -/
def RequestKind.code : RequestKind → Byte
  | .identify => 0x01#8
  | .readStatus => 0x02#8
  | .clearCounters => 0x03#8
  | .setSync => 0x10#8
  | .readSync => 0x11#8
  | .setWindow => 0x18#8
  | .setProfile => 0x20#8
  | .readProfile => 0x21#8
  | .enable => 0x22#8
  | .disable => 0x23#8
  | .readResult => 0x24#8
  | .clearGap => 0x28#8
  | .capture => 0x30#8
  | .readRecord => 0x31#8
  | .readWave => 0x32#8
  | .retain => 0x33#8
  | .release => 0x34#8
  | .retainMap => 0x35#8
  | .markFirst => 0x36#8
  | .markLast => 0x37#8
  | .purge => 0x38#8
  | .setNotices => 0x40#8
  | .fetchNotices => 0x41#8
  | .setLines => 0x48#8
  | .readLines => 0x49#8
  | .saveSettings => 0x50#8
  | .loadDefaults => 0x51#8
  | .restart => 0x52#8

/-- The request kind of a kind byte, if it is defined (R188, R221). -/
def kindOf (k : Byte) : Option RequestKind :=
  match k.toNat with
  | 0x01 => some .identify
  | 0x02 => some .readStatus
  | 0x03 => some .clearCounters
  | 0x10 => some .setSync
  | 0x11 => some .readSync
  | 0x18 => some .setWindow
  | 0x20 => some .setProfile
  | 0x21 => some .readProfile
  | 0x22 => some .enable
  | 0x23 => some .disable
  | 0x24 => some .readResult
  | 0x28 => some .clearGap
  | 0x30 => some .capture
  | 0x31 => some .readRecord
  | 0x32 => some .readWave
  | 0x33 => some .retain
  | 0x34 => some .release
  | 0x35 => some .retainMap
  | 0x36 => some .markFirst
  | 0x37 => some .markLast
  | 0x38 => some .purge
  | 0x40 => some .setNotices
  | 0x41 => some .fetchNotices
  | 0x48 => some .setLines
  | 0x49 => some .readLines
  | 0x50 => some .saveSettings
  | 0x51 => some .loadDefaults
  | 0x52 => some .restart
  | _ => none

/-- The body length a kind requires (R189); none for the two kinds whose owners walk the body. -/
def RequestKind.fixedLength : RequestKind → Option Nat
  | .identify => some 0
  | .readStatus => some 0
  | .clearCounters => some 0
  | .setSync => none
  | .readSync => some 0
  | .setWindow => some 1
  | .setProfile => none
  | .readProfile => some 2
  | .enable => some 1
  | .disable => some 1
  | .readResult => some 1
  | .clearGap => some 1
  | .capture => some 2
  | .readRecord => some 5
  | .readWave => some 7
  | .retain => some 4
  | .release => some 4
  | .retainMap => some 4
  | .markFirst => some 4
  | .markLast => some 4
  | .purge => some 0
  | .setNotices => some 26
  | .fetchNotices => some 1
  | .setLines => some 44
  | .readLines => some 0
  | .saveSettings => some 0
  | .loadDefaults => some 0
  | .restart => some 0

/-- The BUSY set (R190). -/
def RequestKind.inBusySet : RequestKind → Bool
  | .setSync | .setWindow | .setProfile | .setNotices | .setLines | .saveSettings | .loadDefaults | .restart => true
  | _ => false

/-- The kinds whose frames leave the purge marks (R149). -/
def RequestKind.keepsMarks : RequestKind → Bool
  | .markFirst | .markLast | .purge | .readStatus => true
  | _ => false

end Sys2Proof
end

