-- ==== Sys2Proof/Machine/Fields.lean ====
section
/-! DEFINITION. What a single value says: a profile's views, the source at a list position, the codes and bytes of the fields
of requests and replies (R222), reset causes, and the indications of a single value. -/

namespace Sys2Proof

/-! ### Profiles -/

/-- The views of a profile, in the order A, B, S or V (R63). -/
def Profile.views (p : Profile) : List (View × ViewSettings) :=
  match p.body with
  | .group a b s _ => [(.a, a), (.b, b), (.s, s)]
  | .bus v => [(.v, v)]

/-- The gap part of a group profile (R72). -/
def Profile.gap? (p : Profile) : Option GapPart :=
  match p.body with
  | .group _ _ _ g => some g
  | .bus _ => none

/-! ### Sources -/

/-- The source at a list position (R1). -/
def SyncSettings.sourceAt (y : SyncSettings) (position : Nat) : Source := y.list.getD (position - 1) .sya

/-- The position after `position`, wrapping from the last entry to the first (R1). -/
def SyncSettings.nextPosition (y : SyncSettings) (position : Nat) : Nat :=
  if position < y.list.length then position + 1 else 1

/-! ### Bytes of fields (R222) -/

/-- An unsigned byte. -/
def b8 (n : Nat) : Byte := BitVec.ofNat 8 n

/-- A flag: 0 clear, 1 set. -/
def flagByte (b : Bool) : Byte := if b then 1 else 0

/-- Two bytes, low byte first. -/
def le16 (n : Nat) : List Byte := [b8 n, b8 (n / 256)]

/-- Four bytes, low byte first. -/
def le32 (n : Nat) : List Byte := [b8 n, b8 (n / 256), b8 (n / 65536), b8 (n / 16777216)]

/-- A signed code in two's complement, low byte first. -/
def codeBytes (x : Int) : List Byte := le16 (BitVec.ofInt 16 x).toNat

/-- A signed mean in two's complement, low byte first. -/
def meanBytes (x : Int) : List Byte := le32 (BitVec.ofInt 32 x).toNat

/-- An optional single byte of a record: 0xFF when absent. -/
def optByte : Option Byte → Byte
  | none => 0xFF
  | some b => b

def Source.code : Source → Byte
  | .sya => 0 | .syb => 1 | .syc => 2
def Polarity.code : Polarity → Byte
  | .rising => 0 | .falling => 1
def TrackerState.code : TrackerState → Byte
  | .search => 0 | .warmup => 1 | .locked => 2 | .holdover => 3
def SubjectState.code : SubjectState → Byte
  | .disabled => 0 | .waiting => 1 | .measuring => 2
def Condition.code : Condition → Byte
  | .healthy => 0 | .watch => 1 | .alarm => 2
def LastOutcome.code : LastOutcome → Byte
  | .none => 0 | .aborted => 1 | .clipped => 2 | .lowload => 3 | .exceed => 4 | .pass => 5
def View.code : View → Byte
  | .a => 0 | .b => 1 | .s => 2 | .v => 3
def Quantity.code : Quantity → Byte
  | .order h => b8 h
  | .ripple => 0xFF
def RecordKind.code : RecordKind → Byte
  | .exceed => 0 | .gap => 1 | .manual => 2 | .sync => 3
def LinePhase.code : LinePhase → Byte
  | .idle => 0 | .on => 1 | .off => 2
/-- The pin code (R222). HIGH-Z has none: no frame is taken while a pin is HIGH-Z (R166). -/
def Pin.code : Pin → Byte
  | .inactive => 0 | .active => 1 | .highZ => 0
def Selection.code : Selection → Byte
  | .none => 0 | .watch => 1 | .alarm => 2
def SaveResult.code : SaveResult → Byte
  | .none => 0 | .ok => 1 | .failed => 2
def Cause.code : Cause → Byte
  | .power => 0 | .pin => 1 | .request => 2
def SettingsSource.code : SettingsSource → Byte
  | .image => 0 | .defaults => 1
def RefusalCode.code : RefusalCode → Byte
  | .unknown => 1 | .length => 2 | .argument => 3 | .state => 4 | .busy => 5 | .sequence => 6 | .notfound => 7
  | .range => 8
def Subject.number : Subject → Nat
  | .g0 => 0 | .g1 => 1 | .g2 => 2 | .g3 => 3 | .bus => 4
def Group.number : Group → Nat
  | .g0 => 0 | .g1 => 1 | .g2 => 2 | .g3 => 3
def Side.number : Side → Nat
  | .a => 0 | .b => 1
def NoticeClass.number : NoticeClass → Nat
  | .restart => 0 | .sync => 1 | .condG0 => 2 | .condG1 => 3 | .condG2 => 4 | .condG3 => 5 | .condBus => 6 | .gap => 7
  | .clip => 8 | .store => 9 | .profile => 10 | .save => 11
/-- The channel number (chapter 2). -/
def Channel.number : Channel → Nat
  | .bridge g d => 2 * g.number + d.number
  | .vb => 8

def Subject.ofNumber? : Nat → Option Subject
  | 0 => some .g0 | 1 => some .g1 | 2 => some .g2 | 3 => some .g3 | 4 => some .bus | _ => none
def Group.ofNumber? : Nat → Option Group
  | 0 => some .g0 | 1 => some .g1 | 2 => some .g2 | 3 => some .g3 | _ => none
def Channel.ofNumber? : Nat → Option Channel
  | 0 => some (.bridge .g0 .a) | 1 => some (.bridge .g0 .b)
  | 2 => some (.bridge .g1 .a) | 3 => some (.bridge .g1 .b)
  | 4 => some (.bridge .g2 .a) | 5 => some (.bridge .g2 .b)
  | 6 => some (.bridge .g3 .a) | 7 => some (.bridge .g3 .b)
  | 8 => some .vb
  | _ => none
def Source.ofNumber? : Nat → Option Source
  | 0 => some .sya | 1 => some .syb | 2 => some .syc | _ => none
def View.ofNumber? : Nat → Option View
  | 0 => some .a | 1 => some .b | 2 => some .s | 3 => some .v | _ => none
def Quantity.ofNumber? (n : Nat) : Option Quantity :=
  if 1 ≤ n ∧ n ≤ 47 then some (.order n) else if n = 255 then some .ripple else none
def Selection.ofNumber : Nat → Selection
  | 1 => .watch | 2 => .alarm | _ => .none

/-- The channels a subject's waveform holds (R127): IAn and IBn, or VB. -/
def Subject.channels (i : Subject) : List Channel :=
  match i.group? with
  | some g => [.bridge g .a, .bridge g .b]
  | none => [.vb]

/-- A latch map: bit j set when the latch of sector j is set (R222). -/
def sectorByte (p : PerSector Bool) : Byte :=
  b8 ((if p.s0 then 1 else 0) + (if p.s1 then 2 else 0) + (if p.s2 then 4 else 0) + (if p.s3 then 8 else 0)
    + (if p.s4 then 16 else 0) + (if p.s5 then 32 else 0))

/-! ### Reset causes -/

/-- The more far-reaching of two causes (R211). -/
def Cause.further : Cause → Cause → Cause
  | .power, _ => .power
  | _, .power => .power
  | .pin, _ => .pin
  | _, .pin => .pin
  | .request, .request => .request

/-! ### Indications of single values -/

/-- Sync-absent is true in SEARCH and WARMUP (R5). -/
def TrackerState.syncAbsent : TrackerState → Bool
  | .search | .warmup => true
  | .locked | .holdover => false

/-- A subject item of a line (R157). -/
def Selection.itemTrue (sel : Selection) (c : Condition) : Bool :=
  match sel, c with
  | .none, _ => false
  | .watch, .healthy => false
  | .watch, .watch => true
  | .watch, .alarm => true
  | .alarm, .alarm => true
  | .alarm, .healthy => false
  | .alarm, .watch => false

end Sys2Proof
end

