-- ==== Sys2Proof/Machine/Defaults.lean ====
section
/-! DEFINITION. The default working settings of every block (R1, R35, R82, R156, R170). -/

namespace Sys2Proof

/-! ### Default settings -/

/-- The default sync settings (R1). -/
def SyncSettings.default : SyncSettings :=
  { list := [.sya], offsets := ⟨0, 32, 64⟩, polarity := .rising, depth := 4, warmUpTarget := 16 }

/-- The default window length (R35). -/
def defaultWindow : Nat := 4

/-- The default reference and order list of a view (R82). -/
def ViewSettings.default : ViewSettings := { reference := 16000, orders := [] }

/-- The default gap part (R82). -/
def GapPart.default : GapPart :=
  { enable := false, offsets := ⟨0, 8⟩, percent := 50, cycles := 3, floor := 0 }

/-- The default profile of a group (R82). -/
def Profile.groupDefault : Profile :=
  { enabledAtStart := false, waveOnExceed := false, threshold := 4, floor := 0,
    body := .group .default .default .default .default, limits := [] }

/-- The default profile of BUS (R82). -/
def Profile.busDefault : Profile :=
  { enabledAtStart := false, waveOnExceed := false, threshold := 4, floor := 0, body := .bus .default, limits := [] }

/-- The five default profiles (R82). -/
def defaultProfiles : PerSubject Profile :=
  ⟨.groupDefault, .groupDefault, .groupDefault, .groupDefault, .busDefault⟩

/-- The default notice settings (R170). -/
def NoticeSettings.default : NoticeSettings :=
  { enable := ⟨true, true, true, true, true, true, true, true, true, true, true, true⟩
    level :=
      { restart := 1, sync := 2, condG0 := 3, condG1 := 3, condG2 := 3, condG3 := 3, condBus := 3, gap := 3, clip := 1,
        store := 1, profile := 1, save := 1 }
    floor := 1
    master := true }

/-- The default settings of one line (R156). -/
def LineSettings.default : LineSettings :=
  { subjects := ⟨.none, .none, .none, .none, .none⟩, gaps := ⟨false, false, false, false⟩, syncAbsent := false,
    pulsed := false, activeHigh := false, onTime := 50, offTime := 50 }

def defaultLines : PerLine LineSettings := ⟨.default, .default, .default, .default⟩

/-- The default working settings (R214). -/
def WorkingSettings.default : WorkingSettings :=
  { sync := .default, window := defaultWindow, profiles := defaultProfiles, notices := .default, lines := defaultLines }

end Sys2Proof
end

