-- ==== Sys2Proof/Machine/Blocks.lean ====
section
/-! DEFINITION. The state of the PZ-740's eleven blocks (00, "Blocks and paths"), the hand-offs in flight between them, and
the values each block takes at a reset. -/

namespace Sys2Proof.Machine

/-! ### Sync Tracker -/

/-- The qualifier (R2): current level (none: unknown), run count, run start, and the edges it has handed to the tracker
that the tracker has not yet taken (R3, R8). -/
structure Qualifier where
  level : Option Bool
  runCount : Nat
  runStart : Nat
  edges : List Nat
  deriving DecidableEq, Repr

/-- A cycle boundary (R11, R12): its matched edge time, and whether its late zone has closed. -/
structure Boundary where
  matched : Option Nat
  closed : Bool
  deriving DecidableEq, Repr

/-- The cycle before the one in progress (R9, R13). -/
structure PrevCycle where
  start : Nat
  period : Nat
  boundary : Boundary
  deriving DecidableEq, Repr

/-- The cycle grid (R9): the cycle in progress, its boundary, an early match of the next boundary, the cycle before, the
next instant to issue, and the holdover mark of the cycle in progress (R10). -/
structure Grid where
  start : Nat
  period : Nat
  nextPeriod : Nat
  boundary : Boundary
  early : Option Nat
  prev : Option PrevCycle
  nextInstant : Nat
  holdMark : Bool
  deriving DecidableEq, Repr

/-- The Sync Tracker (R1, R5 to R20). `searchStart` is the tick the search timer counts from; none: stopped. -/
structure Tracker where
  state : TrackerState
  position : Nat
  remembered : Option Nat
  searchStart : Option Nat
  warmUp : Nat
  misses : Nat
  grid : Option Grid
  cycle : Word32
  spurious : Word16
  missed : Word16
  losses : Word16
  rotations : Word16
  deriving DecidableEq, Repr

/-! ### Sampling Front End -/

/-- A code with its clip mark (R24). -/
structure Reading where
  code : Int
  clip : Bool
  deriving DecidableEq, Repr, Inhabited

/-- The nine readings of one instant. -/
abbrev Row := PerChannel Reading

/-- The conversion in progress (R25): instant index, cycle number, the inputs held, the tick of the hold. -/
structure Conversion where
  index : Nat
  cycle : Word32
  inputs : PerChannel Int
  held : Nat
  deriving DecidableEq, Repr

/-- The assembly of the cycle in progress (R29). -/
structure Assembly where
  cycle : Option Word32
  rows : List Row
  deriving DecidableEq, Repr

/-- The last-cycle buffer (R31). -/
structure CycleBuffer where
  valid : Bool
  cycle : Word32
  rows : List Row
  deriving DecidableEq, Repr

structure FrontEnd where
  conversion : Option Conversion
  assembly : Assembly
  buffer : CycleBuffer
  deriving DecidableEq, Repr

/-! ### Harmonic Engine -/

/-- The accumulators of one order (R53). -/
structure OrderAcc where
  order : Nat
  i : Int
  q : Int
  deriving DecidableEq, Repr

/-- The accumulator set of one view (R53), with the view's copied reference (R39). -/
structure ViewAcc where
  view : View
  reference : Nat
  sum : Int
  max : Option Int
  min : Option Int
  clip : Bool
  pairs : List OrderAcc
  deriving DecidableEq, Repr

/-- A participant of the running window: the judging fields copied at its start (R39, R63) and its accumulator sets. -/
structure Participant where
  subject : Subject
  floor : Nat
  limits : List LimitEntry
  waveOnExceed : Bool
  views : List ViewAcc
  deriving DecidableEq, Repr

/-- The Harmonic Engine (R35). `justEnded`: a window end is the last hand-off of the tracker taken, so the cycle start that
follows is at the same boundary (R43). -/
structure Engine where
  w : Nat
  pendingW : Option Nat
  running : Bool
  windowNumber : Word32
  firstCycle : Word32
  completed : Nat
  sampleCount : Nat
  holdover : Bool
  participants : List Participant
  justEnded : Bool
  deriving DecidableEq, Repr

/-! ### Subject Table and Verdict Unit -/

/-- A subject's entry in the Subject Table (R65). -/
structure SubjectEntry where
  state : SubjectState
  active : Profile
  pendingProfile : Option Profile
  deriving DecidableEq, Repr

/-- One view of a window report or a results entry (R63, R101): (order, level) pairs in ascending order. -/
structure ViewReport where
  view : View
  mean : Int
  ripple : Nat
  clip : Bool
  levels : List (Nat × Nat)
  deriving DecidableEq, Repr

/-- A window report (R63). -/
structure WindowReport where
  subject : Subject
  number : Word32
  w : Nat
  firstCycle : Word32
  lastCycle : Word32
  holdover : Bool
  views : List ViewReport
  floor : Nat
  limits : List LimitEntry
  waveOnExceed : Bool
  deriving DecidableEq, Repr

/-- A results entry (R101). -/
structure ResultsEntry where
  number : Word32
  w : Nat
  firstCycle : Word32
  lastCycle : Word32
  outcome : LastOutcome
  holdover : Bool
  views : List ViewReport
  exceeded : List Nat
  counter : Nat
  condition : Condition
  deriving DecidableEq, Repr

/-- A subject's verdict state (R88). -/
structure VerdictEntry where
  enabled : Bool
  counter : Nat
  condition : Condition
  results : Option ResultsEntry
  last : LastOutcome
  judged : Word32
  exceeded : Word32
  deriving DecidableEq, Repr

/-- The orders the Verdict Unit takes (R105). `disable activated`: the clearing of a DISABLE, with the activation of a pending
profile in the same event or without (R70). -/
inductive VerdictOrder
  | enable
  | disable (activated : Bool)
  | activation
  | loadDefaults
  | startUp
  deriving DecidableEq, Repr

/-! ### Gap Detector -/

/-- The sector counters and latch maps of a group's two bridges (R107). -/
structure GapGroup where
  counters : PerSide (PerSector Nat)
  latches : PerSide (PerSector Bool)
  deriving DecidableEq, Repr

/-- The readings of the eight current channels at one index of the cycle in hand (R107). -/
abbrev HandRow := PerGroup (PerSide Reading)

structure CycleInHand where
  cycle : Option Word32
  rows : List HandRow
  deriving DecidableEq, Repr

/-- The Gap Detector (R107). `inHand` fills from the sample sets; `ended` is the cycle whose end is being examined. -/
structure GapDetector where
  groups : PerGroup GapGroup
  inHand : CycleInHand
  ended : CycleInHand
  deriving DecidableEq, Repr

/-- The clearings the detector takes from its neighbours (R120). -/
inductive Clearing | disable | activation | loadDefaults
  deriving DecidableEq, Repr

/-! ### Capture Store -/

/-- One view of a record's summary (R126). -/
structure SummaryView where
  view : View
  mean : Int
  ripple : Nat
  levels : List (Nat × Nat)
  deriving DecidableEq, Repr

/-- A summary with the number of the window it summarises (R126). -/
structure Summary where
  number : Word32
  views : List SummaryView
  deriving DecidableEq, Repr

/-- One bridge of a gap part (R117): sector base, newly declared sectors in ascending order, latch map afterwards. -/
structure GapSide where
  base : Nat
  declared : List Nat
  latches : PerSector Bool
  deriving DecidableEq, Repr

/-- A sync part (R126). -/
structure SyncPart where
  lost : Source
  period : Nat
  misses : Nat
  deriving DecidableEq, Repr

/-- One channel of a waveform (R127). -/
structure WaveChannel where
  channel : Channel
  codes : List Int
  clipped : Nat
  deriving DecidableEq, Repr

structure Waveform where
  cycle : Word32
  channels : List WaveChannel
  deriving DecidableEq, Repr

/-- A record (R125, R126). -/
structure Record where
  number : Nat
  kind : RecordKind
  subject : Option Subject
  stamp : Word32
  source : Source
  offset : Nat
  verdict : Option (Nat × Condition)
  summary : Option Summary
  exceeded : Option (List Nat)
  gap : Option (PerSide GapSide)
  sync : Option SyncPart
  wave : Option Waveform
  deriving DecidableEq, Repr

/-- A record in the store, with the store's retained flag (R124). -/
structure StoreEntry where
  record : Record
  retained : Bool
  deriving DecidableEq, Repr

/-- The Capture Store (R124). -/
structure CaptureStore where
  entries : List StoreEntry
  counter : Nat
  cursor : Nat
  firstMark : Option Nat
  lastMark : Option Nat
  drops : Word16
  deriving DecidableEq, Repr

/-! ### Notice Unit and Alarm Line Driver -/

/-- A class's latch and coalesced count (R168). -/
structure NoticeLatch where
  latch : Bool
  count : Nat
  deriving DecidableEq, Repr, Inhabited

/-- The Notice Unit (R168); `attn`: ATTN is pulled low (R171). -/
structure NoticeUnit where
  latches : PerClass NoticeLatch
  settings : NoticeSettings
  attn : Bool
  deriving DecidableEq, Repr

/-- The run state of an alarm line (R156). `timer` is the tick at which the pulse timer expires; none: stopped. -/
structure LineRun where
  source : Bool
  phase : LinePhase
  timer : Option Nat
  pin : Pin
  deriving DecidableEq, Repr

/-- The indications of R157 as the Driver has last taken them. -/
structure Indications where
  conditions : PerSubject Condition
  gapAny : PerGroup Bool
  syncAbsent : Bool
  deriving DecidableEq, Repr

structure AlarmDriver where
  settings : PerLine LineSettings
  run : PerLine LineRun
  seen : Indications
  deriving DecidableEq, Repr

/-! ### Link Controller -/

/-- The states of the Link Controller with what each holds (R180). RECEIVE holds the characters after the start byte, the address
class and the tick of the last character; TURNAROUND the reply and the tick its timer counts from; SEND the reply and
the tick it began. -/
inductive LinkState
  | off
  | hunt
  | receive (got : List Byte) (cls : AddrClass) (lastTime : Nat)
  | turnaround (reply : List Byte) (start : Nat)
  | send (reply : List Byte) (start : Nat)
  deriving DecidableEq, Repr

/-- The Link Controller (R179, R180, R199); `fast`: 115,200 bit/s; `huntFrom`: the tick at which it last entered HUNT out of OFF or
SEND, before which it took no character (R196, R215), a field of the model's own (log entry 42). -/
structure Link where
  state : LinkState
  address : BitVec 4
  fast : Bool
  requests : Word16
  framing : Word16
  checks : Word16
  cancels : Word16
  huntFrom : Nat
  deriving DecidableEq, Repr

/-! ### Settings Store -/

/-- The image (R206). -/
structure Image where
  contents : WorkingSettings
  check : Word16
  mark : Bool
  deriving DecidableEq, Repr

/-- The settings being written (R205), with the tick of the acceptance (R208). -/
structure Snapshot where
  contents : WorkingSettings
  check : Word16
  accepted : Nat
  deriving DecidableEq, Repr

/-- The Settings Store (R205). -/
structure SettingsStore where
  image : Image
  imageValid : Bool
  saving : Bool
  snapshot : Option Snapshot
  lastSave : SaveResult
  source : SettingsSource
  lastCause : Cause
  restartPending : Bool
  deriving DecidableEq, Repr

/-! ### Hand-offs in flight -/

/-- What aborts a window besides a grid stop (R44). -/
inductive AbortCause | syncLoss | setSync | loadDefaults
  deriving DecidableEq, Repr

/-- What the tracker and LOAD-DEFAULTS hand to the Engine (R9, R44). -/
inductive EngineMsg
  | cycleStart (n : Word32)
  | cycleEnd (n : Word32) (holdover : Bool)
  | gridStop
  | abort (c : AbortCause)
  deriving DecidableEq, Repr

/-- A filing asked of the Capture Store (R129), with the fields its sender supplies (R103, R117, R18). -/
inductive Filing
  | exceed (i : Subject) (stamp : Word32) (counter : Nat) (summary : Summary) (exceeded : List Nat)
      (wave : Option Waveform)
  | gap (g : Group) (stamp : Word32) (part : PerSide GapSide) (wave : Option Waveform)
  | sync (source : Source) (offset : Nat) (stamp : Word32) (part : SyncPart)
  deriving DecidableEq, Repr

/-- A copy request (R32): the cycle named, and the filing that waits for the waveform. -/
structure CopyReq where
  cycle : Word32
  filing : Filing
  deriving DecidableEq, Repr

/-- A change of an indication on its way to the Driver (R157). -/
inductive Change
  | condition (i : Subject) (c : Condition)
  | gapAny (g : Group) (v : Bool)
  | syncAbsent (v : Bool)
  deriving DecidableEq, Repr

/-- The hand-offs that one block has handed and another has not yet taken, oldest first in each list. -/
structure Transit where
  engine : List EngineMsg
  disables : List Subject
  namings : List (List Subject)
  reports : List WindowReport
  aborts : List Subject
  orders : List (Subject × VerdictOrder)
  exams : List Group
  clearings : List (Group × Clearing)
  copies : List CopyReq
  filings : List Filing
  raises : List NoticeClass
  changes : List Change
  deriving DecidableEq, Repr

/-! ### Reset values of the blocks -/

/-- The qualifier after a reset of its own (R4) and after every reset of the block (R23). -/
def Qualifier.reset : Qualifier := { level := none, runCount := 0, runStart := 0, edges := [] }

/-- R23. -/
def Tracker.reset : Tracker :=
  { state := .search, position := 1, remembered := none, searchStart := none, warmUp := 0, misses := 0, grid := none,
    cycle := 0, spurious := 0, missed := 0, losses := 0, rotations := 0 }

/-- A row of codes 0 and clear marks (R34). -/
def Row.zero : Row :=
  { cur := ⟨⟨⟨0, false⟩, ⟨0, false⟩⟩, ⟨⟨0, false⟩, ⟨0, false⟩⟩, ⟨⟨0, false⟩, ⟨0, false⟩⟩, ⟨⟨0, false⟩, ⟨0, false⟩⟩⟩
    vb := ⟨0, false⟩ }

/-- R34. -/
def FrontEnd.reset : FrontEnd :=
  { conversion := none, assembly := { cycle := none, rows := [] },
    buffer := { valid := false, cycle := 0, rows := List.replicate 96 Row.zero } }

/-- R36, with the window length of the start-up load. -/
def Engine.reset (w : Nat) : Engine :=
  { w := w, pendingW := none, running := false, windowNumber := 0, firstCycle := 0, completed := 0, sampleCount := 0,
    holdover := false, participants := [], justEnded := false }

/-- R84, R85: DISABLED, with a loaded or default profile and none pending. -/
def SubjectEntry.reset (p : Profile) : SubjectEntry := { state := .disabled, active := p, pendingProfile := none }

def tableReset (ps : PerSubject Profile) : PerSubject SubjectEntry := .ofFn fun i => .reset (ps.get i)

/-- R89. -/
def VerdictEntry.reset : VerdictEntry :=
  { enabled := false, counter := 0, condition := .healthy, results := none, last := .none, judged := 0, exceeded := 0 }

def verdictsReset : PerSubject VerdictEntry := ⟨.reset, .reset, .reset, .reset, .reset⟩

/-- R123. -/
def GapGroup.reset : GapGroup :=
  { counters := ⟨⟨0, 0, 0, 0, 0, 0⟩, ⟨0, 0, 0, 0, 0, 0⟩⟩
    latches := ⟨⟨false, false, false, false, false, false⟩, ⟨false, false, false, false, false, false⟩⟩ }

def CycleInHand.empty : CycleInHand := { cycle := none, rows := [] }

/-- R123. -/
def GapDetector.reset : GapDetector :=
  { groups := ⟨.reset, .reset, .reset, .reset⟩, inHand := .empty, ended := .empty }

/-- R154. -/
def CaptureStore.powerReset : CaptureStore :=
  { entries := [], counter := 1, cursor := 0, firstMark := none, lastMark := none, drops := 0 }

/-- R155. -/
def CaptureStore.keepReset (st : CaptureStore) : CaptureStore :=
  { st with cursor := 0, firstMark := none, lastMark := none }

def NoticeLatch.clear : NoticeLatch := { latch := false, count := 0 }

/-- R178, with the settings of the start-up load. -/
def NoticeUnit.reset (n : NoticeSettings) : NoticeUnit :=
  { latches := .ofFn fun _ => .clear, settings := n, attn := false }

/-- R167. -/
def LineRun.reset : LineRun := { source := false, phase := .idle, timer := none, pin := .highZ }

/-- The indications at every reset: HEALTHY, no gap, sync absent (R167). -/
def Indications.reset : Indications :=
  { conditions := ⟨.healthy, .healthy, .healthy, .healthy, .healthy⟩, gapAny := ⟨false, false, false, false⟩,
    syncAbsent := true }

/-- R167, with the settings of the start-up load. -/
def AlarmDriver.reset (ls : PerLine LineSettings) : AlarmDriver :=
  { settings := ls, run := ⟨.reset, .reset, .reset, .reset⟩, seen := .reset }

/-- R203; the straps as last read. -/
def Link.reset (address : BitVec 4) (fast : Bool) : Link :=
  { state := .off, address := address, fast := fast, requests := 0, framing := 0, checks := 0, cancels := 0, huntFrom := 0 }

/-- No hand-off is in flight (R89, R123, R155, R178: what is in flight at a reset is lost). -/
def Transit.empty : Transit :=
  { engine := [], disables := [], namings := [], reports := [], aborts := [], orders := [], exams := [], clearings := [],
    copies := [], filings := [], raises := [], changes := [] }

/-- An image that nothing has been saved to: no valid mark (DESIGN CHOICE, log entry 11). -/
def Image.unwritten : Image := { contents := .default, check := 0, mark := false }

end Sys2Proof.Machine
end

