-- ==== Sys2Proof/Machine/State.lean ====
section
/-! DEFINITION. The state of the PZ-740, the reasons a step can stop, and the state right after reset. -/

namespace Sys2Proof.Machine

/-! ### The machine -/

/-- The reset in progress (its kind and the tick it began), start-up (the tick it began), or running (R211, R213). -/
inductive Phase
  | inReset (kind : Cause) (began : Nat)
  | startUp (began : Nat)
  | running
  deriving DecidableEq, Repr

/-- The machine. `sampled`: the tick of the qualifier's last sample since the last reset (R2; log entry 37). `supplyGood`: in a POWER
reset, the tick since which the supply has stayed above the detector's release level (R211, R227; log entry 24). -/
structure State where
  pending : List Instr
  now : Nat
  phase : Phase
  comparators : PerSource Bool
  sampled : Option Nat
  supplyGood : Option Nat
  qualifier : Qualifier
  sync : SyncSettings
  tracker : Tracker
  front : FrontEnd
  engine : Engine
  table : PerSubject SubjectEntry
  verdicts : PerSubject VerdictEntry
  gap : GapDetector
  store : CaptureStore
  notices : NoticeUnit
  lines : AlarmDriver
  link : Link
  settings : SettingsStore
  transit : Transit
  freeIndex : Nat
  deriving DecidableEq, Repr

/-- The reasons the block stops. There are none: the spec names no condition that stops the block, every request it does not
carry out is refused in a reply and the block goes on, and no row of the table ends in a fault (INVENTORY.md, Faults). -/
inductive Fault
  deriving DecidableEq, Repr

/-- Why a command has no meaning in this model. -/
inductive Refusal
  /-- Raised by `exec` for a row that has no meaning yet. Safe: the model stops. -/
  | notModelled (mnemonic : String)
  deriving DecidableEq, Repr

/-- The machine right after reset: a POWER reset has begun at tick 0 and every block holds the values its chapter gives for
it (log entry 4). RESET_END and END_OF_START_UP come next. -/
def State.reset : State :=
  { pending := [], now := 0, phase := .inReset .power 0, comparators := ⟨false, false, false⟩, sampled := none, supplyGood := none,
    qualifier := .reset,
    sync := .default, tracker := .reset, front := .reset, engine := .reset defaultWindow,
    table := tableReset defaultProfiles, verdicts := verdictsReset, gap := .reset, store := .powerReset,
    notices := .reset .default, lines := .reset defaultLines, link := .reset 0 false,
    settings :=
      { image := .unwritten, imageValid := false, saving := false, snapshot := none, lastSave := .none,
        source := .defaults, lastCause := .power, restartPending := false }
    transit := .empty, freeIndex := 0 }

end Sys2Proof.Machine
end

