-- ==== Sys2Proof/Machine/Ops.lean ====
section
/-! DEFINITION. Operations shared by the blocks: the timebase, handing things from block to block, the check value, whole
frames, and beginning a reset. -/

namespace Sys2Proof.Machine

/-! ### Timebase -/

/-- The timebase reaches tick `t`; it never goes back. -/
def State.reach (s : State) (t : Nat) : State := { s with now := max s.now t }

/-! ### Hand-offs -/

/-- Hand a class to the Notice Unit (R169). -/
def State.raise (s : State) (c : NoticeClass) : State :=
  { s with transit := { s.transit with raises := s.transit.raises ++ [c] } }

/-- Hand the Engine a message (R9, R44). -/
def State.tellEngine (s : State) (m : EngineMsg) : State :=
  { s with transit := { s.transit with engine := s.transit.engine ++ [m] } }

/-- Tell the Engine that a participant was disabled (R47). -/
def State.tellDisabled (s : State) (i : Subject) : State :=
  { s with transit := { s.transit with disables := s.transit.disables ++ [i] } }

/-- Hand the Verdict Unit an order (R105). -/
def State.order (s : State) (i : Subject) (o : VerdictOrder) : State :=
  { s with transit := { s.transit with orders := s.transit.orders ++ [(i, o)] } }

/-- Hand the Gap Detector a clearing (R120). -/
def State.orderClearing (s : State) (g : Group) (c : Clearing) : State :=
  { s with transit := { s.transit with clearings := s.transit.clearings ++ [(g, c)] } }

/-- Ask the Capture Store to file (R129). -/
def State.askFiling (s : State) (f : Filing) : State :=
  { s with transit := { s.transit with filings := s.transit.filings ++ [f] } }

/-- Ask the Front End for a copy (R32). -/
def State.askCopy (s : State) (r : CopyReq) : State :=
  { s with transit := { s.transit with copies := s.transit.copies ++ [r] } }

/-- Tell the Alarm Line Driver of a change (R157). -/
def State.tellChange (s : State) (c : Change) : State :=
  { s with transit := { s.transit with changes := s.transit.changes ++ [c] } }

/-- The first element that `p` holds of, and the list without it. -/
def takeFirst {α : Type} (p : α → Bool) : List α → Option (α × List α)
  | [] => none
  | x :: xs =>
    if p x then some (x, xs)
    else match takeFirst p xs with
      | none => none
      | some (y, rest) => some (y, x :: rest)

/-! ### Sources -/

/-- The source in effect (R1). -/
def State.sourceInEffect (s : State) : Source := s.sync.sourceAt s.tracker.position

/-- The offset in effect (R19). -/
def State.offsetInEffect (s : State) : Nat := s.sync.offsets.get s.sourceInEffect

/-! ### The check value (R185) -/

/-- One bit into the register, compared with its most significant bit. -/
def crcBit (r : Word16) (bit : Bool) : Word16 :=
  if r.msb = bit then r <<< 1 else (r <<< 1) ^^^ 0x1021#16

/-- One byte into the register, most significant bit first. -/
def crcByte (r : Word16) (b : Byte) : Word16 :=
  [7, 6, 5, 4, 3, 2, 1, 0].foldl (fun r i => crcBit r (b.getLsbD i)) r

/-- The check value of a run of bytes. -/
def crc16 (bytes : List Byte) : Word16 := bytes.foldl crcByte 0xFFFF#16

/-- The start byte of a frame. -/
def startByte : Byte := 0xC5

/-- A whole frame: start byte, address, tag, kind, length, body, check value low byte first (chapter 11.1). -/
def frameBytes (address tag kind : Byte) (body : List Byte) : List Byte :=
  let payload := address :: tag :: kind :: b8 body.length :: body
  startByte :: payload ++ le16 (crc16 payload).toNat

/-- What an owner answers to a request (R192). -/
inductive Answer
  | accept (body : List Byte)
  | refuse (code : RefusalCode) (detail : Nat)
  deriving DecidableEq, Repr

/-- The reply frame to a request of kind `kind` with tag `tag` (R197, R198). -/
def replyBytes (address : BitVec 4) (tag kind : Byte) : Answer → List Byte
  | .accept body => frameBytes (address.setWidth 8) tag (kind + 0x80) body
  | .refuse code detail => frameBytes (address.setWidth 8) tag 0x7F [kind, code.code, b8 detail]

/-- The receiver opens at tick `t`, out of OFF or SEND: the controller hunts, and takes no character that ended before (R196, R215; log
entry 42). -/
def State.huntAt (s : State) (t : Nat) : State := { s with link := { s.link with state := .hunt, huntFrom := t } }

/-! ### Beginning a reset (R211, R212) -/

/-- What a reset leaves in the image: a save cut short leaves it without its valid mark and with contents nobody knows
(R206, R210). -/
def SettingsStore.imageAfterReset (st : SettingsStore) (free : Nat) : Image :=
  if st.saving then { contents := Config.partImage free, check := Config.partCheck free, mark := false } else st.image

/-- A reset of kind `c` begins at the present tick: every block takes its reset values (R212); only the Capture Store, the
last reset cause and the image depend on what was before. -/
def State.beginReset (s : State) (c : Cause) : State :=
  { pending := s.pending
    now := s.now
    phase := .inReset c s.now
    comparators := s.comparators
    sampled := none
    supplyGood := none
    qualifier := .reset
    sync := .default
    tracker := .reset
    front := .reset
    engine := .reset defaultWindow
    table := tableReset defaultProfiles
    verdicts := verdictsReset
    gap := .reset
    store := match c with
      | .power => .powerReset
      | .pin | .request => s.store.keepReset
    notices := .reset .default
    lines := .reset defaultLines
    link := .reset s.link.address s.link.fast
    settings :=
      { image := s.settings.imageAfterReset s.freeIndex
        imageValid := false
        saving := false
        snapshot := none
        lastSave := .none
        source := .defaults
        lastCause := if s.phase = .running then c else c.further s.settings.lastCause
        restartPending := false }
    transit := .empty
    freeIndex := if s.settings.saving then s.freeIndex + 1 else s.freeIndex }

end Sys2Proof.Machine
end

