-- ==== Sys2Proof/Machine/Flags.lean ====
section
/-! DEFINITION. Indications and derived pins: ATTN, any-notice, gap-any, sync-absent, line sources and levels, DE, TXD. -/

namespace Sys2Proof.Machine

/-- A group's gap-any indication (R107). -/
def GapGroup.gapAny (g : GapGroup) : Bool :=
  g.latches.a.toList.any id || g.latches.b.toList.any id

/-- A class can pull ATTN: latch set, enable on, level at or above the floor (R171). -/
def NoticeUnit.pulls (n : NoticeUnit) (c : NoticeClass) : Bool :=
  (n.latches.get c).latch && n.settings.enable.get c && decide (n.settings.floor ≤ n.settings.level.get c)

/-- The condition under which ATTN is pulled low (R171). -/
def NoticeUnit.wantsAttn (n : NoticeUnit) : Bool :=
  n.settings.master && NoticeClass.all.any n.pulls

/-- ATTN evaluated (R171). -/
def NoticeUnit.evaluate (n : NoticeUnit) : NoticeUnit := { n with attn := n.wantsAttn }

/-- A class a clearing FETCH-NOTICES would return: latch set and enable on (R173). -/
def NoticeUnit.returned (n : NoticeUnit) (c : NoticeClass) : Bool :=
  (n.latches.get c).latch && n.settings.enable.get c

/-- The any-notice flag (R177). -/
def NoticeUnit.anyNotice (n : NoticeUnit) : Bool := NoticeClass.all.any n.returned

/-- The items of a line, in the order of READ-LINES (R166): five subjects, four gaps, sync-absent; an item not selected is
false. -/
def lineItems (l : LineSettings) (x : Indications) : List Bool :=
  Subject.all.map (fun i => (l.subjects.get i).itemTrue (x.conditions.get i))
    ++ Group.all.map (fun g => l.gaps.get g && x.gapAny.get g)
    ++ [l.syncAbsent && x.syncAbsent]

/-- A line's source: true while a selected item is true (R157). -/
def lineSource (l : LineSettings) (x : Indications) : Bool := (lineItems l x).any id

/-- The electrical level of a pin (R162): driven high, driven low, or not driven. -/
def pinLevel (activeHigh : Bool) : Pin → Option Bool
  | .active => some activeHigh
  | .inactive => some (!activeHigh)
  | .highZ => none

/-- The level of an alarm line's pin (R162). -/
def State.almLevel (s : State) (l : LineId) : Option Bool :=
  pinLevel (s.lines.settings.get l).activeHigh (s.lines.run.get l).pin

/-- DE is high in SEND and low otherwise (R227). -/
def State.de (s : State) : Bool :=
  match s.link.state with
  | .send _ _ => true
  | .off | .hunt | .receive _ _ _ | .turnaround _ _ => false

/-- Bits per second of the line (R179). -/
def Link.baud (k : Link) : Nat := if k.fast then 115200 else 38400

/-- The ticks that `n` characters of ten bits take, back to back (R179, R196). At neither speed is a character a whole number of ticks
(2604.17 or 868.06) and the spec names no rounding: the end of the last stop bit is rounded up to a whole tick, once for all `n`,
which is the model's choice (log entry 36). It dates the reply's end and with it the REQUEST reset. -/
def Link.charTicks (k : Link) (n : Nat) : Nat := (n * 100000000 + k.baud - 1) / k.baud

/-- Bit `k` of a character of ten bits (R179): the start bit at the space level, the eight data bits with the least significant first, the
stop bit at the mark level. True is the mark. -/
def charBit (b : Byte) (k : Nat) : Bool := if k = 0 then false else if k ≤ 8 then b.getLsbD (k - 1) else true

/-- The level of TXD at the present tick (R179, R196, R227): in SEND the bits of the reply's characters, back to back, and the mark after
the last of them; the mark in every other state. True is the mark. -/
def State.txd (s : State) : Bool :=
  match s.link.state with
  | .send reply start =>
    let k := (s.now - start) * s.link.baud / 10000000
    match reply[k / 10]? with
    | some b => charBit b (k % 10)
    | none => true
  | .off | .hunt | .receive _ _ _ | .turnaround _ _ => true

/-- The count of reply characters sent by the present tick, in SEND (R180). -/
def State.charsSent (s : State) : Nat :=
  match s.link.state with
  | .send reply start => min reply.length ((s.now - start) * s.link.baud / 100000000)
  | .off | .hunt | .receive _ _ _ | .turnaround _ _ => 0

end Sys2Proof.Machine
end

