-- ==== Sys2Proof/Machine/Operands.lean ====
section
/-! DEFINITION. The bodies of requests: reading fields, the walks of SET-SYNC and SET-PROFILE, the field checks of SET-LINES and
SET-NOTICES, the same checks on settings held as data, and the bytes of settings in replies. -/

namespace Sys2Proof.Machine

/-- The result of walking a body: a value, or the refusal at the first field that fails, with its detail (R75, R189). -/
abbrev Walk (α : Type) := Except (RefusalCode × Nat) α

/-- The byte at an offset; beyond the end: LENGTH at the offset (R75). -/
def needByte (body : List Byte) (off : Nat) : Walk Nat :=
  match body[off]? with
  | some b => .ok b.toNat
  | none => .error (.length, off)

/-- The two bytes at an offset, low byte first; any of them beyond the end: LENGTH at the first (R75). -/
def need16 (body : List Byte) (off : Nat) : Walk Nat :=
  match body[off]?, body[off + 1]? with
  | some lo, some hi => .ok (lo.toNat + 256 * hi.toNat)
  | _, _ => .error (.length, off)

/-- Go on when `p` holds; otherwise ARGUMENT at the offset. -/
def demand (p : Bool) (off : Nat) : Walk Unit := if p then .ok () else .error (.argument, off)

/-- The byte at an offset, in a range (else ARGUMENT). -/
def byteIn (body : List Byte) (off lo hi : Nat) : Walk Nat := do
  let x ← needByte body off
  demand (decide (lo ≤ x) && decide (x ≤ hi)) off
  return x

/-- The two-byte field at an offset, in a range (else ARGUMENT). -/
def wordIn (body : List Byte) (off lo hi : Nat) : Walk Nat := do
  let x ← need16 body off
  demand (decide (lo ≤ x) && decide (x ≤ hi)) off
  return x

/-- A flag byte: 0 or 1. -/
def flagAt (body : List Byte) (off : Nat) : Walk Bool := do
  let x ← byteIn body off 0 1
  return x == 1

/-- Nothing may follow offset `off` (R75, R189): LENGTH at the first surplus byte. -/
def endAt (body : List Byte) (off : Nat) : Walk Unit :=
  if off < body.length then .error (.length, off) else .ok ()

/-- Four bytes at an offset, low byte first; the length has been checked (R189). -/
def u32At (body : List Byte) (off : Nat) : Nat :=
  (body.getD off 0).toNat + 256 * (body.getD (off + 1) 0).toNat + 65536 * (body.getD (off + 2) 0).toNat
    + 16777216 * (body.getD (off + 3) 0).toNat

/-- One byte at an offset; the length has been checked (R189). -/
def u8At (body : List Byte) (off : Nat) : Nat := (body.getD off 0).toNat

/-! ### SET-SYNC (R21, R189) -/

/-- `n` sources from an offset, none of them in `seen` and none twice. -/
def walkSources (body : List Byte) : Nat → Nat → List Source → Walk (List Source)
  | 0, _, _ => .ok []
  | n + 1, off, seen => do
    let x ← needByte body off
    match Source.ofNumber? x with
    | none => .error (.argument, off)
    | some src =>
      demand (!seen.contains src) off
      let rest ← walkSources body n (off + 1) (src :: seen)
      return src :: rest

/-- The depths a qualifier may have, and the window lengths (R1, R49): 2, 4, 8, 16. -/
def powerLength (n : Nat) : Bool := n == 2 || n == 4 || n == 8 || n == 16

def walkSync (body : List Byte) : Walk SyncSettings := do
  let n ← byteIn body 0 1 3
  let list ← walkSources body n 1 []
  let a ← byteIn body (n + 1) 0 95
  let b ← byteIn body (n + 2) 0 95
  let c ← byteIn body (n + 3) 0 95
  let p ← byteIn body (n + 4) 0 1
  let q ← needByte body (n + 5)
  demand (powerLength q) (n + 5)
  let w ← byteIn body (n + 6) 4 64
  endAt body (n + 7)
  return { list := list, offsets := ⟨a, b, c⟩, polarity := if p = 0 then .rising else .falling, depth := q,
           warmUpTarget := w }

/-! ### SET-PROFILE (R75, R76, R223) -/

/-- `n` orders from an offset, each 1 to 47 and above the one before. -/
def walkOrders (body : List Byte) : Nat → Nat → Nat → Walk (List Nat)
  | 0, _, _ => .ok []
  | n + 1, off, before => do
    let h ← byteIn body off 1 47
    demand (decide (before < h)) off
    let rest ← walkOrders body n (off + 1) h
    return h :: rest

/-- A view's reference, order count and orders; also the offset after them. -/
def walkView (body : List Byte) (off : Nat) : Walk (ViewSettings × Nat) := do
  let r ← wordIn body off 1 32767
  let n ← byteIn body (off + 2) 0 12
  let orders ← walkOrders body n (off + 3) 0
  return ({ reference := r, orders := orders }, off + 3 + n)

/-- A group's gap part (R72); it is seven bytes long. -/
def walkGap (body : List Byte) (off : Nat) : Walk GapPart := do
  let e ← flagAt body off
  let a ← byteIn body (off + 1) 0 95
  let b ← byteIn body (off + 2) 0 95
  let p ← byteIn body (off + 3) 10 90
  let c ← byteIn body (off + 4) 2 15
  let f ← wordIn body (off + 5) 0 32767
  return { enable := e, offsets := ⟨a, b⟩, percent := p, cycles := c, floor := f }

/-- The settings of a view among a subject's views. -/
def findView (views : List (View × ViewSettings)) (vw : View) : Option ViewSettings :=
  (views.find? fun x => x.1 == vw).map (·.2)

/-- A quantity stands in the order list of its view; RIPPLE always does (R76). -/
def quantityListed (vs : ViewSettings) : Quantity → Bool
  | .ripple => true
  | .order h => vs.orders.contains h

/-- An entry names the same view and quantity (R76). -/
def sameEntry (vw : View) (q : Quantity) (e : LimitEntry) : Bool := e.view == vw && e.quantity == q

/-- `n` limit entries from an offset, for the given views, none repeating one in `earlier`. -/
def walkLimits (body : List Byte) (views : List (View × ViewSettings)) :
    Nat → Nat → List LimitEntry → Walk (List LimitEntry)
  | 0, _, _ => .ok []
  | n + 1, off, earlier => do
    let vb ← needByte body off
    match (View.ofNumber? vb).bind (fun vw => (findView views vw).map fun vs => (vw, vs)) with
    | none => .error (.argument, off)
    | some (vw, vs) =>
      let qb ← needByte body (off + 1)
      match Quantity.ofNumber? qb with
      | none => .error (.argument, off + 1)
      | some q =>
        demand (quantityListed vs q && !earlier.any (sameEntry vw q)) (off + 1)
        let limit ← wordIn body (off + 2) 1 65535
        let step ← byteIn body (off + 4) 1 3
        let e : LimitEntry := { view := vw, quantity := q, limit := limit, step := step }
        let rest ← walkLimits body views n (off + 5) (earlier ++ [e])
        return e :: rest

/-- The views and gap part that follow the first six bytes, by the subject; also the offset after them. -/
def walkBody (body : List Byte) (i : Subject) : Walk (ProfileBody × Nat) :=
  match i.group? with
  | none => do
    let (v, off) ← walkView body 6
    return (.bus v, off)
  | some _ => do
    let (a, off) ← walkView body 6
    let (b, off) ← walkView body off
    let (s, off) ← walkView body off
    let g ← walkGap body off
    return (.group a b s g, off + 7)

/-- The whole walk of a SET-PROFILE body (R75). -/
def walkProfile (body : List Byte) : Walk (Subject × Profile) := do
  let n ← needByte body 0
  match Subject.ofNumber? n with
  | none => .error (.argument, 0)
  | some i =>
    let e ← flagAt body 1
    let w ← flagAt body 2
    let t ← byteIn body 3 1 15
    let f ← wordIn body 4 0 32767
    let (pb, off) ← walkBody body i
    let p : Profile := { enabledAtStart := e, waveOnExceed := w, threshold := t, floor := f, body := pb, limits := [] }
    let k ← byteIn body off 0 16
    let limits ← walkLimits body p.views k (off + 1) []
    endAt body (off + 1 + 5 * k)
    return (i, { p with limits := limits })

/-! ### SET-LINES and SET-NOTICES (R163, R164, R175, R176) -/

/-- The first field of a body outside its range, by offset. -/
def firstBad : List (Nat × Nat) → List Byte → Nat → Option Nat
  | r :: rs, b :: bs, off =>
    if r.1 ≤ b.toNat ∧ b.toNat ≤ r.2 then firstBad rs bs (off + 1) else some off
  | _, _, _ => none

/-- The ranges of one line's eleven bytes (R163). -/
def lineRanges : List (Nat × Nat) :=
  [(0, 2), (0, 2), (0, 2), (0, 2), (0, 2), (0, 15), (0, 1), (0, 1), (0, 1), (1, 255), (1, 255)]

/-- The ranges of the SET-LINES body. -/
def linesRanges : List (Nat × Nat) := lineRanges ++ lineRanges ++ lineRanges ++ lineRanges

/-- The ranges of one class's two bytes (R175). -/
def classRanges : List (Nat × Nat) := [(0, 1), (0, 3)]

/-- The ranges of the SET-NOTICES body. -/
def noticeRanges : List (Nat × Nat) := (List.replicate 12 classRanges).flatten ++ [(0, 3), (0, 1)]

/-- The settings of the line whose bytes start at an offset (R163). -/
def lineAt (body : List Byte) (off : Nat) : LineSettings :=
  let sel (k : Nat) : Selection := .ofNumber (u8At body (off + k))
  let gap (k : Nat) : Bool := (body.getD (off + 5) 0).getLsbD k
  { subjects := ⟨sel 0, sel 1, sel 2, sel 3, sel 4⟩
    gaps := ⟨gap 0, gap 1, gap 2, gap 3⟩
    syncAbsent := u8At body (off + 6) == 1
    pulsed := u8At body (off + 7) == 1
    activeHigh := u8At body (off + 8) == 1
    onTime := u8At body (off + 9)
    offTime := u8At body (off + 10) }

/-- The settings a SET-LINES body carries. -/
def linesOf (body : List Byte) : PerLine LineSettings := ⟨lineAt body 0, lineAt body 11, lineAt body 22, lineAt body 33⟩

/-- The settings a SET-NOTICES body carries (R175). -/
def noticesOf (body : List Byte) : NoticeSettings :=
  { enable := .ofFn fun c => u8At body (2 * c.number) == 1
    level := .ofFn fun c => u8At body (2 * c.number + 1)
    floor := u8At body 24
    master := u8At body 25 == 1 }

/-! ### The same checks on settings held as data (R65, R214) -/

/-- The checks of SET-SYNC (R21). -/
def syncOk (y : SyncSettings) : Bool :=
  decide (1 ≤ y.list.length) && decide (y.list.length ≤ 3) && decide y.list.Nodup
    && decide (y.offsets.sya ≤ 95) && decide (y.offsets.syb ≤ 95) && decide (y.offsets.syc ≤ 95)
    && powerLength y.depth && decide (4 ≤ y.warmUpTarget) && decide (y.warmUpTarget ≤ 64)

/-- Orders 1 to 47, strictly ascending, above `before`. -/
def ordersOk : Nat → List Nat → Bool
  | _, [] => true
  | before, h :: rest => decide (before < h) && decide (1 ≤ h) && decide (h ≤ 47) && ordersOk h rest

def viewOk (v : ViewSettings) : Bool :=
  decide (1 ≤ v.reference) && decide (v.reference ≤ 32767) && decide (v.orders.length ≤ 12) && ordersOk 0 v.orders

def gapOk (g : GapPart) : Bool :=
  decide (g.offsets.a ≤ 95) && decide (g.offsets.b ≤ 95) && decide (10 ≤ g.percent) && decide (g.percent ≤ 90)
    && decide (2 ≤ g.cycles) && decide (g.cycles ≤ 15) && decide (g.floor ≤ 32767)

/-- Limit entries for the given views, none repeating one in `earlier`. -/
def limitsOk (views : List (View × ViewSettings)) : List LimitEntry → List LimitEntry → Bool
  | _, [] => true
  | earlier, e :: rest =>
    (match findView views e.view with
      | none => false
      | some vs => quantityListed vs e.quantity)
    && (match e.quantity with
      | .ripple => true
      | .order h => decide (1 ≤ h) && decide (h ≤ 47))
    && !earlier.any (sameEntry e.view e.quantity)
    && decide (1 ≤ e.limit) && decide (e.limit ≤ 65535) && decide (1 ≤ e.step) && decide (e.step ≤ 3)
    && limitsOk views (earlier ++ [e]) rest

/-- The kind of profile a subject holds (R65): a group profile for a group, a bus profile for BUS. -/
def bodyOk (i : Subject) : ProfileBody → Bool
  | .group a b s g => i.group?.isSome && viewOk a && viewOk b && viewOk s && gapOk g
  | .bus v => i.group?.isNone && viewOk v

/-- The checks of SET-PROFILE for a subject (R76). -/
def profileOk (i : Subject) (p : Profile) : Bool :=
  decide (1 ≤ p.threshold) && decide (p.threshold ≤ 15) && decide (p.floor ≤ 32767) && bodyOk i p.body
    && decide (p.limits.length ≤ 16) && limitsOk p.views [] p.limits

/-- The checks of SET-NOTICES (R176). -/
def noticesOk (n : NoticeSettings) : Bool :=
  NoticeClass.all.all (fun c => decide (n.level.get c ≤ 3)) && decide (n.floor ≤ 3)

/-- The checks of SET-LINES on one line (R164). -/
def lineOk (l : LineSettings) : Bool :=
  decide (1 ≤ l.onTime) && decide (l.onTime ≤ 255) && decide (1 ≤ l.offTime) && decide (l.offTime ≤ 255)

def linesOk (ls : PerLine LineSettings) : Bool := LineId.all.all fun l => lineOk (ls.get l)

/-- Every part of the contents passes the checks its request applies (R214, step 3). -/
def contentsOk (c : WorkingSettings) : Bool :=
  syncOk c.sync && powerLength c.window && Subject.all.all (fun i => profileOk i (c.profiles.get i))
    && noticesOk c.notices && linesOk c.lines

/-! ### Settings in replies (R22, R81, R166) -/

/-- The sync settings as READ-SYNC reports them, which is the SET-SYNC layout. -/
def syncBytes (y : SyncSettings) : List Byte :=
  b8 y.list.length :: y.list.map Source.code
    ++ [b8 y.offsets.sya, b8 y.offsets.syb, b8 y.offsets.syc, y.polarity.code, b8 y.depth, b8 y.warmUpTarget]

def viewBytes (v : ViewSettings) : List Byte := le16 v.reference ++ b8 v.orders.length :: v.orders.map b8

def gapBytes (g : GapPart) : List Byte :=
  [flagByte g.enable, b8 g.offsets.a, b8 g.offsets.b, b8 g.percent, b8 g.cycles] ++ le16 g.floor

def limitBytes (e : LimitEntry) : List Byte := [e.view.code, e.quantity.code] ++ le16 e.limit ++ [b8 e.step]

def profileBodyBytes : ProfileBody → List Byte
  | .group a b s g => viewBytes a ++ viewBytes b ++ viewBytes s ++ gapBytes g
  | .bus v => viewBytes v

/-- A profile in the layout of R223 from offset 1 on. -/
def profileBytes (p : Profile) : List Byte :=
  [flagByte p.enabledAtStart, flagByte p.waveOnExceed, b8 p.threshold] ++ le16 p.floor ++ profileBodyBytes p.body
    ++ b8 p.limits.length :: p.limits.flatMap limitBytes

/-- The eleven setting bytes of a line (R163). -/
def lineBytes (l : LineSettings) : List Byte :=
  Subject.all.map (fun i => (l.subjects.get i).code)
    ++ [b8 ((if l.gaps.g0 then 1 else 0) + (if l.gaps.g1 then 2 else 0) + (if l.gaps.g2 then 4 else 0)
        + (if l.gaps.g3 then 8 else 0)), flagByte l.syncAbsent, flagByte l.pulsed, flagByte l.activeHigh, b8 l.onTime,
      b8 l.offTime]

end Sys2Proof.Machine
end

