-- ==== Sys2Proof/Machine/Gap.lean ====
section
/-! DEFINITION. The Gap Detector (chapter 6): examination of a group at a cycle end, clearings, CLEAR-GAP. -/

namespace Sys2Proof.Machine

/-! ### What is examined (R109) -/

/-- The gap part by which a group is examined now; none when it is not examined (R109). -/
def State.examines (s : State) (g : Group) : Option GapPart :=
  let e := s.table.get g.subject
  match e.active.gap? with
  | none => none
  | some p =>
    if e.state ≠ .disabled ∧ (s.tracker.state = .locked ∨ s.tracker.state = .holdover) ∧ p.enable = true then some p
    else none

/-! ### Sectors and sums (R111, R113 to R115) -/

/-- The sector base of a bridge (R111). -/
def sectorBase (bridge inEffect : Nat) : Nat := (bridge + inEffect) % 96

/-- The readings of a bridge over a cycle. -/
def bridgeReadings (rows : List HandRow) (g : Group) (d : Side) : List Reading := rows.map fun r => (r.get g).get d

/-- The sum of sector `j` at base `o` (R111, R113). -/
def sectorSum (xs : List Reading) (o j : Nat) : Int :=
  ((List.range 16).map fun i => (xs.getD ((o + 16 * j + i) % 96) default).code).sum

/-- The cycle sum (R113). -/
def cycleSum (xs : List Reading) : Int := (xs.map (·.code)).sum

/-- The bridge is judged: no code clipped, and the cycle sum at least 96 times the gap floor (R114). -/
def isJudged (xs : List Reading) (floor : Nat) : Bool :=
  !xs.any (·.clip) && decide ((96 * floor : Nat) ≤ cycleSum xs)

/-- A sector is short (R115). -/
def isShort (sector cycle : Int) (percent : Nat) : Bool := decide (600 * sector < (percent : Int) * cycle)

/-! ### Counters and declarations (R116, R117) -/

/-- A sector counter after a judged cycle (R116). -/
def countSector (counter : Nat) (short : Bool) (cycles : Nat) : Nat := if short then min cycles (counter + 1) else 0

/-- The six counters of a bridge after an examination (R116). -/
def countersAfter (xs : List Reading) (o : Nat) (p : GapPart) (counters : PerSector Nat) : PerSector Nat :=
  if isJudged xs p.floor then
    .ofFn fun j => countSector (counters.get j) (isShort (sectorSum xs o j) (cycleSum xs) p.percent) p.cycles
  else counters

/-- The sectors declared: counter at gap cycles, latch clear (R117). -/
def declaredMap (counters : PerSector Nat) (latches : PerSector Bool) (cycles : Nat) : PerSector Bool :=
  .ofFn fun j => decide (counters.get j = cycles) && !latches.get j

/-- The latch map after a declaration (R117). -/
def latchDeclared (latches declared : PerSector Bool) : PerSector Bool := .ofFn fun j => latches.get j || declared.get j

/-- The sector numbers set in a map, ascending. -/
def sectorList (p : PerSector Bool) : List Nat := ((List.finRange 6).filter fun j => p.get j).map (·.val)

/-- What an examination of a bridge leaves: its counters, latches and declared sectors, with its base. -/
structure BridgeExam where
  base : Nat
  counters : PerSector Nat
  latches : PerSector Bool
  declared : PerSector Bool
  deriving DecidableEq, Repr

/-- The examination of one bridge (R111 to R117). -/
def examineBridge (xs : List Reading) (offset : Nat) (p : GapPart) (counters : PerSector Nat)
    (latches : PerSector Bool) : BridgeExam :=
  let counters' := countersAfter xs offset p counters
  let declared := declaredMap counters' latches p.cycles
  { base := offset, counters := counters', latches := latchDeclared latches declared, declared := declared }

/-- A bridge's part of a GAP record (R117). -/
def BridgeExam.part (x : BridgeExam) : GapSide :=
  { base := x.base, declared := sectorList x.declared, latches := x.latches }

/-- A group's counters and latches replaced; a change of gap-any goes to the Alarm Line Driver (R119). -/
def State.setGapGroup (s : State) (g : Group) (x : GapGroup) : State :=
  let before := (s.gap.groups.get g).gapAny
  let s := { s with gap := { s.gap with groups := s.gap.groups.set g x } }
  if x.gapAny = before then s else s.tellChange (.gapAny g x.gapAny)

/-- The examination of both bridges of a group by a gap part (R111 to R118). The GAP filing goes by way of a copy of the examined
cycle; `ended` carries its number (log entry 28). -/
def State.examine (s : State) (g : Group) (p : GapPart) : State :=
  let before := s.gap.groups.get g
  let rows := s.gap.ended.rows
  let stamp := s.gap.ended.cycle.getD 0
  let exam (d : Side) : BridgeExam :=
    examineBridge (bridgeReadings rows g d) (sectorBase (p.offsets.get d) s.offsetInEffect) p (before.counters.get d)
      (before.latches.get d)
  let a := exam .a
  let b := exam .b
  let s := s.setGapGroup g { counters := ⟨a.counters, b.counters⟩, latches := ⟨a.latches, b.latches⟩ }
  if a.declared.toList.any id || b.declared.toList.any id then
    (s.askCopy { cycle := stamp, filing := .gap g stamp ⟨a.part, b.part⟩ none }).raise .gap
  else s

/-- A clearing for the group is in flight: an activation, a DISABLE or LOAD-DEFAULTS has been taken at the Subject Table, and the
detector has not yet set the group's counters to 0 (R110, R120). -/
def Transit.clears (x : Transit) (g : Group) : Bool := x.clearings.any fun c => c.1 == g

/-- GAP_EXAMINATION (R109): the cycle end for a group. In each row of R110 the event's clearing and the new gap part go together, so a
cycle end taken after the event waits for the clearing (log entry 38). -/
def execGapExamination (g : Group) (s : State) : Host.Outcome State Fault Refusal :=
  match takeFirst (fun x => x == g) s.transit.exams with
  | none => .next s
  | some (_, rest) =>
    if s.transit.clears g then .next s
    else
      let s := { s with transit := { s.transit with exams := rest } }
      match s.examines g with
      | none => .next s
      | some p => .next (s.examine g p)

/-! ### Clearing (R120, R121) -/

/-- The group after a clearing (R120). -/
def GapGroup.cleared (x : GapGroup) (c : Clearing) : GapGroup :=
  match c with
  | .disable => { GapGroup.reset with latches := x.latches }
  | .activation => { GapGroup.reset with latches := x.latches }
  | .loadDefaults => .reset

/-- DETECTOR_CLEARING_EVENT (R120): the oldest clearing for a group. -/
def execDetectorClearingEvent (g : Group) (s : State) : Host.Outcome State Fault Refusal :=
  match takeFirst (fun x => x.1 == g) s.transit.clearings with
  | none => .next s
  | some (x, rest) =>
    let s := { s with transit := { s.transit with clearings := rest } }
    .next (s.setGapGroup g ((s.gap.groups.get g).cleared x.2))

/-- A bridge's latch map and counters in the CLEAR-GAP reply (R121; log entry 22). -/
def bridgeBytes (x : GapGroup) (d : Side) : List Byte :=
  sectorByte (x.latches.get d) :: (x.counters.get d).toList.map b8

/-- The owner of CLEAR-GAP (R121). -/
def ownClearGap (body : List Byte) (s : State) : Answer × State :=
  match Group.ofNumber? (u8At body 0) with
  | none => (.refuse .argument 0, s)
  | some g =>
    let x := s.gap.groups.get g
    (.accept (b8 g.number :: bridgeBytes x .a ++ bridgeBytes x .b), s.setGapGroup g .reset)

end Sys2Proof.Machine
end

