-- ==== Sys2Proof/Machine/Lines.lean ====
section
/-! DEFINITION. The Alarm Line Driver (chapter 8): indications, steady and pulsed lines, SET-LINES, READ-LINES. -/

namespace Sys2Proof.Machine

/-- The ticks of `n` units of 10 ms (R160). -/
def pulseTicks (n : Nat) : Nat := n * 100000

/-- A line set from a source state at tick `t` (R159, R160, R165, R167): in STEADY mode the pin follows the source; in PULSED
mode a true source begins a new ON phase. -/
def LineRun.start (l : LineSettings) (source : Bool) (t : Nat) : LineRun :=
  if source && l.pulsed then
    { source := true, phase := .on, timer := some (t + pulseTicks l.onTime), pin := .active }
  else { source := source, phase := .idle, timer := none, pin := if source then .active else .inactive }

/-- A line after its source is evaluated afresh: unchanged when the source stays as it was (R157). -/
def LineRun.follow (r : LineRun) (l : LineSettings) (source : Bool) (t : Nat) : LineRun :=
  if source = r.source then r else .start l source t

/-! ### Indication changes (R157, R158) -/

/-- The item a change is of. -/
def Change.item : Change → Item
  | .condition i _ => .condition i
  | .gapAny g _ => .gapAny g
  | .syncAbsent _ => .syncAbsent

/-- The indications after a change. -/
def Indications.take (x : Indications) : Change → Indications
  | .condition i c => { x with conditions := x.conditions.set i c }
  | .gapAny g b => { x with gapAny := x.gapAny.set g b }
  | .syncAbsent b => { x with syncAbsent := b }

/-- Every line evaluated afresh from the indications (R157). -/
def AlarmDriver.evaluate (d : AlarmDriver) (t : Nat) : AlarmDriver :=
  { d with run := .ofFn fun l => (d.run.get l).follow (d.settings.get l) (lineSource (d.settings.get l) d.seen) t }

/-- INDICATION_CHANGE (R157): the oldest change of an item. -/
def execIndicationChange (x : Item) (s : State) : Host.Outcome State Fault Refusal :=
  match takeFirst (fun c => c.item == x) s.transit.changes with
  | none => .next s
  | some (c, rest) =>
    let s := { s with transit := { s.transit with changes := rest } }
    .next { s with lines := ({ s.lines with seen := s.lines.seen.take c } : AlarmDriver).evaluate s.now }

/-! ### The pulse timer (R160) -/

/-- A line after its timer expires at tick `t`. -/
def LineRun.expire (r : LineRun) (l : LineSettings) (t : Nat) : LineRun :=
  match r.phase with
  | .on => { r with phase := .off, pin := .inactive, timer := some (t + pulseTicks l.offTime) }
  | .off => { r with phase := .on, pin := .active, timer := some (t + pulseTicks l.onTime) }
  | .idle => r

/-- PULSE_TIMER_EXPIRY (R160). -/
def execPulseTimerExpiry (l : LineId) (s : State) : Host.Outcome State Fault Refusal :=
  let r := s.lines.run.get l
  match r.timer with
  | none => .next s
  | some t =>
    let s := s.reach t
    .next { s with lines := { s.lines with run := s.lines.run.set l (r.expire (s.lines.settings.get l) s.now) } }

/-! ### SET-LINES and READ-LINES (R163 to R166) -/

/-- The lines set afresh from settings and the indications as they stand (R165, R167). -/
def AlarmDriver.restart (d : AlarmDriver) (ls : PerLine LineSettings) (t : Nat) : AlarmDriver :=
  { settings := ls, run := .ofFn fun l => .start (ls.get l) (lineSource (ls.get l) d.seen) t, seen := d.seen }

/-- An accepted SET-LINES (R165). -/
def State.setLines (s : State) (ls : PerLine LineSettings) : State := { s with lines := s.lines.restart ls s.now }

/-- The owner of SET-LINES (R164, R165). -/
def ownSetLines (body : List Byte) (s : State) : Answer × State :=
  match firstBad linesRanges body 0 with
  | some off => (.refuse .argument off, s)
  | none =>
    let s := s.setLines (linesOf body)
    (.accept (LineId.all.map fun l => (s.lines.run.get l).pin.code), s)

/-- The level code of a pin: LOW 0, HIGH 1 (R222). A HIGH-Z pin has none, and no frame is taken then (R166). -/
def levelCode : Option Bool → Byte
  | some high => flagByte high
  | none => 0

/-- One line's part of the READ-LINES reply (R166, R226). -/
def State.lineReply (s : State) (l : LineId) : List Byte :=
  let settings := s.lines.settings.get l
  let run := s.lines.run.get l
  lineBytes settings ++ (lineItems settings s.lines.seen).map flagByte
    ++ [flagByte run.source, run.phase.code, run.pin.code, levelCode (s.almLevel l)]

/-- The owner of READ-LINES (R166). -/
def ownReadLines (s : State) : Answer × State := (.accept (LineId.all.flatMap s.lineReply), s)

end Sys2Proof.Machine
end

