-- ==== Sys2Proof/Machine/Notices.lean ====
section
/-! DEFINITION. The Notice Unit (chapter 8): raises, SET-NOTICES, FETCH-NOTICES. -/

namespace Sys2Proof.Machine

/-- A raise of one class: latch set, count raised, stopping at 255 (R169). -/
def NoticeLatch.raised (x : NoticeLatch) : NoticeLatch := { latch := true, count := min 255 (x.count + 1) }

/-- The Unit takes a raise and evaluates ATTN (R169, R171). -/
def NoticeUnit.take (n : NoticeUnit) (c : NoticeClass) : NoticeUnit :=
  ({ n with latches := n.latches.set c (n.latches.get c).raised } : NoticeUnit).evaluate

/-- NOTICE_RAISE (R169). -/
def execNoticeRaise (c : NoticeClass) (s : State) : Host.Outcome State Fault Refusal :=
  match takeFirst (fun x => x == c) s.transit.raises with
  | none => .next s
  | some (_, rest) =>
    .next { s with transit := { s.transit with raises := rest }, notices := s.notices.take c }

/-- Notice settings replaced, and ATTN evaluated (R176). -/
def NoticeUnit.replace (n : NoticeUnit) (x : NoticeSettings) : NoticeUnit :=
  ({ n with settings := x } : NoticeUnit).evaluate

/-- The owner of SET-NOTICES (R175, R176). -/
def ownSetNotices (body : List Byte) (s : State) : Answer × State :=
  match firstBad noticeRanges body 0 with
  | some off => (.refuse .argument off, s)
  | none =>
    let s := { s with notices := s.notices.replace (noticesOf body) }
    (.accept [flagByte s.notices.attn], s)

/-- The classes a FETCH-NOTICES returns, by level, highest first, then by class number (R173). -/
def NoticeUnit.fetched (n : NoticeUnit) : List NoticeClass :=
  [3, 2, 1, 0].flatMap fun level => NoticeClass.all.filter fun c => n.returned c && n.settings.level.get c == level

/-- The held count: latch set, enable off (R173). -/
def NoticeUnit.held (n : NoticeUnit) : Nat :=
  (NoticeClass.all.filter fun c => (n.latches.get c).latch && !n.settings.enable.get c).length

/-- The returned classes cleared, and ATTN evaluated (R174). -/
def NoticeUnit.clearReturned (n : NoticeUnit) : NoticeUnit :=
  ({ n with latches := .ofFn fun c => if n.returned c then .clear else n.latches.get c } : NoticeUnit).evaluate

/-- The FETCH-NOTICES reply: entries and held count from the Unit before, attention from the Unit after (R173, R226). -/
def fetchBytes (before after : NoticeUnit) : List Byte :=
  b8 before.fetched.length
    :: before.fetched.flatMap (fun c =>
        [b8 c.number, b8 (before.settings.level.get c), b8 (before.latches.get c).count])
    ++ [b8 before.held, flagByte after.attn]

/-- The owner of FETCH-NOTICES (R172 to R174). -/
def ownFetchNotices (body : List Byte) (s : State) : Answer × State :=
  match u8At body 0 with
  | 0 =>
    let after := s.notices.clearReturned
    (.accept (fetchBytes s.notices after), { s with notices := after })
  | 1 => (.accept (fetchBytes s.notices s.notices), s)
  | _ => (.refuse .argument 0, s)

end Sys2Proof.Machine
end

