-- ==== Sys2Proof/Machine/Window.lean ====
section
/-! DEFINITION. The Harmonic Engine (chapter 3): tables, accumulation, level arithmetic, the window schedule, SET-WINDOW; and the
sample set as the Front End forms it (chapter 2), which it accumulates. -/

namespace Sys2Proof.Machine

/-! ### Tables (R56) -/

/-- C[0] to C[24]: 16384 cos(2 pi j / 96), rounded to nearest. -/
def quarterTable : List Int :=
  [16384, 16349, 16244, 16069, 15826, 15515, 15137, 14694, 14189, 13623, 12998, 12318, 11585]
    ++ [10803, 9974, 9102, 8192, 7246, 6270, 5266, 4240, 3196, 2139, 1072, 0]

/-- C[j], by the symmetries of R56. -/
def cosTable (j : Nat) : Int :=
  if j ≤ 24 then quarterTable.getD j 0
  else if j ≤ 48 then -quarterTable.getD (48 - j) 0
  else if j ≤ 72 then -quarterTable.getD (j - 48) 0
  else quarterTable.getD (96 - j) 0

/-- S[j] = C[(j + 72) mod 96] (R56). -/
def sinTable (j : Nat) : Int := cosTable ((j + 72) % 96)

/-! ### Sample sets (R24, R27) -/

/-- An input, in units of one code, converted (R24): beyond the span the code is full scale with its clip mark. -/
def convert (x : Int) : Reading :=
  if 32767 < x then { code := 32767, clip := true }
  else if x < -32767 then { code := -32767, clip := true }
  else { code := x, clip := false }

/-- A sample set (chapter 2.3): cycle number, index, nine readings, four group sums with their marks. -/
structure SampleSet where
  cycle : Word32
  index : Nat
  row : Row
  sums : PerGroup Reading
  deriving DecidableEq, Repr

/-- View S of a group: the exact sum of its two codes, marked when either is (R27). -/
def groupSum (row : Row) (g : Group) : Reading :=
  let x := row.cur.get g
  { code := x.a.code + x.b.code, clip := x.a.clip || x.b.clip }

/-- The sample set of a completed conversion (R24, R25, R27). -/
def Conversion.sampleSet (c : Conversion) : SampleSet :=
  let row : Row := .ofFn fun ch => convert (c.inputs.get ch)
  { cycle := c.cycle, index := c.index, row := row, sums := .ofFn (groupSum row) }

/-- The sample of a subject's view in a set (R27). -/
def SampleSet.sample (x : SampleSet) (i : Subject) (vw : View) : Reading :=
  match i.group? with
  | none => x.row.vb
  | some g =>
    match vw with
    | .a => (x.row.cur.get g).a
    | .b => (x.row.cur.get g).b
    | .s => x.sums.get g
    | .v => x.row.vb

/-! ### Accumulation (R53 to R55) -/

/-- A sample into an order's accumulators, as the k-th set of the window (R55). -/
def OrderAcc.take (o : OrderAcc) (k : Nat) (x : Int) : OrderAcc :=
  let j := (o.order * k) % 96
  { o with i := o.i + x * cosTable j, q := o.q + x * sinTable j }

/-- A sample into a view's accumulator set (R54). -/
def ViewAcc.take (a : ViewAcc) (k : Nat) (r : Reading) : ViewAcc :=
  { a with
    sum := a.sum + r.code
    max := some (match a.max with | none => r.code | some m => if m < r.code then r.code else m)
    min := some (match a.min with | none => r.code | some m => if r.code < m then r.code else m)
    clip := a.clip || r.clip
    pairs := a.pairs.map fun o => o.take k r.code }

/-- A sample set into a participant's accumulator sets (R40). -/
def Participant.take (p : Participant) (k : Nat) (x : SampleSet) : Participant :=
  { p with views := p.views.map fun a => a.take k (x.sample p.subject a.view) }

/-- A sample set reaching the Engine: accumulated while a window runs, discarded otherwise (R40). -/
def Engine.take (e : Engine) (x : SampleSet) : Engine :=
  if e.running then
    { e with participants := e.participants.map (fun p => p.take e.sampleCount x), sampleCount := e.sampleCount + 1 }
  else e

/-- An accumulator set opened at a window start (R53). -/
def ViewAcc.opened (vw : View) (vs : ViewSettings) : ViewAcc :=
  { view := vw, reference := vs.reference, sum := 0, max := none, min := none, clip := false,
    pairs := vs.orders.map fun h => { order := h, i := 0, q := 0 } }

/-- A participant of a window that starts, with the profile as it stands (R39). -/
def Participant.opened (i : Subject) (p : Profile) : Participant :=
  { subject := i, floor := p.floor, limits := p.limits, waveOnExceed := p.waveOnExceed,
    views := p.views.map fun x => .opened x.1 x.2 }

/-! ### Levels (R58 to R61) -/

/-- The integer square root of `x` by its bits, from bit `fuel - 1` down. -/
def isqrtFrom (x : Nat) : Nat → Nat → Nat
  | 0, r => r
  | b + 1, r => if (r + 2 ^ b) * (r + 2 ^ b) ≤ x then isqrtFrom x b (r + 2 ^ b) else isqrtFrom x b r

/-- The largest integer whose square does not exceed `x` (R60, step 2). -/
def isqrt (x : Nat) : Nat := isqrtFrom x (x.log2 / 2 + 1) 0

/-- The mean of a view over N samples, rounded toward zero (R58). -/
def meanOf (sum : Int) (n : Nat) : Int := sum.tdiv n

/-- The ripple level of a spread against a reference (R59). -/
def rippleLevel (spread reference : Nat) : Nat := min 65535 (spread * 10000 / reference)

/-- The level of an order from its accumulators (R60). -/
def harmonicLevel (i q : Int) (n reference : Nat) : Nat :=
  let i' := i.natAbs / 4096
  let q' := q.natAbs / 4096
  let m := isqrt (i' * i' + q' * q')
  min 65535 (5000 * m / (n * reference))

/-- The spread max - min of a view (R59); 0 before the first sample, which no report meets (log entry 28). -/
def ViewAcc.spread (a : ViewAcc) : Nat :=
  match a.max, a.min with
  | some hi, some lo => (hi - lo).toNat
  | _, _ => 0

/-- What a window yields for a view (R58 to R60, R63). -/
def ViewAcc.report (a : ViewAcc) (n : Nat) : ViewReport :=
  { view := a.view, mean := meanOf a.sum n, ripple := rippleLevel a.spread a.reference, clip := a.clip,
    levels := a.pairs.map fun o => (o.order, harmonicLevel o.i o.q n a.reference) }

/-- The window report of a participant (R63). -/
def Participant.report (p : Participant) (e : Engine) (number last : Word32) : WindowReport :=
  { subject := p.subject, number := number, w := e.w, firstCycle := e.firstCycle, lastCycle := last,
    holdover := e.holdover, views := p.views.map fun a => a.report (96 * e.w), floor := p.floor, limits := p.limits,
    waveOnExceed := p.waveOnExceed }

/-! ### The window schedule (R37 to R47) -/

/-- The Engine after a window has gone: everything of the window discarded, a pending W applied (R42, R45). -/
def Engine.closed (e : Engine) (ended : Bool) : Engine :=
  { w := e.pendingW.getD e.w, pendingW := none, running := false, windowNumber := e.windowNumber, firstCycle := 0,
    completed := 0, sampleCount := 0, holdover := false, participants := [], justEnded := ended }

/-- Notice PROFILE when a pending W is applied (R42, R45). -/
def State.raiseIfPendingW (s : State) : State :=
  match s.engine.pendingW with
  | some _ => s.raise .profile
  | none => s

/-- The Engine names the participants of a window that is over to the Subject Table (R42, R45). -/
def State.nameParticipants (s : State) : State :=
  match s.engine.participants.map (·.subject) with
  | [] => s
  | i :: rest => { s with transit := { s.transit with namings := s.transit.namings ++ [i :: rest] } }

/-- An abort of the running window (R45); nothing when none runs (R44). -/
def State.abortWindow (s : State) : State :=
  if s.engine.running then
    let s := (s.raiseIfPendingW).nameParticipants
    { s with
      transit := { s.transit with aborts := s.transit.aborts ++ s.engine.participants.map (·.subject) }
      engine := s.engine.closed false }
  else s

/-- The end of the running window at the end of cycle `last` (R42). -/
def State.endWindow (s : State) (last : Word32) : State :=
  let number := s.engine.windowNumber + 1
  let s := (s.raiseIfPendingW).nameParticipants
  { s with
    transit := { s.transit with reports := s.transit.reports ++ s.engine.participants.map fun p => p.report s.engine number last }
    engine := { s.engine.closed true with windowNumber := number } }

/-- The Engine takes the end of cycle `n` (R41, R42). Levels are produced only when exactly 96 × W sets have been taken (R42);
any other count, which R25 rules out, gives none (log entry 20). -/
def State.takeCycleEnd (s : State) (n : Word32) (mark : Bool) : State :=
  if s.engine.running then
    let s := { s with engine := { s.engine with completed := s.engine.completed + 1, holdover := s.engine.holdover || mark, justEnded := false } }
    if s.engine.w ≤ s.engine.completed then
      if s.engine.sampleCount = 96 * s.engine.w then s.endWindow n else s.abortWindow
    else s
  else { s with engine := { s.engine with justEnded := false } }

/-- CYCLE_END (R41): the Engine takes a cycle end that stands first among the tracker's hand-offs. -/
def execCycleEnd (s : State) : Host.Outcome State Fault Refusal :=
  match s.transit.engine with
  | .cycleEnd n mark :: rest =>
    .next (({ s with transit := { s.transit with engine := rest } }).takeCycleEnd n mark)
  | _ => .next s

/-- The subjects that are WAITING take part (R39, R71). -/
def waitingParticipants (table : PerSubject SubjectEntry) : List Participant :=
  (Subject.all.filter fun i => (table.get i).state = .waiting).map fun i => .opened i (table.get i).active

/-- Every WAITING subject becomes MEASURING (R71). -/
def startMeasuring (table : PerSubject SubjectEntry) : PerSubject SubjectEntry :=
  .ofFn fun i =>
    let e := table.get i
    if e.state = .waiting then { e with state := .measuring } else e

/-- A window starts with cycle `n` (R38, R39, R53). -/
def State.startWindow (s : State) (n : Word32) : State :=
  { s with
    table := startMeasuring s.table
    engine :=
      { s.engine with
        running := true, firstCycle := n, completed := 0, sampleCount := 0, holdover := false, justEnded := false
        participants := waitingParticipants s.table } }

/-- The Engine takes the start of cycle `n` (R37, R38, R43). -/
def State.takeCycleStart (s : State) (n : Word32) : State :=
  if s.engine.running then { s with engine := { s.engine with justEnded := false } }
  else if s.tracker.state = .locked ∨ (s.tracker.state = .holdover ∧ s.engine.justEnded = true) then s.startWindow n
  else { s with engine := { s.engine with justEnded := false } }

/-- WINDOW_START (R37, R38): the Engine takes a cycle start that stands first among the tracker's hand-offs, once the Subject
Table has taken every naming (R43), and once the Engine has taken every DISABLE message. R47 settles a DISABLE's crossing with
the window end and says that a subject enabled again joins at the next start; that the message is taken before that start is the
model's choice (log entry 33). -/
def execWindowStart (s : State) : Host.Outcome State Fault Refusal :=
  match s.transit.engine, s.transit.namings, s.transit.disables with
  | .cycleStart n :: rest, [], [] =>
    .next (({ s with transit := { s.transit with engine := rest } }).takeCycleStart n)
  | _, _, _ => .next s

/-- LOAD-DEFAULTS at the Engine, after the abort: W in use is the default (R52). -/
def Engine.toDefault (e : Engine) : Engine := { e with w := defaultWindow, pendingW := none }

/-- LOAD-DEFAULTS at the Engine (R44, R45, R52, R217), in the event that takes the request: the running window is aborted, which
applies a pending W with notice PROFILE, and W in use is then the default, without a notice of its own. -/
def State.defaultEngine (s : State) : State :=
  let s := s.abortWindow
  { s with engine := s.engine.toDefault }

/-- WINDOW_ABORT (R44, R45): the Engine takes an abort cause or a grid stop that stands first among the hand-offs. Whichever of the
two comes second finds no window running, and so does what LOAD-DEFAULTS hands on after its own abort (log entry 32). -/
def execWindowAbort (s : State) : Host.Outcome State Fault Refusal :=
  match s.transit.engine with
  | .gridStop :: rest => .next ({ s with transit := { s.transit with engine := rest } } : State).abortWindow
  | .abort _ :: rest => .next ({ s with transit := { s.transit with engine := rest } } : State).abortWindow
  | _ => .next s

/-- DISABLE_MESSAGE (R47): the Engine drops the accumulator sets of a disabled participant. -/
def execDisableMessage (s : State) : Host.Outcome State Fault Refusal :=
  match s.transit.disables with
  | [] => .next s
  | i :: rest =>
    let s := { s with transit := { s.transit with disables := rest } }
    .next { s with engine := { s.engine with participants := s.engine.participants.filter fun p => p.subject != i } }

/-! ### SET-WINDOW (R49, R50) -/

/-- The pending W as replies carry it: 0 when none (R49, R200). -/
def Engine.pendingByte (e : Engine) : Byte :=
  match e.pendingW with
  | some w => b8 w
  | none => 0

/-- The staging of an accepted window length (R50). -/
def State.stageWindow (s : State) (w : Nat) : State :=
  if s.engine.running then { s with engine := { s.engine with pendingW := some w } }
  else ({ s with engine := { s.engine with w := w } }).raise .profile

/-- The owner of SET-WINDOW (R49, R50). -/
def ownSetWindow (body : List Byte) (s : State) : Answer × State :=
  let w := u8At body 0
  if powerLength w then
    let s := s.stageWindow w
    (.accept [b8 s.engine.w, s.engine.pendingByte], s)
  else (.refuse .argument 0, s)

end Sys2Proof.Machine
end

