-- ==== Sys2Proof/Machine/Sampling.lean ====
section
/-! DEFINITION. The Sampling Front End (chapter 2): delivery of sample sets to the assembly, the Harmonic Engine and the Gap
Detector, and copies of a cycle. -/

namespace Sys2Proof.Machine

/-! ### Delivery (R25, R27 to R30, R40, R108) -/

/-- A sample set delivered: placed in the assembly (R29), accumulated by the Engine (R40), placed in the Gap Detector's cycle in
hand (R108). -/
def State.deliver (s : State) (x : SampleSet) : State :=
  { s with
    front :=
      { s.front with conversion := none, assembly := { s.front.assembly with rows := s.front.assembly.rows ++ [x.row] } }
    engine := s.engine.take x
    gap := { s.gap with inHand := { s.gap.inHand with rows := s.gap.inHand.rows ++ [x.row.cur] } } }

/-- A conversion can complete at tick `t`: not before its hold, no later than 1,200 ticks after it (R25), and once the Engine
has taken what the tracker handed it before the instant (R9, R25; log entry 19). -/
def State.canDeliver (s : State) (c : Conversion) (t : Nat) : Bool :=
  decide (c.held ≤ t) && decide (t ≤ c.held + 1200) && s.transit.engine.isEmpty

/-- SAMPLE_SET (R25). -/
def execSampleSet (time : Nat) (s : State) : Host.Outcome State Fault Refusal :=
  match s.front.conversion with
  | none => .next s
  | some c => if s.canDeliver c time then .next ((s.reach time).deliver c.sampleSet) else .next s

/-! ### Copies (R32, R33) -/

/-- A channel of a waveform from the rows of a cycle: the codes in index order and the count of clipped codes (R32, R127). -/
def copyChannel (rows : List Row) (ch : Channel) : WaveChannel :=
  { channel := ch, codes := rows.map fun r => (r.get ch).code, clipped := (rows.filter fun r => (r.get ch).clip).length }

/-- The waveform of a cycle on the given channels. -/
def copyCycle (cycle : Word32) (rows : List Row) (channels : List Channel) : Waveform :=
  { cycle := cycle, channels := channels.map (copyChannel rows) }

/-- The copy of the cycle `n`, from whichever store holds it (R32); none when neither does, which R32 rules out (log
entry 28). -/
def FrontEnd.copyOf (f : FrontEnd) (n : Word32) (channels : List Channel) : Option Waveform :=
  if f.assembly.cycle = some n ∧ f.assembly.rows.length = 96 then some (copyCycle n f.assembly.rows channels)
  else if f.buffer.valid = true ∧ f.buffer.cycle = n then some (copyCycle n f.buffer.rows channels)
  else none

/-- The copy that is not tied to a cycle end: the buffer as it stands; none while it is not valid (R33). -/
def FrontEnd.bufferCopy (f : FrontEnd) (channels : List Channel) : Option Waveform :=
  if f.buffer.valid then some (copyCycle f.buffer.cycle f.buffer.rows channels) else none

/-- The channels a filing's waveform holds (R104, R118). -/
def Filing.channels : Filing → List Channel
  | .exceed i _ _ _ _ _ => i.channels
  | .gap g _ _ _ => g.subject.channels
  | .sync _ _ _ _ => []

/-- A filing with its waveform. -/
def Filing.withWave : Filing → Option Waveform → Filing
  | .exceed i stamp counter summary exceeded _, w => .exceed i stamp counter summary exceeded w
  | .gap g stamp part _, w => .gap g stamp part w
  | .sync source offset stamp part, _ => .sync source offset stamp part

/-- COPY_REQUEST (R32): the Front End takes the n-th copy request in flight, and the filing goes on with its waveform. -/
def execCopyRequest (n : Nat) (s : State) : Host.Outcome State Fault Refusal :=
  match s.transit.copies[n]? with
  | none => .next s
  | some r =>
    .next (({ s with transit := { s.transit with copies := s.transit.copies.eraseIdx n } }).askFiling
      (r.filing.withWave (s.front.copyOf r.cycle r.filing.channels)))

end Sys2Proof.Machine
end

