-- ==== Sys2Proof/Machine/Subjects.lean ====
section
/-! DEFINITION. The Subject Table (chapter 4): ENABLE, DISABLE, SET-PROFILE, READ-PROFILE, activation, and the naming of
participants at a window's end or abort. -/

namespace Sys2Proof.Machine

/-- A subject's entry replaced. -/
def State.setEntry (s : State) (i : Subject) (e : SubjectEntry) : State := { s with table := s.table.set i e }

/-- A clearing for the subject's group; nothing for BUS (R70, R80). -/
def State.clearingFor (s : State) (i : Subject) (c : Clearing) : State :=
  match i.group? with
  | some g => s.orderClearing g c
  | none => s

/-- Activation of a profile (R80): the Verdict Unit and the Gap Detector take their parts as orders. -/
def State.activate (s : State) (i : Subject) (p : Profile) : State :=
  let s := s.setEntry i { s.table.get i with active := p, pendingProfile := none }
  ((s.order i .activation).clearingFor i .activation).raise .profile

/-! ### ENABLE and DISABLE (R67 to R70) -/

/-- ENABLE of a subject (R68). -/
def State.enableSubject (s : State) (i : Subject) : State :=
  let e := s.table.get i
  match e.state with
  | .disabled => (s.setEntry i { e with state := .waiting }).order i .enable
  | .waiting => s
  | .measuring => s

/-- DISABLE of a subject (R69, R70). -/
def State.disableSubject (s : State) (i : Subject) : State :=
  let e := s.table.get i
  match e.state with
  | .disabled => s
  | .waiting =>
    ((s.setEntry i { e with state := .disabled }).order i (.disable false)).clearingFor i .disable
  | .measuring =>
    match e.pendingProfile with
    | none =>
      (((s.tellDisabled i).setEntry i { e with state := .disabled }).order i (.disable false)).clearingFor i .disable
    | some p =>
      ((((s.tellDisabled i).setEntry i { state := .disabled, active := p, pendingProfile := none }).order i
        (.disable true)).clearingFor i .disable).raise .profile

/-- The owner of ENABLE (R67, R68). -/
def ownEnable (body : List Byte) (s : State) : Answer × State :=
  match Subject.ofNumber? (u8At body 0) with
  | none => (.refuse .argument 0, s)
  | some i => (.accept [b8 i.number, (s.table.get i).state.code], s.enableSubject i)

/-- The owner of DISABLE (R67, R69, R70). -/
def ownDisable (body : List Byte) (s : State) : Answer × State :=
  match Subject.ofNumber? (u8At body 0) with
  | none => (.refuse .argument 0, s)
  | some i => (.accept [b8 i.number, (s.table.get i).state.code], s.disableSubject i)

/-! ### SET-PROFILE and READ-PROFILE (R75 to R77, R81) -/

/-- The staging of an accepted profile (R77): pending for a MEASURING subject, else active at once. The flag says pending. -/
def State.stageProfile (s : State) (i : Subject) (p : Profile) : State × Bool :=
  let e := s.table.get i
  match e.state with
  | .measuring => (s.setEntry i { e with pendingProfile := some p }, true)
  | .waiting => (s.activate i p, false)
  | .disabled => (s.activate i p, false)

/-- The owner of SET-PROFILE (R75 to R77). -/
def ownSetProfile (body : List Byte) (s : State) : Answer × State :=
  match walkProfile body with
  | .error (code, detail) => (.refuse code detail, s)
  | .ok (i, p) =>
    let r := s.stageProfile i p
    (.accept [b8 i.number, flagByte r.2], r.1)

/-- The profile part of a READ-PROFILE reply: present flag, then the profile (R81, R223). -/
def optProfileBytes : Option Profile → List Byte
  | none => [0]
  | some p => 1 :: profileBytes p

/-- The owner of READ-PROFILE (R81). -/
def ownReadProfile (body : List Byte) (s : State) : Answer × State :=
  match Subject.ofNumber? (u8At body 0) with
  | none => (.refuse .argument 0, s)
  | some i =>
    let e := s.table.get i
    match u8At body 1 with
    | 0 => (.accept ([b8 i.number, e.state.code, 0] ++ optProfileBytes (some e.active)), s)
    | 1 => (.accept ([b8 i.number, e.state.code, 1] ++ optProfileBytes e.pendingProfile), s)
    | _ => (.refuse .argument 1, s)

/-! ### Namings (R71, R78) -/

/-- The Table takes the naming of one participant: a MEASURING subject returns to WAITING and its pending profile becomes active;
any other subject keeps its state and profiles (R71, R78). -/
def State.nameOne (s : State) (i : Subject) : State :=
  let e := s.table.get i
  match e.state with
  | .measuring =>
    let s := s.setEntry i { e with state := .waiting }
    match e.pendingProfile with
    | none => s
    | some p => s.activate i p
  | .waiting => s
  | .disabled => s

/-- WINDOW_END_NAMING (R71): the Table takes the oldest naming. -/
def execWindowEndNaming (s : State) : Host.Outcome State Fault Refusal :=
  match s.transit.namings with
  | [] => .next s
  | names :: rest => .next (names.foldl State.nameOne { s with transit := { s.transit with namings := rest } })

end Sys2Proof.Machine
end

