-- ==== Sys2Proof/Machine/Verdict.lean ====
section
/-! DEFINITION. The Verdict Unit (chapter 5): outcomes, the verdict counter, conditions, the results entry, EXCEED records, orders,
READ-RESULT. -/

namespace Sys2Proof.Machine

/-! ### The outcome of a window (R92 to R96) -/

/-- A report's entry for a view. -/
def WindowReport.view? (r : WindowReport) (vw : View) : Option ViewReport := r.views.find? fun x => x.view == vw

/-- Any view clipped (R93). -/
def WindowReport.clipped (r : WindowReport) : Bool := r.views.any (·.clip)

/-- The mean compared with the floor: view S of a group, view V of BUS (R94). A report holds that view (log entry 28). -/
def WindowReport.load (r : WindowReport) : Int :=
  let vw : View := if r.subject.group?.isSome then .s else .v
  match r.view? vw with
  | some x => x.mean
  | none => 0

/-- The level a limit entry is compared with (R95). -/
def WindowReport.level? (r : WindowReport) (e : LimitEntry) : Option Nat :=
  match r.view? e.view with
  | none => none
  | some x =>
    match e.quantity with
    | .ripple => some x.ripple
    | .order h => (x.levels.find? fun p => p.1 == h).map (·.2)

/-- An entry is exceeded when its level is strictly greater than its limit (R95). -/
def WindowReport.exceeds (r : WindowReport) (e : LimitEntry) : Bool :=
  match r.level? e with
  | some level => decide (e.limit < level)
  | none => false

/-- The exceeded entries with their indices, in ascending order (R96). -/
def WindowReport.exceededPairs (r : WindowReport) : List (LimitEntry × Nat) :=
  r.limits.zipIdx.filter fun p => r.exceeds p.1

/-- The exceeded-entry list (R96). -/
def WindowReport.exceededList (r : WindowReport) : List Nat := r.exceededPairs.map (·.2)

/-- The step of the window: the largest among the exceeded entries (R96). -/
def WindowReport.step (r : WindowReport) : Nat := (r.exceededPairs.map (·.1.step)).foldl max 0

/-- The outcome of a completed window (R92). -/
def WindowReport.outcome (r : WindowReport) : LastOutcome :=
  if r.clipped then .clipped
  else if r.load < (r.floor : Int) then .lowload
  else if r.exceededList.isEmpty then .pass
  else .exceed

/-! ### Counter and condition (R97, R98) -/

/-- The counter after an outcome (R97). -/
def counterAfter (counter : Nat) (outcome : LastOutcome) (step : Nat) : Nat :=
  match outcome with
  | .exceed => min 15 (counter + step)
  | .pass => counter - 1
  | .none | .aborted | .clipped | .lowload => counter

/-- The condition from the condition before, the outcome and the counter after the move (R98). CLIPPED and LOWLOAD keep it (R93, R94).
A window enters ALARM by EXCEED only (R98's text; R103's and R126's exceeded-entry list has an index): a PASS that meets WATCH with
the counter still at or above the threshold of a profile activated since stays in WATCH, which is the model's choice (R74, R79; log
entry 35). -/
def conditionAfter (before : Condition) (outcome : LastOutcome) (counter threshold : Nat) : Condition :=
  match outcome with
  | .exceed =>
    if counter = 0 then .healthy
    else
      match before with
      | .alarm => .alarm
      | .healthy | .watch => if threshold ≤ counter then .alarm else .watch
  | .pass =>
    if counter = 0 then .healthy
    else
      match before with
      | .alarm => .alarm
      | .healthy | .watch => .watch
  | .none | .aborted | .clipped | .lowload => before

/-! ### Reports (R90, R91, R99 to R101, R103) -/

/-- A subject's verdict entry replaced; a change of condition raises COND and goes to the Alarm Line Driver (R99). -/
def State.setVerdict (s : State) (i : Subject) (e : VerdictEntry) : State :=
  let before := (s.verdicts.get i).condition
  let s := { s with verdicts := s.verdicts.set i e }
  if e.condition = before then s else (s.raise i.condClass).tellChange (.condition i e.condition)

/-- A subject's summary from the views of a window (R126). -/
def summaryOf (number : Word32) (views : List ViewReport) : Summary :=
  { number := number,
    views := views.map fun x => { view := x.view, mean := x.mean, ripple := x.ripple, levels := x.levels } }

/-- The verdict entry after a report (R90, R97, R98, R100, R101). -/
def VerdictEntry.judge (e : VerdictEntry) (r : WindowReport) (threshold : Nat) : VerdictEntry :=
  let outcome := r.outcome
  let counter := counterAfter e.counter outcome r.step
  let condition := conditionAfter e.condition outcome counter threshold
  { enabled := e.enabled, counter := counter, condition := condition
    results := some
      { number := r.number, w := r.w, firstCycle := r.firstCycle, lastCycle := r.lastCycle, outcome := outcome,
        holdover := r.holdover, views := r.views, exceeded := if outcome = .exceed then r.exceededList else [],
        counter := counter, condition := condition }
    last := outcome
    judged := if outcome = .pass ∨ outcome = .exceed then satInc32 e.judged else e.judged
    exceeded := if outcome = .exceed then satInc32 e.exceeded else e.exceeded }

/-- The EXCEED filing of an entry into ALARM, by way of a copy of the window's last cycle when the waveform flag is set (R103,
R104). -/
def State.fileExceed (s : State) (r : WindowReport) (counter : Nat) : State :=
  let f : Filing := .exceed r.subject r.lastCycle counter (summaryOf r.number r.views) r.exceededList none
  if r.waveOnExceed then s.askCopy { cycle := r.lastCycle, filing := f } else s.askFiling f

/-- The Verdict Unit takes a window report (R90). -/
def State.takeReport (s : State) (r : WindowReport) : State :=
  let before := s.verdicts.get r.subject
  if before.enabled then
    let after := before.judge r (s.table.get r.subject).active.threshold
    let s := s.setVerdict r.subject after
    let s := if r.outcome = .clipped then s.raise .clip else s
    if before.condition ≠ .alarm ∧ after.condition = .alarm then s.fileExceed r after.counter else s
  else s

/-- WINDOW_REPORT (R90): the report in flight for a subject. -/
def execWindowReport (sub : Subject) (s : State) : Host.Outcome State Fault Refusal :=
  match takeFirst (fun r => r.subject == sub) s.transit.reports with
  | none => .next s
  | some (r, rest) => .next (({ s with transit := { s.transit with reports := rest } }).takeReport r)

/-- ABORT_REPORT (R91): the oldest abort report in flight for a subject. Abort reports and window reports wait apart, so the sender's
rows order an abort report against an older window report of the subject, which is the model's choice (R64; log entry 34). -/
def execAbortReport (sub : Subject) (s : State) : Host.Outcome State Fault Refusal :=
  match takeFirst (fun i => i == sub) s.transit.aborts with
  | none => .next s
  | some (_, rest) =>
    let s := { s with transit := { s.transit with aborts := rest } }
    let e := s.verdicts.get sub
    if e.enabled then .next { s with verdicts := s.verdicts.set sub { e with last := .aborted } } else .next s

/-! ### Orders (R105) -/

/-- The verdict entry after an order (R105). -/
def VerdictEntry.obey (e : VerdictEntry) (o : VerdictOrder) : VerdictEntry :=
  match o with
  | .enable => { e with enabled := true, judged := 0, exceeded := 0 }
  | .disable false =>
    { e with enabled := false, counter := 0, condition := .healthy, results := none, last := .none }
  | .disable true =>
    { enabled := false, counter := 0, condition := .healthy, results := none, last := .none, judged := 0, exceeded := 0 }
  | .activation =>
    { enabled := e.enabled, counter := 0, condition := .healthy, results := none, last := .none, judged := 0,
      exceeded := 0 }
  | .loadDefaults =>
    { enabled := false, counter := 0, condition := .healthy, results := none, last := .none, judged := 0, exceeded := 0 }
  | .startUp => { e with enabled := true }

/-- VERDICT_ORDER (R105): the oldest order for a subject. -/
def execVerdictOrder (sub : Subject) (s : State) : Host.Outcome State Fault Refusal :=
  match takeFirst (fun o => o.1 == sub) s.transit.orders with
  | none => .next s
  | some (o, rest) =>
    let s := { s with transit := { s.transit with orders := rest } }
    .next (s.setVerdict sub ((s.verdicts.get sub).obey o.2))

/-! ### READ-RESULT (R102) -/

/-- A list of (order, level) pairs with its count (R222). -/
def levelBytes (levels : List (Nat × Nat)) : List Byte :=
  b8 levels.length :: levels.flatMap fun p => b8 p.1 :: le16 p.2

/-- A results entry in the order of R101 (log entry 22). -/
def resultsBytes (r : ResultsEntry) : List Byte :=
  le32 r.number.toNat ++ [b8 r.w] ++ le32 r.firstCycle.toNat ++ le32 r.lastCycle.toNat
    ++ [r.outcome.code, flagByte r.holdover]
    ++ r.views.flatMap (fun x => flagByte x.clip :: meanBytes x.mean ++ le16 x.ripple ++ levelBytes x.levels)
    ++ b8 r.exceeded.length :: r.exceeded.map b8 ++ [b8 r.counter, r.condition.code]

def optResultsBytes : Option ResultsEntry → List Byte
  | none => [0]
  | some r => 1 :: resultsBytes r

/-- The owner of READ-RESULT (R102). -/
def ownReadResult (body : List Byte) (s : State) : Answer × State :=
  match Subject.ofNumber? (u8At body 0) with
  | none => (.refuse .argument 0, s)
  | some i =>
    let e := s.verdicts.get i
    let t := s.table.get i
    (.accept ([b8 i.number, t.state.code, e.condition.code, b8 e.counter, b8 t.active.threshold, e.last.code]
      ++ le32 e.judged.toNat ++ le32 e.exceeded.toNat ++ optResultsBytes e.results), s)

end Sys2Proof.Machine
end

