-- ==== Sys2Proof/Machine/Store.lean ====
section
/-! DEFINITION. The Capture Store (chapter 7): filing, CAPTURE, reading records and waveforms, retention, marks and purge. -/

namespace Sys2Proof.Machine

/-! ### Filing (R128 to R131) -/

/-- The store with one more record, which takes the counter's number (R128, R129). -/
def CaptureStore.add (st : CaptureStore) (kept : List StoreEntry) (mk : Nat → Record) : CaptureStore :=
  { st with entries := kept ++ [{ record := mk st.counter, retained := false }], counter := st.counter + 1 }

/-- A dropped filing (R131). -/
def CaptureStore.drop (st : CaptureStore) : CaptureStore := { st with drops := satInc16 st.drops }

/-- The entries a filing leaves room beside: all of them below 48, else all but the lowest-numbered unretained one; none when the
filing is dropped (R129 to R131). -/
def CaptureStore.room (st : CaptureStore) : Option (List StoreEntry) :=
  if Config.lastNumber ≤ st.counter then none
  else if st.entries.length < Config.storeCapacity then some st.entries
  else
    match takeFirst (fun e => !e.retained) st.entries with
    | none => none
    | some (_, rest) => some rest

/-- The store after a filing, and whether the record was stored. -/
def CaptureStore.file (st : CaptureStore) (mk : Nat → Record) : CaptureStore × Bool :=
  match st.room with
  | some kept => (st.add kept mk, true)
  | none => (st.drop, false)

/-- A filing taken: a drop raises notice STORE (R131). -/
def State.fileRecord (s : State) (mk : Nat → Record) : State × Bool :=
  let r := s.store.file mk
  let s := { s with store := r.1 }
  if r.2 then (s, true) else (s.raise .store, false)

/-- The record of a filing with the number `n`, as the blocks present their values at filing (R125, R126, R117; log entry 26). -/
def Filing.record (f : Filing) (s : State) (n : Nat) : Record :=
  match f with
  | .exceed i stamp counter summary exceeded wave =>
    { number := n, kind := .exceed, subject := some i, stamp := stamp, source := s.sourceInEffect,
      offset := s.offsetInEffect, verdict := some (counter, .alarm), summary := some summary,
      exceeded := some exceeded, gap := none, sync := none, wave := wave }
  | .gap g stamp part wave =>
    let e := s.verdicts.get g.subject
    { number := n, kind := .gap, subject := some g.subject, stamp := stamp, source := s.sourceInEffect,
      offset := s.offsetInEffect, verdict := some (e.counter, e.condition), summary := none, exceeded := none,
      gap := some part, sync := none, wave := wave }
  | .sync source offset stamp part =>
    { number := n, kind := .sync, subject := none, stamp := stamp, source := source, offset := offset, verdict := none,
      summary := none, exceeded := none, gap := none, sync := some part, wave := none }

/-- FILING (R129): the n-th filing in flight. -/
def execFiling (n : Nat) (s : State) : Host.Outcome State Fault Refusal :=
  match s.transit.filings[n]? with
  | none => .next s
  | some f =>
    let s := { s with transit := { s.transit with filings := s.transit.filings.eraseIdx n } }
    .next (s.fileRecord (f.record s)).1

/-! ### CAPTURE (R132 to R134) -/

/-- The summary of a subject's results entry (R133). -/
def VerdictEntry.summary (e : VerdictEntry) : Option Summary :=
  match e.results with
  | none => none
  | some r => some (summaryOf r.number r.views)

/-- The MANUAL record of a subject with the number `n` (R133). -/
def State.manualRecord (s : State) (i : Subject) (wanted : Bool) (n : Nat) : Record :=
  let e := s.verdicts.get i
  { number := n, kind := .manual, subject := some i, stamp := s.tracker.cycle, source := s.sourceInEffect,
    offset := s.offsetInEffect, verdict := some (e.counter, e.condition), summary := e.summary, exceeded := none,
    gap := none, sync := none, wave := if wanted then s.front.bufferCopy i.channels else none }

/-- An accepted CAPTURE: the record filed, and the answer (R133, R134). -/
def State.captureSubject (s : State) (i : Subject) (wanted : Bool) : Answer × State :=
  let mk := s.manualRecord i wanted
  let n := s.store.counter
  match s.fileRecord mk with
  | (s', true) => (.accept (le32 n ++ [flagByte (mk n).summary.isSome, flagByte (mk n).wave.isSome]), s')
  | (s', false) => (.refuse .state 0, s')

/-- The owner of CAPTURE (R132 to R134). -/
def ownCapture (body : List Byte) (s : State) : Answer × State :=
  match Subject.ofNumber? (u8At body 0) with
  | none => (.refuse .argument 0, s)
  | some i =>
    match u8At body 1 with
    | 0 => s.captureSubject i false
    | 1 => s.captureSubject i true
    | _ => (.refuse .argument 1, s)

/-! ### Reading records (R135 to R138, R224) -/

/-- The entry of a record number. -/
def CaptureStore.find (st : CaptureStore) (n : Nat) : Option StoreEntry :=
  st.entries.find? fun e => e.record.number == n

/-- The record that a selector selects; the outer none: refused with NOTFOUND (R136). -/
def CaptureStore.select (st : CaptureStore) (selector n : Nat) : Option (Option StoreEntry) :=
  match selector with
  | 0 =>
    match st.find n with
    | none => none
    | some e => some (some e)
  | 1 => some st.entries.head?
  | _ => some (st.entries.find? fun e => decide (st.cursor < e.record.number))

/-- The skipped figure (R137). -/
def skippedFigure (cursor returned : Nat) : Nat :=
  if cursor = 0 then 0 else if cursor < returned then returned - cursor - 1 else 0

/-- A summary's views (R224). -/
def summaryBytes (x : Summary) : List Byte :=
  le32 x.number.toNat ++ x.views.flatMap fun y => meanBytes y.mean ++ le16 y.ripple ++ levelBytes y.levels

/-- Sector numbers as a byte with bit j for sector j (R224). -/
def sectorListByte (xs : List Nat) : Byte := b8 ((xs.map fun j => 2 ^ j).sum)

def gapSideBytes (x : GapSide) : List Byte := [b8 x.base, sectorListByte x.declared, sectorByte x.latches]

def syncPartBytes (x : SyncPart) : List Byte := x.lost.code :: le32 x.period ++ [b8 x.misses]

/-- The waveform description (R138, R224). -/
def waveBytes (w : Waveform) : List Byte :=
  le32 w.cycle.toNat ++ b8 w.channels.length :: w.channels.flatMap fun c => [b8 c.channel.number, b8 c.clipped]

/-- An optional part: its bytes, or nothing. -/
def partBytes {α : Type} (f : α → List Byte) : Option α → List Byte
  | none => []
  | some x => f x

/-- The parts byte (R224). -/
def partsByte (r : Record) : Byte :=
  b8 ((if r.summary.isSome then 1 else 0) + (if r.exceeded.isSome then 2 else 0) + (if r.gap.isSome then 4 else 0)
    + (if r.sync.isSome then 8 else 0) + (if r.wave.isSome then 16 else 0))

/-- A record from offset 7 of the READ-RECORD reply on (R224). -/
def recordBytes (r : Record) : List Byte :=
  le32 r.number ++ [r.kind.code, optByte (r.subject.map fun i => b8 i.number)] ++ le32 r.stamp.toNat
    ++ [r.source.code, b8 r.offset, optByte (r.verdict.map fun x => b8 x.1), optByte (r.verdict.map fun x => x.2.code),
      partsByte r]
    ++ partBytes summaryBytes r.summary ++ partBytes (fun xs => b8 xs.length :: xs.map b8) r.exceeded
    ++ partBytes (fun x => gapSideBytes x.a ++ gapSideBytes x.b) r.gap ++ partBytes syncPartBytes r.sync
    ++ partBytes waveBytes r.wave

/-- The owner of READ-RECORD (R136 to R138). -/
def ownReadRecord (body : List Byte) (s : State) : Answer × State :=
  let selector := u8At body 0
  if 2 < selector then (.refuse .argument 0, s)
  else
    match s.store.select selector (u32At body 1) with
    | none => (.refuse .notfound 0, s)
    | some none => (.accept [0, b8 s.store.entries.length], s)
    | some (some e) =>
      (.accept ([1, b8 s.store.entries.length] ++ le32 (skippedFigure s.store.cursor e.record.number)
          ++ flagByte e.retained :: recordBytes e.record),
        { s with store := { s.store with cursor := e.record.number } })

/-! ### Reading waveforms (R140 to R142) -/

/-- The channel of a record's waveform. -/
def Record.channel? (r : Record) (ch : Channel) : Option (Word32 × WaveChannel) :=
  match r.wave with
  | none => none
  | some w => (w.channels.find? fun c => c.channel == ch).map fun c => (w.cycle, c)

/-- The codes at indices (start + i) mod 96 (R142). -/
def waveCodes (codes : List Int) (start count : Nat) : List Int :=
  (List.range count).map fun i => codes.getD ((start + i) % 96) 0

/-- The owner of READ-WAVE (R141, R142, R224). -/
def ownReadWave (body : List Byte) (s : State) : Answer × State :=
  let n := u32At body 0
  let start := u8At body 5
  let count := min 64 (u8At body 6)
  match Channel.ofNumber? (u8At body 4) with
  | none => (.refuse .argument 4, s)
  | some ch =>
    if 95 < start then (.refuse .argument 5, s)
    else if count = 0 then (.refuse .argument 6, s)
    else
      match s.store.find n with
      | none => (.refuse .notfound 0, s)
      | some e =>
        match e.record.channel? ch with
        | none => (.refuse .notfound 1, s)
        | some (cycle, c) =>
          (.accept (le32 n ++ [b8 ch.number, b8 start, b8 count] ++ le32 cycle.toNat ++ b8 c.clipped
              :: (waveCodes c.codes start count).flatMap codeBytes), s)

/-! ### Retention (R143, R144, R146) -/

/-- The entries with the retained flag of record `n` set to `flag`. -/
def setRetained (n : Nat) (flag : Bool) (entries : List StoreEntry) : List StoreEntry :=
  entries.map fun e => if e.record.number = n then { e with retained := flag } else e

/-- RETAIN and RELEASE of a record (R143, R144). -/
def State.retainRecord (s : State) (n : Nat) (flag : Bool) : Answer × State :=
  match s.store.find n with
  | none => (.refuse .notfound 0, s)
  | some e =>
    (.accept (le32 n ++ [flagByte e.retained]),
      { s with store := { s.store with entries := setRetained n flag s.store.entries } })

/-- The owner of RETAIN (R143). -/
def ownRetain (body : List Byte) (s : State) : Answer × State := s.retainRecord (u32At body 0) true

/-- The owner of RELEASE (R144). -/
def ownRelease (body : List Byte) (s : State) : Answer × State := s.retainRecord (u32At body 0) false

/-- Whether record `n` is present and retained (R146). -/
def CaptureStore.isRetained (st : CaptureStore) (n : Nat) : Bool :=
  match st.find n with
  | none => false
  | some e => e.retained

/-- Byte `k` of the map from `start` on: bit i stands for start + 8k + i (R146, R226). -/
def CaptureStore.mapByte (st : CaptureStore) (start k : Nat) : Byte :=
  b8 (((List.range 8).map fun i => if st.isRetained (start + 8 * k + i) then 2 ^ i else 0).sum)

/-- The owner of RETAIN-MAP (R146). -/
def ownRetainMap (body : List Byte) (s : State) : Answer × State :=
  let start := u32At body 0
  (.accept (le32 start ++ [s.store.mapByte start 0, s.store.mapByte start 1, s.store.mapByte start 2,
    s.store.mapByte start 3]), s)

/-! ### Marks and purge (R147 to R150) -/

/-- The store with both marks absent. -/
def CaptureStore.clearMarks (st : CaptureStore) : CaptureStore := { st with firstMark := none, lastMark := none }

/-- The store with both marks as given. -/
def State.setMarks (s : State) (first last : Option Nat) : State :=
  { s with store := { s.store with firstMark := first, lastMark := last } }

/-- The owner of MARK-FIRST (R147). -/
def ownMarkFirst (body : List Byte) (s : State) : Answer × State :=
  let n := u32At body 0
  (.accept (le32 n), s.setMarks (some n) none)

/-- The owner of MARK-LAST (R148). That the first mark comes first in the reply is the model's reading (log entry 22). -/
def ownMarkLast (body : List Byte) (s : State) : Answer × State :=
  let n := u32At body 0
  match s.store.firstMark with
  | none => (.refuse .range 0, s.setMarks none none)
  | some first =>
    if first ≤ n then (.accept (le32 first ++ le32 n), s.setMarks (some first) (some n))
    else (.refuse .range 0, s.setMarks none none)

/-- A record's number lies in the marked range (R150). -/
def StoreEntry.inRange (e : StoreEntry) (first last : Nat) : Bool :=
  decide (first ≤ e.record.number) && decide (e.record.number ≤ last)

/-- The entries a PURGE removes, and those it keeps (R150). -/
def StoreEntry.purged (e : StoreEntry) (first last : Nat) : Bool := e.inRange first last && !e.retained

/-- The owner of PURGE (R150). -/
def ownPurge (s : State) : Answer × State :=
  match s.store.firstMark, s.store.lastMark with
  | some first, some last =>
    let removed := (s.store.entries.filter fun e => e.purged first last).length
    let kept := (s.store.entries.filter fun e => e.inRange first last && e.retained).length
    (.accept (le32 first ++ le32 last ++ [b8 removed, b8 kept]),
      { s with
        store :=
          { s.store with
            entries := s.store.entries.filter fun e => !e.purged first last
            firstMark := none
            lastMark := none } })
  | _, _ => (.refuse .sequence 0, s.setMarks none none)

end Sys2Proof.Machine
end

