-- ==== Sys2Proof/Machine/Tracker.lean ====
section
/-! DEFINITION. The Sync Tracker (chapter 1): qualifier, search, grid, edge matching, period loop, holdover and loss, and the
cycle boundary as the Front End and the Gap Detector take it. -/

namespace Sys2Proof.Machine

/-! ### The qualifier (R2 to R4, R227) -/

/-- A comparator follows a voltage in microvolts: it rises at +25 mV, falls at -25 mV and holds in between (R227). -/
def comparatorStep (high : Bool) (microvolts : Int) : Bool :=
  if 25000 ≤ microvolts then true else if microvolts ≤ -25000 then false else high

/-- The three comparators follow the voltages their inputs have passed through, oldest first. -/
def followInputs (now : PerSource Bool) (inputs : PerSource (List Int)) : PerSource Bool :=
  ⟨inputs.sya.foldl comparatorStep now.sya, inputs.syb.foldl comparatorStep now.syb,
    inputs.syc.foldl comparatorStep now.syc⟩

/-- A transition to this level is the edge of this polarity (R3). -/
def Polarity.matchesLevel : Polarity → Bool → Bool
  | .rising, high => high
  | .falling, high => !high

/-- The run has reached Q: the transition is accepted, dated to the run start, and handed on if it is an edge (R2, R3).
Nothing when the run has not reached Q. -/
def Qualifier.accept (q : Qualifier) (y : SyncSettings) : Qualifier :=
  match q.level with
  | none => q
  | some high =>
    if q.runCount < y.depth then q
    else
      { level := some (!high), runCount := 0, runStart := q.runStart
        edges := if Polarity.matchesLevel y.polarity (!high) then q.edges ++ [q.runStart] else q.edges }

/-- A sample of the level `high` at tick `t` (R2, R4). An acceptance that is due is taken first (log entry 7). -/
def Qualifier.sample (q : Qualifier) (y : SyncSettings) (t : Nat) (high : Bool) : Qualifier :=
  let q := q.accept y
  match q.level with
  | none => { q with level := some high, runCount := 0 }
  | some l =>
    if high = l then { q with runCount := 0 }
    else if q.runCount = 0 then { q with runCount := 1, runStart := t }
    else { q with runCount := q.runCount + 1 }

/-- The sample clock ticks at `t` (R2): 10 ticks after the sample before. The first sample after a reset sets the clock's phase, which
the spec leaves open (log entry 37). A reset of the qualifier (R4) leaves the clock running. -/
def State.sampleClockAt (s : State) (t : Nat) : Bool :=
  match s.sampled with
  | none => decide (s.now ≤ t)
  | some last => decide (t = last + 10)

/-- QUALIFIER_SAMPLE (R2, R4, R227) at a tick of the sample clock. The qualifier is stopped during reset and start-up (R23). -/
def execQualifierSample (time : Nat) (inputs : PerSource (List Int)) (s : State) : Host.Outcome State Fault Refusal :=
  if s.phase = .running ∧ s.sampleClockAt time then
    let s := s.reach time
    let levels := followInputs s.comparators inputs
    .next
      { s with comparators := levels, sampled := some time,
               qualifier := s.qualifier.sample s.sync time (levels.get s.sourceInEffect) }
  else .next s

/-- ACCEPTED_TRANSITION (R2, R3). -/
def execAcceptedTransition (s : State) : Host.Outcome State Fault Refusal :=
  .next { s with qualifier := s.qualifier.accept s.sync }

/-! ### States and search (R5 to R8) -/

/-- The tracker moves to a state; the sync-absent indication changes with it (R5). -/
def State.moveTo (s : State) (st : TrackerState) : State :=
  let s' := { s with tracker := { s.tracker with state := st } }
  if st.syncAbsent = s.tracker.state.syncAbsent then s' else s'.tellChange (.syncAbsent st.syncAbsent)

/-- A running grid stops: the cycle is abandoned and the grid stop is handed to the three blocks, of which the Front End and
the Gap Detector discard the cycle's data (R6, R30, R108). -/
def State.stopGrid (s : State) : State :=
  match s.tracker.grid with
  | none => s
  | some _ =>
    { s.tellEngine .gridStop with
      tracker := { s.tracker with grid := none }
      front := { s.front with conversion := none, assembly := { cycle := none, rows := [] } }
      gap := { s.gap with inHand := .empty } }

/-- Entry into SEARCH at a list position (R6). The qualifier is reset when the source in effect becomes a different input (R4). An edge
that waits in the qualifier stays there for SEARCH on the same input, and goes with its reset otherwise, which is the model's choice (R12;
log entry 40). -/
def State.enterSearch (s : State) (position : Nat) : State :=
  let before := s.sourceInEffect
  let s := s.stopGrid.moveTo .search
  let s :=
    { s with
      tracker :=
        { s.tracker with position := position, remembered := none, searchStart := some s.now, warmUp := 0, misses := 0 } }
  if s.sourceInEffect = before then s else { s with qualifier := .reset }

/-- A cycle starts at the Front End and the Gap Detector, and the Engine is handed its start (R9, R29, R108). -/
def State.beginCycle (s : State) (n : Word32) : State :=
  { s.tellEngine (.cycleStart n) with
    front := { s.front with assembly := { cycle := some n, rows := [] } }
    gap := { s.gap with inHand := { cycle := some n, rows := [] } } }

/-- The grid starts on the edge at `t` with the period `m` (R7). -/
def State.startGrid (s : State) (t m : Nat) : State :=
  let n := s.tracker.cycle + 1
  let s :=
    { s with
      tracker :=
        { s.tracker with
          searchStart := none, warmUp := 0, misses := 0, cycle := n
          grid := some { start := t, period := m, nextPeriod := m, boundary := { matched := some t, closed := false },
                         early := none, prev := none, nextInstant := 0, holdMark := false } } }
  (s.beginCycle n).moveTo .warmup

/-- An edge taken in SEARCH (R7). -/
def State.searchEdge (s : State) (t : Nat) : State :=
  match s.tracker.remembered with
  | none => { s with tracker := { s.tracker with remembered := some t } }
  | some t0 =>
    if Config.minPeriod ≤ t - t0 ∧ t - t0 ≤ Config.maxPeriod then s.startGrid t (t - t0)
    else { s with tracker := { s.tracker with remembered := some t } }

/-- SEARCH_TIMER_EXPIRY (R8). -/
def execSearchTimerExpiry (s : State) : Host.Outcome State Fault Refusal :=
  match s.tracker.searchStart with
  | none => .next s
  | some start =>
    let s := s.reach (start + Config.searchLimit)
    if 1 < s.sync.list.length then
      let s := { s with tracker := { s.tracker with rotations := satInc16 s.tracker.rotations } }
      .next (s.enterSearch (s.sync.nextPosition s.tracker.position))
    else
      .next { s with tracker := { s.tracker with searchStart := some (start + Config.searchLimit) } }

/-! ### Edge matching and the period loop (R11 to R13, R15 to R17) -/

/-- A period kept within the tracking range (R13). -/
def clampPeriod (p : Int) : Nat := (max (Config.minPeriod : Int) (min p (Config.maxPeriod : Int))).toNat

/-- The period that follows from a measured period and an error (R13): a quarter of the error, rounded toward zero. -/
def correctedPeriod (m e : Int) : Nat := clampPeriod (m + e.tdiv 4)

/-- The measured period of a match at `t` (R13): the time since the match of the boundary before, or the period in use when that
boundary was missed. -/
def measuredPeriod (g : Grid) (t : Nat) (before : Option Nat) : Int :=
  match before with
  | some t0 => (t : Int) - (t0 : Int)
  | none => (g.period : Int)

/-- A match is tight when |e| is at most floor(P_c / 64) (R15). -/
def isTight (e : Int) (pc : Nat) : Bool := decide (e.natAbs ≤ pc / 64)

/-- The state rules of a match with error `e` in a cycle of period `pc` (R15, R16, R17). -/
def State.matchRules (s : State) (e : Int) (pc : Nat) : State :=
  match s.tracker.state with
  | .warmup =>
    if isTight e pc then
      let n := s.tracker.warmUp + 1
      let s := { s with tracker := { s.tracker with warmUp := n } }
      if s.sync.warmUpTarget ≤ n then (s.moveTo .locked).raise .sync else s
    else { s with tracker := { s.tracker with warmUp := 0 } }
  | .holdover => ({ s with tracker := { s.tracker with misses := 0 } }).moveTo .locked
  | .locked => s
  | .search => s

/-- A spurious edge (R11, R20). -/
def State.spuriousEdge (s : State) : State :=
  { s with tracker := { s.tracker with spurious := satInc16 s.tracker.spurious } }

/-- A matched edge: the grid `g` already records it; the period loop and the state rules follow (R13, R15 to R17). -/
def State.matchedEdge (s : State) (g : Grid) (m e : Int) (pc : Nat) : State :=
  let s := { s with tracker := { s.tracker with grid := some { g with nextPeriod := correctedPeriod m e } } }
  s.matchRules e pc

/-- The matched edge time of the boundary before the one at the cycle start. -/
def Grid.matchedBefore (g : Grid) : Option Nat := g.prev.bind fun p => p.boundary.matched

/-- A match of the boundary at the start of the cycle in progress, unless it holds a match or was missed (R11). -/
def State.matchStart (s : State) (g : Grid) (t : Nat) (e : Int) (pc : Nat) : State :=
  if g.boundary.matched.isSome || g.boundary.closed then s.spuriousEdge
  else s.matchedEdge { g with boundary := { g.boundary with matched := some t } } (measuredPeriod g t g.matchedBefore) e pc

/-- A match of the boundary at the end of the cycle in progress, unless it holds a match (R11). -/
def State.matchEnd (s : State) (g : Grid) (t : Nat) (e : Int) : State :=
  if g.early.isSome then s.spuriousEdge
  else s.matchedEdge { g with early := some t } (measuredPeriod g t g.boundary.matched) e g.period

/-- An edge taken while the grid runs, judged by the time it carries (R11), which lies before the end of the cycle in progress: a later
edge waits for the cycle start (`execEdge`, log entry 31). -/
def State.gridEdge (s : State) (g : Grid) (t : Nat) : State :=
  if g.start ≤ t then
    let d := t - g.start
    if d ≤ g.period / 8 then s.matchStart g t d g.period
    else if g.period ≤ d + g.period / 8 then s.matchEnd g t ((d : Int) - (g.period : Int))
    else s.spuriousEdge
  else
    match g.prev with
    | none => s.spuriousEdge
    | some p =>
      let d : Int := (t : Int) - (p.start : Int)
      if ((p.period - p.period / 8 : Nat) : Int) ≤ d then s.matchStart g t (d - (p.period : Int)) p.period
      else s.spuriousEdge

/-- The state with the oldest edge taken from the qualifier. -/
def State.withEdges (s : State) (rest : List Nat) : State := { s with qualifier := { s.qualifier with edges := rest } }

/-- EDGE (R7, R11): the tracker takes the oldest edge handed over. R11 finds an edge's cycle as the one in progress or the one before, so
an edge dated at or after T + P of the cycle in progress is not taken before CYCLE_START (log entry 31). An edge that waited when a
late-zone close ended the grid is taken in SEARCH by R7 and not counted as spurious, which is the model's choice (R12; log entry 40). -/
def execEdge (s : State) : Host.Outcome State Fault Refusal :=
  match s.qualifier.edges with
  | [] => .next s
  | t :: rest =>
    match s.tracker.grid with
    | none => .next ((s.withEdges rest).searchEdge t)
    | some g => if g.start + g.period ≤ t then .next s else .next ((s.withEdges rest).gridEdge g t)

/-- A sync loss (R18). The abort is handed before the grid stop, which is the model's choice (R44; log entry 32). -/
def State.syncLoss (s : State) : State :=
  let source := s.sourceInEffect
  let period := match s.tracker.grid with
    | some g => g.period
    | none => 0
  let s := { s with tracker := { s.tracker with losses := satInc16 s.tracker.losses } }
  let s := s.askFiling (.sync source (s.sync.offsets.get source) s.tracker.cycle
    { lost := source, period := period, misses := 3 })
  let s := (s.raise .sync).tellEngine (.abort .syncLoss)
  s.enterSearch (s.sync.nextPosition s.tracker.position)

/-- A missed boundary (R12, R15, R16, R17). -/
def State.missBoundary (s : State) (g : Grid) : State :=
  let s := { s with tracker := { s.tracker with missed := satInc16 s.tracker.missed } }
  match s.tracker.state with
  | .warmup => s.enterSearch s.tracker.position
  | .locked =>
    ({ s with tracker := { s.tracker with misses := 1, grid := some { g with holdMark := true } } }).moveTo .holdover
  | .holdover =>
    if 3 ≤ s.tracker.misses + 1 then s.syncLoss
    else { s with tracker := { s.tracker with misses := s.tracker.misses + 1 } }
  | .search => s

/-- LATE_ZONE_CLOSE (R12): the late zone of the boundary at T closes at T + floor(P / 8). -/
def execLateZoneClose (s : State) : Host.Outcome State Fault Refusal :=
  match s.tracker.grid with
  | none => .next s
  | some g =>
    if g.boundary.closed then .next s
    else
      let g := { g with boundary := { g.boundary with closed := true } }
      let s := s.reach (g.start + g.period / 8)
      let s := { s with tracker := { s.tracker with grid := some g } }
      if g.boundary.matched.isSome then .next s else .next (s.missBoundary g)

/-! ### Cycle starts (R9, R10, R31, R108) -/

/-- The hand-offs of the last cycle boundary have been taken (log entry 19). -/
def Transit.boundaryClear (x : Transit) : Bool :=
  x.engine.isEmpty && x.exams.isEmpty && x.copies.isEmpty && x.reports.isEmpty

/-- A cycle can end: its 96 sets have been delivered (R25), the late zone of its start has closed (R12, R13), and the hand-offs
of its own start have been taken (log entry 19). -/
def State.cycleComplete (s : State) (g : Grid) : Bool :=
  decide (s.front.assembly.rows.length = 96) && g.boundary.closed && s.transit.boundaryClear

/-- The grid after a cycle start (R9, R10). -/
def Grid.next (g : Grid) (holdover : Bool) : Grid :=
  { start := g.start + g.period, period := g.nextPeriod, nextPeriod := g.nextPeriod
    boundary := { matched := g.early, closed := false }, early := none
    prev := some { start := g.start, period := g.period, boundary := g.boundary }
    nextInstant := 0, holdMark := holdover }

/-- The end of the cycle in progress at the three blocks: the Front End replaces its buffer (R31), the Gap Detector has the
cycle to examine (R109), the Engine is handed the end (R9). -/
def State.endCycle (s : State) (n : Word32) (holdover : Bool) : State :=
  let s := s.tellEngine (.cycleEnd n holdover)
  { s with
    front := { s.front with buffer := { valid := true, cycle := n, rows := s.front.assembly.rows } }
    gap := { s.gap with ended := s.gap.inHand }
    transit := { s.transit with exams := Group.all } }

/-- CYCLE_START (R9, R10, R31). -/
def execCycleStart (s : State) : Host.Outcome State Fault Refusal :=
  match s.tracker.grid with
  | none => .next s
  | some g =>
    if s.cycleComplete g then
      let s := s.reach (g.start + g.period)
      let n := s.tracker.cycle
      let s := s.endCycle n g.holdMark
      let s :=
        { s with
          tracker := { s.tracker with cycle := n + 1, grid := some (g.next (s.tracker.state == TrackerState.holdover)) } }
      .next (s.beginCycle (n + 1))
    else .next s

/-- INSTANT (R9, R24, R25): the next instant falls, and the nine inputs are held together. -/
def execInstant (inputs : PerChannel Int) (s : State) : Host.Outcome State Fault Refusal :=
  match s.tracker.grid with
  | none => .next s
  | some g =>
    if g.nextInstant < 96 ∧ s.front.conversion = none then
      let s := s.reach (g.start + g.nextInstant * g.period / 96)
      .next
        { s with
          front := { s.front with conversion := some { index := g.nextInstant, cycle := s.tracker.cycle, inputs := inputs, held := s.now } }
          tracker := { s.tracker with grid := some { g with nextInstant := g.nextInstant + 1 } } }
    else .next s

/-! ### Requests of the tracker (R14, R19, R21, R22) -/

/-- The period in use, and the next period; 0 in SEARCH (R6). -/
def Tracker.period (k : Tracker) : Nat :=
  match k.grid with
  | some g => g.period
  | none => 0
def Tracker.nextPeriod (k : Tracker) : Nat :=
  match k.grid with
  | some g => g.nextPeriod
  | none => 0

/-- The frequency in mHz (R14). -/
def Tracker.frequency (k : Tracker) : Nat :=
  match k.grid with
  | some g => 10000000000 / g.period
  | none => 0

/-- The search time in ms (R22). -/
def State.searchTime (s : State) : Nat :=
  match s.tracker.searchStart with
  | some start => (s.now - start) / 10000
  | none => 0

/-- New sync settings restart the tracker (R21, R23): qualifier reset, window aborted for `cause`, notice SYNC, SEARCH on the
first entry. R44 leaves open whether the abort or the grid stop of the entry into SEARCH reaches the Engine first; here, as in
`State.syncLoss`, the abort is handed first, which is the model's choice and shows in no outcome (log entry 32). -/
def State.restartTracker (s : State) (y : SyncSettings) (cause : AbortCause) : State :=
  let s := { s with sync := y, qualifier := .reset }
  ((s.tellEngine (.abort cause)).raise .sync).enterSearch 1

/-- The owner of SET-SYNC (R21, R189). -/
def ownSetSync (body : List Byte) (s : State) : Answer × State :=
  match walkSync body with
  | .error (code, detail) => (.refuse code detail, s)
  | .ok y => (.accept [], s.restartTracker y .setSync)

/-- The owner of READ-SYNC (R22). -/
def ownReadSync (s : State) : Answer × State :=
  let k := s.tracker
  (.accept (syncBytes s.sync ++ [k.state.code, s.sourceInEffect.code, b8 k.position, b8 s.offsetInEffect]
    ++ le32 k.period ++ le32 k.nextPeriod ++ le16 k.frequency ++ [b8 k.warmUp, b8 k.misses] ++ le32 s.searchTime
    ++ le32 k.cycle.toNat ++ le16 k.spurious.toNat ++ le16 k.missed.toNat ++ le16 k.losses.toNat
    ++ le16 k.rotations.toNat), s)

end Sys2Proof.Machine
end

