-- ==== Sys2Proof/Machine/Settings.lean ====
section
/-! DEFINITION. The Settings Store (chapter 10): SAVE-SETTINGS and its completion, LOAD-DEFAULTS, RESTART, IDENTIFY; and the
start of resets, the end of a reset and the end of start-up. -/

namespace Sys2Proof.Machine

/-! ### Saving (R207 to R209) -/

/-- The working settings as a save takes them: pending values where present (R207, R52, R87). -/
def State.savedSettings (s : State) : WorkingSettings :=
  { sync := s.sync, window := s.engine.pendingW.getD s.engine.w
    profiles := .ofFn fun i => (s.table.get i).pendingProfile.getD (s.table.get i).active
    notices := s.notices.settings, lines := s.lines.settings }

/-- The check value of settings in their stored order (R206). -/
def settingsCheck (c : WorkingSettings) : Word16 := crc16 (Config.imageBytes c)

/-- An accepted SAVE-SETTINGS (R207). That the image keeps its contents and check value until the save ends is the model's choice (R208;
log entry 41). -/
def State.beginSave (s : State) : State :=
  { s with
    settings :=
      { s.settings with
        saving := true
        snapshot := some { contents := s.savedSettings, check := settingsCheck s.savedSettings, accepted := s.now }
        imageValid := false
        image := { s.settings.image with mark := false } } }

/-- The owner of SAVE-SETTINGS (R207). -/
def ownSaveSettings (s : State) : Answer × State := (.accept [], s.beginSave)

/-- The three check values agree (R209): of the contents read back, of the snapshot, and the one read back. -/
def checksAgree (contents : WorkingSettings) (check snapshot : Word16) : Bool :=
  settingsCheck contents == snapshot && check == snapshot

/-- The image as the save writes it: the snapshot's contents and check value, its valid mark still erased (R206, R208). -/
def Snapshot.written (x : Snapshot) : Image := { contents := x.contents, check := x.check, mark := false }

/-- The image after the verification (R209): the written one with its valid mark, or what the memory read back as, without it (log
entry 16). -/
def Snapshot.verified (x : Snapshot) (contents : WorkingSettings) (check : Word16) : Image :=
  if checksAgree contents check x.check then { x.written with mark := true }
  else { contents := contents, check := check, mark := false }

/-- The Settings Store after a completion with the image given: OK exactly when its valid mark is written (R209). -/
def SettingsStore.complete (st : SettingsStore) (m : Image) : SettingsStore :=
  { st with
    image := m
    imageValid := m.mark
    saving := false
    snapshot := none
    lastSave := if m.mark then .ok else .failed }

/-- SAVE_COMPLETION (R209), no later than 150 ms after the acceptance (R208). -/
def execSaveCompletion (time : Nat) (contents : WorkingSettings) (check : Word16) (s : State) :
    Host.Outcome State Fault Refusal :=
  match s.settings.snapshot with
  | none => .next s
  | some x =>
    if x.accepted ≤ time ∧ time ≤ x.accepted + 1500000 then
      let s := s.reach time
      let st := s.settings.complete (x.verified contents check)
      .next (({ s with settings := st }).raise .save)
    else .next s

/-! ### LOAD-DEFAULTS (R217) -/

/-- The Subject Table takes every naming in flight. -/
def State.takeNamings (s : State) : State :=
  s.transit.namings.flatten.foldl State.nameOne { s with transit := { s.transit with namings := [] } }

/-- LOAD-DEFAULTS at the Engine, and what the Table takes of it before LOAD-DEFAULTS itself: of a running window, the naming of the
abort or nothing, which R83 leaves open (log entry 14). Otherwise the naming stays in flight. -/
def State.abortForDefaults (s : State) : State :=
  if s.engine.running && Config.tableTakesAbortFirst s.freeIndex then s.defaultEngine.takeNamings else s.defaultEngine

/-- One subject's part of LOAD-DEFAULTS handed to the Verdict Unit and the Gap Detector (R83). -/
def State.defaultSubject (s : State) (i : Subject) : State :=
  (s.order i .loadDefaults).clearingFor i .loadDefaults

/-- An accepted LOAD-DEFAULTS (R217, R23, R52, R83, R167, R178): every part of the working settings is replaced in this event. -/
def State.loadDefaults (s : State) : State :=
  let s := { s.abortForDefaults with freeIndex := s.freeIndex + 1 }
  let s := s.restartTracker .default .loadDefaults
  let s := Subject.all.foldl State.defaultSubject { s with table := tableReset defaultProfiles }
  let s := (s.raise .profile).setLines defaultLines
  { s with notices := s.notices.replace .default, settings := { s.settings with source := .defaults } }

/-- The owner of LOAD-DEFAULTS (R217). -/
def ownLoadDefaults (s : State) : Answer × State := (.accept [], s.loadDefaults)

/-! ### RESTART and IDENTIFY (R218, R220) -/

/-- The owner of RESTART (R218): the mark is set; the reset follows the reply. -/
def ownRestart (s : State) : Answer × State :=
  (.accept [], { s with settings := { s.settings with restartPending := true } })

/-- The owner of IDENTIFY (R220, R226). -/
def ownIdentify (s : State) : Answer × State :=
  (.accept (le16 0x5347 ++ le16 740 ++ [2, 4, 9, 96, 48, 12, 16, 12, 4]
    ++ [s.settings.lastCause.code, s.settings.source.code, flagByte s.settings.imageValid] ++ le32 s.store.counter), s)

/-! ### Resets (R211, R227) -/

/-- The detector's release level of 2.95 V in a POWER reset (R227): a supply above it starts the 2 ms, or lets them run; any other
supply ends them, so that a supply between the two levels keeps the reset. -/
def State.watchRelease (s : State) (millivolts : Nat) : State :=
  match s.phase with
  | .inReset .power _ => { s with supplyGood := if 2950 < millivolts then some (s.supplyGood.getD s.now) else none }
  | .inReset .pin _ | .inReset .request _ | .startUp _ | .running => s

/-- POWER_RESET (R211, R227): the power-on detector sees the supply. Below 2.85 V it begins a POWER reset; from there on it watches for
the release level (log entry 24). -/
def execPowerReset (time millivolts : Nat) (s : State) : Host.Outcome State Fault Refusal :=
  if millivolts < 2850 then .next ((s.reach time).beginReset .power) else .next ((s.reach time).watchRelease millivolts)

/-- PIN_RESET (R211): RSTN low for 2 µs or more begins a PIN reset; a shorter low level is ignored. -/
def execPinReset (time low : Nat) (s : State) : Host.Outcome State Fault Refusal :=
  if 20 ≤ low then .next ((s.reach time).beginReset .pin) else .next (s.reach time)

/-- A reset of the present phase ends at tick `t` (R211, R227): when the supply has stayed above the release level for 2 ms for POWER,
with RSTN high for PIN, 100 µs after its begin for REQUEST (log entry 24). -/
def State.resetEndsAt (s : State) (kind : Cause) (began t : Nat) : Bool :=
  match kind with
  | .power => s.supplyGood == some (t - 20000) && decide (20000 ≤ t)
  | .pin => decide (began ≤ t)
  | .request => decide (t = began + 1000)

/-- The start-up test of the image (R214). -/
def Image.passes (m : Image) : Bool := m.mark && settingsCheck m.contents == m.check && contentsOk m.contents

/-- The settings a start-up loads (R214). -/
def Image.loaded (m : Image) : WorkingSettings := if m.passes then m.contents else .default

/-- Start-up begins at tick `t`: straps taken, settings loaded (R179, R213, R214). -/
def State.beginStartUp (s : State) (t : Nat) (straps : Straps) : State :=
  let m := s.settings.image
  let w := m.loaded
  { s with
    phase := .startUp t
    supplyGood := none
    sync := w.sync
    engine := .reset w.window
    table := tableReset w.profiles
    notices := .reset w.notices
    lines := .reset w.lines
    link := .reset straps.address straps.baudsel
    settings :=
      { s.settings with imageValid := m.passes, source := if m.passes then .image else .defaults } }

/-- RESET_END (R213, R214). -/
def execResetEnd (time : Nat) (straps : Straps) (s : State) : Host.Outcome State Fault Refusal :=
  match s.phase with
  | .inReset kind began =>
    if s.resetEndsAt kind began time then .next ((s.reach time).beginStartUp time straps) else .next s
  | .startUp _ => .next s
  | .running => .next s

/-! ### The end of start-up (R215) -/

/-- A subject at the end of start-up (R86, R89): WAITING with its enabling handed to the Verdict Unit when its profile says so. -/
def State.startSubject (s : State) (i : Subject) : State :=
  let e := s.table.get i
  if e.active.enabledAtStart then (s.setEntry i { e with state := .waiting }).order i .startUp else s

/-- The end of start-up, at tick `t`, at the five blocks (R215). -/
def State.endStartUp (s : State) (t : Nat) : State :=
  let s := { s.enterSearch 1 with qualifier := .reset }
  let s := (Subject.all.foldl State.startSubject s).setLines s.lines.settings
  { s.huntAt t with
    phase := .running
    notices := s.notices.take .restart }

/-- END_OF_START_UP (R215), no later than 25 ms after start-up began (R213). -/
def execEndOfStartUp (time : Nat) (s : State) : Host.Outcome State Fault Refusal :=
  match s.phase with
  | .startUp began =>
    if began ≤ time ∧ time ≤ began + 250000 then .next ((s.reach time).endStartUp time) else .next s
  | .inReset _ _ => .next s
  | .running => .next s

end Sys2Proof.Machine
end

