-- ==== Sys2Proof/Machine/Link.lean ====
section
/-! DEFINITION. The Link Controller (chapter 9): characters, timers, frames, dispatch with the common checks, replies,
READ-STATUS, CLEAR-COUNTERS. -/

namespace Sys2Proof.Machine

/-! ### READ-STATUS and CLEAR-COUNTERS (R200, R202, R225, R226) -/

/-- A subject's flags byte: gap-any (0 for BUS) and pending profile (R225). -/
def State.subjectFlags (s : State) (i : Subject) : Byte :=
  let gapAny := match i.group? with
    | some g => (s.gap.groups.get g).gapAny
    | none => false
  b8 ((if gapAny then 1 else 0) + (if (s.table.get i).pendingProfile.isSome then 2 else 0))

/-- A subject's four bytes of READ-STATUS (R225). -/
def State.subjectStatus (s : State) (i : Subject) : List Byte :=
  let e := s.verdicts.get i
  [(s.table.get i).state.code, e.condition.code, b8 e.counter, s.subjectFlags i]

/-- The retained records present (R152). -/
def CaptureStore.retainedCount (st : CaptureStore) : Nat := (st.entries.filter (·.retained)).length

/-- The sync counters in reply order (R200). -/
def Tracker.counterBytes (k : Tracker) : List Byte :=
  le16 k.spurious.toNat ++ le16 k.missed.toNat ++ le16 k.losses.toNat ++ le16 k.rotations.toNat

/-- The link counters in reply order (R199). -/
def Link.counterBytes (k : Link) : List Byte :=
  le16 k.requests.toNat ++ le16 k.framing.toNat ++ le16 k.checks.toNat ++ le16 k.cancels.toNat

/-- The READ-STATUS reply (R200, R225). -/
def State.statusBytes (s : State) : List Byte :=
  [s.tracker.state.code, s.sourceInEffect.code] ++ le16 s.tracker.frequency ++ s.tracker.counterBytes
    ++ le32 s.engine.windowNumber.toNat ++ [b8 s.engine.w, s.engine.pendingByte, flagByte s.engine.running]
    ++ Subject.all.flatMap s.subjectStatus
    ++ [b8 s.store.entries.length, b8 s.store.retainedCount] ++ le16 s.store.drops.toNat
    ++ [flagByte s.settings.saving, s.settings.lastSave.code, flagByte s.notices.anyNotice, s.link.address.setWidth 8,
      flagByte s.link.fast]
    ++ s.link.counterBytes

/-- The owner of READ-STATUS (R200). -/
def ownReadStatus (s : State) : Answer × State := (.accept s.statusBytes, s)

/-- The nine counters set to 0 (R202). -/
def State.clearCounters (s : State) : State :=
  { s with
    tracker := { s.tracker with spurious := 0, missed := 0, losses := 0, rotations := 0 }
    link := { s.link with requests := 0, framing := 0, checks := 0, cancels := 0 }
    store := { s.store with drops := 0 } }

/-- The owner of CLEAR-COUNTERS (R202, R226). -/
def ownClearCounters (s : State) : Answer × State :=
  (.accept (s.tracker.counterBytes ++ s.link.counterBytes ++ le16 s.store.drops.toNat), s.clearCounters)

/-! ### Dispatch (R187 to R193) -/

/-- The owner of a request takes it and answers (R192). -/
def ownerTakes (k : RequestKind) (body : List Byte) (s : State) : Answer × State :=
  match k with
  | .identify => ownIdentify s
  | .readStatus => ownReadStatus s
  | .clearCounters => ownClearCounters s
  | .setSync => ownSetSync body s
  | .readSync => ownReadSync s
  | .setWindow => ownSetWindow body s
  | .setProfile => ownSetProfile body s
  | .readProfile => ownReadProfile body s
  | .enable => ownEnable body s
  | .disable => ownDisable body s
  | .readResult => ownReadResult body s
  | .clearGap => ownClearGap body s
  | .capture => ownCapture body s
  | .readRecord => ownReadRecord body s
  | .readWave => ownReadWave body s
  | .retain => ownRetain body s
  | .release => ownRelease body s
  | .retainMap => ownRetainMap body s
  | .markFirst => ownMarkFirst body s
  | .markLast => ownMarkLast body s
  | .purge => ownPurge s
  | .setNotices => ownSetNotices body s
  | .fetchNotices => ownFetchNotices body s
  | .setLines => ownSetLines body s
  | .readLines => ownReadLines s
  | .saveSettings => ownSaveSettings s
  | .loadDefaults => ownLoadDefaults s
  | .restart => ownRestart s

/-- The refusal of the length check (R189), if any. -/
def lengthRefusal (k : RequestKind) (body : List Byte) : Option Answer :=
  match k.fixedLength with
  | none => none
  | some n => if body.length = n then none else some (.refuse .length n)

/-- The common checks in order, then the owner (R187 to R190). -/
def answerRequest (kind : Byte) (body : List Byte) (s : State) : Answer × State :=
  match kindOf kind with
  | none => (.refuse .unknown 0, s)
  | some k =>
    match lengthRefusal k body with
    | some refusal => (refusal, s)
    | none => if k.inBusySet && s.settings.saving then (.refuse .busy 0, s) else ownerTakes k body s

/-- The two effects of dispatch that come before the checks (R187, R149): the request count, and the purge marks. -/
def State.countRequest (s : State) (kind : Byte) : State :=
  let s := { s with link := { s.link with requests := satInc16 s.link.requests } }
  match kindOf kind with
  | none => { s with store := s.store.clearMarks }
  | some k => if k.keepsMarks then s else { s with store := s.store.clearMarks }

/-- The Link Controller in another state. -/
def State.linkTo (s : State) (x : LinkState) : State := { s with link := { s.link with state := x } }

/-- What follows the outcome of a broadcast frame (R193, R218): HUNT, or the REQUEST reset of an accepted RESTART. -/
def State.afterBroadcast (s : State) : State :=
  if s.settings.restartPending then s.beginReset .request else s.linkTo .hunt

/-- A good frame dispatched at tick `t`, the end of the stop bit of its high check byte (R187, R192, R193, R194). -/
def State.dispatch (s : State) (t : Nat) (broadcast : Bool) (tag kind : Byte) (body : List Byte) : State :=
  let r := answerRequest kind body (s.countRequest kind)
  if broadcast then r.2.afterBroadcast
  else r.2.linkTo (.turnaround (replyBytes s.link.address tag kind r.1) t)

/-! ### Characters (R181 to R186, R195) -/

/-- A discarded frame that counts as a framing error (R181 to R183). -/
def State.framingError (s : State) : State :=
  { s with link := { s.link with state := .hunt, framing := satInc16 s.link.framing } }

/-- A start byte cancels the held reply; the REQUEST reset of a RESTART begins in the same event (R195, R218). -/
def State.cancelReply (s : State) (next : LinkState) : State :=
  let s := { s with link := { s.link with state := next, cancels := satInc16 s.link.cancels } }
  if s.settings.restartPending then s.beginReset .request else s

/-- The class of a frame by its address byte (R184). -/
def Link.classOf (k : Link) (a : Byte) : AddrClass :=
  if a = k.address.setWidth 8 then .own else if a = 0xFF then .broadcast else .foreign

/-- The length of a whole frame after its start byte, once its length byte is in. -/
def frameLength (got : List Byte) : Nat := 6 + u8At got 3

/-- A complete frame of the own or broadcast class: checked, and dispatched when good (R186, R187). -/
def State.checkFrame (s : State) (t : Nat) (broadcast : Bool) (got : List Byte) : State :=
  let n := u8At got 3
  let payload := got.take (4 + n)
  if (crc16 payload).toNat = u8At got (4 + n) + 256 * u8At got (5 + n) then
    s.dispatch t broadcast (got.getD 1 0) (got.getD 2 0) (payload.drop 4)
  else { s with link := { s.link with state := .hunt, checks := satInc16 s.link.checks } }

/-- A character placed in the frame (R182, R184): `got` is the frame so far with the character. -/
def State.placeCharacter (s : State) (t : Nat) (got : List Byte) (cls : AddrClass) : State :=
  if got.length = 4 ∧ 240 < u8At got 3 then s.framingError
  else if 4 ≤ got.length ∧ got.length = frameLength got then
    match cls with
    | .own => s.checkFrame t false got
    | .broadcast => s.checkFrame t true got
    | .foreign => s.linkTo .hunt
    | .unknown => s.linkTo .hunt
  else s.linkTo (.receive got cls t)

/-- An inter-byte timer that ran out before a character ending at tick `t` began (R183): the frame is gone (log entry 30). At the very
moment of the expiry the character joins the frame, unless INTER_BYTE_TIMEOUT is taken first. -/
def State.lapse (s : State) (t : Nat) : State :=
  match s.link.state with
  | .receive _ _ last => if last + 20000 + s.link.charTicks 1 < t then s.framingError else s
  | .off | .hunt | .turnaround _ _ | .send _ _ => s

/-- A character taken (R181). -/
def State.takeCharacter (s : State) (t : Nat) (value : Byte) (stopError : Bool) : State :=
  match s.link.state with
  | .off => s
  | .send _ _ => s
  | .hunt => if value = startByte ∧ stopError = false then s.linkTo (.receive [] .unknown t) else s
  | .turnaround _ _ =>
    if value = startByte ∧ stopError = false then s.cancelReply (.receive [] .unknown t) else s
  | .receive got cls _ =>
    if stopError then s.framingError
    else s.placeCharacter t (got ++ [value]) (if got.isEmpty then s.link.classOf value else cls)

/-- A character whose stop bit ended at tick `t` (R181, R183). -/
def State.characterAt (s : State) (t : Nat) (value : Byte) (stopError : Bool) : State :=
  ((s.reach t).lapse t).takeCharacter t value stopError

/-- CHARACTER (R181). -/
def execCharacter (time : Nat) (value : Byte) (stopError : Bool) (s : State) : Host.Outcome State Fault Refusal :=
  .next (s.characterAt time value stopError)

/-- INTER_BYTE_TIMEOUT (R183). -/
def execInterByteTimeout (s : State) : Host.Outcome State Fault Refusal :=
  match s.link.state with
  | .receive _ _ last => .next (s.reach (last + 20000)).framingError
  | .off | .hunt | .turnaround _ _ | .send _ _ => .next s

/-- REPLY_BEGIN (R194): 0.5 ms to 5 ms after the request's end. -/
def execReplyBegin (time : Nat) (s : State) : Host.Outcome State Fault Refusal :=
  match s.link.state with
  | .turnaround reply start =>
    if start + 5000 ≤ time ∧ time ≤ start + 50000 then .next ((s.reach time).linkTo (.send reply time)) else .next s
  | .off | .hunt | .receive _ _ _ | .send _ _ => .next s

/-- REPLY_END (R196, R218). -/
def execReplyEnd (s : State) : Host.Outcome State Fault Refusal :=
  match s.link.state with
  | .send reply start =>
    let ended := start + s.link.charTicks reply.length
    let s := s.reach ended
    if s.settings.restartPending then .next (s.beginReset .request) else .next (s.huntAt ended)
  | .off | .hunt | .receive _ _ _ | .turnaround _ _ => .next s

/-! ### Whole frames (log entry 6) -/

/-- A frame met where a frame may begin or is being collected: dispatched, unless its length byte is above 240 (R182). -/
def State.meetFrame (s : State) (kind : Byte) (f : Frame) : State :=
  if 240 < f.body.length then s.framingError else s.dispatch f.time f.broadcast f.tag kind f.body

/-- The tick at which the start byte of a whole frame was taken: six characters and the body before the end of its high check byte, the
frame's characters standing back to back (R179; log entries 6 and 36). -/
def Link.startByteTick (k : Link) (f : Frame) : Nat := f.time - k.charTicks (6 + f.body.length)

/-- The bytes of a frame as characters back to back, the last of which ends at tick `t`, each with the tick at which it ends (R179; log
entries 6 and 36). -/
def Link.timed (k : Link) (t : Nat) : List Byte → List (Nat × Byte)
  | [] => []
  | b :: rest => (t - k.charTicks rest.length, b) :: k.timed t rest

/-- The characters of a whole good frame of kind `kind` to this station, or broadcast (11.1). -/
def Link.frameCharacters (k : Link) (kind : Byte) (f : Frame) : List (Nat × Byte) :=
  k.timed f.time (frameBytes (if f.broadcast then 0xFF else k.address.setWidth 8) f.tag kind f.body)

/-- The characters of a frame that end at tick `first` or later, taken one by one (R181). -/
def State.takeRest (s : State) (kind : Byte) (f : Frame) (first : Nat) : State :=
  ((s.link.frameCharacters kind f).filter fun c => decide (first ≤ c.1)).foldl (fun s c => s.characterAt c.1 c.2 false) s

/-- A whole good frame of kind `kind` reaches the Link Controller. OFF does not receive it and SEND discards it (R181). Elsewhere:
- in HUNT it is taken when its start byte came after HUNT was entered (R215); of a frame begun before, the rest is hunted through, and a
  value 0xC5 among it opens a frame (R181, R196, R203);
- in RECEIVE it is the frame being collected when its start byte came no later than the last character taken; a frame that began after
  that character is taken character by character, into the frame being collected or after its timer (R181, R183);
- in TURNAROUND its start byte cancels the held reply, and the reset of a RESTART begins at that start byte and loses the frame (R195,
  R218). -/
def State.receiveFrame (s : State) (kind : Byte) (f : Frame) : State :=
  let began := s.link.startByteTick f
  match s.link.state with
  | .off => s.reach f.time
  | .send _ _ => s.reach f.time
  | .hunt =>
    if s.link.huntFrom ≤ began then (s.reach f.time).meetFrame kind f else s.takeRest kind f s.link.huntFrom
  | .receive _ _ last =>
    if s.link.huntFrom ≤ began ∧ began ≤ last then (s.reach f.time).meetFrame kind f else s.takeRest kind f (last + 1)
  | .turnaround _ start =>
    if s.link.huntFrom ≤ began ∧ start ≤ began then
      if s.settings.restartPending then (s.reach began).cancelReply .hunt
      else ((s.reach f.time).cancelReply .hunt).meetFrame kind f
    else s.takeRest kind f (start + 1)

/-- UNDEFINED_KIND (R188): a frame of the kind byte given (log entry 27). -/
def execUndefinedKind (kind : Byte) (f : Frame) (s : State) : Host.Outcome State Fault Refusal :=
  .next (s.receiveFrame kind f)

/-- IDENTIFY (R220). -/
def execIdentify (f : Frame) (s : State) : Host.Outcome State Fault Refusal :=
  .next (s.receiveFrame RequestKind.identify.code f)

/-- READ-STATUS (R200). -/
def execReadStatus (f : Frame) (s : State) : Host.Outcome State Fault Refusal :=
  .next (s.receiveFrame RequestKind.readStatus.code f)

/-- CLEAR-COUNTERS (R202). -/
def execClearCounters (f : Frame) (s : State) : Host.Outcome State Fault Refusal :=
  .next (s.receiveFrame RequestKind.clearCounters.code f)

/-- SET-SYNC (R21). -/
def execSetSync (f : Frame) (s : State) : Host.Outcome State Fault Refusal :=
  .next (s.receiveFrame RequestKind.setSync.code f)

/-- READ-SYNC (R22). -/
def execReadSync (f : Frame) (s : State) : Host.Outcome State Fault Refusal :=
  .next (s.receiveFrame RequestKind.readSync.code f)

/-- SET-WINDOW (R49, R50). -/
def execSetWindow (f : Frame) (s : State) : Host.Outcome State Fault Refusal :=
  .next (s.receiveFrame RequestKind.setWindow.code f)

/-- SET-PROFILE (R75 to R77). -/
def execSetProfile (f : Frame) (s : State) : Host.Outcome State Fault Refusal :=
  .next (s.receiveFrame RequestKind.setProfile.code f)

/-- READ-PROFILE (R81). -/
def execReadProfile (f : Frame) (s : State) : Host.Outcome State Fault Refusal :=
  .next (s.receiveFrame RequestKind.readProfile.code f)

/-- ENABLE (R67, R68). -/
def execEnable (f : Frame) (s : State) : Host.Outcome State Fault Refusal :=
  .next (s.receiveFrame RequestKind.enable.code f)

/-- DISABLE (R67, R69, R70). -/
def execDisable (f : Frame) (s : State) : Host.Outcome State Fault Refusal :=
  .next (s.receiveFrame RequestKind.disable.code f)

/-- READ-RESULT (R102). -/
def execReadResult (f : Frame) (s : State) : Host.Outcome State Fault Refusal :=
  .next (s.receiveFrame RequestKind.readResult.code f)

/-- CLEAR-GAP (R121). -/
def execClearGap (f : Frame) (s : State) : Host.Outcome State Fault Refusal :=
  .next (s.receiveFrame RequestKind.clearGap.code f)

/-- CAPTURE (R132 to R134). -/
def execCapture (f : Frame) (s : State) : Host.Outcome State Fault Refusal :=
  .next (s.receiveFrame RequestKind.capture.code f)

/-- READ-RECORD (R136 to R138). -/
def execReadRecord (f : Frame) (s : State) : Host.Outcome State Fault Refusal :=
  .next (s.receiveFrame RequestKind.readRecord.code f)

/-- READ-WAVE (R141, R142). -/
def execReadWave (f : Frame) (s : State) : Host.Outcome State Fault Refusal :=
  .next (s.receiveFrame RequestKind.readWave.code f)

/-- RETAIN (R143). -/
def execRetain (f : Frame) (s : State) : Host.Outcome State Fault Refusal :=
  .next (s.receiveFrame RequestKind.retain.code f)

/-- RELEASE (R144). -/
def execRelease (f : Frame) (s : State) : Host.Outcome State Fault Refusal :=
  .next (s.receiveFrame RequestKind.release.code f)

/-- RETAIN-MAP (R146). -/
def execRetainMap (f : Frame) (s : State) : Host.Outcome State Fault Refusal :=
  .next (s.receiveFrame RequestKind.retainMap.code f)

/-- MARK-FIRST (R147). -/
def execMarkFirst (f : Frame) (s : State) : Host.Outcome State Fault Refusal :=
  .next (s.receiveFrame RequestKind.markFirst.code f)

/-- MARK-LAST (R148). -/
def execMarkLast (f : Frame) (s : State) : Host.Outcome State Fault Refusal :=
  .next (s.receiveFrame RequestKind.markLast.code f)

/-- PURGE (R150). -/
def execPurge (f : Frame) (s : State) : Host.Outcome State Fault Refusal :=
  .next (s.receiveFrame RequestKind.purge.code f)

/-- SET-NOTICES (R175, R176). -/
def execSetNotices (f : Frame) (s : State) : Host.Outcome State Fault Refusal :=
  .next (s.receiveFrame RequestKind.setNotices.code f)

/-- FETCH-NOTICES (R172 to R174). -/
def execFetchNotices (f : Frame) (s : State) : Host.Outcome State Fault Refusal :=
  .next (s.receiveFrame RequestKind.fetchNotices.code f)

/-- SET-LINES (R163 to R165). -/
def execSetLines (f : Frame) (s : State) : Host.Outcome State Fault Refusal :=
  .next (s.receiveFrame RequestKind.setLines.code f)

/-- READ-LINES (R166). -/
def execReadLines (f : Frame) (s : State) : Host.Outcome State Fault Refusal :=
  .next (s.receiveFrame RequestKind.readLines.code f)

/-- SAVE-SETTINGS (R207). -/
def execSaveSettings (f : Frame) (s : State) : Host.Outcome State Fault Refusal :=
  .next (s.receiveFrame RequestKind.saveSettings.code f)

/-- LOAD-DEFAULTS (R217). -/
def execLoadDefaults (f : Frame) (s : State) : Host.Outcome State Fault Refusal :=
  .next (s.receiveFrame RequestKind.loadDefaults.code f)

/-- RESTART (R218). -/
def execRestart (f : Frame) (s : State) : Host.Outcome State Fault Refusal :=
  .next (s.receiveFrame RequestKind.restart.code f)

end Sys2Proof.Machine
end

