-- ==== Sys2Proof/Machine/Dispatch.lean ====
section
/-! DEFINITION. The dispatch of commands to their meanings: one arm per row of the table. -/

namespace Sys2Proof.Machine

def exec (i : Instr) (s : State) : Host.Outcome State Fault Refusal :=
  match i with
  | .acceptedTransition => Sys2Proof.Machine.execAcceptedTransition s
  | .edge => Sys2Proof.Machine.execEdge s
  | .lateZoneClose => Sys2Proof.Machine.execLateZoneClose s
  | .searchTimerExpiry => Sys2Proof.Machine.execSearchTimerExpiry s
  | .cycleStart => Sys2Proof.Machine.execCycleStart s
  | .sampleSet time => Sys2Proof.Machine.execSampleSet time s
  | .windowStart => Sys2Proof.Machine.execWindowStart s
  | .cycleEnd => Sys2Proof.Machine.execCycleEnd s
  | .windowAbort => Sys2Proof.Machine.execWindowAbort s
  | .disableMessage => Sys2Proof.Machine.execDisableMessage s
  | .windowEndNaming => Sys2Proof.Machine.execWindowEndNaming s
  | .windowReport sub => Sys2Proof.Machine.execWindowReport sub s
  | .abortReport sub => Sys2Proof.Machine.execAbortReport sub s
  | .verdictOrder sub => Sys2Proof.Machine.execVerdictOrder sub s
  | .gapExamination g => Sys2Proof.Machine.execGapExamination g s
  | .copyRequest n => Sys2Proof.Machine.execCopyRequest n s
  | .filing n => Sys2Proof.Machine.execFiling n s
  | .noticeRaise c => Sys2Proof.Machine.execNoticeRaise c s
  | .indicationChange x => Sys2Proof.Machine.execIndicationChange x s
  | .pulseTimerExpiry l => Sys2Proof.Machine.execPulseTimerExpiry l s
  | .character time value stopError => Sys2Proof.Machine.execCharacter time value stopError s
  | .interByteTimeout => Sys2Proof.Machine.execInterByteTimeout s
  | .replyBegin time => Sys2Proof.Machine.execReplyBegin time s
  | .replyEnd => Sys2Proof.Machine.execReplyEnd s
  | .undefinedKind kind f => Sys2Proof.Machine.execUndefinedKind kind f s
  | .identify f => Sys2Proof.Machine.execIdentify f s
  | .readStatus f => Sys2Proof.Machine.execReadStatus f s
  | .clearCounters f => Sys2Proof.Machine.execClearCounters f s
  | .setSync f => Sys2Proof.Machine.execSetSync f s
  | .readSync f => Sys2Proof.Machine.execReadSync f s
  | .setWindow f => Sys2Proof.Machine.execSetWindow f s
  | .setProfile f => Sys2Proof.Machine.execSetProfile f s
  | .readProfile f => Sys2Proof.Machine.execReadProfile f s
  | .enable f => Sys2Proof.Machine.execEnable f s
  | .disable f => Sys2Proof.Machine.execDisable f s
  | .readResult f => Sys2Proof.Machine.execReadResult f s
  | .clearGap f => Sys2Proof.Machine.execClearGap f s
  | .capture f => Sys2Proof.Machine.execCapture f s
  | .readRecord f => Sys2Proof.Machine.execReadRecord f s
  | .readWave f => Sys2Proof.Machine.execReadWave f s
  | .retain f => Sys2Proof.Machine.execRetain f s
  | .release f => Sys2Proof.Machine.execRelease f s
  | .retainMap f => Sys2Proof.Machine.execRetainMap f s
  | .markFirst f => Sys2Proof.Machine.execMarkFirst f s
  | .markLast f => Sys2Proof.Machine.execMarkLast f s
  | .purge f => Sys2Proof.Machine.execPurge f s
  | .setNotices f => Sys2Proof.Machine.execSetNotices f s
  | .fetchNotices f => Sys2Proof.Machine.execFetchNotices f s
  | .setLines f => Sys2Proof.Machine.execSetLines f s
  | .readLines f => Sys2Proof.Machine.execReadLines f s
  | .saveSettings f => Sys2Proof.Machine.execSaveSettings f s
  | .saveCompletion time contents check => Sys2Proof.Machine.execSaveCompletion time contents check s
  | .loadDefaults f => Sys2Proof.Machine.execLoadDefaults f s
  | .restart f => Sys2Proof.Machine.execRestart f s
  | .powerReset time millivolts => Sys2Proof.Machine.execPowerReset time millivolts s
  | .pinReset time low => Sys2Proof.Machine.execPinReset time low s
  | .resetEnd time straps => Sys2Proof.Machine.execResetEnd time straps s
  | .endOfStartUp time => Sys2Proof.Machine.execEndOfStartUp time s
  | .qualifierSample time inputs => Sys2Proof.Machine.execQualifierSample time inputs s
  | .instant inputs => Sys2Proof.Machine.execInstant inputs s
  | .detectorClearingEvent g => Sys2Proof.Machine.execDetectorClearingEvent g s

end Sys2Proof.Machine
end

