-- ==== Sys2Proof/Safety.lean ====
section
/-! DEFINITION. What counts as a safe run in the terms claims use. -/

namespace Sys2Proof.Machine

/-- An outcome that is a next state: neither a fault nor a refusal. -/
def goesOn (o : Host.Outcome State Fault Refusal) : Prop := ∃ t, o = .next t

end Sys2Proof.Machine
end

