-- ==== Sys2Proof/Certificates/Slice0/Obligations.lean ====
section
/-! DEFINITION. The statements for the provers, block by block, and the few notions they share. -/

namespace Sys2Proof.Machine

/-! ### Notions the statements share -/

/-- The period that follows from a measured period `m` and an error `e`, as R13 words it. -/
def periodAfter (m e : Int) : Nat := (max 153847 (min (m + e.tdiv 4) 250000)).toNat

/-- The time between the match at `t` and the match of the boundary before; the period in use when that one was missed (R13). -/
def spacingSince (g : Grid) (t : Nat) (before : Option Nat) : Int :=
  match before with
  | some t0 => (t : Int) - (t0 : Int)
  | none => (g.period : Int)

/-- R11 and R13: an edge of time `t` matches a boundary of the grid `g` with error `e` and measured period `m`, `pc` is the period
of the cycle in which it falls, and `g'` is the grid that records it. First case: the late zone of the cycle in progress. Second: its
early zone. Third: the early zone of the cycle before, handed over after the cycle start. -/
def matchesBoundary (g : Grid) (t : Nat) (e m : Int) (pc : Nat) (g' : Grid) : Prop :=
  (g.start ≤ t ∧ t ≤ g.start + g.period / 8 ∧ t < g.start + g.period ∧ g.boundary = ⟨none, false⟩ ∧ pc = g.period
    ∧ e = (t : Int) - g.start ∧ m = spacingSince g t (g.prev.bind fun p => p.boundary.matched)
    ∧ g' = { g with boundary := ⟨some t, false⟩, nextPeriod := periodAfter m e })
  ∨ (g.start + g.period / 8 < t ∧ g.start + g.period ≤ t + g.period / 8 ∧ t < g.start + g.period ∧ g.early = none
    ∧ pc = g.period ∧ e = (t : Int) - (g.start + g.period) ∧ m = spacingSince g t g.boundary.matched
    ∧ g' = { g with early := some t, nextPeriod := periodAfter m e })
  ∨ (∃ p, g.prev = some p ∧ p.start ≤ t ∧ t < g.start ∧ p.start + p.period ≤ t + p.period / 8 ∧ g.boundary = ⟨none, false⟩
    ∧ pc = p.period ∧ e = (t : Int) - (p.start + p.period) ∧ m = spacingSince g t p.boundary.matched
    ∧ g' = { g with boundary := ⟨some t, false⟩, nextPeriod := periodAfter m e })

/-- R11: an edge of time `t` is spurious on the grid `g`: between the zones of the cycle in progress, or in a zone whose boundary
holds a match or was missed, or in the cycle before and outside its early zone. -/
def isSpurious (g : Grid) (t : Nat) : Prop :=
  (g.start + g.period / 8 < t ∧ t + g.period / 8 < g.start + g.period)
  ∨ (g.start ≤ t ∧ t ≤ g.start + g.period / 8 ∧ t < g.start + g.period ∧ (g.boundary.matched.isSome ∨ g.boundary.closed))
  ∨ (g.start + g.period / 8 < t ∧ g.start + g.period ≤ t + g.period / 8 ∧ t < g.start + g.period ∧ g.early.isSome)
  ∨ (∃ p, g.prev = some p ∧ t < g.start ∧ t + p.period / 8 < p.start + p.period)
  ∨ (∃ p, g.prev = some p ∧ t < g.start ∧ p.start + p.period ≤ t + p.period / 8
      ∧ (g.boundary.matched.isSome ∨ g.boundary.closed))

/-- A sample is due at tick `t` (R2): 10 ticks after the sample before. The first after a reset sets the phase of the clock, not before
the present tick (log entry 37). -/
def State.sampleDue (s : State) (t : Nat) : Prop :=
  (s.sampled = none ∧ s.now ≤ t) ∨ ∃ last, s.sampled = some last ∧ t = last + 10

/-- The qualifier after its oldest edge is taken. -/
def Qualifier.taken (q : Qualifier) (rest : List Nat) : Qualifier := { q with edges := rest }

/-- The list position after the present one, wrapping to the first (R1). -/
def State.positionAfter (s : State) : Nat := if s.tracker.position < s.sync.list.length then s.tracker.position + 1 else 1

/-- The tracker just after an entry into SEARCH at a position and a tick, with its counters as given (R6). -/
def Tracker.searching (k : Tracker) (position now : Nat) : Tracker :=
  { k with state := .search, position := position, remembered := none, searchStart := some now, warmUp := 0, misses := 0,
           grid := none }

/-- The Front End and the Gap Detector after a grid stop: the cycle in progress is gone (R6, R30, R108). -/
def FrontEnd.stopped (f : FrontEnd) : FrontEnd := { f with conversion := none, assembly := ⟨none, []⟩ }
def GapDetector.stopped (d : GapDetector) : GapDetector := { d with inHand := ⟨none, []⟩ }

/-- The sample that a set's row gives a subject's view (R27): S is the exact sum, marked when either code is. -/
def viewSample (row : Row) (i : Subject) (vw : View) : Reading :=
  match i.group?, vw with
  | some g, .a => (row.cur.get g).a
  | some g, .b => (row.cur.get g).b
  | some g, .s =>
    { code := (row.cur.get g).a.code + (row.cur.get g).b.code, clip := (row.cur.get g).a.clip || (row.cur.get g).b.clip }
  | some _, .v => row.vb
  | none, _ => row.vb

/-- A view's accumulator set after the k-th sample (R54, R55). -/
def ViewAcc.after (a : ViewAcc) (k : Nat) (x : Reading) : ViewAcc :=
  { a with
    sum := a.sum + x.code
    max := some (match a.max with | none => x.code | some m => Max.max m x.code)
    min := some (match a.min with | none => x.code | some m => Min.min m x.code)
    clip := a.clip || x.clip
    pairs := a.pairs.map fun o =>
      { o with i := o.i + x.code * cosTable (o.order * k % 96), q := o.q + x.code * sinTable (o.order * k % 96) } }

/-- The channels of a subject's waveform (R104, R118, R127, R133): IAn and IBn of group n, VB of BUS. -/
def channelsByRule : Subject → List Channel
  | .g0 => [.bridge .g0 .a, .bridge .g0 .b]
  | .g1 => [.bridge .g1 .a, .bridge .g1 .b]
  | .g2 => [.bridge .g2 .a, .bridge .g2 .b]
  | .g3 => [.bridge .g3 .a, .bridge .g3 .b]
  | .bus => [.vb]

/-- A waveform of a subject copied from the rows of a cycle (R127): for each channel the codes in index order and the count of those with
the clip mark. -/
def waveByRule (i : Subject) (cycle : Word32) (rows : List Row) : Waveform :=
  { cycle := cycle
    channels := (channelsByRule i).map fun ch =>
      { channel := ch, codes := rows.map fun x => (x.get ch).code, clipped := rows.countP fun x => (x.get ch).clip } }

/-- A filing that goes on with its copy (R104, R118): an EXCEED filing holds its subject's waveform, a GAP filing its group's, and a SYNC
filing none (R126). -/
def filingWithCopy (f : Filing) (cycle : Word32) (rows : List Row) : Filing :=
  match f with
  | .exceed i stamp counter summary exceeded _ => .exceed i stamp counter summary exceeded (some (waveByRule i cycle rows))
  | .gap .g0 stamp part _ => .gap .g0 stamp part (some (waveByRule .g0 cycle rows))
  | .gap .g1 stamp part _ => .gap .g1 stamp part (some (waveByRule .g1 cycle rows))
  | .gap .g2 stamp part _ => .gap .g2 stamp part (some (waveByRule .g2 cycle rows))
  | .gap .g3 stamp part _ => .gap .g3 stamp part (some (waveByRule .g3 cycle rows))
  | .sync source offset stamp part => .sync source offset stamp part

/-- The level of an order (R60). -/
def levelByRule (i q : Int) (n reference : Nat) : Nat :=
  Min.min 65535 (5000 * Nat.sqrt ((i.natAbs / 4096) ^ 2 + (q.natAbs / 4096) ^ 2) / (n * reference))

/-- The ripple level of a view (R59): the greatest less the least sample, in ten-thousandths of the reference, limited to 65535. A view
without a sample, which no report has, counts as 0 (log entry 28). -/
def ViewAcc.rippleByRule (a : ViewAcc) : Nat :=
  match a.max, a.min with
  | some greatest, some least => Min.min 65535 ((greatest - least).toNat * 10000 / a.reference)
  | none, _ => 0
  | _, none => 0

/-- What a window of `n` samples yields for a view (R58 to R60). -/
def ViewAcc.yields (a : ViewAcc) (n : Nat) : ViewReport :=
  { view := a.view, mean := a.sum.tdiv n, ripple := a.rippleByRule, clip := a.clip,
    levels := a.pairs.map fun o => (o.order, levelByRule o.i o.q n a.reference) }

/-- The engine with no window running, `w` in use and none pending (R35, R42, R45). -/
def Engine.idleWith (e : Engine) (w : Nat) (number : Word32) (ended : Bool) : Engine :=
  { e with w := w, pendingW := none, running := false, windowNumber := number, firstCycle := 0, completed := 0,
           sampleCount := 0, holdover := false, participants := [], justEnded := ended }

/-- The notice PROFILE of a pending W that is applied (R42, R45). -/
def Engine.profileNotice (e : Engine) : List NoticeClass := if e.pendingW.isSome then [.profile] else []

/-- The naming of a window's participants; none for a window without participants (R42, R45). -/
def Engine.namingOf (e : Engine) : List (List Subject) :=
  if e.participants.isEmpty then [] else [e.participants.map (·.subject)]

/-- A 16-bit counter one higher, and a 32-bit count one higher, each stopping at its end (R100, R199). -/
def countUp16 (x : Word16) : Word16 := if x = 65535 then x else x + 1
def countUp32 (x : Word32) : Word32 := if x = 4294967295 then x else x + 1

/-- The counter after an outcome (R97). -/
def counterByRule (counter : Nat) (outcome : LastOutcome) (step : Nat) : Nat :=
  if outcome = .exceed then Min.min 15 (counter + step) else if outcome = .pass then counter - 1 else counter

/-- The condition from the condition before a move, the outcome and the counter after it (R93, R94, R98): kept unless the outcome is
EXCEED or PASS, and ALARM entered by EXCEED only. -/
def conditionByRule (before : Condition) (outcome : LastOutcome) (counter threshold : Nat) : Condition :=
  if outcome ≠ .exceed ∧ outcome ≠ .pass then before
  else if counter = 0 then .healthy
  else if before = .alarm ∨ (outcome = .exceed ∧ threshold ≤ counter) then .alarm
  else .watch

/-- The COND notice of a subject (R99): COND-G0 to COND-G3 for the groups, COND-BUS for the bus. -/
def condClassByRule : Subject → NoticeClass | .g0 => .condG0 | .g1 => .condG1 | .g2 => .condG2 | .g3 => .condG3 | .bus => .condBus

/-- What a change of a subject's condition hands on (R99): the subject's COND notice, and the condition for the Alarm Line Driver. -/
def condNotice (i : Subject) (before after : Condition) : List NoticeClass := if after = before then [] else [condClassByRule i]
def condChange (i : Subject) (before after : Condition) : List Change := if after = before then [] else [.condition i after]

/-- The gap-any indication of a group (R107): true while one of its twelve latches is set. -/
def anyLatchSet (x : GapGroup) : Bool :=
  ([.a, .b] : List Side).any fun d => (List.finRange 6).any fun j => (x.latches.get d).get j

/-- What a change of a group's gap-any indication hands on (R119). -/
def gapChange (g : Group) (before after : Bool) : List Change := if after = before then [] else [.gapAny g after]

/-- Whether a report's level of the entry's view and quantity is above the entry's limit (R95). -/
def isExceeded (r : WindowReport) (e : LimitEntry) : Prop :=
  ∃ v ∈ r.views, v.view = e.view ∧
    match e.quantity with
    | .ripple => e.limit < v.ripple
    | .order h => ∃ level, (h, level) ∈ v.levels ∧ e.limit < level

/-- The order a subject's verdict entry obeys (R105): enabled mark, counter and condition, results entry and last outcome, counts. -/
def VerdictEntry.afterOrder (e : VerdictEntry) : VerdictOrder → VerdictEntry
  | .enable => { e with enabled := true, judged := 0, exceeded := 0 }
  | .disable activated =>
    { enabled := false, counter := 0, condition := .healthy, results := none, last := .none
      judged := if activated then 0 else e.judged, exceeded := if activated then 0 else e.exceeded }
  | .activation =>
    { e with counter := 0, condition := .healthy, results := none, last := .none, judged := 0, exceeded := 0 }
  | .loadDefaults =>
    { enabled := false, counter := 0, condition := .healthy, results := none, last := .none, judged := 0, exceeded := 0 }
  | .startUp => { e with enabled := true }

/-- The codes and marks of a bridge over the ended cycle (R107), its sector sums (R111, R113) and its cycle sum (R113). -/
def State.bridgeCycle (s : State) (g : Group) (d : Side) : List Reading := s.gap.ended.rows.map fun row => (row.get g).get d
def sumOfSector (xs : List Reading) (o j : Nat) : Int :=
  ((List.range 16).map fun i => (xs.getD ((o + 16 * j + i) % 96) ⟨0, false⟩).code).sum
def sumOfCycle (xs : List Reading) : Int := (xs.map fun x => x.code).sum

/-- R116: the counter of sector `j` after an examination at the sector base `o` by the gap part `p`; R114 says when a bridge is judged,
R115 when a sector is short. -/
def counterAfterExam (p : GapPart) (xs : List Reading) (o j counter : Nat) : Nat :=
  if (xs.all fun x => !x.clip) ∧ ((96 * p.floor : Nat) : Int) ≤ sumOfCycle xs then
    if 600 * sumOfSector xs o j < (p.percent : Int) * sumOfCycle xs then Min.min p.cycles (counter + 1) else 0
  else counter

/-- The sectors whose latch is set in `after` and was clear in `before`, ascending. -/
def newlySet (before after : PerSector Bool) : List Nat :=
  ((List.finRange 6).filter fun j => !before.get j && after.get j).map fun j => j.val

/-- The condition under which ATTN is pulled low (R171). -/
def attnByRule (latches : PerClass NoticeLatch) (n : NoticeSettings) : Bool :=
  n.master && NoticeClass.all.any fun c => (latches.get c).latch && n.enable.get c && decide (n.floor ≤ n.level.get c)

/-- A selected item of a line is true (R157). -/
def someItemTrue (l : LineSettings) (x : Indications) : Prop :=
  (∃ i, l.subjects.get i = .watch ∧ x.conditions.get i ≠ .healthy) ∨ (∃ i, l.subjects.get i = .alarm ∧ x.conditions.get i = .alarm)
    ∨ (∃ g, l.gaps.get g = true ∧ x.gapAny.get g = true) ∨ (l.syncAbsent = true ∧ x.syncAbsent = true)

/-- A line put to a source state at tick `t` (R159, R160, R165): the phase, timer and pin by its mode. -/
def lineFrom (l : LineSettings) (source : Bool) (t : Nat) : LineRun :=
  if source = true ∧ l.pulsed = true then
    { source := true, phase := .on, timer := some (t + l.onTime * 100000), pin := .active }
  else { source := source, phase := .idle, timer := none, pin := if source then .active else .inactive }

/-- The default sync settings (R1). -/
def syncDefaults : SyncSettings :=
  { list := [.sya], offsets := { sya := 0, syb := 32, syc := 64 }, polarity := .rising, depth := 4, warmUpTarget := 16 }

/-- The default profile of a group, and of BUS (R82). -/
def groupDefaults : Profile :=
  { enabledAtStart := false, waveOnExceed := false, threshold := 4, floor := 0, limits := []
    body := .group { reference := 16000, orders := [] } { reference := 16000, orders := [] } { reference := 16000, orders := [] }
      { enable := false, offsets := { a := 0, b := 8 }, percent := 50, cycles := 3, floor := 0 } }
def busDefaults : Profile :=
  { enabledAtStart := false, waveOnExceed := false, threshold := 4, floor := 0, limits := []
    body := .bus { reference := 16000, orders := [] } }

/-- The default notice settings (R170): every enable on, level 3 for the conditions and GAP, 2 for SYNC and 1 for the rest, the attention
floor 1 and the master enable on. -/
def noticeDefaults : NoticeSettings :=
  { enable :=
      { restart := true, sync := true, condG0 := true, condG1 := true, condG2 := true, condG3 := true, condBus := true, gap := true
        clip := true, store := true, profile := true, save := true }
    level :=
      { restart := 1, sync := 2, condG0 := 3, condG1 := 3, condG2 := 3, condG3 := 3, condBus := 3, gap := 3
        clip := 1, store := 1, profile := 1, save := 1 }
    floor := 1, master := true }

/-- The default settings of an alarm line (R156): nothing selected, STEADY, ACTIVE-LOW, on-time and off-time 50. -/
def lineDefaults : LineSettings :=
  { subjects := { g0 := .none, g1 := .none, g2 := .none, g3 := .none, bus := .none }
    gaps := { g0 := false, g1 := false, g2 := false, g3 := false }, syncAbsent := false, pulsed := false, activeHigh := false
    onTime := 50, offTime := 50 }

/-- The default working settings (R1, R36, R82, R156, R170). -/
def settingsDefaults : WorkingSettings :=
  { sync := syncDefaults, window := 4, notices := noticeDefaults
    profiles := { g0 := groupDefaults, g1 := groupDefaults, g2 := groupDefaults, g3 := groupDefaults, bus := busDefaults }
    lines := { alm0 := lineDefaults, alm1 := lineDefaults, alm2 := lineDefaults, alm3 := lineDefaults } }

/-- Legal notice settings (R170): every level and the attention floor are at most 3. -/
def noticesLegal (n : NoticeSettings) : Prop := (∀ c, n.level.get c ≤ 3) ∧ n.floor ≤ 3

/-- Legal line settings (R156, R163): every on-time and off-time is 1 to 255. -/
def linesLegal (ls : PerLine LineSettings) : Prop :=
  ∀ l, 1 ≤ (ls.get l).onTime ∧ (ls.get l).onTime ≤ 255 ∧ 1 ≤ (ls.get l).offTime ∧ (ls.get l).offTime ≤ 255

/-- The contents of an image that every request's checks would pass (R214). -/
def contentsLegal (c : WorkingSettings) : Prop :=
  syncOk c.sync = true ∧ c.window ∈ [2, 4, 8, 16] ∧ (∀ i, profileOk i (c.profiles.get i) = true)
  ∧ noticesLegal c.notices ∧ linesLegal c.lines

/-- What the start of a reset of kind `c` at tick `t` leaves of the state `s` (R4, R23, R34, R36, R84, R89, R123, R154, R155, R167, R178,
R203, R210 to R212). Eight values are the model's and not the rules': the list position 1 and the run start 0 (log entry 9), the
comparators kept (log entry 8), the sample clock without a phase (log entry 37), no good supply seen yet (log entry 24), the station
address and the line speed kept (log entry 10), and the tick 0 from which the Link Controller hunts (log entry 42). -/
def isReset (s : State) (c : Cause) (t : Nat) (u : State) : Prop :=
  u.pending = s.pending ∧ u.now = t ∧ u.phase = .inReset c t ∧ u.comparators = s.comparators
  ∧ u.sampled = none ∧ u.supplyGood = none
  ∧ u.qualifier = { level := none, runCount := 0, runStart := 0, edges := [] }
  ∧ u.tracker =
      { state := .search, position := 1, remembered := none, searchStart := none, warmUp := 0, misses := 0, grid := none
        cycle := 0, spurious := 0, missed := 0, losses := 0, rotations := 0 }
  ∧ u.front.conversion = none ∧ u.front.assembly = ⟨none, []⟩ ∧ u.front.buffer.valid = false ∧ u.front.buffer.cycle = 0
  ∧ u.front.buffer.rows.length = 96 ∧ (∀ row ∈ u.front.buffer.rows, ∀ ch, row.get ch = { code := 0, clip := false })
  ∧ u.engine.running = false ∧ u.engine.participants = [] ∧ u.engine.windowNumber = 0 ∧ u.engine.pendingW = none
  ∧ (∀ i, (u.table.get i).state = .disabled ∧ (u.table.get i).pendingProfile = none)
  ∧ (∀ i, u.verdicts.get i =
      { enabled := false, counter := 0, condition := .healthy, results := none, last := .none, judged := 0, exceeded := 0 })
  ∧ (∀ g d j, ((u.gap.groups.get g).counters.get d).get j = 0 ∧ ((u.gap.groups.get g).latches.get d).get j = false)
  ∧ u.gap.inHand = ⟨none, []⟩
  ∧ u.store =
      (if c = .power then { entries := [], counter := 1, cursor := 0, firstMark := none, lastMark := none, drops := 0 }
        else { s.store with cursor := 0, firstMark := none, lastMark := none })
  ∧ (∀ x, u.notices.latches.get x = { latch := false, count := 0 }) ∧ u.notices.attn = false
  ∧ (∀ l, u.lines.run.get l = { source := false, phase := .idle, timer := none, pin := .highZ })
  ∧ u.link = { s.link with state := .off, requests := 0, framing := 0, checks := 0, cancels := 0, huntFrom := 0 }
  ∧ (s.settings.saving = false → u.settings.image = s.settings.image)
  ∧ (s.settings.saving = true → u.settings.image.mark = false)
  ∧ u.settings.saving = false ∧ u.settings.snapshot = none ∧ u.settings.lastSave = .none
  ∧ u.settings.restartPending = false
  ∧ u.settings.lastCause =
      (if s.phase = .running ∨ c = .power then c
        else if c = .pin then (if s.settings.lastCause = .power then .power else .pin) else s.settings.lastCause)
  ∧ u.transit = ⟨[], [], [], [], [], [], [], [], [], [], [], []⟩

/-- The ticks of one character of ten bits at the line speed, up to the end of its stop bit (R179). -/
def Link.characterTicks (k : Link) : Nat := if k.fast then 869 else 2605

/-- The class of a frame whose address byte is `a` (R184). -/
def Link.addressClass (k : Link) (a : Byte) : AddrClass :=
  if a.toNat = k.address.toNat then .own else if a = 0xFF then .broadcast else .foreign

/-- The ticks of `n` characters of ten bits back to back (R179), rounded up to a whole tick (log entry 36). -/
def Link.ticksOf (k : Link) (n : Nat) : Nat := if k.fast then (n * 100000000 + 115199) / 115200 else (n * 100000000 + 38399) / 38400

/-- The tick at which the start byte of a frame ended, its characters back to back: six characters and the body before its end (log entry
6). -/
def Link.startTick (k : Link) (f : Frame) : Nat := f.time - k.ticksOf (6 + f.body.length)

/-- A frame can be taken now: the controller hunts, and did when the start byte came (R215), the length byte can carry the body, and no
RESTART waits. -/
def State.hears (s : State) (f : Frame) : Prop :=
  s.link.state = .hunt ∧ f.body.length ≤ 240 ∧ s.settings.restartPending = false ∧ s.link.huntFrom ≤ s.link.startTick f

/-- The state when a request has been counted at dispatch (R187): the frame's tick, the request count one up, the purge marks absent
unless the kind keeps them. -/
def State.counted (s : State) (k : RequestKind) (f : Frame) : State :=
  { s with
    now := Max.max s.now f.time
    link := { s.link with requests := countUp16 s.link.requests }
    store := if k.keepsMarks then s.store else { s.store with firstMark := none, lastMark := none } }

/-- The state after the answer `a`: an own frame's reply is held from the frame's end, a broadcast leaves the controller in HUNT (R192
to R194). -/
def State.answered (s : State) (k : RequestKind) (f : Frame) (a : Answer) : State :=
  { s with
    link :=
      { s.link with
        state := if f.broadcast then .hunt else .turnaround (replyBytes s.link.address f.tag k.code a) f.time } }

/-! ### Bytes, the check value, and the layouts of replies -/

/-- The codes of the enumerations (R222). HIGH-Z has none, and no reply is formed while a pin is HIGH-Z (log entry 28). -/
def sourceCode : Source → Byte | .sya => 0 | .syb => 1 | .syc => 2
def polarityCode : Polarity → Byte | .rising => 0 | .falling => 1
def trackerCode : TrackerState → Byte | .search => 0 | .warmup => 1 | .locked => 2 | .holdover => 3
def subjectStateCode : SubjectState → Byte | .disabled => 0 | .waiting => 1 | .measuring => 2
def conditionCode : Condition → Byte | .healthy => 0 | .watch => 1 | .alarm => 2
def outcomeCode : LastOutcome → Byte | .none => 0 | .aborted => 1 | .clipped => 2 | .lowload => 3 | .exceed => 4 | .pass => 5
def viewCode : View → Byte | .a => 0 | .b => 1 | .s => 2 | .v => 3
def quantityCode : Quantity → Byte | .order h => BitVec.ofNat 8 h | .ripple => 255
def recordKindCode : RecordKind → Byte | .exceed => 0 | .gap => 1 | .manual => 2 | .sync => 3
def selectionCode : Selection → Byte | .none => 0 | .watch => 1 | .alarm => 2
def linePhaseCode : LinePhase → Byte | .idle => 0 | .on => 1 | .off => 2
def pinCode : Pin → Byte | .inactive => 0 | .active => 1 | .highZ => 0
def saveCode : SaveResult → Byte | .none => 0 | .ok => 1 | .failed => 2
def causeCode : Cause → Byte | .power => 0 | .pin => 1 | .request => 2
def settingsSourceCode : SettingsSource → Byte | .image => 0 | .defaults => 1

/-- A flag: 0 clear, 1 set (R222). -/
def flagOf (b : Bool) : Byte := if b then 1 else 0

/-- The `k` bytes of a number, low byte first (R222). -/
def bytesOf (k n : Nat) : List Byte := (List.range k).map fun j => BitVec.ofNat 8 (n / 256 ^ j)

/-- A mean in four bytes of two's complement (R222). -/
def meanByRule (x : Int) : List Byte := bytesOf 4 (x % 4294967296).toNat

/-- One bit into the check register (R185). -/
def checkBit (r : Nat) (bit : Bool) : Nat :=
  if decide (32768 ≤ r) = bit then 2 * r % 65536 else (2 * r % 65536) ^^^ 0x1021

/-- The check value of a run of bytes, bit by bit, most significant bit of each byte first (R185). -/
def checkByRule (bytes : List Byte) : Nat :=
  (bytes.flatMap fun b => [7, 6, 5, 4, 3, 2, 1, 0].map fun i => b.getLsbD i).foldl checkBit 0xFFFF

/-- (order, level) pairs with their count (R222, R224). -/
def pairsByRule (levels : List (Nat × Nat)) : List Byte :=
  bytesOf 1 levels.length ++ levels.flatMap fun p => bytesOf 1 p.1 ++ bytesOf 2 p.2

/-- A results entry in the order of R101's fields; that its views have no count byte is the model's reading (log entry 22). -/
def resultsByRule (r : ResultsEntry) : List Byte :=
  bytesOf 4 r.number.toNat ++ bytesOf 1 r.w ++ bytesOf 4 r.firstCycle.toNat ++ bytesOf 4 r.lastCycle.toNat
    ++ bytesOf 1 (match r.outcome with | .none => 0 | .aborted => 1 | .clipped => 2 | .lowload => 3 | .exceed => 4 | .pass => 5)
    ++ bytesOf 1 (if r.holdover then 1 else 0)
    ++ r.views.flatMap (fun v => bytesOf 1 (if v.clip then 1 else 0) ++ meanByRule v.mean ++ bytesOf 2 v.ripple ++ pairsByRule v.levels)
    ++ bytesOf 1 r.exceeded.length ++ r.exceeded.flatMap (bytesOf 1) ++ bytesOf 1 r.counter
    ++ bytesOf 1 (match r.condition with | .healthy => 0 | .watch => 1 | .alarm => 2)

/-- Sector flags in one byte, bit j for sector j (R222). -/
def sectorsByRule (isSet : Fin 6 → Bool) : List Byte :=
  bytesOf 1 (((List.finRange 6).map fun j => if isSet j then 2 ^ j.val else 0).sum)

/-- The channel numbers (chapter 2.1): IA0 and IB0 are 0 and 1, up to IA3 and IB3 at 6 and 7, and VB is 8. -/
def channelNumber : Channel → Nat
  | .bridge .g0 .a => 0 | .bridge .g0 .b => 1
  | .bridge .g1 .a => 2 | .bridge .g1 .b => 3
  | .bridge .g2 .a => 4 | .bridge .g2 .b => 5
  | .bridge .g3 .a => 6 | .bridge .g3 .b => 7
  | .vb => 8

/-- The settings of a line in eleven bytes (R163, R166): the selections of G0, G1, G2, G3 and BUS, the gap selections added up with 1 for
G0, 2 for G1, 4 for G2 and 8 for G3, the sync-absent selection, the mode, the polarity, the on-time and the off-time. -/
def lineByRule (l : LineSettings) : List Byte :=
  [selectionCode (l.subjects.get .g0), selectionCode (l.subjects.get .g1), selectionCode (l.subjects.get .g2),
    selectionCode (l.subjects.get .g3), selectionCode (l.subjects.get .bus),
    BitVec.ofNat 8 ((if l.gaps.get .g0 then 1 else 0) + (if l.gaps.get .g1 then 2 else 0) + (if l.gaps.get .g2 then 4 else 0)
      + (if l.gaps.get .g3 then 8 else 0)),
    flagOf l.syncAbsent, flagOf l.pulsed, flagOf l.activeHigh, BitVec.ofNat 8 l.onTime, BitVec.ofNat 8 l.offTime]

/-- The settings of the line whose eleven bytes begin at an offset of a SET-LINES body (R163). -/
def isLineAt (l : LineSettings) (body : List Byte) (o : Nat) : Prop :=
  (∀ k i, (k, i) ∈ ([(0, .g0), (1, .g1), (2, .g2), (3, .g3), (4, .bus)] : List (Nat × Subject)) →
    (l.subjects.get i = .none ↔ u8At body (o + k) = 0) ∧ (l.subjects.get i = .watch ↔ u8At body (o + k) = 1)
      ∧ (l.subjects.get i = .alarm ↔ u8At body (o + k) = 2))
  ∧ (∀ v g, (v, g) ∈ ([(1, .g0), (2, .g1), (4, .g2), (8, .g3)] : List (Nat × Group)) →
    (l.gaps.get g = true ↔ u8At body (o + 5) / v % 2 = 1))
  ∧ (l.syncAbsent = true ↔ u8At body (o + 6) = 1) ∧ (l.pulsed = true ↔ u8At body (o + 7) = 1)
  ∧ (l.activeHigh = true ↔ u8At body (o + 8) = 1) ∧ l.onTime = u8At body (o + 9) ∧ l.offTime = u8At body (o + 10)

/-- A subject's item on a line (R157): WATCH selects the conditions WATCH and ALARM, ALARM selects ALARM, and NONE selects none. -/
def subjectItem : Selection → Condition → Byte
  | .watch, .watch => 1
  | .watch, .alarm => 1
  | .alarm, .alarm => 1
  | _, _ => 0

/-- The ten items of a line as READ-LINES reports them (R157, R166): G0, G1, G2, G3, BUS, the gaps of G0 to G3, sync-absent; an item that is
not selected reads false. -/
def itemsByRule (l : LineSettings) (x : Indications) : List Byte :=
  let subject (i : Subject) : Byte := subjectItem (l.subjects.get i) (x.conditions.get i)
  let gap (g : Group) : Byte := if l.gaps.get g = true ∧ x.gapAny.get g = true then 1 else 0
  [subject .g0, subject .g1, subject .g2, subject .g3, subject .bus, gap .g0, gap .g1, gap .g2, gap .g3,
    if l.syncAbsent = true ∧ x.syncAbsent = true then 1 else 0]

/-- A view's settings, and a limit entry, as SET-PROFILE lays them out (R223). -/
def viewByRule (v : ViewSettings) : List Byte :=
  bytesOf 2 v.reference ++ bytesOf 1 v.orders.length ++ v.orders.flatMap (bytesOf 1)
def limitByRule (e : LimitEntry) : List Byte := [viewCode e.view, quantityCode e.quantity] ++ bytesOf 2 e.limit ++ bytesOf 1 e.step

/-- A profile in the layout of R223 from offset 1 on. -/
def profileByRule (p : Profile) : List Byte :=
  [flagOf p.enabledAtStart, flagOf p.waveOnExceed] ++ bytesOf 1 p.threshold ++ bytesOf 2 p.floor
    ++ (match p.body with
        | .group a b s g =>
          viewByRule a ++ viewByRule b ++ viewByRule s ++ [flagOf g.enable] ++ bytesOf 1 g.offsets.a ++ bytesOf 1 g.offsets.b
            ++ bytesOf 1 g.percent ++ bytesOf 1 g.cycles ++ bytesOf 2 g.floor
        | .bus v => viewByRule v)
    ++ bytesOf 1 p.limits.length ++ p.limits.flatMap limitByRule

/-- Sync settings in the SET-SYNC layout (R222): the entry count, the sources, the offsets of SYA, SYB and SYC, the polarity, Q and W_up. -/
def syncByRule (y : SyncSettings) : List Byte :=
  bytesOf 1 y.list.length ++ y.list.map sourceCode ++ bytesOf 1 y.offsets.sya ++ bytesOf 1 y.offsets.syb ++ bytesOf 1 y.offsets.syc
    ++ [polarityCode y.polarity] ++ bytesOf 1 y.depth ++ bytesOf 1 y.warmUpTarget

/-- The request kinds with their codes (R221), the body lengths they require, none for the two that are walked (R189), and whether their
frames leave the purge marks (R149). -/
def kindTable : List (RequestKind × Nat × Option Nat × Bool) :=
  [(.identify, 0x01, some 0, false), (.readStatus, 0x02, some 0, true), (.clearCounters, 0x03, some 0, false),
    (.setSync, 0x10, none, false), (.readSync, 0x11, some 0, false), (.setWindow, 0x18, some 1, false),
    (.setProfile, 0x20, none, false), (.readProfile, 0x21, some 2, false), (.enable, 0x22, some 1, false),
    (.disable, 0x23, some 1, false), (.readResult, 0x24, some 1, false), (.clearGap, 0x28, some 1, false)]
    ++ [(.capture, 0x30, some 2, false), (.readRecord, 0x31, some 5, false), (.readWave, 0x32, some 7, false),
      (.retain, 0x33, some 4, false), (.release, 0x34, some 4, false), (.retainMap, 0x35, some 4, false),
      (.markFirst, 0x36, some 4, true), (.markLast, 0x37, some 4, true), (.purge, 0x38, some 0, true),
      (.setNotices, 0x40, some 26, false), (.fetchNotices, 0x41, some 1, false), (.setLines, 0x48, some 44, false),
      (.readLines, 0x49, some 0, false), (.saveSettings, 0x50, some 0, false), (.loadDefaults, 0x51, some 0, false),
      (.restart, 0x52, some 0, false)]

/-- A record from offset 7 of the READ-RECORD reply on (R224): number, kind, subject, stamp, source, offset, counter, condition, parts byte,
and the parts present in their order. -/
def recordByRule (r : Record) : List Byte :=
  bytesOf 4 r.number ++ bytesOf 1 (match r.kind with | .exceed => 0 | .gap => 1 | .manual => 2 | .sync => 3)
    ++ bytesOf 1 (match r.subject with | none => 255 | some .g0 => 0 | some .g1 => 1 | some .g2 => 2 | some .g3 => 3 | some .bus => 4)
    ++ bytesOf 4 r.stamp.toNat ++ bytesOf 1 (match r.source with | .sya => 0 | .syb => 1 | .syc => 2) ++ bytesOf 1 r.offset
    ++ bytesOf 1 (match r.verdict with | none => 255 | some x => x.1)
    ++ bytesOf 1 (match r.verdict with | none => 255 | some (_, .healthy) => 0 | some (_, .watch) => 1 | some (_, .alarm) => 2)
    ++ bytesOf 1 ((if r.summary.isSome then 1 else 0) + (if r.exceeded.isSome then 2 else 0) + (if r.gap.isSome then 4 else 0)
      + (if r.sync.isSome then 8 else 0) + (if r.wave.isSome then 16 else 0))
    ++ (match r.summary with
        | none => []
        | some x => bytesOf 4 x.number.toNat
            ++ x.views.flatMap fun v => meanByRule v.mean ++ bytesOf 2 v.ripple ++ pairsByRule v.levels)
    ++ (match r.exceeded with | none => [] | some xs => bytesOf 1 xs.length ++ xs.flatMap (bytesOf 1))
    ++ (match r.gap with
        | none => []
        | some x => [x.a, x.b].flatMap fun y =>
            bytesOf 1 y.base ++ bytesOf 1 ((y.declared.map fun j => 2 ^ j).sum) ++ sectorsByRule y.latches.get)
    ++ (match r.sync with
        | none => []
        | some x => bytesOf 1 (match x.lost with | .sya => 0 | .syb => 1 | .syc => 2) ++ bytesOf 4 x.period ++ bytesOf 1 x.misses)
    ++ (match r.wave with
        | none => []
        | some w => bytesOf 4 w.cycle.toNat ++ bytesOf 1 w.channels.length
            ++ w.channels.flatMap fun c => bytesOf 1 (channelNumber c.channel) ++ bytesOf 1 c.clipped)

/-- A FETCH-NOTICES reply of the classes given (R173): the entry count, each class's number, level and coalesced count, the held count, and
the attention flag. -/
def fetchByRule (n : NoticeUnit) (classes : List NoticeClass) (held : Nat) (attn : Bool) : List Byte :=
  bytesOf 1 classes.length
    ++ classes.flatMap (fun c => bytesOf 1 c.number ++ bytesOf 1 (n.settings.level.get c) ++ bytesOf 1 (n.latches.get c).count)
    ++ bytesOf 1 held ++ bytesOf 1 (if attn then 1 else 0)

/-! ### The fields of a walked body (R21, R75, R76, R189, R223) -/

/-- A field of a body: its offset, its size of one byte or two, and the values it may have. -/
structure BodyField where
  off : Nat
  size : Nat
  allowed : Nat → Prop

/-- The value of a field, low byte first. -/
def BodyField.value (x : BodyField) (body : List Byte) : Nat :=
  if x.size = 2 then u8At body x.off + 256 * u8At body (x.off + 1) else u8At body x.off

/-- A field passes: it lies within the body and has a value it may have. -/
def BodyField.passes (x : BodyField) (body : List Byte) : Prop :=
  x.off + x.size ≤ body.length ∧ x.allowed (x.value body)

/-- The refusal of a field that does not pass: LENGTH when it lies beyond the end, else ARGUMENT, at its offset. -/
def BodyField.refusal (x : BodyField) (body : List Byte) : Answer :=
  if body.length < x.off + x.size then .refuse .length x.off else .refuse .argument x.off

/-- The field `x` is the first of the list that does not pass. -/
def isFirstFailure (fields : List BodyField) (body : List Byte) (x : BodyField) : Prop :=
  ∃ before after, fields = before ++ x :: after ∧ (∀ y ∈ before, y.passes body) ∧ ¬x.passes body

/-- A one-byte field within a range. -/
def byteField (off lo hi : Nat) : BodyField := ⟨off, 1, fun v => lo ≤ v ∧ v ≤ hi⟩

/-- A two-byte field within a range. -/
def wordField (off lo hi : Nat) : BodyField := ⟨off, 2, fun v => lo ≤ v ∧ v ≤ hi⟩

/-- The fields of a SET-SYNC body (R21): the entry count, that many sources, each 0 to 2 and none twice, the three offsets, the polarity,
the depth and the warm-up target. -/
def syncFields (body : List Byte) : List BodyField :=
  let n := u8At body 0
  byteField 0 1 3
    :: (List.range n).map (fun k => ⟨k + 1, 1, fun v => v ≤ 2 ∧ ∀ j, j < k → u8At body (j + 1) ≠ v⟩)
    ++ [byteField (n + 1) 0 95, byteField (n + 2) 0 95, byteField (n + 3) 0 95, byteField (n + 4) 0 1,
      ⟨n + 5, 1, fun v => v ∈ [2, 4, 8, 16]⟩, byteField (n + 6) 4 64]

/-- The `n` bytes of a body from an offset. -/
def ordersAt (body : List Byte) (off n : Nat) : List Nat := (List.range n).map fun k => u8At body (off + k)

/-- The fields of a view whose reference is at an offset: the reference, the order count, and the orders, each above the one before. -/
def viewFields (body : List Byte) (off : Nat) : List BodyField :=
  wordField off 1 32767 :: byteField (off + 2) 0 12
    :: (List.range (u8At body (off + 2))).map
        (fun k => ⟨off + 3 + k, 1, fun v => 1 ≤ v ∧ v ≤ 47 ∧ (0 < k → u8At body (off + 3 + (k - 1)) < v)⟩)

/-- The fields of a gap part at an offset. -/
def gapFields (off : Nat) : List BodyField :=
  [byteField off 0 1, byteField (off + 1) 0 95, byteField (off + 2) 0 95, byteField (off + 3) 10 90, byteField (off + 4) 2 15,
    wordField (off + 5) 0 32767]

/-- The four fields of the limit entry `e` of a list whose count is at `off`; `orders` gives the order list of each view the subject has. -/
def limitFields (body : List Byte) (orders : Nat → Option (List Nat)) (off e : Nat) : List BodyField :=
  let o := off + 1 + 5 * e
  [⟨o, 1, fun v => (orders v).isSome = true⟩,
    ⟨o + 1, 1, fun v => (v = 255 ∨ (1 ≤ v ∧ v ≤ 47 ∧ ∀ xs, orders (u8At body o) = some xs → v ∈ xs))
      ∧ ∀ d, d < e → ¬(u8At body (off + 1 + 5 * d) = u8At body o ∧ u8At body (off + 1 + 5 * d + 1) = v)⟩,
    wordField (o + 2) 1 65535, byteField (o + 4) 1 3]

/-- The offset of the limit count of a SET-PROFILE body (R223). -/
def limitCountAt (body : List Byte) : Nat :=
  if u8At body 0 = 4 then 9 + u8At body 8
  else
    let a := u8At body 8
    let b := u8At body (11 + a)
    22 + a + b + u8At body (14 + a + b)

/-- The offset after the last limit entry of a SET-PROFILE body (R223). -/
def profileEnd (body : List Byte) : Nat := limitCountAt body + 1 + 5 * u8At body (limitCountAt body)

/-- The order list of each view that the subject of a SET-PROFILE body has: A 0, B 1 and S 2 of a group, V 3 of BUS. -/
def profileOrders (body : List Byte) (view : Nat) : Option (List Nat) :=
  let a := u8At body 8
  let b := u8At body (11 + a)
  if u8At body 0 = 4 then (if view = 3 then some (ordersAt body 9 a) else none)
  else
    match view with
    | 0 => some (ordersAt body 9 a)
    | 1 => some (ordersAt body (12 + a) b)
    | 2 => some (ordersAt body (15 + a + b) (u8At body (14 + a + b)))
    | _ => none

/-- The fields of a SET-PROFILE body in order (R76, R223). -/
def profileFields (body : List Byte) : List BodyField :=
  let a := u8At body 8
  let b := u8At body (11 + a)
  [byteField 0 0 4, byteField 1 0 1, byteField 2 0 1, byteField 3 1 15, wordField 4 0 32767]
    ++ (if u8At body 0 = 4 then viewFields body 6
        else viewFields body 6 ++ viewFields body (9 + a) ++ viewFields body (12 + a + b) ++ gapFields (limitCountAt body - 7))
    ++ byteField (limitCountAt body) 0 16
    :: (List.range (u8At body (limitCountAt body))).flatMap (limitFields body (profileOrders body) (limitCountAt body))

end Sys2Proof.Machine

namespace Sys2Proof

/-- The row of a request kind. -/
def RequestKind.row (k : RequestKind) (f : Frame) : Instr :=
  match k with
  | .identify => .identify f
  | .readStatus => .readStatus f
  | .clearCounters => .clearCounters f
  | .setSync => .setSync f
  | .readSync => .readSync f
  | .setWindow => .setWindow f
  | .setProfile => .setProfile f
  | .readProfile => .readProfile f
  | .enable => .enable f
  | .disable => .disable f
  | .readResult => .readResult f
  | .clearGap => .clearGap f
  | .capture => .capture f
  | .readRecord => .readRecord f
  | .readWave => .readWave f
  | .retain => .retain f
  | .release => .release f
  | .retainMap => .retainMap f
  | .markFirst => .markFirst f
  | .markLast => .markLast f
  | .purge => .purge f
  | .setNotices => .setNotices f
  | .fetchNotices => .fetchNotices f
  | .setLines => .setLines f
  | .readLines => .readLines f
  | .saveSettings => .saveSettings f
  | .loadDefaults => .loadDefaults f
  | .restart => .restart f

end Sys2Proof

open Sys2Proof Sys2Proof.Machine

/-! ## The queue and the reset values -/

/-- A step takes the command at the front of the queue and answers its outcome with the queue's rest. On an empty queue the block
idles, which is the model's choice (log entry 2). -/
def Obligations.StepTakesTheFrontCommand : Prop :=
  (∀ (c : Instr) (rest : List Instr) (s : State),
    step { s with pending := c :: rest } = exec c { s with pending := rest })
  ∧ ∀ s : State, s.pending = [] → step s = .next s

/-- Every command answers a next state, leaves the queue as it finds it, and never turns the timebase back. All three are the model's
choice: a row whose event is not due changes nothing (log entry 3), the queue of rows is the model's own (log entry 1), and the timebase
never goes back (log entry 5). -/
def Obligations.EveryCommandGoesOn : Prop :=
  ∀ (c : Instr) (s : State), ∃ t, exec c s = .next t ∧ t.pending = s.pending ∧ s.now ≤ t.now

/-- The values the spec gives the blocks for a POWER reset, in the state right after reset (R4, R23, R34, R36, R84, R89, R123, R154,
R167, R178, R203, R211). Two values are the model's choice: the list position 1, which R23 gives only at the end of start-up (log
entry 9), and the empty queue (log entry 1). -/
def Obligations.ResetValues : Prop :=
  State.reset.pending = []
  ∧ State.reset.qualifier.level = none ∧ State.reset.qualifier.runCount = 0
  ∧ State.reset.tracker =
      { state := .search, position := 1, remembered := none, searchStart := none, warmUp := 0, misses := 0, grid := none,
        cycle := 0, spurious := 0, missed := 0, losses := 0, rotations := 0 }
  ∧ State.reset.front.conversion = none ∧ State.reset.front.assembly = ⟨none, []⟩
  ∧ State.reset.front.buffer.valid = false ∧ State.reset.front.buffer.cycle = 0
  ∧ (State.reset.front.buffer.rows.length = 96
      ∧ ∀ row ∈ State.reset.front.buffer.rows, ∀ ch, row.get ch = { code := 0, clip := false })
  ∧ State.reset.engine.running = false ∧ State.reset.engine.windowNumber = 0 ∧ State.reset.engine.pendingW = none
  ∧ State.reset.engine.participants = []
  ∧ (∀ i, (State.reset.table.get i).state = .disabled ∧ (State.reset.table.get i).pendingProfile = none)
  ∧ (∀ i, State.reset.verdicts.get i =
      { enabled := false, counter := 0, condition := .healthy, results := none, last := .none, judged := 0,
        exceeded := 0 })
  ∧ (∀ g d j, ((State.reset.gap.groups.get g).counters.get d).get j = 0
      ∧ ((State.reset.gap.groups.get g).latches.get d).get j = false)
  ∧ State.reset.gap.inHand = ⟨none, []⟩
  ∧ State.reset.store =
      { entries := [], counter := 1, cursor := 0, firstMark := none, lastMark := none, drops := 0 }
  ∧ (∀ c, State.reset.notices.latches.get c = { latch := false, count := 0 }) ∧ State.reset.notices.attn = false
  ∧ (∀ l, State.reset.lines.run.get l = { source := false, phase := .idle, timer := none, pin := .highZ })
  ∧ State.reset.link.state = .off ∧ State.reset.link.requests = 0 ∧ State.reset.link.framing = 0
  ∧ State.reset.link.checks = 0 ∧ State.reset.link.cancels = 0
  ∧ State.reset.settings.saving = false ∧ State.reset.settings.snapshot = none
  ∧ State.reset.settings.lastSave = .none ∧ State.reset.settings.lastCause = .power
  ∧ State.reset.settings.restartPending = false
  ∧ State.reset.transit = ⟨[], [], [], [], [], [], [], [], [], [], [], []⟩

/-! ## The Sync Tracker -/

/-- QUALIFIER_SAMPLE while the block runs, at a tick of the sample clock: the comparators follow their inputs with the ±25 mV thresholds
(R227), and the level of the source in effect goes into the qualifier (R2, R4). The clock ticks every 10 ticks, from a phase that
the first sample after a reset sets (log entry 37); at any other tick the row changes nothing (log entry 3). An acceptance that is
due is taken first, which is the model's choice (log entry 7). During a reset and start-up the qualifier is stopped (R23). -/
def Says.QualifierSample : Prop :=
  ∀ (s : State) (time : Nat) (inputs : PerSource (List Int)) (levels : PerSource Bool) (high : Bool),
    (∀ src, levels.get src =
      (inputs.get src).foldl (fun h v => if 25000 ≤ v then true else if v ≤ -25000 then false else h)
        (s.comparators.get src)) →
    high = levels.get (s.sync.list.getD (s.tracker.position - 1) .sya) →
    (s.phase ≠ .running ∨ ¬s.sampleDue time → exec (.qualifierSample time inputs) s = .next s)
    ∧ (s.phase = .running → s.sampleDue time → s.qualifier.level = none →
        exec (.qualifierSample time inputs) s =
          .next { s with now := max s.now time, comparators := levels, sampled := some time
                         qualifier := { s.qualifier with level := some high, runCount := 0 } })
    ∧ (s.phase = .running → s.sampleDue time → s.qualifier.level = some high → s.qualifier.runCount < s.sync.depth →
        exec (.qualifierSample time inputs) s =
          .next { s with now := max s.now time, comparators := levels, sampled := some time
                         qualifier := { s.qualifier with runCount := 0 } })
    ∧ (s.phase = .running → s.sampleDue time → s.qualifier.level = some (!high) → s.qualifier.runCount = 0 →
        0 < s.sync.depth →
        exec (.qualifierSample time inputs) s =
          .next { s with now := max s.now time, comparators := levels, sampled := some time
                         qualifier := { s.qualifier with runCount := 1, runStart := time } })
    ∧ (s.phase = .running → s.sampleDue time → s.qualifier.level = some (!high) → 0 < s.qualifier.runCount →
        s.qualifier.runCount < s.sync.depth →
        exec (.qualifierSample time inputs) s =
          .next { s with now := max s.now time, comparators := levels, sampled := some time
                         qualifier := { s.qualifier with runCount := s.qualifier.runCount + 1 } })
    ∧ (∀ accepted, s.phase = .running → s.sampleDue time → 0 < s.sync.depth → exec .acceptedTransition s = .next accepted →
        exec (.qualifierSample time inputs) s = exec (.qualifierSample time inputs) accepted)

/-- ACCEPTED_TRANSITION (R2, R3): a run that has reached Q is accepted. The level becomes the other one, the run count returns to 0,
and the transition is handed on as an edge, dated to the run start, when its direction is the edge polarity. Nothing is accepted
while no level is known or the run is shorter than Q. -/
def Says.AcceptedTransition : Prop :=
  ∀ (s : State) (level : Bool),
    (s.qualifier.level = some level → s.sync.depth ≤ s.qualifier.runCount →
      exec .acceptedTransition s =
        .next { s with
          qualifier :=
            { level := some (!level), runCount := 0, runStart := s.qualifier.runStart
              edges :=
                if (s.sync.polarity = .rising ∧ level = false) ∨ (s.sync.polarity = .falling ∧ level = true) then
                  s.qualifier.edges ++ [s.qualifier.runStart]
                else s.qualifier.edges } })
    ∧ (s.qualifier.level = some level → s.qualifier.runCount < s.sync.depth → exec .acceptedTransition s = .next s)
    ∧ (s.qualifier.level = none → exec .acceptedTransition s = .next s)

/-- The qualifier (R2 to R4, R23, R227): what a sample does, and what the acceptance of a transition does. -/
def Obligations.QualifierSamplesAndAccepts : Prop := Says.QualifierSample ∧ Says.AcceptedTransition

/-- EDGE in SEARCH (R7): the first edge is remembered. A second edge at 153,847 to 250,000 ticks after it starts the grid in WARMUP,
with the new cycle's number and start; at any other interval it takes the remembered edge's place. That the remembered edge
stays as it is when the grid starts is the model's choice (log entry 23). -/
def Obligations.EdgeInSearch : Prop :=
  ∀ (s : State) (t : Nat) (rest : List Nat), s.qualifier.edges = t :: rest → s.tracker.state = .search →
    s.tracker.grid = none →
    (s.tracker.remembered = none →
      exec .edge s =
        .next { s with qualifier := s.qualifier.taken rest, tracker := { s.tracker with remembered := some t } })
    ∧ (∀ t0, s.tracker.remembered = some t0 → t < t0 + 153847 ∨ t0 + 250000 < t →
      exec .edge s =
        .next { s with qualifier := s.qualifier.taken rest, tracker := { s.tracker with remembered := some t } })
    ∧ (∀ t0, s.tracker.remembered = some t0 → t0 + 153847 ≤ t → t ≤ t0 + 250000 →
      exec .edge s =
        .next { s with
          qualifier := s.qualifier.taken rest
          tracker :=
            { s.tracker with
              state := .warmup, searchStart := none, warmUp := 0, misses := 0, cycle := s.tracker.cycle + 1
              grid := some
                { start := t, period := t - t0, nextPeriod := t - t0, boundary := ⟨some t, false⟩, early := none,
                  prev := none, nextInstant := 0, holdMark := false } }
          front := { s.front with assembly := ⟨some (s.tracker.cycle + 1), []⟩ }
          gap := { s.gap with inHand := ⟨some (s.tracker.cycle + 1), []⟩ }
          transit := { s.transit with engine := s.transit.engine ++ [.cycleStart (s.tracker.cycle + 1)] } })

/-- EDGE in LOCKED or HOLDOVER (R11, R13, R16, R17): an edge that matches a boundary is recorded there and corrects the next period.
LOCKED stays LOCKED; HOLDOVER returns to LOCKED with the miss count at 0. With no edge handed over nothing happens. -/
def Says.MatchCorrectsThePeriod : Prop :=
  ∀ (s : State) (t : Nat) (rest : List Nat) (g g' : Grid) (e m : Int) (pc : Nat),
    (s.qualifier.edges = [] → exec .edge s = .next s)
    ∧ (s.qualifier.edges = t :: rest → s.tracker.grid = some g → matchesBoundary g t e m pc g' →
        s.tracker.state = .locked →
        exec .edge s =
          .next { s with qualifier := s.qualifier.taken rest, tracker := { s.tracker with grid := some g' } })
    ∧ (s.qualifier.edges = t :: rest → s.tracker.grid = some g → matchesBoundary g t e m pc g' →
        s.tracker.state = .holdover →
        exec .edge s =
          .next { s with qualifier := s.qualifier.taken rest
                         tracker := { s.tracker with grid := some g', state := .locked, misses := 0 } })

/-- EDGE in WARMUP (R13, R15): a match corrects the next period; a tight one raises the warm-up count and a loose one sets it to 0. The
tight match at which the count reaches W_up enters LOCKED, raises notice SYNC and tells the Alarm Line Driver that sync is no longer
absent (R5). -/
def Says.MatchInWarmUp : Prop :=
  ∀ (s : State) (t : Nat) (rest : List Nat) (g g' : Grid) (e m : Int) (pc : Nat),
    s.qualifier.edges = t :: rest → s.tracker.grid = some g → matchesBoundary g t e m pc g' →
    s.tracker.state = .warmup →
    (((pc / 64 : Nat) : Int) < |e| →
      exec .edge s =
        .next { s with qualifier := s.qualifier.taken rest
                       tracker := { s.tracker with grid := some g', warmUp := 0 } })
    ∧ (|e| ≤ ((pc / 64 : Nat) : Int) → s.tracker.warmUp + 1 < s.sync.warmUpTarget →
      exec .edge s =
        .next { s with qualifier := s.qualifier.taken rest
                       tracker := { s.tracker with grid := some g', warmUp := s.tracker.warmUp + 1 } })
    ∧ (|e| ≤ ((pc / 64 : Nat) : Int) → s.sync.warmUpTarget ≤ s.tracker.warmUp + 1 →
      exec .edge s =
        .next { s with
          qualifier := s.qualifier.taken rest
          tracker := { s.tracker with grid := some g', warmUp := s.tracker.warmUp + 1, state := .locked }
          transit := { s.transit with raises := s.transit.raises ++ [.sync]
                                      changes := s.transit.changes ++ [.syncAbsent false] } })

/-- EDGE while the grid runs (R11, R20): an edge that lies between the zones, or whose boundary holds a match or was missed, raises the
spurious count, which stops at its end, and changes nothing else. -/
def Says.SpuriousEdge : Prop :=
  ∀ (s : State) (t : Nat) (rest : List Nat) (g : Grid), s.qualifier.edges = t :: rest → s.tracker.grid = some g →
    (∀ p, g.prev = some p → g.start = p.start + p.period) → isSpurious g t →
    exec .edge s =
      .next { s with
        qualifier := s.qualifier.taken rest
        tracker :=
          { s.tracker with
            spurious := if s.tracker.spurious = 65535 then 65535 else s.tracker.spurious + 1 } }

/-- EDGE before its cycle has begun: an edge dated at or after T + P of the cycle in progress is not taken before the cycle start, which
is the model's choice (R11; log entry 31). -/
def Says.EdgeOfTheNextCycle : Prop :=
  ∀ (s : State) (t : Nat) (rest : List Nat) (g : Grid), s.qualifier.edges = t :: rest → s.tracker.grid = some g →
    g.start + g.period ≤ t → exec .edge s = .next s

/-- What an edge does while the grid runs (R11, R13, R15 to R17, R20): a match in LOCKED, HOLDOVER or WARMUP, a spurious edge, or an edge
that waits for its cycle. -/
def Obligations.EdgeWhileTheGridRuns : Prop :=
  Says.MatchCorrectsThePeriod ∧ Says.MatchInWarmUp ∧ Says.SpuriousEdge ∧ Says.EdgeOfTheNextCycle

/-- LATE_ZONE_CLOSE (R12, R16, R17): the late zone closes at T + floor(P / 8). A boundary that holds a match only closes. One that does
not is missed: the missed count rises; LOCKED becomes HOLDOVER with one miss and marks its cycle; HOLDOVER counts a second miss. -/
def Obligations.LateZoneCloses : Prop :=
  ∀ (s : State) (g : Grid), s.tracker.grid = some g →
    (g.boundary.closed = true → exec .lateZoneClose s = .next s)
    ∧ (g.boundary.closed = false → g.boundary.matched.isSome = true →
      exec .lateZoneClose s =
        .next { s with now := max s.now (g.start + g.period / 8)
                       tracker := { s.tracker with grid := some { g with boundary := { g.boundary with closed := true } } } })
    ∧ (g.boundary = ⟨none, false⟩ → s.tracker.state = .locked →
      exec .lateZoneClose s =
        .next { s with
          now := max s.now (g.start + g.period / 8)
          tracker :=
            { s.tracker with
              grid := some { g with boundary := ⟨none, true⟩, holdMark := true }
              state := .holdover, misses := 1, missed := countUp16 s.tracker.missed } })
    ∧ (g.boundary = ⟨none, false⟩ → s.tracker.state = .holdover → s.tracker.misses + 1 < 3 →
      exec .lateZoneClose s =
        .next { s with
          now := max s.now (g.start + g.period / 8)
          tracker :=
            { s.tracker with
              grid := some { g with boundary := ⟨none, true⟩ }
              misses := s.tracker.misses + 1, missed := countUp16 s.tracker.missed } })

/-- LATE_ZONE_CLOSE that ends the grid (R6, R12, R15, R17, R18). A missed boundary in WARMUP returns to SEARCH on the same source, whose
qualifier keeps its run (R4). The third consecutive miss in HOLDOVER is a sync loss: the loss count rises, a SYNC record is asked for,
notice SYNC is raised, the window is aborted, and SEARCH is entered on the next source, whose qualifier is reset if it is a
different input. Either way the grid stop is handed on, and the Front End and the Gap Detector drop the cycle in progress. That the abort
is handed before the grid stop (log entry 32), the run start 0 of a reset qualifier (log entry 9), and that an edge handed over before
the close waits on in a qualifier that is not reset and goes with the reset (log entry 40), are the model's choice. -/
def Obligations.MissedBoundaryEndsTheGrid : Prop :=
  ∀ (s : State) (g : Grid) (at_ : Nat), s.tracker.grid = some g → g.boundary = ⟨none, false⟩ →
    at_ = max s.now (g.start + g.period / 8) →
    (s.tracker.state = .warmup →
      exec .lateZoneClose s =
        .next { s with
          now := at_
          tracker := { s.tracker.searching s.tracker.position at_ with missed := countUp16 s.tracker.missed }
          front := s.front.stopped, gap := s.gap.stopped
          transit := { s.transit with engine := s.transit.engine ++ [.gridStop] } })
    ∧ (s.tracker.state = .holdover → 3 ≤ s.tracker.misses + 1 →
      exec .lateZoneClose s =
        .next { s with
          now := at_
          qualifier :=
            if s.sync.sourceAt s.positionAfter = s.sourceInEffect then s.qualifier
            else { level := none, runCount := 0, runStart := 0, edges := [] }
          tracker :=
            { s.tracker.searching s.positionAfter at_ with
              missed := countUp16 s.tracker.missed, losses := countUp16 s.tracker.losses }
          front := s.front.stopped, gap := s.gap.stopped
          transit :=
            { s.transit with
              engine := s.transit.engine ++ [.abort .syncLoss, .gridStop]
              filings := s.transit.filings
                ++ [.sync s.sourceInEffect (s.sync.offsets.get s.sourceInEffect) s.tracker.cycle
                      { lost := s.sourceInEffect, period := g.period, misses := 3 }]
              raises := s.transit.raises ++ [.sync]
              changes := s.transit.changes ++ [.syncAbsent true] } })

/-- SEARCH_TIMER_EXPIRY (R6, R8): after 10,000,000 ticks of SEARCH a list of more than one source rotates: the next position, the
rotation count one up, the entry into SEARCH, and the qualifier reset. A list of one source restarts the timer at the mark and keeps
the rest. A stopped timer does not expire, and its row changes nothing (log entry 3). The run start 0 of the reset qualifier is the
model's choice (log entry 9). -/
def Obligations.SearchTimerExpires : Prop :=
  ∀ s : State,
    (s.tracker.searchStart = none → exec .searchTimerExpiry s = .next s)
    ∧ (∀ start, s.tracker.searchStart = some start → s.sync.list.length ≤ 1 →
        exec .searchTimerExpiry s =
          .next { s with now := max s.now (start + 10000000)
                         tracker := { s.tracker with searchStart := some (start + 10000000) } })
    ∧ (∀ start, s.tracker.searchStart = some start → 1 < s.sync.list.length → s.tracker.state = .search →
        s.tracker.grid = none → s.sync.list.Nodup → 1 ≤ s.tracker.position → s.tracker.position ≤ s.sync.list.length →
        exec .searchTimerExpiry s =
          .next { s with
            now := max s.now (start + 10000000)
            qualifier := { level := none, runCount := 0, runStart := 0, edges := [] }
            tracker :=
              { s.tracker.searching s.positionAfter (max s.now (start + 10000000)) with
                rotations := countUp16 s.tracker.rotations } })

/-- CYCLE_START (R9, R10, R29, R31, R108): when the cycle in progress is complete, the next begins at T + P with the next period and the
next number. The Front End's buffer takes the whole assembly and the Gap Detector keeps the ended cycle; each starts on the new
one. The Engine is handed the end with the holdover mark, then the start. With no grid, or before the cycle is complete and the
hand-offs of its own start are taken, the row changes nothing, which is the model's choice (log entries 3 and 19). -/
def Obligations.CycleStart : Prop :=
  ∀ s : State,
    (s.tracker.grid = none → exec .cycleStart s = .next s)
    ∧ ∀ g : Grid, s.tracker.grid = some g →
      (s.front.assembly.rows.length ≠ 96 ∨ g.boundary.closed = false ∨ s.transit.engine ≠ [] ∨ s.transit.exams ≠ []
          ∨ s.transit.copies ≠ [] ∨ s.transit.reports ≠ [] → exec .cycleStart s = .next s)
      ∧ (s.front.assembly.rows.length = 96 → g.boundary.closed = true → s.transit.engine = [] → s.transit.exams = [] →
          s.transit.copies = [] → s.transit.reports = [] →
          exec .cycleStart s =
            .next { s with
              now := max s.now (g.start + g.period)
              tracker :=
                { s.tracker with
                  cycle := s.tracker.cycle + 1
                  grid := some
                    { start := g.start + g.period, period := g.nextPeriod, nextPeriod := g.nextPeriod
                      boundary := ⟨g.early, false⟩, early := none, prev := some ⟨g.start, g.period, g.boundary⟩
                      nextInstant := 0, holdMark := decide (s.tracker.state = .holdover) } }
              front :=
                { s.front with
                  buffer := { valid := true, cycle := s.tracker.cycle, rows := s.front.assembly.rows }
                  assembly := ⟨some (s.tracker.cycle + 1), []⟩ }
              gap := { s.gap with ended := s.gap.inHand, inHand := ⟨some (s.tracker.cycle + 1), []⟩ }
              transit :=
                { s.transit with
                  engine := [.cycleEnd s.tracker.cycle g.holdMark, .cycleStart (s.tracker.cycle + 1)]
                  exams := [.g0, .g1, .g2, .g3] } })

/-! ## The Sampling Front End -/

/-- INSTANT (R9, R25): instant k of the cycle falls at T + floor(k × P / 96), and the nine inputs are held together with the instant's
index and the cycle's number. With no grid, after instant 95, or while a conversion is in progress, none falls (log entry 3). -/
def Obligations.InstantHoldsTheInputs : Prop :=
  ∀ (s : State) (inputs : PerChannel Int),
    (s.tracker.grid = none → exec (.instant inputs) s = .next s)
    ∧ ∀ g : Grid, s.tracker.grid = some g →
      (96 ≤ g.nextInstant ∨ s.front.conversion ≠ none → exec (.instant inputs) s = .next s)
      ∧ (g.nextInstant < 96 → s.front.conversion = none →
          exec (.instant inputs) s =
            .next { s with
              now := max s.now (g.start + g.nextInstant * g.period / 96)
              tracker := { s.tracker with grid := some { g with nextInstant := g.nextInstant + 1 } }
              front :=
                { s.front with
                  conversion := some
                    { index := g.nextInstant, cycle := s.tracker.cycle, inputs := inputs
                      held := max s.now (g.start + g.nextInstant * g.period / 96) } } })

/-- The tables of R56: C's first quarter, which is 16384 cos(2 pi j / 96) to the nearest integer, and the symmetries that give all 96
entries of C and S. -/
def Says.Tables : Prop :=
  (List.range 25).map cosTable =
    [16384, 16349, 16244, 16069, 15826, 15515, 15137, 14694, 14189, 13623, 12998, 12318, 11585, 10803, 9974, 9102, 8192, 7246,
      6270, 5266, 4240, 3196, 2139, 1072, 0]
  ∧ (∀ j, 1 ≤ j → j ≤ 95 → cosTable (96 - j) = cosTable j ∧ sinTable (96 - j) = -sinTable j)
  ∧ (∀ j, j ≤ 47 → cosTable (j + 48) = -cosTable j ∧ sinTable (j + 48) = -sinTable j)
  ∧ (∀ j, j ≤ 95 → sinTable j = cosTable ((j + 72) % 96))
  ∧ (∀ j, j ≤ 95 → |cosTable j| ≤ 16384 ∧ |sinTable j| ≤ 16384)

/-- SAMPLE_SET (R24, R27 to R29, R40, R54, R55, R108): at most 1,200 ticks after the hold the nine inputs are delivered as codes with
clip marks. The row goes into the assembly and the Gap Detector's cycle in hand, and, while a window runs, into the accumulator
set of every participant's view. At any other tick, or while the Engine still has a hand-off to take, the row changes nothing,
which is the model's choice (log entries 3 and 19). -/
def Says.SampleSet : Prop :=
  ∀ (s : State) (time : Nat),
    (s.front.conversion = none → exec (.sampleSet time) s = .next s)
    ∧ ∀ c : Conversion, s.front.conversion = some c →
      (time < c.held ∨ c.held + 1200 < time ∨ s.transit.engine ≠ [] → exec (.sampleSet time) s = .next s)
      ∧ (c.held ≤ time → time ≤ c.held + 1200 → s.transit.engine = [] →
          ∃ row : Row,
            (∀ ch, row.get ch =
              if 32767 < c.inputs.get ch then { code := 32767, clip := true }
              else if c.inputs.get ch < -32767 then { code := -32767, clip := true }
              else { code := c.inputs.get ch, clip := false })
            ∧ exec (.sampleSet time) s =
                .next { s with
                  now := max s.now time
                  front :=
                    { s.front with conversion := none
                                   assembly := { s.front.assembly with rows := s.front.assembly.rows ++ [row] } }
                  engine :=
                    if s.engine.running then
                      { s.engine with
                        sampleCount := s.engine.sampleCount + 1
                        participants := s.engine.participants.map fun p =>
                          { p with
                            views := p.views.map fun a => a.after s.engine.sampleCount (viewSample row p.subject a.view) } }
                    else s.engine
                  gap := { s.gap with inHand := { s.gap.inHand with rows := s.gap.inHand.rows ++ [row.cur] } } })

/-- What a sample set does (R24, R27 to R29, R40, R54, R55, R108), with the tables it is accumulated by (R56). -/
def Obligations.SampleSetDelivered : Prop := Says.SampleSet ∧ Says.Tables

/-- COPY_REQUEST (R32, R104, R118, R127): the copy of the cycle named comes from the complete assembly if that holds it, else from the
buffer. It holds, for IAn and IBn of a filing of group n and for VB of one of BUS, the codes in index order and the count of clipped
codes, and the filing that waits for it goes on with it as its waveform. -/
def Obligations.CopyComesFromTheStoreThatHoldsTheCycle : Prop :=
  ∀ (s : State) (n : Nat),
    (s.transit.copies[n]? = none → exec (.copyRequest n) s = .next s)
    ∧ ∀ (r : CopyReq) (rows : List Row), s.transit.copies[n]? = some r →
        (s.front.assembly.cycle = some r.cycle ∧ s.front.assembly.rows.length = 96 ∧ rows = s.front.assembly.rows)
          ∨ (s.front.assembly.cycle ≠ some r.cycle ∧ s.front.buffer.valid = true ∧ s.front.buffer.cycle = r.cycle
              ∧ rows = s.front.buffer.rows) →
        exec (.copyRequest n) s =
          .next { s with
            transit :=
              { s.transit with
                copies := s.transit.copies.eraseIdx n
                filings := s.transit.filings
                  ++ [filingWithCopy r.filing r.cycle rows] } }

/-! ## The Harmonic Engine -/

/-- CYCLE_END before the last of a window, or with none running (R41): the completed cycles rise by one, the holdover flag takes the
cycle's mark and stays set once set. With no cycle end first among the hand-offs the row changes nothing (log entry 3). -/
def Says.CycleEndCounts : Prop :=
  ∀ s : State,
    ((∀ n mark rest, s.transit.engine ≠ .cycleEnd n mark :: rest) → exec .cycleEnd s = .next s)
    ∧ ∀ (n : Word32) (mark : Bool) (rest : List EngineMsg), s.transit.engine = .cycleEnd n mark :: rest →
      (s.engine.running = false →
        exec .cycleEnd s =
          .next { s with transit := { s.transit with engine := rest }, engine := { s.engine with justEnded := false } })
      ∧ (s.engine.running = true → s.engine.completed + 1 < s.engine.w →
        exec .cycleEnd s =
          .next { s with
            transit := { s.transit with engine := rest }
            engine :=
              { s.engine with completed := s.engine.completed + 1, holdover := s.engine.holdover || mark
                              justEnded := false } })

/-- CYCLE_END at the W-th cycle of a window with its 96 × W sets taken (R42, R58 to R60, R63): the window number rises, each participant's
report is handed over with its levels, the participants are named to the Subject Table, the window is over, and a pending W is applied
with notice PROFILE. With any other number of sets no report is handed over; the spec rules that case out, and the model
aborts (log entry 20). -/
def Says.WindowEndReports : Prop :=
  ∀ (s : State) (n : Word32) (mark : Bool) (rest : List EngineMsg), s.transit.engine = .cycleEnd n mark :: rest →
    s.engine.running = true → s.engine.completed + 1 = s.engine.w →
    (s.engine.sampleCount = 96 * s.engine.w →
      exec .cycleEnd s =
        .next { s with
          engine := s.engine.idleWith (s.engine.pendingW.getD s.engine.w) (s.engine.windowNumber + 1) true
          transit :=
            { s.transit with
              engine := rest
              raises := s.transit.raises ++ s.engine.profileNotice
              namings := s.transit.namings ++ s.engine.namingOf
              reports := s.transit.reports ++ s.engine.participants.map fun p =>
                { subject := p.subject, number := s.engine.windowNumber + 1, w := s.engine.w
                  firstCycle := s.engine.firstCycle, lastCycle := n, holdover := s.engine.holdover || mark
                  views := p.views.map fun a => a.yields (96 * s.engine.w)
                  floor := p.floor, limits := p.limits, waveOnExceed := p.waveOnExceed } } })
    ∧ (s.engine.sampleCount ≠ 96 * s.engine.w →
      exec .cycleEnd s =
        .next { s with
          engine := s.engine.idleWith (s.engine.pendingW.getD s.engine.w) s.engine.windowNumber false
          transit :=
            { s.transit with
              engine := rest
              raises := s.transit.raises ++ s.engine.profileNotice
              namings := s.transit.namings ++ s.engine.namingOf
              aborts := s.transit.aborts ++ s.engine.participants.map (·.subject) } })

/-- What a cycle end does (R41, R42, R63): it counts within a window, and at the W-th it ends the window. -/
def Obligations.CycleEnd : Prop := Says.CycleEndCounts ∧ Says.WindowEndReports

/-- WINDOW_START (R37 to R39, R43, R53): at a cycle start taken in LOCKED, or in HOLDOVER directly after a window end, a window starts:
every WAITING subject becomes MEASURING and takes part with a copy of its active profile and cleared accumulators. Otherwise no
window starts. The cycle start waits for the Subject Table to take every naming (R43), and for the Engine to take every DISABLE
message, which is the model's choice (R47; log entry 33). -/
def Obligations.WindowStart : Prop :=
  ∀ s : State,
    ((∀ n rest, s.transit.engine ≠ .cycleStart n :: rest) ∨ s.transit.namings ≠ [] ∨ s.transit.disables ≠ [] →
      exec .windowStart s = .next s)
    ∧ ∀ (n : Word32) (rest : List EngineMsg), s.transit.engine = .cycleStart n :: rest → s.transit.namings = [] →
      s.transit.disables = [] →
      (s.engine.running = true
          ∨ ¬(s.tracker.state = .locked ∨ (s.tracker.state = .holdover ∧ s.engine.justEnded = true)) →
        exec .windowStart s =
          .next { s with transit := { s.transit with engine := rest }, engine := { s.engine with justEnded := false } })
      ∧ (s.engine.running = false → s.tracker.state = .locked ∨ (s.tracker.state = .holdover ∧ s.engine.justEnded = true) →
        ∃ table : PerSubject SubjectEntry,
          (∀ i, table.get i =
            if (s.table.get i).state = .waiting then { s.table.get i with state := .measuring } else s.table.get i)
          ∧ exec .windowStart s =
              .next { s with
                transit := { s.transit with engine := rest }
                table := table
                engine :=
                  { s.engine with
                    running := true, firstCycle := n, completed := 0, sampleCount := 0, holdover := false
                    justEnded := false
                    participants :=
                      (([.g0, .g1, .g2, .g3, .bus] : List Subject).filter fun i => (s.table.get i).state = .waiting).map
                        fun i =>
                          { subject := i, floor := (s.table.get i).active.floor, limits := (s.table.get i).active.limits
                            waveOnExceed := (s.table.get i).active.waveOnExceed
                            views := (s.table.get i).active.views.map fun x =>
                              { view := x.1, reference := x.2.reference, sum := 0, max := none, min := none, clip := false
                                pairs := x.2.orders.map fun h => { order := h, i := 0, q := 0 } } } } })

/-- WINDOW_ABORT (R44, R45, R64): a grid stop or an abort cause ends the running window without levels: an abort report for each
participant, the participants named to the Subject Table, a pending W applied with notice PROFILE, the window number kept. With no
window running nothing is aborted. -/
def Says.WindowAbort : Prop :=
  ∀ s : State,
    ((∀ rest, s.transit.engine ≠ .gridStop :: rest) ∧ (∀ c rest, s.transit.engine ≠ .abort c :: rest) →
      exec .windowAbort s = .next s)
    ∧ ∀ (m : EngineMsg) (rest : List EngineMsg), s.transit.engine = m :: rest →
      (m = .gridStop ∨ m = .abort .syncLoss ∨ m = .abort .setSync ∨ m = .abort .loadDefaults → s.engine.running = false →
        exec .windowAbort s = .next { s with transit := { s.transit with engine := rest } })
      ∧ (m = .gridStop ∨ m = .abort .syncLoss ∨ m = .abort .setSync ∨ m = .abort .loadDefaults →
        s.engine.running = true →
        exec .windowAbort s =
          .next { s with
            engine := s.engine.idleWith (s.engine.pendingW.getD s.engine.w) s.engine.windowNumber false
            transit :=
              { s.transit with
                engine := rest
                raises := s.transit.raises ++ s.engine.profileNotice
                namings := s.transit.namings ++ s.engine.namingOf
                aborts := s.transit.aborts ++ s.engine.participants.map (·.subject) } })

/-- DISABLE_MESSAGE (R47): the Engine drops the accumulator sets of the disabled subject and the window goes on for the others. -/
def Says.DisableMessage : Prop :=
  ∀ s : State,
    (s.transit.disables = [] → exec .disableMessage s = .next s)
    ∧ ∀ (i : Subject) (rest : List Subject), s.transit.disables = i :: rest →
        exec .disableMessage s =
          .next { s with
            transit := { s.transit with disables := rest }
            engine := { s.engine with participants := s.engine.participants.filter fun p => p.subject ≠ i } }

/-- What ends a window early (R44, R45), and what takes one participant out of it (R47). -/
def Obligations.WindowAbortAndDisableMessage : Prop := Says.WindowAbort ∧ Says.DisableMessage

/-- SET-WINDOW (R49, R50): a length other than 2, 4, 8 or 16 is refused with ARGUMENT 0. While a window runs the new length becomes
pending; otherwise it is in use at once, with notice PROFILE. The reply carries W in use and the pending W, 0 for none. -/
def Obligations.SetWindow : Prop :=
  ∀ (s : State) (f : Frame) (b : Byte), s.hears f → s.settings.saving = false → f.body = [b] →
    (b.toNat ∉ [2, 4, 8, 16] →
      exec (.setWindow f) s = .next ((s.counted .setWindow f).answered .setWindow f (.refuse .argument 0)))
    ∧ (b.toNat ∈ [2, 4, 8, 16] → s.engine.running = true →
      exec (.setWindow f) s =
        .next (({ s.counted .setWindow f with engine := { s.engine with pendingW := some b.toNat } } : State).answered
          .setWindow f (.accept [b8 s.engine.w, b])))
    ∧ (b.toNat ∈ [2, 4, 8, 16] → s.engine.running = false →
      exec (.setWindow f) s =
        .next (({ s.counted .setWindow f with
            engine := { s.engine with w := b.toNat }
            transit := { s.transit with raises := s.transit.raises ++ [.profile] } } : State).answered
          .setWindow f (.accept [b, match s.engine.pendingW with | some w => b8 w | none => 0])))

/-! ## The Subject Table -/

/-- WINDOW_END_NAMING (R71, R78, R80): each named subject that is MEASURING returns to WAITING, and its pending profile becomes active:
the Verdict Unit and the group's Gap Detector are ordered to clear, and notice PROFILE is raised. Any other subject is as before. -/
def Obligations.WindowEndNaming : Prop :=
  ∀ s : State,
    (s.transit.namings = [] → exec .windowEndNaming s = .next s)
    ∧ ∀ (names activated : List Subject) (rest : List (List Subject)), s.transit.namings = names :: rest → names.Nodup →
      activated =
        names.filter (fun i => decide ((s.table.get i).state = .measuring) && (s.table.get i).pendingProfile.isSome) →
      ∃ table : PerSubject SubjectEntry,
        (∀ i, table.get i =
          if i ∈ names ∧ (s.table.get i).state = .measuring then
            { state := .waiting, active := (s.table.get i).pendingProfile.getD (s.table.get i).active
              pendingProfile := none }
          else s.table.get i)
        ∧ exec .windowEndNaming s =
            .next { s with
              table := table
              transit :=
                { s.transit with
                  namings := rest
                  orders := s.transit.orders ++ activated.map fun i => (i, .activation)
                  clearings := s.transit.clearings ++ activated.filterMap fun i => i.group?.map fun g => (g, .activation)
                  raises := s.transit.raises ++ activated.map fun _ => .profile } }

/-- ENABLE (R67, R68): a DISABLED subject becomes WAITING and the Verdict Unit is ordered to enable it; in the other states nothing
changes. A subject number above 4 is refused with ARGUMENT 0. The reply carries the number and the state before. -/
def Says.Enable : Prop :=
  ∀ (s : State) (f : Frame) (b : Byte), s.hears f → f.body = [b] →
    (4 < b.toNat → exec (.enable f) s = .next ((s.counted .enable f).answered .enable f (.refuse .argument 0)))
    ∧ ∀ i : Subject, b.toNat = i.number →
      ((s.table.get i).state ≠ .disabled →
        exec (.enable f) s =
          .next ((s.counted .enable f).answered .enable f (.accept [b, (s.table.get i).state.code])))
      ∧ ((s.table.get i).state = .disabled →
        exec (.enable f) s =
          .next (({ s.counted .enable f with
              table := s.table.set i { s.table.get i with state := .waiting }
              transit := { s.transit with orders := s.transit.orders ++ [(i, .enable)] } } : State).answered
            .enable f (.accept [b, (s.table.get i).state.code])))

/-- DISABLE (R67, R69, R70): the subject becomes DISABLED and the Verdict Unit and the group's Gap Detector are ordered to clear. For a
MEASURING subject the Engine is told, and a pending profile becomes active in the same event with notice PROFILE. A DISABLED subject
is left as it is. -/
def Says.Disable : Prop :=
  ∀ (s : State) (f : Frame) (b : Byte), s.hears f → f.body = [b] →
    (4 < b.toNat → exec (.disable f) s = .next ((s.counted .disable f).answered .disable f (.refuse .argument 0)))
    ∧ ∀ i : Subject, b.toNat = i.number →
      ((s.table.get i).state = .disabled →
        exec (.disable f) s = .next ((s.counted .disable f).answered .disable f (.accept [b, 0])))
      ∧ ((s.table.get i).state = .waiting →
        exec (.disable f) s =
          .next (({ s.counted .disable f with
              table := s.table.set i { s.table.get i with state := .disabled }
              transit :=
                { s.transit with
                  orders := s.transit.orders ++ [(i, .disable false)]
                  clearings := s.transit.clearings ++ (i.group?.map fun g => (g, Clearing.disable)).toList } } : State).answered
            .disable f (.accept [b, 1])))
      ∧ ((s.table.get i).state = .measuring →
        exec (.disable f) s =
          .next (({ s.counted .disable f with
              table := s.table.set i
                { state := .disabled, active := (s.table.get i).pendingProfile.getD (s.table.get i).active
                  pendingProfile := none }
              transit :=
                { s.transit with
                  disables := s.transit.disables ++ [i]
                  orders := s.transit.orders ++ [(i, .disable (s.table.get i).pendingProfile.isSome)]
                  clearings := s.transit.clearings ++ (i.group?.map fun g => (g, Clearing.disable)).toList
                  raises := s.transit.raises ++ if (s.table.get i).pendingProfile.isSome then [.profile] else [] } }
              : State).answered
            .disable f (.accept [b, 2])))

/-- ENABLE and DISABLE (R67 to R70). -/
def Obligations.EnableAndDisable : Prop := Says.Enable ∧ Says.Disable

/-- SET-PROFILE (R75, R77, R80): the body is walked, and the first field that fails gives the refusal. An accepted profile becomes
pending for a MEASURING subject. Otherwise it is active at once and none is pending: the Verdict Unit and the group's Gap Detector
are ordered to clear, and notice PROFILE is raised. The reply carries the number and whether the profile is pending. -/
def Says.SetProfileStaged : Prop :=
  ∀ (s : State) (f : Frame), s.hears f → s.settings.saving = false →
    (∀ code detail, walkProfile f.body = .error (code, detail) →
      exec (.setProfile f) s = .next ((s.counted .setProfile f).answered .setProfile f (.refuse code detail)))
    ∧ ∀ (i : Subject) (p : Profile), walkProfile f.body = .ok (i, p) →
      ((s.table.get i).state = .measuring →
        exec (.setProfile f) s =
          .next (({ s.counted .setProfile f with
              table := s.table.set i { s.table.get i with pendingProfile := some p } } : State).answered
            .setProfile f (.accept [b8 i.number, 1])))
      ∧ ((s.table.get i).state ≠ .measuring →
        exec (.setProfile f) s =
          .next (({ s.counted .setProfile f with
              table := s.table.set i { s.table.get i with active := p, pendingProfile := none }
              transit :=
                { s.transit with
                  orders := s.transit.orders ++ [(i, .activation)]
                  clearings := s.transit.clearings ++ (i.group?.map fun g => (g, Clearing.activation)).toList
                  raises := s.transit.raises ++ [.profile] } } : State).answered
            .setProfile f (.accept [b8 i.number, 0])))

/-- SET-PROFILE refused (R75, R76, R223): in the order of the body's fields, the first that lies beyond the body's end gives LENGTH and the
first outside its values ARGUMENT, each at the field's offset, whichever comes first. Bytes after the last limit entry give LENGTH at
the first of them. -/
def Says.SetProfileRefused : Prop :=
  ∀ (s : State) (f : Frame), s.hears f → s.settings.saving = false →
    (∀ x, isFirstFailure (profileFields f.body) f.body x →
      exec (.setProfile f) s = .next ((s.counted .setProfile f).answered .setProfile f (x.refusal f.body)))
    ∧ ((∀ x ∈ profileFields f.body, x.passes f.body) → profileEnd f.body < f.body.length →
      exec (.setProfile f) s =
        .next ((s.counted .setProfile f).answered .setProfile f (.refuse .length (profileEnd f.body))))

/-- SET-PROFILE: what it is refused with, and how an accepted profile is staged. -/
def Obligations.SetProfile : Prop := Says.SetProfileStaged ∧ Says.SetProfileRefused

/-- READ-PROFILE (R81, R223): the reply carries the subject number, its state, the selector, and the profile selected, with a present flag;
the active profile is always present. Nothing else changes. -/
def Says.ReadProfile : Prop :=
  ∀ (s : State) (f : Frame) (b sel : Byte), s.hears f → f.body = [b, sel] →
    (4 < b.toNat →
      exec (.readProfile f) s = .next ((s.counted .readProfile f).answered .readProfile f (.refuse .argument 0)))
    ∧ ∀ i : Subject, b.toNat = i.number →
      (1 < sel.toNat →
        exec (.readProfile f) s = .next ((s.counted .readProfile f).answered .readProfile f (.refuse .argument 1)))
      ∧ (sel = 0 →
        exec (.readProfile f) s =
          .next ((s.counted .readProfile f).answered .readProfile f
            (.accept ([b, (s.table.get i).state.code, 0, 1] ++ profileByRule (s.table.get i).active))))
      ∧ (∀ p, sel = 1 → (s.table.get i).pendingProfile = some p →
        exec (.readProfile f) s =
          .next ((s.counted .readProfile f).answered .readProfile f
            (.accept ([b, (s.table.get i).state.code, 1, 1] ++ profileByRule p))))
      ∧ (sel = 1 → (s.table.get i).pendingProfile = none →
        exec (.readProfile f) s =
          .next ((s.counted .readProfile f).answered .readProfile f
            (.accept [b, (s.table.get i).state.code, 1, 0])))

/-! ## The Verdict Unit -/

/-- The outcome of a report (R92 to R96): CLIPPED when a view is clipped, else LOWLOAD when the mean of S (of V for BUS) is below the
floor, else EXCEED when a limit entry is exceeded, else PASS. The exceeded list holds the indices of the exceeded entries in
ascending order, and the step is the largest of theirs. -/
def Obligations.OutcomeOfAReport : Prop :=
  ∀ (r : WindowReport) (load : ViewReport), (r.views.map fun v => v.view).Nodup →
    (∀ v ∈ r.views, (v.levels.map Prod.fst).Nodup) → load ∈ r.views → load.view = (if r.subject = .bus then .v else .s) →
    ((∃ v ∈ r.views, v.clip = true) → r.outcome = .clipped)
    ∧ ((∀ v ∈ r.views, v.clip = false) → load.mean < r.floor → r.outcome = .lowload)
    ∧ ((∀ v ∈ r.views, v.clip = false) → (r.floor : Int) ≤ load.mean → (∃ e ∈ r.limits, isExceeded r e) → r.outcome = .exceed)
    ∧ ((∀ v ∈ r.views, v.clip = false) → (r.floor : Int) ≤ load.mean → (∀ e ∈ r.limits, ¬isExceeded r e) → r.outcome = .pass)
    ∧ (∀ k, k ∈ r.exceededList ↔ ∃ e, r.limits[k]? = some e ∧ isExceeded r e) ∧ r.exceededList.Pairwise (· < ·)
    ∧ (∀ e ∈ r.limits, isExceeded r e → e.step ≤ r.step)
    ∧ ((∃ e ∈ r.limits, isExceeded r e) → ∃ e ∈ r.limits, isExceeded r e ∧ e.step = r.step)

/-- WINDOW_REPORT (R90, R93, R94, R97 to R101, R103, R104): for an enabled subject the counter moves by the outcome, the condition follows
an EXCEED or a PASS and is kept for CLIPPED and LOWLOAD, the counts rise for judged windows and stop at 4,294,967,295, and the results
entry is replaced. A change of condition raises COND and goes to the Alarm Line Driver, CLIPPED raises CLIP, and the entry into ALARM asks
for an EXCEED record, by way of a copy of the window's last cycle when the report's waveform flag is set. A report for a subject that is
not enabled is discarded. That a PASS never enters ALARM, whatever threshold has become active since, is the model's choice (log entry
35). -/
def Obligations.WindowReportTaken : Prop :=
  ∀ (s : State) (sub : Subject),
    ((∀ r ∈ s.transit.reports, r.subject ≠ sub) → exec (.windowReport sub) s = .next s)
    ∧ ∀ (r : WindowReport) (before after : List WindowReport), s.transit.reports = before ++ r :: after →
      (∀ x ∈ before, x.subject ≠ sub) → r.subject = sub →
      ((s.verdicts.get sub).enabled = false →
        exec (.windowReport sub) s = .next { s with transit := { s.transit with reports := before ++ after } })
      ∧ ∀ (e : VerdictEntry) (counter : Nat) (condition : Condition) (filing : Filing), e = s.verdicts.get sub →
        e.enabled = true → counter = counterByRule e.counter r.outcome r.step →
        condition = conditionByRule e.condition r.outcome counter (s.table.get sub).active.threshold →
        filing = .exceed sub r.lastCycle counter
          { number := r.number
            views := r.views.map fun v => { view := v.view, mean := v.mean, ripple := v.ripple, levels := v.levels } }
          r.exceededList none →
        exec (.windowReport sub) s =
          .next { s with
            verdicts := s.verdicts.set sub
              { enabled := true, counter := counter, condition := condition
                results := some
                  { number := r.number, w := r.w, firstCycle := r.firstCycle, lastCycle := r.lastCycle
                    outcome := r.outcome, holdover := r.holdover, views := r.views
                    exceeded := if r.outcome = .exceed then r.exceededList else []
                    counter := counter, condition := condition }
                last := r.outcome
                judged := if r.outcome = .pass ∨ r.outcome = .exceed then countUp32 e.judged else e.judged
                exceeded := if r.outcome = .exceed then countUp32 e.exceeded else e.exceeded }
            transit :=
              { s.transit with
                reports := before ++ after
                raises := s.transit.raises ++ condNotice sub e.condition condition
                  ++ if r.outcome = .clipped then [.clip] else []
                changes := s.transit.changes ++ condChange sub e.condition condition
                copies := s.transit.copies
                  ++ if e.condition ≠ .alarm ∧ condition = .alarm ∧ r.waveOnExceed = true then [⟨r.lastCycle, filing⟩] else []
                filings := s.transit.filings
                  ++ if e.condition ≠ .alarm ∧ condition = .alarm ∧ r.waveOnExceed = false then [filing] else [] } }

/-- ABORT_REPORT (R91): for an enabled subject the last outcome becomes ABORTED and nothing else of its verdict changes; for any other
subject the report is discarded. That an older window report of the subject may still be in flight is the model's choice (log entry
34). -/
def Says.AbortReport : Prop :=
  ∀ (s : State) (sub : Subject),
    (sub ∉ s.transit.aborts → exec (.abortReport sub) s = .next s)
    ∧ ∀ before after : List Subject, s.transit.aborts = before ++ sub :: after → sub ∉ before →
      ((s.verdicts.get sub).enabled = false →
        exec (.abortReport sub) s = .next { s with transit := { s.transit with aborts := before ++ after } })
      ∧ ((s.verdicts.get sub).enabled = true →
        exec (.abortReport sub) s =
          .next { s with transit := { s.transit with aborts := before ++ after }
                         verdicts := s.verdicts.set sub { s.verdicts.get sub with last := .aborted } })

/-- VERDICT_ORDER (R105): the oldest order for the subject takes effect on its entry, and a change of condition raises COND and goes to
the Alarm Line Driver. -/
def Says.VerdictOrderTaken : Prop :=
  ∀ (s : State) (sub : Subject),
    ((∀ x ∈ s.transit.orders, x.1 ≠ sub) → exec (.verdictOrder sub) s = .next s)
    ∧ ∀ (o : VerdictOrder) (before after : List (Subject × VerdictOrder)) (e : VerdictEntry),
      s.transit.orders = before ++ (sub, o) :: after → (∀ x ∈ before, x.1 ≠ sub) → e = s.verdicts.get sub →
      exec (.verdictOrder sub) s =
        .next { s with
          verdicts := s.verdicts.set sub (e.afterOrder o)
          transit :=
            { s.transit with
              orders := before ++ after
              raises := s.transit.raises ++ condNotice sub e.condition (e.afterOrder o).condition
              changes := s.transit.changes ++ condChange sub e.condition (e.afterOrder o).condition } }

/-- What an abort report (R91) and an order (R105) do to a subject's verdict. -/
def Obligations.AbortReportsAndOrders : Prop := Says.AbortReport ∧ Says.VerdictOrderTaken

/-- READ-RESULT (R102): the reply carries the subject's number, state, condition, counter, threshold, last outcome and counts, and the
results entry when there is one. Nothing else changes. That a results entry's views have no count byte is the model's reading (log
entry 22). -/
def Says.ReadResult : Prop :=
  ∀ (s : State) (f : Frame) (b : Byte), s.hears f → f.body = [b] →
    (4 < b.toNat →
      exec (.readResult f) s = .next ((s.counted .readResult f).answered .readResult f (.refuse .argument 0)))
    ∧ ∀ (i : Subject) (e : VerdictEntry), b.toNat = i.number → e = s.verdicts.get i →
      exec (.readResult f) s =
        .next ((s.counted .readResult f).answered .readResult f
          (.accept ([b, (s.table.get i).state.code, e.condition.code, b8 e.counter, b8 (s.table.get i).active.threshold,
              e.last.code] ++ le32 e.judged.toNat ++ le32 e.exceeded.toNat
            ++ match e.results with
              | none => [0]
              | some r => 1 :: resultsByRule r)))

/-- The two reads of a subject: READ-PROFILE (R81) and READ-RESULT (R102). -/
def Obligations.ReadProfileAndReadResult : Prop := Says.ReadProfile ∧ Says.ReadResult

/-! ## The Gap Detector -/

/-- GAP_EXAMINATION (R109, R111, R113 to R119): a group that is not DISABLED, whose profile has gap enable set, is examined while the
tracker is LOCKED or HOLDOVER. It waits for a clearing of the group that is in flight, which is the model's reading of R110 (log entry
38). Each bridge's counters move by its sectors' sums, and a sector whose counter stands at gap cycles with a clear latch is declared: its
latch is set, notice GAP is raised, one GAP record for the group is asked for with a copy of the cycle, and gap-any, which is true while
one of the twelve latches is set, goes to the Alarm Line Driver when it changes. Any other group keeps its counters and latches. -/
def Obligations.GapExamination : Prop :=
  ∀ (s : State) (g : Group),
    (g ∉ s.transit.exams ∨ (∃ c ∈ s.transit.clearings, c.1 = g) → exec (.gapExamination g) s = .next s)
    ∧ ∀ (before after : List Group) (p : GapPart) (stamp : Word32), s.transit.exams = before ++ g :: after → g ∉ before →
      (∀ c ∈ s.transit.clearings, c.1 ≠ g) →
      (s.table.get g.subject).active.gap? = some p →
      ((s.table.get g.subject).state = .disabled ∨ (s.tracker.state ≠ .locked ∧ s.tracker.state ≠ .holdover)
          ∨ p.enable = false →
        exec (.gapExamination g) s = .next { s with transit := { s.transit with exams := before ++ after } })
      ∧ ((s.table.get g.subject).state ≠ .disabled → s.tracker.state = .locked ∨ s.tracker.state = .holdover →
        p.enable = true → s.gap.ended.cycle = some stamp →
        ∃ x : GapGroup, ∃ base : PerSide Nat,
          (∀ d, base.get d = (p.offsets.get d + s.sync.offsets.get s.sourceInEffect) % 96)
          ∧ (∀ d j, (x.counters.get d).get j =
              counterAfterExam p (s.bridgeCycle g d) (base.get d) j (((s.gap.groups.get g).counters.get d).get j))
          ∧ (∀ d j, (x.latches.get d).get j =
              ((((s.gap.groups.get g).latches.get d).get j) || decide ((x.counters.get d).get j = p.cycles)))
          ∧ exec (.gapExamination g) s =
              let part (d : Side) : GapSide :=
                { base := base.get d, declared := newlySet ((s.gap.groups.get g).latches.get d) (x.latches.get d)
                  latches := x.latches.get d }
              let declares := ¬((part .a).declared = [] ∧ (part .b).declared = [])
              .next { s with
                gap := { s.gap with groups := s.gap.groups.set g x }
                transit :=
                  { s.transit with
                    exams := before ++ after
                    changes := s.transit.changes ++ gapChange g (anyLatchSet (s.gap.groups.get g)) (anyLatchSet x)
                    copies := s.transit.copies
                      ++ if declares then [⟨stamp, .gap g stamp ⟨part .a, part .b⟩ none⟩] else []
                    raises := s.transit.raises ++ if declares then [.gap] else [] } })

/-- DETECTOR_CLEARING_EVENT (R120): the group's counters go to 0. Its latches stay for the clearing of a DISABLE or an activation, and
are cleared by LOAD-DEFAULTS, which changes gap-any where one was set. -/
def Says.DetectorClearing : Prop :=
  ∀ (s : State) (g : Group),
    ((∀ x ∈ s.transit.clearings, x.1 ≠ g) → exec (.detectorClearingEvent g) s = .next s)
    ∧ ∀ (c : Clearing) (before after : List (Group × Clearing)), s.transit.clearings = before ++ (g, c) :: after →
      (∀ x ∈ before, x.1 ≠ g) →
      ∃ x : GapGroup,
        (∀ d j, (x.counters.get d).get j = 0)
        ∧ (∀ d j, (x.latches.get d).get j =
            if c = .loadDefaults then false else ((s.gap.groups.get g).latches.get d).get j)
        ∧ exec (.detectorClearingEvent g) s =
            .next { s with
              gap := { s.gap with groups := s.gap.groups.set g x }
              transit :=
                { s.transit with
                  clearings := before ++ after
                  changes := s.transit.changes ++ gapChange g (anyLatchSet (s.gap.groups.get g)) (anyLatchSet x) } }

/-- CLEAR-GAP (R121): the group's counters go to 0 and its latches are cleared, so gap-any turns false. The reply carries the group
number and each bridge's latch map and counters from before. A group number above 3 is refused with ARGUMENT 0. The order of the
reply's fields is the model's reading (log entry 22). -/
def Says.ClearGap : Prop :=
  ∀ (s : State) (f : Frame) (b : Byte), s.hears f → f.body = [b] →
    (3 < b.toNat → exec (.clearGap f) s = .next ((s.counted .clearGap f).answered .clearGap f (.refuse .argument 0)))
    ∧ ∀ (g : Group) (old : GapGroup), b.toNat = g.number → old = s.gap.groups.get g →
      ∃ x : GapGroup,
        (∀ d j, (x.counters.get d).get j = 0 ∧ (x.latches.get d).get j = false)
        ∧ exec (.clearGap f) s =
            .next (({ s.counted .clearGap f with
                gap := { s.gap with groups := s.gap.groups.set g x }
                transit := { s.transit with changes := s.transit.changes ++ gapChange g (anyLatchSet old) false } } : State).answered
              .clearGap f
              (.accept (b :: sectorByte old.latches.a :: old.counters.a.toList.map b8
                ++ sectorByte old.latches.b :: old.counters.b.toList.map b8)))

/-- What clears a group's counters and latches: the events of R120 and CLEAR-GAP (R121). -/
def Obligations.GapClearing : Prop := Says.DetectorClearing ∧ Says.ClearGap

/-! ## The Capture Store -/

/-- FILING (R128 to R131): with room the record is added under the counter's number and the counter rises. A full store gives up its
lowest-numbered unretained record. With all 48 retained, or the counter at its end, the filing is dropped: the drop count rises and
notice STORE is raised. -/
def Says.FilingAddsOverwritesOrDrops : Prop :=
  ∀ (s : State) (n : Nat),
    (s.transit.filings[n]? = none → exec (.filing n) s = .next s)
    ∧ ∀ (f : Filing) (x : Transit), s.transit.filings[n]? = some f →
      x = { s.transit with filings := s.transit.filings.eraseIdx n } →
      (s.store.counter < 4294967295 → s.store.entries.length < 48 →
        exec (.filing n) s =
          .next { s with
            transit := x
            store :=
              { s.store with entries := s.store.entries ++ [⟨f.record s s.store.counter, false⟩]
                             counter := s.store.counter + 1 } })
      ∧ (∀ (kept rest : List StoreEntry) (old : StoreEntry), s.store.counter < 4294967295 → 48 ≤ s.store.entries.length →
        s.store.entries = kept ++ old :: rest → (∀ e ∈ kept, e.retained = true) → old.retained = false →
        exec (.filing n) s =
          .next { s with
            transit := x
            store :=
              { s.store with entries := kept ++ rest ++ [⟨f.record s s.store.counter, false⟩]
                             counter := s.store.counter + 1 } })
      ∧ (4294967295 ≤ s.store.counter ∨ (48 ≤ s.store.entries.length ∧ ∀ e ∈ s.store.entries, e.retained = true) →
        exec (.filing n) s =
          .next { s with
            transit := { x with raises := s.transit.raises ++ [.store] }
            store := { s.store with drops := countUp16 s.store.drops } })

/-- What the three filed records hold (R103, R117, R18, R125, R126): the number, the kind, the subject, the sender's stamp, the source
and offset in effect at filing (of the lost source for SYNC), the counter and condition, and the sender's parts. That a GAP record's
counter and condition are read when the store takes the filing is the model's reading (log entry 26). -/
def Says.FiledRecords : Prop :=
  ∀ (s : State) (number : Nat),
    (∀ i stamp counter summary exceeded wave, (Filing.exceed i stamp counter summary exceeded wave).record s number =
      { number := number, kind := .exceed, subject := some i, stamp := stamp, source := s.sourceInEffect
        offset := s.sync.offsets.get s.sourceInEffect, verdict := some (counter, .alarm), summary := some summary
        exceeded := some exceeded, gap := none, sync := none, wave := wave })
    ∧ (∀ (g : Group) stamp part wave, (Filing.gap g stamp part wave).record s number =
      { number := number, kind := .gap, subject := some g.subject, stamp := stamp, source := s.sourceInEffect
        offset := s.sync.offsets.get s.sourceInEffect
        verdict := some ((s.verdicts.get g.subject).counter, (s.verdicts.get g.subject).condition)
        summary := none, exceeded := none, gap := some part, sync := none, wave := wave })
    ∧ ∀ source offset stamp part, (Filing.sync source offset stamp part).record s number =
      { number := number, kind := .sync, subject := none, stamp := stamp, source := source, offset := offset
        verdict := none, summary := none, exceeded := none, gap := none, sync := some part, wave := none }

/-- What a filing does to the store (R128 to R131), and what the filed record holds (R103, R117, R18). -/
def Obligations.Filing : Prop := Says.FilingAddsOverwritesOrDrops ∧ Says.FiledRecords

/-- CAPTURE (R127, R132 to R134): a MANUAL record of the subject as the blocks stand, with the results entry's summary, and with the
buffer's cycle, of IAn and IBn for group n and of VB for BUS, when a waveform is wanted and the buffer is valid. Stored, it is answered
with its number and the two present flags; dropped, it is refused with STATE and counted. A subject number above 4 or a flag above 1 is
refused with ARGUMENT. -/
def Obligations.Capture : Prop :=
  ∀ (s : State) (f : Frame) (b flag : Byte), s.hears f → f.body = [b, flag] →
    (4 < b.toNat → exec (.capture f) s = .next ((s.counted .capture f).answered .capture f (.refuse .argument 0)))
    ∧ (b.toNat ≤ 4 → 1 < flag.toNat →
      exec (.capture f) s = .next ((s.counted .capture f).answered .capture f (.refuse .argument 1)))
    ∧ ∀ (i : Subject) (r : Record) (marked : CaptureStore), b.toNat = i.number → flag.toNat ≤ 1 →
      marked = { s.store with firstMark := none, lastMark := none } →
      r =
        { number := s.store.counter, kind := .manual, subject := some i, stamp := s.tracker.cycle
          source := s.sourceInEffect, offset := s.sync.offsets.get s.sourceInEffect
          verdict := some ((s.verdicts.get i).counter, (s.verdicts.get i).condition)
          summary := (s.verdicts.get i).results.map fun x =>
            { number := x.number
              views := x.views.map fun v => { view := v.view, mean := v.mean, ripple := v.ripple, levels := v.levels } }
          exceeded := none, gap := none, sync := none
          wave :=
            if flag = 1 ∧ s.front.buffer.valid = true then
              some (waveByRule i s.front.buffer.cycle s.front.buffer.rows)
            else none } →
      (s.store.counter < 4294967295 → s.store.entries.length < 48 →
        exec (.capture f) s =
          .next (({ s.counted .capture f with
              store := { marked with entries := s.store.entries ++ [⟨r, false⟩], counter := s.store.counter + 1 } }
              : State).answered .capture f
            (.accept (le32 s.store.counter ++ [flagByte r.summary.isSome, flagByte r.wave.isSome]))))
      ∧ (∀ (kept rest : List StoreEntry) (old : StoreEntry), s.store.counter < 4294967295 → 48 ≤ s.store.entries.length →
        s.store.entries = kept ++ old :: rest → (∀ e ∈ kept, e.retained = true) → old.retained = false →
        exec (.capture f) s =
          .next (({ s.counted .capture f with
              store := { marked with entries := kept ++ rest ++ [⟨r, false⟩], counter := s.store.counter + 1 } }
              : State).answered .capture f
            (.accept (le32 s.store.counter ++ [flagByte r.summary.isSome, flagByte r.wave.isSome]))))
      ∧ (4294967295 ≤ s.store.counter ∨ (48 ≤ s.store.entries.length ∧ ∀ e ∈ s.store.entries, e.retained = true) →
        exec (.capture f) s =
          .next (({ s.counted .capture f with
              store := { marked with drops := countUp16 s.store.drops }
              transit := { s.transit with raises := s.transit.raises ++ [.store] } } : State).answered .capture f
            (.refuse .state 0)))

/-- The four bytes of a record number, low byte first (R222). -/
def Sys2Proof.Machine.numberOf (b0 b1 b2 b3 : Byte) : Nat :=
  b0.toNat + 256 * b1.toNat + 65536 * b2.toNat + 16777216 * b3.toNat

/-- READ-RECORD (R136 to R138): selector 0 takes the record of the number given, 1 the first, 2 the first above the cursor. A record
returned moves the cursor to its number and is sent with the skipped figure, the record count and its retained flag, its fields and
parts in the layout of R224. None is answered with no record, or refused with NOTFOUND for selector 0. A selector above 2 is refused
with ARGUMENT 0. -/
def Obligations.ReadRecord : Prop :=
  ∀ (s : State) (f : Frame) (sel b0 b1 b2 b3 : Byte) (chosen : Option StoreEntry), s.hears f → f.body = [sel, b0, b1, b2, b3] →
    (2 < sel.toNat → exec (.readRecord f) s = .next ((s.counted .readRecord f).answered .readRecord f (.refuse .argument 0)))
    ∧ ((sel = 0 ∧ chosen = s.store.entries.find? fun e => decide (e.record.number = numberOf b0 b1 b2 b3))
        ∨ (sel = 1 ∧ chosen = s.store.entries.head?)
        ∨ (sel = 2 ∧ chosen = s.store.entries.find? fun e => decide (s.store.cursor < e.record.number)) →
      (chosen = none →
        exec (.readRecord f) s =
          .next ((s.counted .readRecord f).answered .readRecord f
            (if sel = 0 then .refuse .notfound 0 else .accept [0, b8 s.store.entries.length])))
      ∧ ∀ e, chosen = some e →
        exec (.readRecord f) s =
          .next (({ s.counted .readRecord f with
              store := { s.store with firstMark := none, lastMark := none, cursor := e.record.number } } : State).answered
            .readRecord f
            (.accept ([1, b8 s.store.entries.length]
              ++ le32 (if s.store.cursor ≠ 0 ∧ s.store.cursor < e.record.number then e.record.number - s.store.cursor - 1 else 0)
              ++ flagByte e.retained :: recordByRule e.record))))

/-- READ-WAVE (R141, R142): a channel above 8, a start above 95 or a count of 0 is refused with ARGUMENT at its offset, an absent record
with NOTFOUND 0, a record without the channel with NOTFOUND 1. Otherwise at most 64 codes are sent, from the start on and past index
95 to 0 again. Nothing else changes. -/
def Obligations.ReadWave : Prop :=
  ∀ (s : State) (f : Frame) (b0 b1 b2 b3 channel start count : Byte) (n : Nat) (found : Option StoreEntry), s.hears f →
    f.body = [b0, b1, b2, b3, channel, start, count] → n = numberOf b0 b1 b2 b3 →
    found = s.store.entries.find? (fun e => decide (e.record.number = n)) →
    (8 < channel.toNat → exec (.readWave f) s = .next ((s.counted .readWave f).answered .readWave f (.refuse .argument 4)))
    ∧ (channel.toNat ≤ 8 → 95 < start.toNat →
      exec (.readWave f) s = .next ((s.counted .readWave f).answered .readWave f (.refuse .argument 5)))
    ∧ (channel.toNat ≤ 8 → start.toNat ≤ 95 → count = 0 →
      exec (.readWave f) s = .next ((s.counted .readWave f).answered .readWave f (.refuse .argument 6)))
    ∧ (channel.toNat ≤ 8 → start.toNat ≤ 95 → count ≠ 0 → found = none →
      exec (.readWave f) s = .next ((s.counted .readWave f).answered .readWave f (.refuse .notfound 0)))
    ∧ ∀ (ch : Channel) (e : StoreEntry), channel.toNat = ch.number → start.toNat ≤ 95 → count ≠ 0 → found = some e →
      ((∀ w, e.record.wave = some w → ∀ c ∈ w.channels, c.channel ≠ ch) →
        exec (.readWave f) s = .next ((s.counted .readWave f).answered .readWave f (.refuse .notfound 1)))
      ∧ (∀ (w : Waveform) (before after : List WaveChannel) (c : WaveChannel), e.record.wave = some w →
        w.channels = before ++ c :: after → (∀ x ∈ before, x.channel ≠ ch) → c.channel = ch →
        exec (.readWave f) s =
          .next ((s.counted .readWave f).answered .readWave f
            (.accept (le32 n ++ [channel, start, b8 (min 64 count.toNat)] ++ le32 w.cycle.toNat ++ b8 c.clipped
              :: (List.range (min 64 count.toNat)).flatMap fun i => codeBytes (c.codes.getD ((start.toNat + i) % 96) 0)))))

/-- RETAIN and RELEASE (R143, R144): an absent record is refused with NOTFOUND 0. A present one's retained flag is set by RETAIN and
cleared by RELEASE, the reply carries the flag from before, and the other records are as before. -/
def Says.RetainAndRelease : Prop :=
  ∀ (s : State) (f : Frame) (b0 b1 b2 b3 : Byte) (k : RequestKind) (found : Option StoreEntry), s.hears f →
    f.body = [b0, b1, b2, b3] → k = .retain ∨ k = .release →
    found = s.store.entries.find? (fun e => decide (e.record.number = numberOf b0 b1 b2 b3)) →
    (found = none → exec (k.row f) s = .next ((s.counted k f).answered k f (.refuse .notfound 0)))
    ∧ ∀ e, found = some e →
      exec (k.row f) s =
        .next (({ s.counted k f with
            store :=
              { s.store with
                firstMark := none, lastMark := none
                entries := s.store.entries.map fun x =>
                  if x.record.number = numberOf b0 b1 b2 b3 then { x with retained := decide (k = .retain) } else x } }
            : State).answered k f (.accept ([b0, b1, b2, b3, flagByte e.retained])))

/-- RETAIN-MAP (R146): the reply carries the start number and 32 flags, low bit first; flag i is set when record start + i is present
and retained. Nothing else changes. -/
def Says.RetainMap : Prop :=
  ∀ (s : State) (f : Frame) (b0 b1 b2 b3 : Byte), s.hears f → f.body = [b0, b1, b2, b3] →
    (s.store.entries.map fun e => e.record.number).Nodup →
    ∃ m0 m1 m2 m3 : Byte,
      exec (.retainMap f) s = .next ((s.counted .retainMap f).answered .retainMap f (.accept [b0, b1, b2, b3, m0, m1, m2, m3]))
      ∧ ∀ i, i < 32 →
        ((if i < 8 then m0 else if i < 16 then m1 else if i < 24 then m2 else m3).getLsbD (i % 8) = true
          ↔ ∃ e ∈ s.store.entries, e.record.number = numberOf b0 b1 b2 b3 + i ∧ e.retained = true)

/-- Retention: RETAIN and RELEASE (R143, R144) and the map of it (R146). -/
def Obligations.Retention : Prop := Says.RetainAndRelease ∧ Says.RetainMap

/-- MARK-FIRST and MARK-LAST (R147, R148): MARK-FIRST sets the first mark and clears the last, whatever the number. MARK-LAST sets the
last mark when a first mark is present and not above the number; otherwise it is refused with RANGE 0 and both marks are cleared. A
body of another length is refused with LENGTH and changes neither mark. A save in progress does not stop them. The MARK-LAST reply carries
the first mark and then the last, an order that is the model's reading (log entry 22). -/
def Obligations.PurgeMarks : Prop :=
  ∀ (s : State) (f : Frame), s.hears f →
    (f.body.length ≠ 4 →
      exec (.markFirst f) s = .next ((s.counted .markFirst f).answered .markFirst f (.refuse .length 4))
      ∧ exec (.markLast f) s = .next ((s.counted .markLast f).answered .markLast f (.refuse .length 4))
      ∧ (s.counted .markFirst f).store = s.store ∧ (s.counted .markLast f).store = s.store)
    ∧ ∀ b0 b1 b2 b3 : Byte, f.body = [b0, b1, b2, b3] →
      exec (.markFirst f) s =
        .next (({ s.counted .markFirst f with
            store := { s.store with firstMark := some (numberOf b0 b1 b2 b3), lastMark := none } } : State).answered
          .markFirst f (.accept [b0, b1, b2, b3]))
      ∧ (∀ first, s.store.firstMark = some first → first ≤ numberOf b0 b1 b2 b3 →
        exec (.markLast f) s =
          .next (({ s.counted .markLast f with
              store := { s.store with lastMark := some (numberOf b0 b1 b2 b3) } } : State).answered
            .markLast f (.accept (le32 first ++ [b0, b1, b2, b3]))))
      ∧ (s.store.firstMark = none ∨ (∃ first, s.store.firstMark = some first ∧ numberOf b0 b1 b2 b3 < first) →
        exec (.markLast f) s =
          .next (({ s.counted .markLast f with store := { s.store with firstMark := none, lastMark := none } }
            : State).answered .markLast f (.refuse .range 0)))

/-- PURGE (R150, R151): with both marks present every unretained record of the range is removed and the marks are cleared; the reply
carries the marks and the counts removed and kept. Without both marks it is refused with SEQUENCE 0 and the marks are cleared. -/
def Obligations.Purge : Prop :=
  ∀ (s : State) (f : Frame), s.hears f → f.body = [] →
    (s.store.firstMark = none ∨ s.store.lastMark = none →
      exec (.purge f) s =
        .next (({ s.counted .purge f with store := { s.store with firstMark := none, lastMark := none } } : State).answered
          .purge f (.refuse .sequence 0)))
    ∧ ∀ first last, s.store.firstMark = some first → s.store.lastMark = some last →
      ∃ kept : List StoreEntry,
        kept.Sublist s.store.entries
        ∧ (∀ e, e ∈ kept ↔ e ∈ s.store.entries ∧ ¬(first ≤ e.record.number ∧ e.record.number ≤ last ∧ e.retained = false))
        ∧ exec (.purge f) s =
            .next (({ s.counted .purge f with
                store := { s.store with entries := kept, firstMark := none, lastMark := none } } : State).answered .purge f
              (.accept (le32 first ++ le32 last
                ++ [b8 (s.store.entries.countP fun e =>
                      decide (first ≤ e.record.number ∧ e.record.number ≤ last ∧ e.retained = false)),
                    b8 (s.store.entries.countP fun e =>
                      decide (first ≤ e.record.number ∧ e.record.number ≤ last ∧ e.retained = true))])))

/-! ## The Notice Unit -/

/-- NOTICE_RAISE (R169, R171): the class's latch is set, its count rises by 1 up to 255, the other classes are as before, and ATTN is
evaluated. -/
def Obligations.NoticeRaise : Prop :=
  ∀ (s : State) (c : NoticeClass),
    (c ∉ s.transit.raises → exec (.noticeRaise c) s = .next s)
    ∧ ∀ before after : List NoticeClass, s.transit.raises = before ++ c :: after → c ∉ before →
      ∃ latches : PerClass NoticeLatch,
        (∀ d, latches.get d =
          if d = c then { latch := true, count := min 255 ((s.notices.latches.get c).count + 1) } else s.notices.latches.get d)
        ∧ exec (.noticeRaise c) s =
            .next { s with
              transit := { s.transit with raises := before ++ after }
              notices := { s.notices with latches := latches, attn := attnByRule latches s.notices.settings } }

/-- SET-NOTICES (R175, R176): twelve pairs of enable (0 or 1) and level (0 to 3), then the floor (0 to 3) and the master enable (0 or 1).
The first field outside its values is refused with ARGUMENT at its offset. An accepted request replaces the settings and evaluates
ATTN, which the reply states; latches and counts stay. -/
def Obligations.SetNotices : Prop :=
  ∀ (s : State) (f : Frame) (top : Nat → Nat), s.hears f → s.settings.saving = false → f.body.length = 26 →
    (∀ k, top k = if k = 25 ∨ (k < 24 ∧ k % 2 = 0) then 1 else 3) →
    (∀ k, k < 26 → top k < u8At f.body k → (∀ j, j < k → u8At f.body j ≤ top j) →
      exec (.setNotices f) s = .next ((s.counted .setNotices f).answered .setNotices f (.refuse .argument k)))
    ∧ ((∀ k, k < 26 → u8At f.body k ≤ top k) →
      ∃ n : NoticeSettings,
        (∀ c, n.enable.get c = decide (u8At f.body (2 * c.number) = 1) ∧ n.level.get c = u8At f.body (2 * c.number + 1))
        ∧ n.floor = u8At f.body 24 ∧ n.master = decide (u8At f.body 25 = 1)
        ∧ exec (.setNotices f) s =
            .next (({ s.counted .setNotices f with
                notices := { s.notices with settings := n, attn := attnByRule s.notices.latches n } } : State).answered
              .setNotices f (.accept [flagByte (attnByRule s.notices.latches n)])))

/-- FETCH-NOTICES (R172 to R174): the reply carries the entry count, each latched and enabled class with its number, level and count, by
level from the highest and then by class number, the count of latched classes whose enable is off, and ATTN after the request. A clearing
fetch clears the latch and count of the classes returned, keeps the others, and evaluates ATTN. A look-only fetch changes nothing. A
flag above 1 is refused with ARGUMENT 0. -/
def Obligations.FetchNotices : Prop :=
  ∀ (s : State) (f : Frame) (flag : Byte) (held : Nat) (classes : List NoticeClass), s.hears f → f.body = [flag] →
    (∀ c, s.notices.settings.level.get c ≤ 3) →
    held = NoticeClass.all.countP (fun c => (s.notices.latches.get c).latch && !s.notices.settings.enable.get c) →
    (∀ c, c ∈ classes ↔ (s.notices.latches.get c).latch = true ∧ s.notices.settings.enable.get c = true) →
    classes.Pairwise (fun c d => s.notices.settings.level.get d < s.notices.settings.level.get c
      ∨ (s.notices.settings.level.get c = s.notices.settings.level.get d ∧ c.number < d.number)) →
    (1 < flag.toNat →
      exec (.fetchNotices f) s = .next ((s.counted .fetchNotices f).answered .fetchNotices f (.refuse .argument 0)))
    ∧ (flag = 1 →
      exec (.fetchNotices f) s =
        .next ((s.counted .fetchNotices f).answered .fetchNotices f
          (.accept (fetchByRule s.notices classes held s.notices.attn))))
    ∧ (flag = 0 →
      ∃ latches : PerClass NoticeLatch, ∃ after : NoticeUnit,
        (∀ c, latches.get c =
          if (s.notices.latches.get c).latch = true ∧ s.notices.settings.enable.get c = true then { latch := false, count := 0 }
          else s.notices.latches.get c)
        ∧ after = { s.notices with latches := latches, attn := attnByRule latches s.notices.settings }
        ∧ exec (.fetchNotices f) s =
            .next (({ s.counted .fetchNotices f with notices := after } : State).answered .fetchNotices f
              (.accept (fetchByRule s.notices classes held after.attn))))

/-! ## The Alarm Line Driver -/

/-- INDICATION_CHANGE (R157 to R160): the Driver takes the oldest change of the item and evaluates every line. A line whose source stays
as it was runs on; a line whose source changes is put to its new source at once. -/
def Says.IndicationChange : Prop :=
  ∀ (s : State) (x : Item),
    ((∀ c ∈ s.transit.changes, c.item ≠ x) → exec (.indicationChange x) s = .next s)
    ∧ ∀ (c : Change) (before after : List Change), s.transit.changes = before ++ c :: after → (∀ y ∈ before, y.item ≠ x) →
      c.item = x →
      ∃ run : PerLine LineRun, ∃ seen : Indications,
        (seen = match c with
          | .condition i v => { s.lines.seen with conditions := s.lines.seen.conditions.set i v }
          | .gapAny g v => { s.lines.seen with gapAny := s.lines.seen.gapAny.set g v }
          | .syncAbsent v => { s.lines.seen with syncAbsent := v })
        ∧ (∀ l, (someItemTrue (s.lines.settings.get l) seen ↔ (s.lines.run.get l).source = true) →
            run.get l = s.lines.run.get l)
        ∧ (∀ l, someItemTrue (s.lines.settings.get l) seen → (s.lines.run.get l).source = false →
            run.get l = lineFrom (s.lines.settings.get l) true s.now)
        ∧ (∀ l, ¬someItemTrue (s.lines.settings.get l) seen → (s.lines.run.get l).source = true →
            run.get l = lineFrom (s.lines.settings.get l) false s.now)
        ∧ exec (.indicationChange x) s =
            .next { s with transit := { s.transit with changes := before ++ after }
                           lines := { s.lines with run := run, seen := seen } }

/-- PULSE_TIMER_EXPIRY (R160): a line in its ON phase goes OFF and INACTIVE with the off-time loaded, one in its OFF phase goes ON and
ACTIVE with the on-time loaded, in units of 10 ms. A stopped timer does not expire. -/
def Says.PulseTimerExpires : Prop :=
  ∀ (s : State) (l : LineId),
    ((s.lines.run.get l).timer = none → exec (.pulseTimerExpiry l) s = .next s)
    ∧ ∀ (t at_ : Nat), (s.lines.run.get l).timer = some t → at_ = max s.now t →
      ((s.lines.run.get l).phase = .on →
        exec (.pulseTimerExpiry l) s =
          .next { s with
            now := at_
            lines :=
              { s.lines with
                run := s.lines.run.set l
                  { s.lines.run.get l with
                    phase := .off, pin := .inactive, timer := some (at_ + (s.lines.settings.get l).offTime * 100000) } } })
      ∧ ((s.lines.run.get l).phase = .off →
        exec (.pulseTimerExpiry l) s =
          .next { s with
            now := at_
            lines :=
              { s.lines with
                run := s.lines.run.set l
                  { s.lines.run.get l with
                    phase := .on, pin := .active, timer := some (at_ + (s.lines.settings.get l).onTime * 100000) } } })

/-- What moves an alarm line between requests: a change of an indication (R157) and the pulse timer (R160). -/
def Obligations.LineEvents : Prop := Says.IndicationChange ∧ Says.PulseTimerExpires

/-- SET-LINES (R163 to R165): eleven bytes a line, ALM0 first. The first byte outside its values is refused with ARGUMENT at its offset.
An accepted request replaces the settings of all four lines, each field from its offset within the line's eleven bytes, and puts every
line to its source afresh; the reply carries the four pins. That the Driver evaluates from the indications it has taken is the model's
reading (log entry 29). -/
def Obligations.SetLines : Prop :=
  ∀ (s : State) (f : Frame) (low high : Nat → Nat), s.hears f → s.settings.saving = false → f.body.length = 44 →
    (∀ k, low k = if 9 ≤ k % 11 then 1 else 0) →
    (∀ k, high k = if k % 11 < 5 then 2 else if k % 11 = 5 then 15 else if k % 11 < 9 then 1 else 255) →
    (∀ k, k < 44 → u8At f.body k < low k ∨ high k < u8At f.body k →
      (∀ j, j < k → low j ≤ u8At f.body j ∧ u8At f.body j ≤ high j) →
      exec (.setLines f) s = .next ((s.counted .setLines f).answered .setLines f (.refuse .argument k)))
    ∧ ((∀ k, k < 44 → low k ≤ u8At f.body k ∧ u8At f.body k ≤ high k) →
      ∃ settings : PerLine LineSettings, ∃ run : PerLine LineRun,
        (∀ n l, (n, l) ∈ ([(0, .alm0), (1, .alm1), (2, .alm2), (3, .alm3)] : List (Nat × LineId)) →
          isLineAt (settings.get l) f.body (11 * n))
        ∧ (([.alm0, .alm1, .alm2, .alm3] : List LineId).flatMap fun l => lineByRule (settings.get l)) = f.body
        ∧ (∀ l, someItemTrue (settings.get l) s.lines.seen →
          run.get l = lineFrom (settings.get l) true (max s.now f.time))
        ∧ (∀ l, ¬someItemTrue (settings.get l) s.lines.seen →
          run.get l = lineFrom (settings.get l) false (max s.now f.time))
        ∧ exec (.setLines f) s =
            .next (({ s.counted .setLines f with
                lines := { s.lines with settings := settings, run := run } } : State).answered
              .setLines f
              (.accept [pinCode run.alm0.pin, pinCode run.alm1.pin, pinCode run.alm2.pin, pinCode run.alm3.pin])))

/-- READ-LINES (R162, R166): for each line its eleven settings, which of its items are true, its source, phase and pin, and the pin's
electrical level by the polarity. Nothing else changes. That the items are read from the indications the Driver has taken is the model's
reading (log entry 29), and so is the 0 for a pin in HIGH-Z, which no run reports (log entry 28). -/
def Obligations.ReadLines : Prop :=
  ∀ (s : State) (f : Frame), s.hears f → f.body = [] →
    exec (.readLines f) s =
      .next ((s.counted .readLines f).answered .readLines f
        (.accept (([.alm0, .alm1, .alm2, .alm3] : List LineId).flatMap fun l =>
          lineByRule (s.lines.settings.get l) ++ itemsByRule (s.lines.settings.get l) s.lines.seen
            ++ [flagOf (s.lines.run.get l).source, linePhaseCode (s.lines.run.get l).phase, pinCode (s.lines.run.get l).pin,
              flagOf (((s.lines.run.get l).pin = .active ∧ (s.lines.settings.get l).activeHigh = true)
                ∨ ((s.lines.run.get l).pin = .inactive ∧ (s.lines.settings.get l).activeHigh = false))])))

/-! ## The Link Controller -/

/-- CHARACTER and INTER_BYTE_TIMEOUT up to a frame's end (R181 to R184, R186): OFF and SEND take nothing; HUNT takes a start byte; RECEIVE
collects. A stop-bit error, a length byte above 240 and the inter-byte timer are framing errors; a foreign frame ends without a
count; an own or broadcast frame with a bad check value raises the check-error count. That a timer which ran out before a character
began is taken first (log entry 30), the character's length rounded up to whole ticks (log entry 36), and a timeout outside RECEIVE that
changes nothing (log entry 3) are the model's choice. -/
def Obligations.CharactersCollect : Prop :=
  ∀ (s : State) (t : Nat) (v : Byte) (e : Bool),
    (s.link.state = .off ∨ (∃ r b, s.link.state = .send r b) →
      exec (.character t v e) s = .next { s with now := max s.now t })
    ∧ (s.link.state = .hunt →
      exec (.character t v e) s =
        .next (if v = 0xC5 ∧ e = false then
            { s with now := max s.now t, link := { s.link with state := .receive [] .unknown t } }
          else { s with now := max s.now t }))
    ∧ ((∀ got cls last, s.link.state ≠ .receive got cls last) → exec .interByteTimeout s = .next s)
    ∧ ∀ got cls last, s.link.state = .receive got cls last →
      exec .interByteTimeout s =
        .next { s with now := max s.now (last + 20000)
                       link := { s.link with state := .hunt, framing := countUp16 s.link.framing } }
      ∧ (last + 20000 + s.link.characterTicks < t →
        exec (.character t v e) s =
          exec (.character t v e) { s with link := { s.link with state := .hunt, framing := countUp16 s.link.framing } })
      ∧ (t ≤ last + 20000 + s.link.characterTicks →
        (e = true ∨ (got.length = 3 ∧ 240 < v.toNat) →
          exec (.character t v e) s =
            .next { s with now := max s.now t
                           link := { s.link with state := .hunt, framing := countUp16 s.link.framing } })
        ∧ (e = false → got.length < 3 ∨ (got.length = 3 ∧ v.toNat ≤ 240)
            ∨ (4 ≤ got.length ∧ got.length + 1 < 6 + u8At got 3) →
          exec (.character t v e) s =
            .next { s with
              now := max s.now t
              link := { s.link with
                state := .receive (got ++ [v]) (if got = [] then s.link.addressClass v else cls) t } })
        ∧ (e = false → 4 ≤ got.length → got.length + 1 = 6 + u8At got 3 → cls = .foreign →
          exec (.character t v e) s = .next { s with now := max s.now t, link := { s.link with state := .hunt } })
        ∧ (e = false → 4 ≤ got.length → got.length + 1 = 6 + u8At got 3 → cls = .own ∨ cls = .broadcast →
          got.drop (4 + u8At got 3) ++ [v] ≠ le16 (crc16 (got.take (4 + u8At got 3))).toNat →
          exec (.character t v e) s =
            .next { s with now := max s.now t
                           link := { s.link with state := .hunt, checks := countUp16 s.link.checks } }))

/-- CHARACTER at the end of a good frame (R185 to R187, R193): when the last check byte of an own or broadcast frame makes its check value
good, the frame's request is carried out in that event, exactly as the row of its kind carries it out, which is what the model takes a
request row to stand for (log entry 6). The character has begun before the inter-byte timer ran out, and the frame, its characters back to
back, after the controller entered HUNT, with lengths rounded up to whole ticks (log entries 30, 36 and 42). -/
def Says.LastCharacter : Prop :=
  ∀ (s : State) (t last : Nat) (address tag kind hi : Byte) (body got : List Byte) (cls : AddrClass) (f : Frame),
    s.link.state = .receive got cls last → t ≤ last + 20000 + s.link.characterTicks → body.length ≤ 240 →
    got ++ [hi] = (address :: tag :: kind :: b8 body.length :: body)
      ++ le16 (crc16 (address :: tag :: kind :: b8 body.length :: body)).toNat →
    cls = .own ∨ cls = .broadcast → f = { time := t, broadcast := decide (cls = .broadcast), tag := tag, body := body } →
    s.link.huntFrom ≤ s.link.startTick f →
    (∀ k : RequestKind, kind = k.code →
      exec (.character t hi false) s = exec (k.row f) { s with link := { s.link with state := .hunt } })
    ∧ ((∀ k : RequestKind, kind ≠ k.code) →
      exec (.character t hi false) s = exec (.undefinedKind kind f) { s with link := { s.link with state := .hunt } })

/-- The check value (R185): the register starts at 0xFFFF and takes each byte's bits, most significant first; it shifts up, and is combined
with 0x1021 when the bit and its top bit differ. The nine bytes "123456789" give 0x29B1, and the example frame of 9.4 0xC888. -/
def Says.CheckValue : Prop :=
  (∀ bytes : List Byte, (crc16 bytes).toNat = checkByRule bytes)
  ∧ checkByRule [0x31, 0x32, 0x33, 0x34, 0x35, 0x36, 0x37, 0x38, 0x39] = 0x29B1 ∧ checkByRule [0x03, 0x21, 0x02, 0x00] = 0xC888

/-- The end of a good frame by characters (R185 to R187, R193), and the check value that makes it good (R185). -/
def Obligations.CharactersDispatchTheFrame : Prop := Says.LastCharacter ∧ Says.CheckValue

/-- The characters of a whole good frame of a kind (11.1, R185), back to back up to the frame's end, each with the tick its stop bit ended
at (log entries 6 and 36). -/
def Sys2Proof.Machine.Link.charactersOf (k : Link) (kind : Byte) (f : Frame) : List (Nat × Byte) :=
  let payload := [if f.broadcast then 0xFF else BitVec.ofNat 8 k.address.toNat, f.tag, kind, BitVec.ofNat 8 f.body.length] ++ f.body
  let bytes := 0xC5 :: payload ++ bytesOf 2 (checkByRule payload)
  bytes.zipIdx.map fun x => (f.time - k.ticksOf (bytes.length - 1 - x.2), x.1)

/-- CHARACTER rows one after the other, without a stop-bit error. -/
def Sys2Proof.Machine.takesCharacters : List (Nat × Byte) → State → Host.Outcome State Fault Refusal
  | [], s => .next s
  | (t, v) :: rest, s =>
    match exec (.character t v false) s with
    | .next u => takesCharacters rest u
    | .fault x => .fault x
    | .refused x => .refused x

/-- A row of a whole frame, of a defined or an undefined kind, that is not simply heard, and a start byte in TURNAROUND (R181 to R183,
R195, R196, R203, R215, R218). OFF and SEND take no frame. A frame whose start byte came before the controller entered HUNT is not taken:
the rest of its characters is hunted through as CHARACTER rows are. In RECEIVE the row stands for the frame being collected when its start
byte came no later than the last character taken, which is the model's choice (log entry 6); else its later characters are taken one by
one. A body the length byte cannot carry is a framing error. In TURNAROUND the start byte cancels the held reply, raises the cancel count
and opens the new frame, or begins the REQUEST reset of a RESTART at its own tick; any other character changes nothing. That a frame's
characters stand back to back, with lengths rounded up to whole ticks, and the tick from which the controller hunts, are the model's
choice (log entries 6, 36 and 42). What a reset leaves is `isReset`, which rests on log entries 8, 9, 10, 24, 37 and 42 for eight values.
-/
def Obligations.FramesOutsideHunt : Prop :=
  ∀ (s : State) (row : Instr) (kind : Byte) (f : Frame),
    (∃ k : RequestKind, row = k.row f ∧ kind = k.code) ∨ row = .undefinedKind kind f →
    (s.link.state = .off ∨ (∃ r b, s.link.state = .send r b) → exec row s = .next { s with now := max s.now f.time })
    ∧ (s.link.state = .hunt →
      (s.link.startTick f < s.link.huntFrom →
        exec row s = takesCharacters ((s.link.charactersOf kind f).filter fun c => decide (s.link.huntFrom ≤ c.1)) s)
      ∧ (s.link.huntFrom ≤ s.link.startTick f → 240 < f.body.length →
        exec row s =
          .next { s with now := max s.now f.time, link := { s.link with framing := countUp16 s.link.framing } }))
    ∧ (∀ got cls last, s.link.state = .receive got cls last →
      (s.link.huntFrom ≤ s.link.startTick f → s.link.startTick f ≤ last →
        exec row s = exec row { s with link := { s.link with state := .hunt } })
      ∧ (s.link.startTick f < s.link.huntFrom ∨ last < s.link.startTick f →
        exec row s = takesCharacters ((s.link.charactersOf kind f).filter fun c => decide (last < c.1)) s))
    ∧ ∀ reply start, s.link.state = .turnaround reply start →
      (s.link.startTick f < s.link.huntFrom ∨ s.link.startTick f < start →
        exec row s = takesCharacters ((s.link.charactersOf kind f).filter fun c => decide (start < c.1)) s)
      ∧ (s.link.huntFrom ≤ s.link.startTick f → start ≤ s.link.startTick f →
        (s.settings.restartPending = false →
          exec row s =
            exec row { s with link := { s.link with state := .hunt, cancels := countUp16 s.link.cancels } })
        ∧ (s.settings.restartPending = true →
          ∃ u, exec row s = .next u ∧ isReset s .request (max s.now (s.link.startTick f)) u))
      ∧ (∀ t v e, (v ≠ 0xC5 ∨ e = true) → exec (.character t v e) s = .next { s with now := max s.now t })
      ∧ (∀ t, s.settings.restartPending = false →
        exec (.character t 0xC5 false) s =
          .next { s with
            now := max s.now t
            link := { s.link with state := .receive [] .unknown t, cancels := countUp16 s.link.cancels } })
      ∧ (∀ t, s.settings.restartPending = true →
        ∃ u, exec (.character t 0xC5 false) s = .next u ∧ isReset s .request (max s.now t) u)

/-- REPLY_BEGIN and REPLY_END (R194, R196, R218): the held reply begins 5,000 to 50,000 ticks after its request's end; at any other tick
the row changes nothing (log entry 3). It ends when its characters of ten bits have been sent back to back, at the first whole tick from
there on (log entry 36). The controller then hunts, or the REQUEST reset of a RESTART begins, as `isReset` says (log entries 8, 9, 10, 24,
37 and 42 for eight values). The tick from which the controller hunts again is kept for whole frames (log entry 42). -/
def Says.ReplyBeginAndEnd : Prop :=
  ∀ (s : State) (time : Nat),
    ((∀ r b, s.link.state ≠ .turnaround r b) → exec (.replyBegin time) s = .next s)
    ∧ ((∀ r b, s.link.state ≠ .send r b) → exec .replyEnd s = .next s)
    ∧ (∀ reply start, s.link.state = .turnaround reply start →
      (time < start + 5000 ∨ start + 50000 < time → exec (.replyBegin time) s = .next s)
      ∧ (start + 5000 ≤ time → time ≤ start + 50000 →
        exec (.replyBegin time) s =
          .next { s with now := max s.now time, link := { s.link with state := .send reply time } }))
    ∧ ∀ reply start ticks baud, s.link.state = .send reply start → baud = (if s.link.fast then 115200 else 38400) →
      ticks * baud < reply.length * 100000000 + baud → reply.length * 100000000 ≤ ticks * baud →
      (s.settings.restartPending = false →
        exec .replyEnd s =
          .next { s with now := max s.now (start + ticks), link := { s.link with state := .hunt, huntFrom := start + ticks } })
      ∧ (s.settings.restartPending = true →
        ∃ u, exec .replyEnd s = .next u ∧ isReset s .request (max s.now (start + ticks)) u)

/-- A reply frame (R197, R198): the start byte, the station address, the request's tag, the kind + 0x80 of an acceptance or 0x7F of a
refusal, the body's length, the body, and the check value over address to body, low byte first. A refusal's body is the request's kind,
the code and the detail. -/
def Says.ReplyFrame : Prop :=
  ∀ (address : BitVec 4) (tag kind : Byte) (answer : Answer) (replyKind : Byte) (body payload : List Byte),
    payload = [BitVec.ofNat 8 address.toNat, tag, replyKind, BitVec.ofNat 8 body.length] ++ body →
    (answer = .accept body ∧ replyKind = kind + 0x80)
      ∨ (∃ code detail n, answer = .refuse code detail ∧ replyKind = 0x7F ∧ body = [kind, BitVec.ofNat 8 n, BitVec.ofNat 8 detail]
          ∧ (code, n) ∈ ([(.unknown, 1), (.length, 2), (.argument, 3), (.state, 4), (.busy, 5), (.sequence, 6), (.notfound, 7),
              (.range, 8)] : List (RefusalCode × Nat))) →
    replyBytes address tag kind answer = 0xC5 :: payload ++ bytesOf 2 (checkByRule payload)

/-- The line (R179, R196, R227): DE is low and TXD at the mark level outside SEND. In SEND DE is high, and TXD carries the reply's
characters back to back: the start bit at the space level, eight data bits with the least significant first, the stop bit at the mark
level; the mark after the last. -/
def Says.LineLevels : Prop :=
  ∀ (s : State) (baud : Nat), baud = (if s.link.fast then 115200 else 38400) →
    ((∀ r b, s.link.state ≠ .send r b) → s.de = false ∧ s.txd = true)
    ∧ ∀ reply start, s.link.state = .send reply start →
      s.de = true
      ∧ (∀ (k bit : Nat) (v : Byte), reply[k]? = some v → bit < 10 →
        (10 * k + bit) * 10000000 ≤ (s.now - start) * baud → (s.now - start) * baud < (10 * k + bit + 1) * 10000000 →
        s.txd = if bit = 0 then false else if bit = 9 then true else v.getLsbD (bit - 1))
      ∧ (reply.length * 100000000 ≤ (s.now - start) * baud → s.txd = true)

/-- A reply: its frame, when it begins and ends, and the levels it drives. -/
def Obligations.ReplyBeginsAndEnds : Prop := Says.ReplyBeginAndEnd ∧ Says.ReplyFrame ∧ Says.LineLevels

/-- The request kinds (R149, R189, R221): each has the code, the body length and the effect on the purge marks that its line of the table
says, and the table has a line for every kind and no code twice. -/
def Says.RequestKinds : Prop :=
  (∀ k code length marks, (k, code, length, marks) ∈ kindTable →
    k.code = BitVec.ofNat 8 code ∧ k.fixedLength = length ∧ k.keepsMarks = marks)
  ∧ (∀ k : RequestKind, ∃ code length marks, (k, code, length, marks) ∈ kindTable)
  ∧ (kindTable.map fun x => x.2.1).Nodup

/-- The common checks of dispatch, in order (R187 to R190): an undefined kind is refused with UNKNOWN 0, a body of another length than the
kind's with LENGTH and that length, and a request of the BUSY set during a save with BUSY 0. A refused request is counted and clears
the purge marks like any other, and changes nothing else. -/
def Says.RefusedByTheCommonChecks : Prop :=
  ∀ (s : State) (f : Frame), s.hears f →
    (∀ kind : Byte, (∀ k : RequestKind, kind ≠ k.code) →
      exec (.undefinedKind kind f) s =
        .next { s with
          now := max s.now f.time
          store := { s.store with firstMark := none, lastMark := none }
          link :=
            { s.link with
              requests := countUp16 s.link.requests
              state :=
                if f.broadcast then .hunt
                else .turnaround (frameBytes (s.link.address.setWidth 8) f.tag 0x7F [kind, 1, 0]) f.time } })
    ∧ (∀ (k : RequestKind) n, k.fixedLength = some n → f.body.length ≠ n →
      exec (k.row f) s = .next ((s.counted k f).answered k f (.refuse .length n)))
    ∧ (∀ k : RequestKind, k ∈ [.setSync, .setWindow, .setProfile, .setNotices, .setLines, .saveSettings, .loadDefaults, .restart] →
      k.fixedLength = none ∨ k.fixedLength = some f.body.length → s.settings.saving = true →
      exec (k.row f) s = .next ((s.counted k f).answered k f (.refuse .busy 0)))

/-- The common checks (R187 to R190), by the kinds' codes and body lengths (R189, R221). -/
def Obligations.CommonChecks : Prop := Says.RefusedByTheCommonChecks ∧ Says.RequestKinds

/-- IDENTIFY (R220): the fixed figures, the last reset cause, the settings source, the image-valid flag and the next record number. -/
def Says.Identify : Prop :=
  ∀ (s : State) (f : Frame), s.hears f → f.body = [] →
    exec (.identify f) s =
      .next ((s.counted .identify f).answered .identify f
        (.accept ([0x47, 0x53, 0xE4, 0x02, 2, 4, 9, 96, 48, 12, 16, 12, 4, causeCode s.settings.lastCause,
          settingsSourceCode s.settings.source, flagOf s.settings.imageValid] ++ bytesOf 4 s.store.counter)))

/-- READ-STATUS (R107, R200, R225): the 56 bytes of the status in their order, with the request count of its own dispatch. A group's
gap-any is true while one of its twelve latches is set, and BUS has none. -/
def Says.ReadStatus : Prop :=
  ∀ (s : State) (f : Frame), s.hears f → f.body = [] →
    exec (.readStatus f) s =
      .next ((s.counted .readStatus f).answered .readStatus f
        (.accept ([trackerCode s.tracker.state, sourceCode s.sourceInEffect]
          ++ le16 (match s.tracker.grid with | some g => 10000000000 / g.period | none => 0)
          ++ le16 s.tracker.spurious.toNat ++ le16 s.tracker.missed.toNat ++ le16 s.tracker.losses.toNat
          ++ le16 s.tracker.rotations.toNat ++ le32 s.engine.windowNumber.toNat
          ++ [b8 s.engine.w, (match s.engine.pendingW with | some w => b8 w | none => 0), flagOf s.engine.running]
          ++ (([.g0, .g1, .g2, .g3, .bus] : List Subject).flatMap fun i =>
              [subjectStateCode (s.table.get i).state, conditionCode (s.verdicts.get i).condition, b8 (s.verdicts.get i).counter,
                b8 ((if (match i with
                      | .g0 => anyLatchSet (s.gap.groups.get .g0)
                      | .g1 => anyLatchSet (s.gap.groups.get .g1)
                      | .g2 => anyLatchSet (s.gap.groups.get .g2)
                      | .g3 => anyLatchSet (s.gap.groups.get .g3)
                      | .bus => false) then 1 else 0)
                  + (if (s.table.get i).pendingProfile.isSome then 2 else 0))])
          ++ [b8 s.store.entries.length, b8 (s.store.entries.countP fun e => e.retained)] ++ le16 s.store.drops.toNat
          ++ [flagOf s.settings.saving, saveCode s.settings.lastSave,
            flagOf (NoticeClass.all.any fun c => (s.notices.latches.get c).latch && s.notices.settings.enable.get c),
            s.link.address.setWidth 8, flagOf s.link.fast]
          ++ le16 (countUp16 s.link.requests).toNat ++ le16 s.link.framing.toNat ++ le16 s.link.checks.toNat
          ++ le16 s.link.cancels.toNat)))

/-- CLEAR-COUNTERS (R202): the nine counters are 0 afterwards, the reply carries them from before, and nothing else is cleared. -/
def Says.ClearCounters : Prop :=
  ∀ (s : State) (f : Frame), s.hears f → f.body = [] →
    exec (.clearCounters f) s =
      .next (({ s.counted .clearCounters f with
          tracker := { s.tracker with spurious := 0, missed := 0, losses := 0, rotations := 0 }
          link := { s.link with requests := 0, framing := 0, checks := 0, cancels := 0 }
          store := { s.store with firstMark := none, lastMark := none, drops := 0 } } : State).answered .clearCounters f
        (.accept (le16 s.tracker.spurious.toNat ++ le16 s.tracker.missed.toNat ++ le16 s.tracker.losses.toNat
          ++ le16 s.tracker.rotations.toNat ++ le16 (countUp16 s.link.requests).toNat ++ le16 s.link.framing.toNat
          ++ le16 s.link.checks.toNat ++ le16 s.link.cancels.toNat ++ le16 s.store.drops.toNat)))

/-- The encodings of fields (R222): multi-byte fields low byte first, codes in two's complement, flags, latch maps, the numbers of subjects,
groups, channels and notice classes (chapters 2.1 and 8.6), and the codes of the enumerations; a SET-SYNC body's layout. -/
def Says.FieldEncodings : Prop :=
  (∀ n, [b8 n] = bytesOf 1 n ∧ le16 n = bytesOf 2 n ∧ le32 n = bytesOf 4 n)
  ∧ (∀ x : Int, codeBytes x = bytesOf 2 (x % 65536).toNat ∧ meanBytes x = meanByRule x)
  ∧ (∀ b, flagByte b = flagOf b) ∧ (∀ p : PerSector Bool, [sectorByte p] = sectorsByRule p.get)
  ∧ ([.g0, .g1, .g2, .g3, .bus] : List Subject).map Subject.number = [0, 1, 2, 3, 4]
  ∧ ([.g0, .g1, .g2, .g3] : List Group).map Group.number = [0, 1, 2, 3]
  ∧ (∀ ch : Channel, ch.number = channelNumber ch)
  ∧ ([.restart, .sync, .condG0, .condG1, .condG2, .condG3, .condBus, .gap, .clip, .store, .profile, .save] : List NoticeClass).map
      NoticeClass.number = [0, 1, 2, 3, 4, 5, 6, 7, 8, 9, 10, 11]
  ∧ (∀ x, Source.code x = sourceCode x) ∧ (∀ x, Polarity.code x = polarityCode x) ∧ (∀ x, TrackerState.code x = trackerCode x)
  ∧ (∀ x, SubjectState.code x = subjectStateCode x) ∧ (∀ x, Condition.code x = conditionCode x)
  ∧ (∀ x, LastOutcome.code x = outcomeCode x) ∧ (∀ x, View.code x = viewCode x) ∧ (∀ x, Quantity.code x = quantityCode x)
  ∧ (∀ x, RecordKind.code x = recordKindCode x) ∧ (∀ x, Selection.code x = selectionCode x)
  ∧ ∀ y, syncBytes y = syncByRule y

/-- The requests that report the block as a whole: IDENTIFY, READ-STATUS and CLEAR-COUNTERS, with the encodings of fields. -/
def Obligations.IdentifyStatusAndCounters : Prop :=
  Says.Identify ∧ Says.ReadStatus ∧ Says.ClearCounters ∧ Says.FieldEncodings

/-- READ-SYNC (R14, R22): the sync settings, the tracker's state, source, position, offset, periods, frequency, counts, search time and
cycle counter. The frequency is floor(10,000,000,000 / P) mHz, and 0 with no grid. Nothing else changes. That the fields stand in the
order of R22's table is the model's reading (log entry 22). -/
def Obligations.ReadSync : Prop :=
  ∀ (s : State) (f : Frame) (period next frequency searchTime : Nat), s.hears f → f.body = [] →
    (match s.tracker.grid with
      | some g => period = g.period ∧ next = g.nextPeriod ∧ frequency = 10000000000 / g.period
      | none => period = 0 ∧ next = 0 ∧ frequency = 0) →
    (match s.tracker.searchStart with
      | some start => searchTime = (max s.now f.time - start) / 10000
      | none => searchTime = 0) →
    exec (.readSync f) s =
      .next ((s.counted .readSync f).answered .readSync f
        (.accept (syncByRule s.sync
          ++ [trackerCode s.tracker.state, sourceCode s.sourceInEffect, b8 s.tracker.position, b8 (s.sync.offsets.get s.sourceInEffect)]
          ++ le32 period ++ le32 next ++ le16 frequency ++ [b8 s.tracker.warmUp, b8 s.tracker.misses] ++ le32 searchTime
          ++ le32 s.tracker.cycle.toNat ++ le16 s.tracker.spurious.toNat ++ le16 s.tracker.missed.toNat
          ++ le16 s.tracker.losses.toNat ++ le16 s.tracker.rotations.toNat)))

/-- SET-SYNC (R6, R21): the body is walked, and the first field that fails gives the refusal. Accepted settings replace the old ones, the
qualifier is reset, the window is aborted, notice SYNC is raised, and the tracker enters SEARCH on the first entry, with a grid stop
when a grid ran. The cycle counter and the four sync counters stay. That the abort is handed before the grid stop (log entry 32), and the
run start 0 of the reset qualifier (log entry 9), are the model's choice. -/
def Says.SetSyncCarriedOut : Prop :=
  ∀ (s : State) (f : Frame), s.hears f → s.settings.saving = false →
    (∀ code detail, walkSync f.body = .error (code, detail) →
      exec (.setSync f) s = .next ((s.counted .setSync f).answered .setSync f (.refuse code detail)))
    ∧ ∀ y, walkSync f.body = .ok y →
      exec (.setSync f) s =
        .next (({ s.counted .setSync f with
            sync := y
            qualifier := { level := none, runCount := 0, runStart := 0, edges := [] }
            tracker := s.tracker.searching 1 (max s.now f.time)
            front := if s.tracker.grid.isSome then s.front.stopped else s.front
            gap := if s.tracker.grid.isSome then s.gap.stopped else s.gap
            transit :=
              { s.transit with
                engine := s.transit.engine ++ .abort .setSync :: (if s.tracker.grid.isSome then [.gridStop] else [])
                raises := s.transit.raises ++ [.sync]
                changes := s.transit.changes
                  ++ if s.tracker.state = .locked ∨ s.tracker.state = .holdover then [.syncAbsent true] else [] } }
            : State).answered .setSync f (.accept []))

/-- SET-SYNC refused (R21, R189): in the order of the body's fields, the first that lies beyond the body's end gives LENGTH and the first
outside its values ARGUMENT, each at the field's offset, whichever comes first. Bytes after the warm-up target give LENGTH at the first of
them. -/
def Says.SetSyncRefused : Prop :=
  ∀ (s : State) (f : Frame), s.hears f → s.settings.saving = false →
    (∀ x, isFirstFailure (syncFields f.body) f.body x →
      exec (.setSync f) s = .next ((s.counted .setSync f).answered .setSync f (x.refusal f.body)))
    ∧ ((∀ x ∈ syncFields f.body, x.passes f.body) → u8At f.body 0 + 7 < f.body.length →
      exec (.setSync f) s = .next ((s.counted .setSync f).answered .setSync f (.refuse .length (u8At f.body 0 + 7))))

/-- SET-SYNC: what it is refused with, and what an accepted one does. -/
def Obligations.SetSync : Prop := Says.SetSyncCarriedOut ∧ Says.SetSyncRefused

/-! ## The Settings Store -/

/-- SAVE-SETTINGS (R52, R87, R207): the saving flag is set, the snapshot takes the working settings with what is pending and their check
value, and the image loses its valid mark. That its contents and check value stay until the save ends is the model's choice (log entry
41). -/
def Says.SaveSettings : Prop :=
  ∀ (s : State) (f : Frame), s.hears f → f.body = [] → s.settings.saving = false →
    ∃ c : WorkingSettings,
      c.sync = s.sync ∧ c.window = s.engine.pendingW.getD s.engine.w ∧ c.notices = s.notices.settings
      ∧ c.lines = s.lines.settings
      ∧ (∀ i, c.profiles.get i = (s.table.get i).pendingProfile.getD (s.table.get i).active)
      ∧ exec (.saveSettings f) s =
          .next (({ s.counted .saveSettings f with
              settings :=
                { s.settings with
                  saving := true
                  snapshot := some { contents := c, check := crc16 (Config.imageBytes c), accepted := max s.now f.time }
                  imageValid := false, image := { s.settings.image with mark := false } } } : State).answered
            .saveSettings f (.accept []))

/-- SAVE_COMPLETION (R208, R209), at most 150 ms after the acceptance: when the check values of the contents read back, of the snapshot and
of the image agree, the image holds the snapshot, its valid mark is written and the result is OK. Else the result is FAILED, the mark stays
erased, and the image is what read back (log entry 16). Either way saving ends and notice SAVE is raised. At any other tick, or with
no save, the row changes nothing (log entry 3). -/
def Says.SaveCompletion : Prop :=
  ∀ (s : State) (time : Nat) (contents : WorkingSettings) (check : Word16),
    (s.settings.snapshot = none → exec (.saveCompletion time contents check) s = .next s)
    ∧ ∀ x, s.settings.snapshot = some x →
      (time < x.accepted ∨ x.accepted + 1500000 < time → exec (.saveCompletion time contents check) s = .next s)
      ∧ ∀ ok : Bool, x.accepted ≤ time → time ≤ x.accepted + 1500000 →
        (ok = true ↔ crc16 (Config.imageBytes contents) = x.check ∧ check = x.check) →
        exec (.saveCompletion time contents check) s =
          .next { s with
            now := max s.now time
            settings :=
              { s.settings with
                image :=
                  if ok then { contents := x.contents, check := x.check, mark := true }
                  else { contents := contents, check := check, mark := false }
                imageValid := ok, saving := false, snapshot := none, lastSave := if ok then .ok else .failed }
            transit := { s.transit with raises := s.transit.raises ++ [.save] } }

/-- A save from its acceptance to its completion. -/
def Obligations.SaveSettingsAndCompletion : Prop := Says.SaveSettings ∧ Says.SaveCompletion

/-- What LOAD-DEFAULTS hands on, with `first` for the order in which the Subject Table takes the abort and LOAD-DEFAULTS itself (R83) and
`activated` for the participants whose pending profile the abort activates in the first order. -/
def Sys2Proof.Machine.State.handsOnDefaults (s : State) (first : Bool) (activated : List Subject) : Transit :=
  { s.transit with
    engine := s.transit.engine ++ .abort .loadDefaults :: (if s.tracker.grid.isSome then [.gridStop] else [])
    namings := if first then [] else s.transit.namings ++ if s.engine.running then s.engine.namingOf else []
    aborts := s.transit.aborts ++ if s.engine.running then s.engine.participants.map (·.subject) else []
    orders := s.transit.orders ++ (if first then activated.map fun i => (i, .activation) else [])
      ++ ([.g0, .g1, .g2, .g3, .bus] : List Subject).map fun i => (i, .loadDefaults)
    clearings := s.transit.clearings
      ++ (if first then activated.filterMap fun i => i.group?.map fun g => (g, .activation) else [])
      ++ ([.g0, .g1, .g2, .g3] : List Group).map fun g => (g, .loadDefaults)
    raises := s.transit.raises ++ (if s.engine.running then s.engine.profileNotice else [])
      ++ (if first then activated.map fun _ => .profile else []) ++ [.sync, .profile]
    changes := s.transit.changes
      ++ if s.tracker.state = .locked ∨ s.tracker.state = .holdover then [.syncAbsent true] else [] }

/-- LOAD-DEFAULTS (R1, R23, R45, R52, R82, R83, R120, R156, R167, R170, R178, R217): every part of the working settings is its default at
once, with the values that the rules' tables give. The running window
is aborted, which applies a pending W with notice PROFILE and hands an abort report for each participant, and W in use is then 4. Every
subject is DISABLED with none pending, the lines are inactive, ATTN follows, and the image, the store's records and the counters stay. The
tracker's abort and grid stop, notices SYNC and PROFILE, and the clearing of every subject and group are handed on. Whether the Subject
Table takes the naming of the abort before or after, R83 leaves open, and it is a free value (log entry 14): before, each MEASURING
participant's pending profile is activated with its clearings and a PROFILE notice; after, the naming stays in flight. With the stop of a
running grid the Front End drops its conversion and assembly and the Gap Detector its cycle in hand. That the abort cause is handed before
the grid stop (log entry 32), and the run start 0 of the reset qualifier (log entry 9), are the model's choice. -/
def Obligations.LoadDefaults : Prop :=
  ∀ (s : State) (f : Frame) (activated : List Subject), s.hears f → f.body = [] → s.settings.saving = false →
    activated = (s.engine.participants.map (·.subject)).filter (fun i =>
      decide ((s.table.get i).state = .measuring) && (s.table.get i).pendingProfile.isSome) →
    ∃ t, exec (.loadDefaults f) s = .next t
      ∧ t.sync = syncDefaults ∧ t.qualifier = { level := none, runCount := 0, runStart := 0, edges := [] }
      ∧ t.tracker = s.tracker.searching 1 (max s.now f.time)
      ∧ t.engine =
          (if s.engine.running then s.engine.idleWith 4 s.engine.windowNumber false
            else { s.engine with w := 4, pendingW := none })
      ∧ (∀ i, t.table.get i = { state := .disabled, active := settingsDefaults.profiles.get i, pendingProfile := none })
      ∧ (∀ l, t.lines.settings.get l = lineDefaults)
      ∧ (∀ l, t.lines.run.get l = { source := false, phase := .idle, timer := none, pin := .inactive })
      ∧ t.notices =
          { s.notices with settings := noticeDefaults, attn := attnByRule s.notices.latches noticeDefaults }
      ∧ t.settings = { s.settings with source := .defaults }
      ∧ t.store = { s.store with firstMark := none, lastMark := none }
      ∧ t.verdicts = s.verdicts
      ∧ t.front = (if s.tracker.grid.isSome then s.front.stopped else s.front)
      ∧ t.gap = (if s.tracker.grid.isSome then s.gap.stopped else s.gap)
      ∧ t.now = max s.now f.time ∧ t.phase = s.phase ∧ t.pending = s.pending
      ∧ t.comparators = s.comparators ∧ t.sampled = s.sampled ∧ t.supplyGood = s.supplyGood
      ∧ t.link =
          { s.link with
            requests := countUp16 s.link.requests
            state :=
              if f.broadcast then .hunt
              else .turnaround (replyBytes s.link.address f.tag RequestKind.loadDefaults.code (.accept [])) f.time }
      ∧ (s.engine.running = false → t.transit = s.handsOnDefaults false activated)
      ∧ (s.engine.running = true → s.transit.namings = [] → (s.engine.participants.map (·.subject)).Nodup →
        t.transit = s.handsOnDefaults false activated ∨ t.transit = s.handsOnDefaults true activated)

/-- How resets begin (R211, R212, R218, R227): a supply below 2.85 V, RSTN low for 2 µs or more, or a RESTART. An addressed RESTART is
answered first and only marks itself pending; a broadcast one begins its reset at once. In a POWER reset a supply above 2.95 V is good from
its first tick on, and one between the two levels is not good. Otherwise a supply from 2.85 V on, or a shorter low level, only passes time.
The rows' operands are the model's (log entry 24), and `isReset` rests on log entries 8, 9, 10, 24, 37 and 42 for eight values. -/
def Obligations.ResetsBegin : Prop :=
  ∀ (s : State) (time x : Nat),
    (2850 ≤ x → (∀ b, s.phase ≠ .inReset .power b) → exec (.powerReset time x) s = .next { s with now := max s.now time })
    ∧ (∀ b, 2850 ≤ x → x ≤ 2950 → s.phase = .inReset .power b →
      exec (.powerReset time x) s = .next { s with now := max s.now time, supplyGood := none })
    ∧ (∀ b, 2950 < x → s.phase = .inReset .power b →
      exec (.powerReset time x) s =
        .next { s with
          now := max s.now time
          supplyGood := match s.supplyGood with
            | none => some (max s.now time)
            | some t => some t })
    ∧ (x < 2850 → ∃ u, exec (.powerReset time x) s = .next u ∧ isReset s .power (max s.now time) u)
    ∧ (x < 20 → exec (.pinReset time x) s = .next { s with now := max s.now time })
    ∧ (20 ≤ x → ∃ u, exec (.pinReset time x) s = .next u ∧ isReset s .pin (max s.now time) u)
    ∧ ∀ f : Frame, s.hears f → f.body = [] → s.settings.saving = false →
      (f.broadcast = false →
        exec (.restart f) s =
          .next (({ s.counted .restart f with settings := { s.settings with restartPending := true } } : State).answered
            .restart f (.accept [])))
      ∧ (f.broadcast = true → ∃ u, exec (.restart f) s = .next u ∧ isReset s .request (max s.now f.time) u)

/-- RESET_END (R179, R211, R213, R214, R227): when the supply has stayed above 2.95 V for 2 ms, with RSTN high, or 100 µs into a REQUEST
reset, start-up begins. The straps are taken, and the settings come from the image when its mark, its check value and its contents are
good, else from the defaults of R1, R36, R82, R156 and R170, with every subject DISABLED. Otherwise the row changes nothing (log entry 3).
What the row carries, its exact tick for a POWER or REQUEST reset, and that it stands for RSTN high in a PIN reset, are the model's choice
(log entry 24), and so is the tick 0 from which the Link Controller hunts (log entry 42). -/
def Says.ResetEnd : Prop :=
  ∀ (s : State) (time : Nat) (straps : Straps),
    ((∀ c b, s.phase ≠ .inReset c b) → exec (.resetEnd time straps) s = .next s)
    ∧ ∀ (c : Cause) (began : Nat), s.phase = .inReset c began →
      ((c = .power ∧ ∀ good, s.supplyGood = some good → time ≠ good + 20000) ∨ (c = .pin ∧ time < began)
          ∨ (c = .request ∧ time ≠ began + 1000) →
        exec (.resetEnd time straps) s = .next s)
      ∧ ((c = .power ∧ ∃ good, s.supplyGood = some good ∧ time = good + 20000) ∨ (c = .pin ∧ began ≤ time)
          ∨ (c = .request ∧ time = began + 1000) →
        ∀ (good : Bool) (w : WorkingSettings),
          (good = true ↔ s.settings.image.mark = true
            ∧ crc16 (Config.imageBytes s.settings.image.contents) = s.settings.image.check
            ∧ contentsLegal s.settings.image.contents) →
          w = (if good then s.settings.image.contents else settingsDefaults) →
          ∃ (table : PerSubject SubjectEntry) (run : PerLine LineRun) (latches : PerClass NoticeLatch),
            (∀ i, table.get i = { state := .disabled, active := w.profiles.get i, pendingProfile := none })
            ∧ (∀ l, run.get l = { source := false, phase := .idle, timer := none, pin := .highZ })
            ∧ (∀ x, latches.get x = { latch := false, count := 0 })
            ∧ exec (.resetEnd time straps) s =
                .next { s with
                  now := max s.now time
                  phase := .startUp time
                  supplyGood := none
                  sync := w.sync
                  engine :=
                    { w := w.window, pendingW := none, running := false, windowNumber := 0, firstCycle := 0, completed := 0
                      sampleCount := 0, holdover := false, participants := [], justEnded := false }
                  table := table
                  notices := { latches := latches, settings := w.notices, attn := false }
                  lines :=
                    { settings := w.lines, run := run
                      seen :=
                        { conditions := ⟨.healthy, .healthy, .healthy, .healthy, .healthy⟩
                          gapAny := ⟨false, false, false, false⟩, syncAbsent := true } }
                  link :=
                    { state := .off, address := straps.address, fast := straps.baudsel, requests := 0, framing := 0
                      checks := 0, cancels := 0, huntFrom := 0 }
                  settings :=
                    { s.settings with imageValid := good, source := if good then .image else .defaults } })

/-- END_OF_START_UP (R23, R86, R89, R167, R178, R215), at most 25 ms after start-up began: the tracker searches on the first entry with
the qualifier reset, subjects enabled at start become WAITING and are ordered enabled, the lines leave HIGH-Z, RESTART is raised, and
the Link Controller hunts, for frames whose start byte comes from then on. Otherwise the row changes nothing (log entry 3). The run start 0
of the reset qualifier (log entry 9) and the tick from which the controller hunts (log entry 42) are the model's choice. -/
def Says.EndOfStartUp : Prop :=
  ∀ (s : State) (time : Nat),
    ((∀ b, s.phase ≠ .startUp b) → exec (.endOfStartUp time) s = .next s)
    ∧ ∀ began, s.phase = .startUp began →
      (time < began ∨ began + 250000 < time → exec (.endOfStartUp time) s = .next s)
      ∧ (began ≤ time → time ≤ began + 250000 → s.tracker.grid = none → s.tracker.state = .search →
        ∃ (table : PerSubject SubjectEntry) (run : PerLine LineRun) (latches : PerClass NoticeLatch),
          (∀ i, table.get i =
            if (s.table.get i).active.enabledAtStart = true then { s.table.get i with state := .waiting } else s.table.get i)
          ∧ (∀ l, someItemTrue (s.lines.settings.get l) s.lines.seen →
              run.get l = lineFrom (s.lines.settings.get l) true (max s.now time))
          ∧ (∀ l, ¬someItemTrue (s.lines.settings.get l) s.lines.seen →
              run.get l = lineFrom (s.lines.settings.get l) false (max s.now time))
          ∧ (∀ c, latches.get c =
              if c = .restart then { latch := true, count := min 255 ((s.notices.latches.get .restart).count + 1) }
              else s.notices.latches.get c)
          ∧ exec (.endOfStartUp time) s =
              .next { s with
                now := max s.now time
                phase := .running
                qualifier := { level := none, runCount := 0, runStart := 0, edges := [] }
                tracker := s.tracker.searching 1 (max s.now time)
                table := table
                transit :=
                  { s.transit with
                    orders := s.transit.orders
                      ++ (([.g0, .g1, .g2, .g3, .bus] : List Subject).filter fun i =>
                          (s.table.get i).active.enabledAtStart).map fun i => (i, .startUp) }
                lines := { s.lines with run := run }
                notices := { s.notices with latches := latches, attn := attnByRule latches s.notices.settings }
                link := { s.link with state := .hunt, huntFrom := time } })

/-- A reset's way back to work: its end, start-up, and the end of start-up. -/
def Obligations.ResetEndAndStartUp : Prop := Says.ResetEnd ∧ Says.EndOfStartUp

/-! ## What every step keeps -/

/-- The Capture Store's laws (R124, R128, R148): at most 48 records, in strictly ascending number, each number below the counter, which
lies in 1 to 4,294,967,295; the cursor below the counter; a last mark only with a first mark not above it. -/
def Sys2Proof.Machine.StoreLaw (s : State) : Prop :=
  s.store.entries.length ≤ 48
  ∧ (s.store.entries.map fun e => e.record.number).Pairwise (· < ·)
  ∧ (∀ e ∈ s.store.entries, 1 ≤ e.record.number ∧ e.record.number < s.store.counter)
  ∧ 1 ≤ s.store.counter ∧ s.store.counter ≤ 4294967295 ∧ s.store.cursor < s.store.counter
  ∧ (∀ last, s.store.lastMark = some last → ∃ first, s.store.firstMark = some first ∧ first ≤ last)

/-- The laws of the Verdict Unit and the Notice Unit (R88, R169, R105): a counter of at most 15, which is 0 exactly when the condition is
HEALTHY; a subject that is not enabled has counter 0, no results entry and no last outcome; a class's count is 0 while its latch is
clear and 1 to 255 while it is set. -/
def Sys2Proof.Machine.VerdictAndNoticeLaw (s : State) : Prop :=
  (∀ i, (s.verdicts.get i).counter ≤ 15 ∧ ((s.verdicts.get i).condition = .healthy ↔ (s.verdicts.get i).counter = 0)
    ∧ ((s.verdicts.get i).enabled = false →
        (s.verdicts.get i).counter = 0 ∧ (s.verdicts.get i).results = none ∧ (s.verdicts.get i).last = .none))
  ∧ ∀ c, ((s.notices.latches.get c).latch = false → (s.notices.latches.get c).count = 0)
      ∧ ((s.notices.latches.get c).latch = true →
          1 ≤ (s.notices.latches.get c).count ∧ (s.notices.latches.get c).count ≤ 255)

/-- The laws of the grid and of the cycle being sampled (R5, R9, R17, R29, R30, R108): no grid exactly in SEARCH; every period within
153,847 to 250,000 ticks; at most two misses in a row; with no grid no sample of a cycle is kept; with one, the assembly and the
cycle in hand hold exactly the sets of the instants issued, but for a conversion in progress. -/
def Sys2Proof.Machine.GridLaw (s : State) : Prop :=
  (s.tracker.grid = none ↔ s.tracker.state = .search) ∧ s.tracker.misses ≤ 2
  ∧ (s.tracker.grid = none →
      s.front.conversion = none ∧ s.front.assembly = ⟨none, []⟩ ∧ s.gap.inHand = ⟨none, []⟩)
  ∧ ∀ g, s.tracker.grid = some g →
      153847 ≤ g.period ∧ g.period ≤ 250000 ∧ 153847 ≤ g.nextPeriod ∧ g.nextPeriod ≤ 250000
      ∧ g.nextInstant ≤ 96
      ∧ s.front.assembly.cycle = some s.tracker.cycle ∧ s.gap.inHand.cycle = some s.tracker.cycle
      ∧ s.front.assembly.rows.length + (if s.front.conversion.isSome then 1 else 0) = g.nextInstant
      ∧ s.gap.inHand.rows.length = s.front.assembly.rows.length

/-- The working settings' laws (R1, R35, R49, R65, R76, R163, R164, R170, R176): the sync settings and every active and pending profile
pass the checks of the request that sets them; notice levels and the attention floor are at most 3; on-times and off-times are 1 to 255; W
and a pending W are 2, 4, 8 or 16; a W is pending only while a window runs, and a profile only for a MEASURING subject. Outside running
the Link Controller is OFF and every subject DISABLED (R84, R203, R213), so no request can change a setting then. -/
def Sys2Proof.Machine.SettingsLaw (s : State) : Prop :=
  syncOk s.sync = true ∧ noticesLegal s.notices.settings ∧ linesLegal s.lines.settings
  ∧ s.engine.w ∈ [2, 4, 8, 16]
  ∧ (∀ w, s.engine.pendingW = some w → w ∈ [2, 4, 8, 16] ∧ s.engine.running = true)
  ∧ ∀ i, profileOk i (s.table.get i).active = true
      ∧ (∀ p, (s.table.get i).pendingProfile = some p → profileOk i p = true ∧ (s.table.get i).state = .measuring)
      ∧ (s.phase ≠ .running → s.link.state = .off ∧ (s.table.get i).state = .disabled)

/-- What a reset and start-up hold still (R167, R178, R203, R212, R213): outside running no hand-off is in flight, the Link Controller is
OFF, the qualifier, the search timer, the grid, the conversion, the window and every pulse timer stand still, the pins are HIGH-Z and
ATTN is released. The saving flag is set exactly while there is a snapshot (R207, R209). -/
def Sys2Proof.Machine.QuietLaw (s : State) : Prop :=
  (s.settings.saving = true ↔ s.settings.snapshot.isSome = true)
  ∧ (s.phase ≠ .running →
      s.transit = ⟨[], [], [], [], [], [], [], [], [], [], [], []⟩ ∧ s.link.state = .off
      ∧ s.qualifier.level = none ∧ s.qualifier.edges = [] ∧ s.tracker.searchStart = none ∧ s.tracker.grid = none
      ∧ s.front.conversion = none ∧ s.engine.running = false ∧ s.settings.snapshot = none
      ∧ (∀ l, (s.lines.run.get l).pin = .highZ ∧ (s.lines.run.get l).timer = none) ∧ s.notices.attn = false)

/-- The laws of the qualifier's edges (R2, R3): the times of the edges handed over strictly increase, none is later than the last sample,
and a run in progress began at a sample after all of them. Before the first sample there is neither edge nor run. The depth is not 0. -/
def Sys2Proof.Machine.EdgeLaw (s : State) : Prop :=
  0 < s.sync.depth ∧ s.qualifier.edges.Pairwise (· < ·)
  ∧ (s.sampled = none → s.qualifier.edges = [] ∧ s.qualifier.runCount = 0)
  ∧ ∀ last, s.sampled = some last →
      (∀ t ∈ s.qualifier.edges, t ≤ last)
      ∧ (0 < s.qualifier.runCount → s.qualifier.runStart ≤ last ∧ ∀ t ∈ s.qualifier.edges, t < s.qualifier.runStart)

/-- The six laws hold right after reset. -/
def Obligations.LawsHoldAtReset : Prop :=
  StoreLaw State.reset ∧ VerdictAndNoticeLaw State.reset ∧ GridLaw State.reset ∧ SettingsLaw State.reset ∧ QuietLaw State.reset
  ∧ EdgeLaw State.reset

/-- Every step keeps the Capture Store's laws. -/
def Obligations.StepKeepsTheStoreLaw : Prop := ∀ s t : State, StoreLaw s → step s = .next t → StoreLaw t

/-- Every step keeps the laws of the verdict counters, conditions and notice counts. -/
def Obligations.StepKeepsTheVerdictAndNoticeLaw : Prop :=
  ∀ s t : State, VerdictAndNoticeLaw s → step s = .next t → VerdictAndNoticeLaw t

/-- Every step keeps the laws of the grid and of the cycle being sampled. -/
def Obligations.StepKeepsTheGridLaw : Prop := ∀ s t : State, GridLaw s → step s = .next t → GridLaw t

/-- Every step keeps the working settings legal. -/
def Obligations.StepKeepsTheSettingsLaw : Prop := ∀ s t : State, SettingsLaw s → step s = .next t → SettingsLaw t

/-- Every step keeps a reset and start-up quiet. -/
def Obligations.StepKeepsTheQuietLaw : Prop := ∀ s t : State, QuietLaw s → step s = .next t → QuietLaw t

/-- Every step keeps the edges in the order of their times. -/
def Obligations.StepKeepsTheEdgeLaw : Prop := ∀ s t : State, EdgeLaw s → step s = .next t → EdgeLaw t

/-- The SET-SYNC bodies that are accepted are exactly the READ-SYNC bytes of legal sync settings (R1, R21, R22): the walk reads every field
back, and refuses every other body. That READ-SYNC sends the settings in the SET-SYNC layout is the model's reading (log entry 22). -/
def Obligations.SyncBodiesAreExactlyLegalSettings : Prop :=
  ∀ (body : List Byte) (y : SyncSettings), walkSync body = .ok y ↔ syncOk y = true ∧ body = syncBytes y

/-- The SET-PROFILE bodies that are accepted are exactly the subject number and the READ-PROFILE bytes of a profile legal for the subject
(R72, R73, R75, R76, R81, R223): the walk reads every field back, and refuses every other body. -/
def Obligations.ProfileBodiesAreExactlyLegalProfiles : Prop :=
  ∀ (body : List Byte) (i : Subject) (p : Profile),
    walkProfile body = .ok (i, p) ↔ profileOk i p = true ∧ body = b8 i.number :: profileBytes p
end

