-- ==== Sys2Proof/Laws/State.lean ====
section
/-! SUPPORT. What each single update of the state leaves: for every update, every field, by definition. -/

namespace Sys2Proof.Machine

variable (s : State)

/-- `reach` changes the timebase and nothing else. -/
@[simp] theorem State.reach_fields (t : Nat) :
    (s.reach t).pending = s.pending ∧ (s.reach t).now = max s.now t ∧ (s.reach t).phase = s.phase ∧
    (s.reach t).comparators = s.comparators ∧ (s.reach t).sampled = s.sampled ∧
    (s.reach t).supplyGood = s.supplyGood ∧ (s.reach t).qualifier = s.qualifier ∧ (s.reach t).sync = s.sync ∧
    (s.reach t).tracker = s.tracker ∧ (s.reach t).front = s.front ∧ (s.reach t).engine = s.engine ∧
    (s.reach t).table = s.table ∧ (s.reach t).verdicts = s.verdicts ∧ (s.reach t).gap = s.gap ∧
    (s.reach t).store = s.store ∧ (s.reach t).notices = s.notices ∧ (s.reach t).lines = s.lines ∧
    (s.reach t).link = s.link ∧ (s.reach t).settings = s.settings ∧ (s.reach t).transit = s.transit ∧
    (s.reach t).freeIndex = s.freeIndex := by
  and_intros <;> rfl

/-- `raise` changes a raise in flight and nothing else. -/
@[simp] theorem State.raise_fields (c : NoticeClass) :
    (s.raise c).pending = s.pending ∧ (s.raise c).now = s.now ∧ (s.raise c).phase = s.phase ∧
    (s.raise c).comparators = s.comparators ∧ (s.raise c).sampled = s.sampled ∧
    (s.raise c).supplyGood = s.supplyGood ∧ (s.raise c).qualifier = s.qualifier ∧ (s.raise c).sync = s.sync ∧
    (s.raise c).tracker = s.tracker ∧ (s.raise c).front = s.front ∧ (s.raise c).engine = s.engine ∧
    (s.raise c).table = s.table ∧ (s.raise c).verdicts = s.verdicts ∧ (s.raise c).gap = s.gap ∧
    (s.raise c).store = s.store ∧ (s.raise c).notices = s.notices ∧ (s.raise c).lines = s.lines ∧
    (s.raise c).link = s.link ∧ (s.raise c).settings = s.settings ∧
    (s.raise c).transit = { s.transit with raises := s.transit.raises ++ [c] } ∧
    (s.raise c).freeIndex = s.freeIndex := by
  and_intros <;> rfl

/-- `tellEngine` changes a message to the Engine in flight and nothing else. -/
@[simp] theorem State.tellEngine_fields (m : EngineMsg) :
    (s.tellEngine m).pending = s.pending ∧ (s.tellEngine m).now = s.now ∧ (s.tellEngine m).phase = s.phase ∧
    (s.tellEngine m).comparators = s.comparators ∧ (s.tellEngine m).sampled = s.sampled ∧
    (s.tellEngine m).supplyGood = s.supplyGood ∧ (s.tellEngine m).qualifier = s.qualifier ∧
    (s.tellEngine m).sync = s.sync ∧ (s.tellEngine m).tracker = s.tracker ∧ (s.tellEngine m).front = s.front ∧
    (s.tellEngine m).engine = s.engine ∧ (s.tellEngine m).table = s.table ∧ (s.tellEngine m).verdicts = s.verdicts ∧
    (s.tellEngine m).gap = s.gap ∧ (s.tellEngine m).store = s.store ∧ (s.tellEngine m).notices = s.notices ∧
    (s.tellEngine m).lines = s.lines ∧ (s.tellEngine m).link = s.link ∧ (s.tellEngine m).settings = s.settings ∧
    (s.tellEngine m).transit = { s.transit with engine := s.transit.engine ++ [m] } ∧
    (s.tellEngine m).freeIndex = s.freeIndex := by
  and_intros <;> rfl

/-- `tellDisabled` changes a DISABLE message in flight and nothing else. -/
@[simp] theorem State.tellDisabled_fields (i : Subject) :
    (s.tellDisabled i).pending = s.pending ∧ (s.tellDisabled i).now = s.now ∧ (s.tellDisabled i).phase = s.phase ∧
    (s.tellDisabled i).comparators = s.comparators ∧ (s.tellDisabled i).sampled = s.sampled ∧
    (s.tellDisabled i).supplyGood = s.supplyGood ∧ (s.tellDisabled i).qualifier = s.qualifier ∧
    (s.tellDisabled i).sync = s.sync ∧ (s.tellDisabled i).tracker = s.tracker ∧ (s.tellDisabled i).front = s.front ∧
    (s.tellDisabled i).engine = s.engine ∧ (s.tellDisabled i).table = s.table ∧
    (s.tellDisabled i).verdicts = s.verdicts ∧ (s.tellDisabled i).gap = s.gap ∧ (s.tellDisabled i).store = s.store ∧
    (s.tellDisabled i).notices = s.notices ∧ (s.tellDisabled i).lines = s.lines ∧ (s.tellDisabled i).link = s.link ∧
    (s.tellDisabled i).settings = s.settings ∧
    (s.tellDisabled i).transit = { s.transit with disables := s.transit.disables ++ [i] } ∧
    (s.tellDisabled i).freeIndex = s.freeIndex := by
  and_intros <;> rfl

/-- `order` changes an order in flight and nothing else. -/
@[simp] theorem State.order_fields (i : Subject) (o : VerdictOrder) :
    (s.order i o).pending = s.pending ∧ (s.order i o).now = s.now ∧ (s.order i o).phase = s.phase ∧
    (s.order i o).comparators = s.comparators ∧ (s.order i o).sampled = s.sampled ∧
    (s.order i o).supplyGood = s.supplyGood ∧ (s.order i o).qualifier = s.qualifier ∧ (s.order i o).sync = s.sync ∧
    (s.order i o).tracker = s.tracker ∧ (s.order i o).front = s.front ∧ (s.order i o).engine = s.engine ∧
    (s.order i o).table = s.table ∧ (s.order i o).verdicts = s.verdicts ∧ (s.order i o).gap = s.gap ∧
    (s.order i o).store = s.store ∧ (s.order i o).notices = s.notices ∧ (s.order i o).lines = s.lines ∧
    (s.order i o).link = s.link ∧ (s.order i o).settings = s.settings ∧
    (s.order i o).transit = { s.transit with orders := s.transit.orders ++ [(i, o)] } ∧
    (s.order i o).freeIndex = s.freeIndex := by
  and_intros <;> rfl

/-- `orderClearing` changes a clearing in flight and nothing else. -/
@[simp] theorem State.orderClearing_fields (g : Group) (c : Clearing) :
    (s.orderClearing g c).pending = s.pending ∧ (s.orderClearing g c).now = s.now ∧
    (s.orderClearing g c).phase = s.phase ∧ (s.orderClearing g c).comparators = s.comparators ∧
    (s.orderClearing g c).sampled = s.sampled ∧ (s.orderClearing g c).supplyGood = s.supplyGood ∧
    (s.orderClearing g c).qualifier = s.qualifier ∧ (s.orderClearing g c).sync = s.sync ∧
    (s.orderClearing g c).tracker = s.tracker ∧ (s.orderClearing g c).front = s.front ∧
    (s.orderClearing g c).engine = s.engine ∧ (s.orderClearing g c).table = s.table ∧
    (s.orderClearing g c).verdicts = s.verdicts ∧ (s.orderClearing g c).gap = s.gap ∧
    (s.orderClearing g c).store = s.store ∧ (s.orderClearing g c).notices = s.notices ∧
    (s.orderClearing g c).lines = s.lines ∧ (s.orderClearing g c).link = s.link ∧
    (s.orderClearing g c).settings = s.settings ∧
    (s.orderClearing g c).transit = { s.transit with clearings := s.transit.clearings ++ [(g, c)] } ∧
    (s.orderClearing g c).freeIndex = s.freeIndex := by
  and_intros <;> rfl

/-- `askFiling` changes a filing in flight and nothing else. -/
@[simp] theorem State.askFiling_fields (f : Filing) :
    (s.askFiling f).pending = s.pending ∧ (s.askFiling f).now = s.now ∧ (s.askFiling f).phase = s.phase ∧
    (s.askFiling f).comparators = s.comparators ∧ (s.askFiling f).sampled = s.sampled ∧
    (s.askFiling f).supplyGood = s.supplyGood ∧ (s.askFiling f).qualifier = s.qualifier ∧
    (s.askFiling f).sync = s.sync ∧ (s.askFiling f).tracker = s.tracker ∧ (s.askFiling f).front = s.front ∧
    (s.askFiling f).engine = s.engine ∧ (s.askFiling f).table = s.table ∧ (s.askFiling f).verdicts = s.verdicts ∧
    (s.askFiling f).gap = s.gap ∧ (s.askFiling f).store = s.store ∧ (s.askFiling f).notices = s.notices ∧
    (s.askFiling f).lines = s.lines ∧ (s.askFiling f).link = s.link ∧ (s.askFiling f).settings = s.settings ∧
    (s.askFiling f).transit = { s.transit with filings := s.transit.filings ++ [f] } ∧
    (s.askFiling f).freeIndex = s.freeIndex := by
  and_intros <;> rfl

/-- `askCopy` changes a copy request in flight and nothing else. -/
@[simp] theorem State.askCopy_fields (r : CopyReq) :
    (s.askCopy r).pending = s.pending ∧ (s.askCopy r).now = s.now ∧ (s.askCopy r).phase = s.phase ∧
    (s.askCopy r).comparators = s.comparators ∧ (s.askCopy r).sampled = s.sampled ∧
    (s.askCopy r).supplyGood = s.supplyGood ∧ (s.askCopy r).qualifier = s.qualifier ∧ (s.askCopy r).sync = s.sync ∧
    (s.askCopy r).tracker = s.tracker ∧ (s.askCopy r).front = s.front ∧ (s.askCopy r).engine = s.engine ∧
    (s.askCopy r).table = s.table ∧ (s.askCopy r).verdicts = s.verdicts ∧ (s.askCopy r).gap = s.gap ∧
    (s.askCopy r).store = s.store ∧ (s.askCopy r).notices = s.notices ∧ (s.askCopy r).lines = s.lines ∧
    (s.askCopy r).link = s.link ∧ (s.askCopy r).settings = s.settings ∧
    (s.askCopy r).transit = { s.transit with copies := s.transit.copies ++ [r] } ∧
    (s.askCopy r).freeIndex = s.freeIndex := by
  and_intros <;> rfl

/-- `tellChange` changes a change of an indication in flight and nothing else. -/
@[simp] theorem State.tellChange_fields (c : Change) :
    (s.tellChange c).pending = s.pending ∧ (s.tellChange c).now = s.now ∧ (s.tellChange c).phase = s.phase ∧
    (s.tellChange c).comparators = s.comparators ∧ (s.tellChange c).sampled = s.sampled ∧
    (s.tellChange c).supplyGood = s.supplyGood ∧ (s.tellChange c).qualifier = s.qualifier ∧
    (s.tellChange c).sync = s.sync ∧ (s.tellChange c).tracker = s.tracker ∧ (s.tellChange c).front = s.front ∧
    (s.tellChange c).engine = s.engine ∧ (s.tellChange c).table = s.table ∧ (s.tellChange c).verdicts = s.verdicts ∧
    (s.tellChange c).gap = s.gap ∧ (s.tellChange c).store = s.store ∧ (s.tellChange c).notices = s.notices ∧
    (s.tellChange c).lines = s.lines ∧ (s.tellChange c).link = s.link ∧ (s.tellChange c).settings = s.settings ∧
    (s.tellChange c).transit = { s.transit with changes := s.transit.changes ++ [c] } ∧
    (s.tellChange c).freeIndex = s.freeIndex := by
  and_intros <;> rfl

/-- `linkTo` changes the Link Controller's state and nothing else. -/
@[simp] theorem State.linkTo_fields (x : LinkState) :
    (s.linkTo x).pending = s.pending ∧ (s.linkTo x).now = s.now ∧ (s.linkTo x).phase = s.phase ∧
    (s.linkTo x).comparators = s.comparators ∧ (s.linkTo x).sampled = s.sampled ∧
    (s.linkTo x).supplyGood = s.supplyGood ∧ (s.linkTo x).qualifier = s.qualifier ∧ (s.linkTo x).sync = s.sync ∧
    (s.linkTo x).tracker = s.tracker ∧ (s.linkTo x).front = s.front ∧ (s.linkTo x).engine = s.engine ∧
    (s.linkTo x).table = s.table ∧ (s.linkTo x).verdicts = s.verdicts ∧ (s.linkTo x).gap = s.gap ∧
    (s.linkTo x).store = s.store ∧ (s.linkTo x).notices = s.notices ∧ (s.linkTo x).lines = s.lines ∧
    (s.linkTo x).link = { s.link with state := x } ∧ (s.linkTo x).settings = s.settings ∧
    (s.linkTo x).transit = s.transit ∧ (s.linkTo x).freeIndex = s.freeIndex := by
  and_intros <;> rfl

/-- `huntAt` changes the Link Controller's state and the tick it hunts from, and nothing else. -/
@[simp] theorem State.huntAt_fields (t : Nat) :
    (s.huntAt t).pending = s.pending ∧ (s.huntAt t).now = s.now ∧ (s.huntAt t).phase = s.phase ∧
    (s.huntAt t).comparators = s.comparators ∧ (s.huntAt t).sampled = s.sampled ∧
    (s.huntAt t).supplyGood = s.supplyGood ∧ (s.huntAt t).qualifier = s.qualifier ∧ (s.huntAt t).sync = s.sync ∧
    (s.huntAt t).tracker = s.tracker ∧ (s.huntAt t).front = s.front ∧ (s.huntAt t).engine = s.engine ∧
    (s.huntAt t).table = s.table ∧ (s.huntAt t).verdicts = s.verdicts ∧ (s.huntAt t).gap = s.gap ∧
    (s.huntAt t).store = s.store ∧ (s.huntAt t).notices = s.notices ∧ (s.huntAt t).lines = s.lines ∧
    (s.huntAt t).link = { s.link with state := .hunt, huntFrom := t } ∧ (s.huntAt t).settings = s.settings ∧
    (s.huntAt t).transit = s.transit ∧ (s.huntAt t).freeIndex = s.freeIndex := by
  and_intros <;> rfl

/-- `setMarks` changes the purge marks and nothing else. -/
@[simp] theorem State.setMarks_fields (a b : Option Nat) :
    (s.setMarks a b).pending = s.pending ∧ (s.setMarks a b).now = s.now ∧ (s.setMarks a b).phase = s.phase ∧
    (s.setMarks a b).comparators = s.comparators ∧ (s.setMarks a b).sampled = s.sampled ∧
    (s.setMarks a b).supplyGood = s.supplyGood ∧ (s.setMarks a b).qualifier = s.qualifier ∧
    (s.setMarks a b).sync = s.sync ∧ (s.setMarks a b).tracker = s.tracker ∧ (s.setMarks a b).front = s.front ∧
    (s.setMarks a b).engine = s.engine ∧ (s.setMarks a b).table = s.table ∧ (s.setMarks a b).verdicts = s.verdicts ∧
    (s.setMarks a b).gap = s.gap ∧ (s.setMarks a b).store = { s.store with firstMark := a, lastMark := b } ∧
    (s.setMarks a b).notices = s.notices ∧ (s.setMarks a b).lines = s.lines ∧ (s.setMarks a b).link = s.link ∧
    (s.setMarks a b).settings = s.settings ∧ (s.setMarks a b).transit = s.transit ∧
    (s.setMarks a b).freeIndex = s.freeIndex := by
  and_intros <;> rfl

/-- `setEntry` changes a subject's entry and nothing else. -/
@[simp] theorem State.setEntry_fields (i : Subject) (e : SubjectEntry) :
    (s.setEntry i e).pending = s.pending ∧ (s.setEntry i e).now = s.now ∧ (s.setEntry i e).phase = s.phase ∧
    (s.setEntry i e).comparators = s.comparators ∧ (s.setEntry i e).sampled = s.sampled ∧
    (s.setEntry i e).supplyGood = s.supplyGood ∧ (s.setEntry i e).qualifier = s.qualifier ∧
    (s.setEntry i e).sync = s.sync ∧ (s.setEntry i e).tracker = s.tracker ∧ (s.setEntry i e).front = s.front ∧
    (s.setEntry i e).engine = s.engine ∧ (s.setEntry i e).table = s.table.set i e ∧
    (s.setEntry i e).verdicts = s.verdicts ∧ (s.setEntry i e).gap = s.gap ∧ (s.setEntry i e).store = s.store ∧
    (s.setEntry i e).notices = s.notices ∧ (s.setEntry i e).lines = s.lines ∧ (s.setEntry i e).link = s.link ∧
    (s.setEntry i e).settings = s.settings ∧ (s.setEntry i e).transit = s.transit ∧
    (s.setEntry i e).freeIndex = s.freeIndex := by
  and_intros <;> rfl

/-- `withEdges` changes the edges handed over and nothing else. -/
@[simp] theorem State.withEdges_fields (rest : List Nat) :
    (s.withEdges rest).pending = s.pending ∧ (s.withEdges rest).now = s.now ∧ (s.withEdges rest).phase = s.phase ∧
    (s.withEdges rest).comparators = s.comparators ∧ (s.withEdges rest).sampled = s.sampled ∧
    (s.withEdges rest).supplyGood = s.supplyGood ∧
    (s.withEdges rest).qualifier = { s.qualifier with edges := rest } ∧ (s.withEdges rest).sync = s.sync ∧
    (s.withEdges rest).tracker = s.tracker ∧ (s.withEdges rest).front = s.front ∧
    (s.withEdges rest).engine = s.engine ∧ (s.withEdges rest).table = s.table ∧
    (s.withEdges rest).verdicts = s.verdicts ∧ (s.withEdges rest).gap = s.gap ∧ (s.withEdges rest).store = s.store ∧
    (s.withEdges rest).notices = s.notices ∧ (s.withEdges rest).lines = s.lines ∧ (s.withEdges rest).link = s.link ∧
    (s.withEdges rest).settings = s.settings ∧ (s.withEdges rest).transit = s.transit ∧
    (s.withEdges rest).freeIndex = s.freeIndex := by
  and_intros <;> rfl

end Sys2Proof.Machine
end

