-- ==== Sys2Proof/Laws/Words.lean ====
section
/-! SUPPORT. What the containers, the counters and `takeFirst` do. -/

namespace Sys2Proof

/-! ### Containers: reading after writing -/

@[simp] theorem PerSubject.get_set {α : Type} (p : PerSubject α) (i j : Subject) (x : α) :
    (p.set i x).get j = if j = i then x else p.get j := by
  cases i <;> cases j <;> rfl

@[simp] theorem PerSubject.get_ofFn {α : Type} (f : Subject → α) (i : Subject) : (PerSubject.ofFn f).get i = f i := by
  cases i <;> rfl

@[simp] theorem PerGroup.get_set {α : Type} (p : PerGroup α) (i j : Group) (x : α) :
    (p.set i x).get j = if j = i then x else p.get j := by
  cases i <;> cases j <;> rfl

@[simp] theorem PerGroup.get_ofFn {α : Type} (f : Group → α) (i : Group) : (PerGroup.ofFn f).get i = f i := by
  cases i <;> rfl

@[simp] theorem PerSide.get_ofFn {α : Type} (f : Side → α) (i : Side) : (PerSide.ofFn f).get i = f i := by
  cases i <;> rfl

@[simp] theorem PerSector.get_ofFn {α : Type} (f : Fin 6 → α) (j : Fin 6) : (PerSector.ofFn f).get j = f j := by
  fin_cases j <;> rfl

@[simp] theorem PerLine.get_set {α : Type} (p : PerLine α) (i j : LineId) (x : α) :
    (p.set i x).get j = if j = i then x else p.get j := by
  cases i <;> cases j <;> rfl

@[simp] theorem PerLine.get_ofFn {α : Type} (f : LineId → α) (i : LineId) : (PerLine.ofFn f).get i = f i := by
  cases i <;> rfl

@[simp] theorem PerClass.get_ofFn {α : Type} (f : NoticeClass → α) (c : NoticeClass) :
    (PerClass.ofFn f).get c = f c := by
  cases c <;> rfl

@[simp] theorem PerClass.get_set {α : Type} (p : PerClass α) (c d : NoticeClass) (x : α) :
    (p.set c x).get d = if d = c then x else p.get d := by
  simp [PerClass.set]

@[simp] theorem PerChannel.get_ofFn {α : Type} (f : Channel → α) (c : Channel) : (PerChannel.ofFn f).get c = f c := by
  cases c with
  | bridge g d => simp [PerChannel.ofFn, PerChannel.get]
  | vb => rfl

/-- A container is known by its values. -/
theorem PerSubject.ext_get {α : Type} {p q : PerSubject α} (h : ∀ i, p.get i = q.get i) : p = q := by
  cases p; cases q
  have h0 := h .g0; have h1 := h .g1; have h2 := h .g2; have h3 := h .g3; have h4 := h .bus
  simp only [PerSubject.get] at h0 h1 h2 h3 h4
  simp [h0, h1, h2, h3, h4]

/-! ### Saturating counters -/

/-- A saturating counter never goes down. -/
theorem satInc16_ge (x : Word16) : x.toNat ≤ (satInc16 x).toNat := by
  unfold satInc16; split
  · exact Nat.le_refl _
  · bv_omega

/-- Below its end a saturating counter rises by 1. -/
theorem satInc16_below (x : Word16) (h : x.toNat < 65535) : (satInc16 x).toNat = x.toNat + 1 := by
  unfold satInc16; split <;> bv_omega

namespace Machine

/-! ### Taking the first element that fits -/

/-- What is taken fits, and the rest is the list without it: nothing before it fits. -/
theorem takeFirst_some {α : Type} {p : α → Bool} {xs rest : List α} {x : α} (h : takeFirst p xs = some (x, rest)) :
    p x = true ∧ ∃ a b, xs = a ++ x :: b ∧ rest = a ++ b ∧ ∀ y ∈ a, p y = false := by
  induction xs generalizing rest with
  | nil => simp [takeFirst] at h
  | cons y ys ih =>
    unfold takeFirst at h
    by_cases hp : p y = true
    · simp only [hp, if_true, Option.some.injEq, Prod.mk.injEq] at h
      obtain ⟨rfl, rfl⟩ := h
      exact ⟨hp, [], ys, rfl, rfl, by simp⟩
    · simp only [hp] at h
      cases ht : takeFirst p ys with
      | none => simp [ht] at h
      | some r =>
        obtain ⟨z, zs⟩ := r
        simp only [ht] at h
        obtain ⟨rfl, rfl⟩ : z = x ∧ y :: zs = rest := by simpa using h
        obtain ⟨hz, a, b, h1, h2, h3⟩ := ih ht
        refine ⟨hz, y :: a, b, by simp [h1], by simp [h2], ?_⟩
        intro w hw
        rcases List.mem_cons.1 hw with rfl | hw
        · simpa using hp
        · exact h3 w hw

/-- Nothing is taken exactly when nothing fits. -/
theorem takeFirst_none {α : Type} {p : α → Bool} {xs : List α} :
    takeFirst p xs = none ↔ ∀ x ∈ xs, p x = false := by
  induction xs with
  | nil => simp [takeFirst]
  | cons y ys ih =>
    unfold takeFirst
    by_cases hp : p y = true
    · simp [hp]
    · cases ht : takeFirst p ys with
      | none => simpa [hp] using ih.1 ht
      | some r =>
        have := mt ih.2 (by simp [ht])
        simpa [hp] using this

/-- The head is taken when it fits. -/
@[simp] theorem takeFirst_head {α : Type} (p : α → Bool) (x : α) (xs : List α) (h : p x = true) :
    takeFirst p (x :: xs) = some (x, xs) := by
  simp [takeFirst, h]

/-- What is taken leaves a list whose elements were there before. -/
theorem takeFirst_sublist {α : Type} {p : α → Bool} {xs rest : List α} {x : α} (h : takeFirst p xs = some (x, rest)) :
    rest.Sublist xs ∧ rest.length + 1 = xs.length := by
  obtain ⟨_, a, b, rfl, rfl, _⟩ := takeFirst_some h
  exact ⟨(List.sublist_cons_self x b).append_left a, by simp; omega⟩

end Machine
end Sys2Proof
end

