-- ==== Sys2Proof/Laws/Frames.lean ====
section
/-! SUPPORT. What each shared operation leaves unchanged: one theorem per operation, field by field. -/

namespace Sys2Proof.Machine

variable (s : State)

/-- `moveTo` changes at most: tracker, transit. -/
@[simp] theorem State.moveTo_keeps (st : TrackerState) :
    (s.moveTo st).pending = s.pending ∧ (s.moveTo st).now = s.now ∧ (s.moveTo st).phase = s.phase ∧
    (s.moveTo st).comparators = s.comparators ∧ (s.moveTo st).sampled = s.sampled ∧
    (s.moveTo st).supplyGood = s.supplyGood ∧ (s.moveTo st).qualifier = s.qualifier ∧ (s.moveTo st).sync = s.sync ∧
    (s.moveTo st).front = s.front ∧ (s.moveTo st).engine = s.engine ∧ (s.moveTo st).table = s.table ∧
    (s.moveTo st).verdicts = s.verdicts ∧ (s.moveTo st).gap = s.gap ∧ (s.moveTo st).store = s.store ∧
    (s.moveTo st).notices = s.notices ∧ (s.moveTo st).lines = s.lines ∧ (s.moveTo st).link = s.link ∧
    (s.moveTo st).settings = s.settings ∧ (s.moveTo st).freeIndex = s.freeIndex := by
  unfold State.moveTo
  dsimp only
  (repeat' split) <;> simp

/-- `stopGrid` changes at most: tracker, front, gap, transit. -/
@[simp] theorem State.stopGrid_keeps  :
    (s.stopGrid).pending = s.pending ∧ (s.stopGrid).now = s.now ∧ (s.stopGrid).phase = s.phase ∧
    (s.stopGrid).comparators = s.comparators ∧ (s.stopGrid).sampled = s.sampled ∧
    (s.stopGrid).supplyGood = s.supplyGood ∧ (s.stopGrid).qualifier = s.qualifier ∧ (s.stopGrid).sync = s.sync ∧
    (s.stopGrid).engine = s.engine ∧ (s.stopGrid).table = s.table ∧ (s.stopGrid).verdicts = s.verdicts ∧
    (s.stopGrid).store = s.store ∧ (s.stopGrid).notices = s.notices ∧ (s.stopGrid).lines = s.lines ∧
    (s.stopGrid).link = s.link ∧ (s.stopGrid).settings = s.settings ∧ (s.stopGrid).freeIndex = s.freeIndex := by
  unfold State.stopGrid
  dsimp only
  (repeat' split) <;> simp

/-- `enterSearch` changes at most: qualifier, tracker, front, gap, transit. -/
@[simp] theorem State.enterSearch_keeps (n : Nat) :
    (s.enterSearch n).pending = s.pending ∧ (s.enterSearch n).now = s.now ∧ (s.enterSearch n).phase = s.phase ∧
    (s.enterSearch n).comparators = s.comparators ∧ (s.enterSearch n).sampled = s.sampled ∧
    (s.enterSearch n).supplyGood = s.supplyGood ∧ (s.enterSearch n).sync = s.sync ∧
    (s.enterSearch n).engine = s.engine ∧ (s.enterSearch n).table = s.table ∧
    (s.enterSearch n).verdicts = s.verdicts ∧ (s.enterSearch n).store = s.store ∧
    (s.enterSearch n).notices = s.notices ∧ (s.enterSearch n).lines = s.lines ∧ (s.enterSearch n).link = s.link ∧
    (s.enterSearch n).settings = s.settings ∧ (s.enterSearch n).freeIndex = s.freeIndex := by
  unfold State.enterSearch
  dsimp only
  (repeat' split) <;> simp

/-- `beginCycle` changes at most: front, gap, transit. -/
@[simp] theorem State.beginCycle_keeps (n : Word32) :
    (s.beginCycle n).pending = s.pending ∧ (s.beginCycle n).now = s.now ∧ (s.beginCycle n).phase = s.phase ∧
    (s.beginCycle n).comparators = s.comparators ∧ (s.beginCycle n).sampled = s.sampled ∧
    (s.beginCycle n).supplyGood = s.supplyGood ∧ (s.beginCycle n).qualifier = s.qualifier ∧
    (s.beginCycle n).sync = s.sync ∧ (s.beginCycle n).tracker = s.tracker ∧ (s.beginCycle n).engine = s.engine ∧
    (s.beginCycle n).table = s.table ∧ (s.beginCycle n).verdicts = s.verdicts ∧ (s.beginCycle n).store = s.store ∧
    (s.beginCycle n).notices = s.notices ∧ (s.beginCycle n).lines = s.lines ∧ (s.beginCycle n).link = s.link ∧
    (s.beginCycle n).settings = s.settings ∧ (s.beginCycle n).freeIndex = s.freeIndex := by
  unfold State.beginCycle
  dsimp only
  simp

/-- `startGrid` changes at most: tracker, front, gap, transit. -/
@[simp] theorem State.startGrid_keeps (t m : Nat) :
    (s.startGrid t m).pending = s.pending ∧ (s.startGrid t m).now = s.now ∧ (s.startGrid t m).phase = s.phase ∧
    (s.startGrid t m).comparators = s.comparators ∧ (s.startGrid t m).sampled = s.sampled ∧
    (s.startGrid t m).supplyGood = s.supplyGood ∧ (s.startGrid t m).qualifier = s.qualifier ∧
    (s.startGrid t m).sync = s.sync ∧ (s.startGrid t m).engine = s.engine ∧ (s.startGrid t m).table = s.table ∧
    (s.startGrid t m).verdicts = s.verdicts ∧ (s.startGrid t m).store = s.store ∧
    (s.startGrid t m).notices = s.notices ∧ (s.startGrid t m).lines = s.lines ∧ (s.startGrid t m).link = s.link ∧
    (s.startGrid t m).settings = s.settings ∧ (s.startGrid t m).freeIndex = s.freeIndex := by
  unfold State.startGrid
  dsimp only
  simp

/-- `searchEdge` changes at most: tracker, front, gap, transit. -/
@[simp] theorem State.searchEdge_keeps (t : Nat) :
    (s.searchEdge t).pending = s.pending ∧ (s.searchEdge t).now = s.now ∧ (s.searchEdge t).phase = s.phase ∧
    (s.searchEdge t).comparators = s.comparators ∧ (s.searchEdge t).sampled = s.sampled ∧
    (s.searchEdge t).supplyGood = s.supplyGood ∧ (s.searchEdge t).qualifier = s.qualifier ∧
    (s.searchEdge t).sync = s.sync ∧ (s.searchEdge t).engine = s.engine ∧ (s.searchEdge t).table = s.table ∧
    (s.searchEdge t).verdicts = s.verdicts ∧ (s.searchEdge t).store = s.store ∧ (s.searchEdge t).notices = s.notices ∧
    (s.searchEdge t).lines = s.lines ∧ (s.searchEdge t).link = s.link ∧ (s.searchEdge t).settings = s.settings ∧
    (s.searchEdge t).freeIndex = s.freeIndex := by
  unfold State.searchEdge
  dsimp only
  (repeat' split) <;> simp

/-- `matchRules` changes at most: tracker, transit. -/
@[simp] theorem State.matchRules_keeps (e : Int) (pc : Nat) :
    (s.matchRules e pc).pending = s.pending ∧ (s.matchRules e pc).now = s.now ∧ (s.matchRules e pc).phase = s.phase ∧
    (s.matchRules e pc).comparators = s.comparators ∧ (s.matchRules e pc).sampled = s.sampled ∧
    (s.matchRules e pc).supplyGood = s.supplyGood ∧ (s.matchRules e pc).qualifier = s.qualifier ∧
    (s.matchRules e pc).sync = s.sync ∧ (s.matchRules e pc).front = s.front ∧ (s.matchRules e pc).engine = s.engine ∧
    (s.matchRules e pc).table = s.table ∧ (s.matchRules e pc).verdicts = s.verdicts ∧
    (s.matchRules e pc).gap = s.gap ∧ (s.matchRules e pc).store = s.store ∧ (s.matchRules e pc).notices = s.notices ∧
    (s.matchRules e pc).lines = s.lines ∧ (s.matchRules e pc).link = s.link ∧
    (s.matchRules e pc).settings = s.settings ∧ (s.matchRules e pc).freeIndex = s.freeIndex := by
  unfold State.matchRules
  dsimp only
  (repeat' split) <;> simp

/-- `spuriousEdge` changes at most: tracker. -/
@[simp] theorem State.spuriousEdge_keeps  :
    (s.spuriousEdge).pending = s.pending ∧ (s.spuriousEdge).now = s.now ∧ (s.spuriousEdge).phase = s.phase ∧
    (s.spuriousEdge).comparators = s.comparators ∧ (s.spuriousEdge).sampled = s.sampled ∧
    (s.spuriousEdge).supplyGood = s.supplyGood ∧ (s.spuriousEdge).qualifier = s.qualifier ∧
    (s.spuriousEdge).sync = s.sync ∧ (s.spuriousEdge).front = s.front ∧ (s.spuriousEdge).engine = s.engine ∧
    (s.spuriousEdge).table = s.table ∧ (s.spuriousEdge).verdicts = s.verdicts ∧ (s.spuriousEdge).gap = s.gap ∧
    (s.spuriousEdge).store = s.store ∧ (s.spuriousEdge).notices = s.notices ∧ (s.spuriousEdge).lines = s.lines ∧
    (s.spuriousEdge).link = s.link ∧ (s.spuriousEdge).settings = s.settings ∧ (s.spuriousEdge).transit = s.transit ∧
    (s.spuriousEdge).freeIndex = s.freeIndex := by
  unfold State.spuriousEdge
  dsimp only
  simp

/-- `matchedEdge` changes at most: tracker, transit. -/
@[simp] theorem State.matchedEdge_keeps (g : Grid) (m e : Int) (pc : Nat) :
    (s.matchedEdge g m e pc).pending = s.pending ∧ (s.matchedEdge g m e pc).now = s.now ∧
    (s.matchedEdge g m e pc).phase = s.phase ∧ (s.matchedEdge g m e pc).comparators = s.comparators ∧
    (s.matchedEdge g m e pc).sampled = s.sampled ∧ (s.matchedEdge g m e pc).supplyGood = s.supplyGood ∧
    (s.matchedEdge g m e pc).qualifier = s.qualifier ∧ (s.matchedEdge g m e pc).sync = s.sync ∧
    (s.matchedEdge g m e pc).front = s.front ∧ (s.matchedEdge g m e pc).engine = s.engine ∧
    (s.matchedEdge g m e pc).table = s.table ∧ (s.matchedEdge g m e pc).verdicts = s.verdicts ∧
    (s.matchedEdge g m e pc).gap = s.gap ∧ (s.matchedEdge g m e pc).store = s.store ∧
    (s.matchedEdge g m e pc).notices = s.notices ∧ (s.matchedEdge g m e pc).lines = s.lines ∧
    (s.matchedEdge g m e pc).link = s.link ∧ (s.matchedEdge g m e pc).settings = s.settings ∧
    (s.matchedEdge g m e pc).freeIndex = s.freeIndex := by
  unfold State.matchedEdge
  dsimp only
  simp

/-- `matchStart` changes at most: tracker, transit. -/
@[simp] theorem State.matchStart_keeps (g : Grid) (t : Nat) (e : Int) (pc : Nat) :
    (s.matchStart g t e pc).pending = s.pending ∧ (s.matchStart g t e pc).now = s.now ∧
    (s.matchStart g t e pc).phase = s.phase ∧ (s.matchStart g t e pc).comparators = s.comparators ∧
    (s.matchStart g t e pc).sampled = s.sampled ∧ (s.matchStart g t e pc).supplyGood = s.supplyGood ∧
    (s.matchStart g t e pc).qualifier = s.qualifier ∧ (s.matchStart g t e pc).sync = s.sync ∧
    (s.matchStart g t e pc).front = s.front ∧ (s.matchStart g t e pc).engine = s.engine ∧
    (s.matchStart g t e pc).table = s.table ∧ (s.matchStart g t e pc).verdicts = s.verdicts ∧
    (s.matchStart g t e pc).gap = s.gap ∧ (s.matchStart g t e pc).store = s.store ∧
    (s.matchStart g t e pc).notices = s.notices ∧ (s.matchStart g t e pc).lines = s.lines ∧
    (s.matchStart g t e pc).link = s.link ∧ (s.matchStart g t e pc).settings = s.settings ∧
    (s.matchStart g t e pc).freeIndex = s.freeIndex := by
  unfold State.matchStart
  dsimp only
  (repeat' split) <;> simp

/-- `matchEnd` changes at most: tracker, transit. -/
@[simp] theorem State.matchEnd_keeps (g : Grid) (t : Nat) (e : Int) :
    (s.matchEnd g t e).pending = s.pending ∧ (s.matchEnd g t e).now = s.now ∧ (s.matchEnd g t e).phase = s.phase ∧
    (s.matchEnd g t e).comparators = s.comparators ∧ (s.matchEnd g t e).sampled = s.sampled ∧
    (s.matchEnd g t e).supplyGood = s.supplyGood ∧ (s.matchEnd g t e).qualifier = s.qualifier ∧
    (s.matchEnd g t e).sync = s.sync ∧ (s.matchEnd g t e).front = s.front ∧ (s.matchEnd g t e).engine = s.engine ∧
    (s.matchEnd g t e).table = s.table ∧ (s.matchEnd g t e).verdicts = s.verdicts ∧ (s.matchEnd g t e).gap = s.gap ∧
    (s.matchEnd g t e).store = s.store ∧ (s.matchEnd g t e).notices = s.notices ∧ (s.matchEnd g t e).lines = s.lines ∧
    (s.matchEnd g t e).link = s.link ∧ (s.matchEnd g t e).settings = s.settings ∧
    (s.matchEnd g t e).freeIndex = s.freeIndex := by
  unfold State.matchEnd
  (repeat' split) <;> simp

/-- `gridEdge` changes at most: tracker, transit. -/
@[simp] theorem State.gridEdge_keeps (g : Grid) (t : Nat) :
    (s.gridEdge g t).pending = s.pending ∧ (s.gridEdge g t).now = s.now ∧ (s.gridEdge g t).phase = s.phase ∧
    (s.gridEdge g t).comparators = s.comparators ∧ (s.gridEdge g t).sampled = s.sampled ∧
    (s.gridEdge g t).supplyGood = s.supplyGood ∧ (s.gridEdge g t).qualifier = s.qualifier ∧
    (s.gridEdge g t).sync = s.sync ∧ (s.gridEdge g t).front = s.front ∧ (s.gridEdge g t).engine = s.engine ∧
    (s.gridEdge g t).table = s.table ∧ (s.gridEdge g t).verdicts = s.verdicts ∧ (s.gridEdge g t).gap = s.gap ∧
    (s.gridEdge g t).store = s.store ∧ (s.gridEdge g t).notices = s.notices ∧ (s.gridEdge g t).lines = s.lines ∧
    (s.gridEdge g t).link = s.link ∧ (s.gridEdge g t).settings = s.settings ∧
    (s.gridEdge g t).freeIndex = s.freeIndex := by
  unfold State.gridEdge
  dsimp only
  (repeat' split) <;> simp

/-- `syncLoss` changes at most: qualifier, tracker, front, gap, transit. -/
@[simp] theorem State.syncLoss_keeps  :
    (s.syncLoss).pending = s.pending ∧ (s.syncLoss).now = s.now ∧ (s.syncLoss).phase = s.phase ∧
    (s.syncLoss).comparators = s.comparators ∧ (s.syncLoss).sampled = s.sampled ∧
    (s.syncLoss).supplyGood = s.supplyGood ∧ (s.syncLoss).sync = s.sync ∧ (s.syncLoss).engine = s.engine ∧
    (s.syncLoss).table = s.table ∧ (s.syncLoss).verdicts = s.verdicts ∧ (s.syncLoss).store = s.store ∧
    (s.syncLoss).notices = s.notices ∧ (s.syncLoss).lines = s.lines ∧ (s.syncLoss).link = s.link ∧
    (s.syncLoss).settings = s.settings ∧ (s.syncLoss).freeIndex = s.freeIndex := by
  unfold State.syncLoss
  dsimp only
  (repeat' split) <;> simp

/-- `missBoundary` changes at most: qualifier, tracker, front, gap, transit. -/
@[simp] theorem State.missBoundary_keeps (g : Grid) :
    (s.missBoundary g).pending = s.pending ∧ (s.missBoundary g).now = s.now ∧ (s.missBoundary g).phase = s.phase ∧
    (s.missBoundary g).comparators = s.comparators ∧ (s.missBoundary g).sampled = s.sampled ∧
    (s.missBoundary g).supplyGood = s.supplyGood ∧ (s.missBoundary g).sync = s.sync ∧
    (s.missBoundary g).engine = s.engine ∧ (s.missBoundary g).table = s.table ∧
    (s.missBoundary g).verdicts = s.verdicts ∧ (s.missBoundary g).store = s.store ∧
    (s.missBoundary g).notices = s.notices ∧ (s.missBoundary g).lines = s.lines ∧ (s.missBoundary g).link = s.link ∧
    (s.missBoundary g).settings = s.settings ∧ (s.missBoundary g).freeIndex = s.freeIndex := by
  unfold State.missBoundary
  dsimp only
  (repeat' split) <;> simp

/-- `endCycle` changes at most: front, gap, transit. -/
@[simp] theorem State.endCycle_keeps (n : Word32) (mark : Bool) :
    (s.endCycle n mark).pending = s.pending ∧ (s.endCycle n mark).now = s.now ∧ (s.endCycle n mark).phase = s.phase ∧
    (s.endCycle n mark).comparators = s.comparators ∧ (s.endCycle n mark).sampled = s.sampled ∧
    (s.endCycle n mark).supplyGood = s.supplyGood ∧ (s.endCycle n mark).qualifier = s.qualifier ∧
    (s.endCycle n mark).sync = s.sync ∧ (s.endCycle n mark).tracker = s.tracker ∧
    (s.endCycle n mark).engine = s.engine ∧ (s.endCycle n mark).table = s.table ∧
    (s.endCycle n mark).verdicts = s.verdicts ∧ (s.endCycle n mark).store = s.store ∧
    (s.endCycle n mark).notices = s.notices ∧ (s.endCycle n mark).lines = s.lines ∧
    (s.endCycle n mark).link = s.link ∧ (s.endCycle n mark).settings = s.settings ∧
    (s.endCycle n mark).freeIndex = s.freeIndex := by
  unfold State.endCycle
  dsimp only
  simp

/-- `restartTracker` changes at most: qualifier, sync, tracker, front, gap, transit. -/
@[simp] theorem State.restartTracker_keeps (y : SyncSettings) (c : AbortCause) :
    (s.restartTracker y c).pending = s.pending ∧ (s.restartTracker y c).now = s.now ∧
    (s.restartTracker y c).phase = s.phase ∧ (s.restartTracker y c).comparators = s.comparators ∧
    (s.restartTracker y c).sampled = s.sampled ∧ (s.restartTracker y c).supplyGood = s.supplyGood ∧
    (s.restartTracker y c).engine = s.engine ∧ (s.restartTracker y c).table = s.table ∧
    (s.restartTracker y c).verdicts = s.verdicts ∧ (s.restartTracker y c).store = s.store ∧
    (s.restartTracker y c).notices = s.notices ∧ (s.restartTracker y c).lines = s.lines ∧
    (s.restartTracker y c).link = s.link ∧ (s.restartTracker y c).settings = s.settings ∧
    (s.restartTracker y c).freeIndex = s.freeIndex := by
  unfold State.restartTracker
  dsimp only
  simp

/-- `raiseIfPendingW` changes at most: transit. -/
@[simp] theorem State.raiseIfPendingW_keeps  :
    (s.raiseIfPendingW).pending = s.pending ∧ (s.raiseIfPendingW).now = s.now ∧ (s.raiseIfPendingW).phase = s.phase ∧
    (s.raiseIfPendingW).comparators = s.comparators ∧ (s.raiseIfPendingW).sampled = s.sampled ∧
    (s.raiseIfPendingW).supplyGood = s.supplyGood ∧ (s.raiseIfPendingW).qualifier = s.qualifier ∧
    (s.raiseIfPendingW).sync = s.sync ∧ (s.raiseIfPendingW).tracker = s.tracker ∧
    (s.raiseIfPendingW).front = s.front ∧ (s.raiseIfPendingW).engine = s.engine ∧
    (s.raiseIfPendingW).table = s.table ∧ (s.raiseIfPendingW).verdicts = s.verdicts ∧
    (s.raiseIfPendingW).gap = s.gap ∧ (s.raiseIfPendingW).store = s.store ∧ (s.raiseIfPendingW).notices = s.notices ∧
    (s.raiseIfPendingW).lines = s.lines ∧ (s.raiseIfPendingW).link = s.link ∧
    (s.raiseIfPendingW).settings = s.settings ∧ (s.raiseIfPendingW).freeIndex = s.freeIndex := by
  unfold State.raiseIfPendingW
  (repeat' split) <;> simp

/-- `nameParticipants` changes at most: transit. -/
@[simp] theorem State.nameParticipants_keeps  :
    (s.nameParticipants).pending = s.pending ∧ (s.nameParticipants).now = s.now ∧
    (s.nameParticipants).phase = s.phase ∧ (s.nameParticipants).comparators = s.comparators ∧
    (s.nameParticipants).sampled = s.sampled ∧ (s.nameParticipants).supplyGood = s.supplyGood ∧
    (s.nameParticipants).qualifier = s.qualifier ∧ (s.nameParticipants).sync = s.sync ∧
    (s.nameParticipants).tracker = s.tracker ∧ (s.nameParticipants).front = s.front ∧
    (s.nameParticipants).engine = s.engine ∧ (s.nameParticipants).table = s.table ∧
    (s.nameParticipants).verdicts = s.verdicts ∧ (s.nameParticipants).gap = s.gap ∧
    (s.nameParticipants).store = s.store ∧ (s.nameParticipants).notices = s.notices ∧
    (s.nameParticipants).lines = s.lines ∧ (s.nameParticipants).link = s.link ∧
    (s.nameParticipants).settings = s.settings ∧ (s.nameParticipants).freeIndex = s.freeIndex := by
  unfold State.nameParticipants
  dsimp only
  (repeat' split) <;> simp

/-- `abortWindow` changes at most: engine, transit. -/
@[simp] theorem State.abortWindow_keeps  :
    (s.abortWindow).pending = s.pending ∧ (s.abortWindow).now = s.now ∧ (s.abortWindow).phase = s.phase ∧
    (s.abortWindow).comparators = s.comparators ∧ (s.abortWindow).sampled = s.sampled ∧
    (s.abortWindow).supplyGood = s.supplyGood ∧ (s.abortWindow).qualifier = s.qualifier ∧
    (s.abortWindow).sync = s.sync ∧ (s.abortWindow).tracker = s.tracker ∧ (s.abortWindow).front = s.front ∧
    (s.abortWindow).table = s.table ∧ (s.abortWindow).verdicts = s.verdicts ∧ (s.abortWindow).gap = s.gap ∧
    (s.abortWindow).store = s.store ∧ (s.abortWindow).notices = s.notices ∧ (s.abortWindow).lines = s.lines ∧
    (s.abortWindow).link = s.link ∧ (s.abortWindow).settings = s.settings ∧
    (s.abortWindow).freeIndex = s.freeIndex := by
  unfold State.abortWindow
  dsimp only
  (repeat' split) <;> simp

/-- `endWindow` changes at most: engine, transit. -/
@[simp] theorem State.endWindow_keeps (n : Word32) :
    (s.endWindow n).pending = s.pending ∧ (s.endWindow n).now = s.now ∧ (s.endWindow n).phase = s.phase ∧
    (s.endWindow n).comparators = s.comparators ∧ (s.endWindow n).sampled = s.sampled ∧
    (s.endWindow n).supplyGood = s.supplyGood ∧ (s.endWindow n).qualifier = s.qualifier ∧
    (s.endWindow n).sync = s.sync ∧ (s.endWindow n).tracker = s.tracker ∧ (s.endWindow n).front = s.front ∧
    (s.endWindow n).table = s.table ∧ (s.endWindow n).verdicts = s.verdicts ∧ (s.endWindow n).gap = s.gap ∧
    (s.endWindow n).store = s.store ∧ (s.endWindow n).notices = s.notices ∧ (s.endWindow n).lines = s.lines ∧
    (s.endWindow n).link = s.link ∧ (s.endWindow n).settings = s.settings ∧
    (s.endWindow n).freeIndex = s.freeIndex := by
  unfold State.endWindow
  dsimp only
  simp

/-- `takeCycleEnd` changes at most: engine, transit. -/
@[simp] theorem State.takeCycleEnd_keeps (n : Word32) (mark : Bool) :
    (s.takeCycleEnd n mark).pending = s.pending ∧ (s.takeCycleEnd n mark).now = s.now ∧
    (s.takeCycleEnd n mark).phase = s.phase ∧ (s.takeCycleEnd n mark).comparators = s.comparators ∧
    (s.takeCycleEnd n mark).sampled = s.sampled ∧ (s.takeCycleEnd n mark).supplyGood = s.supplyGood ∧
    (s.takeCycleEnd n mark).qualifier = s.qualifier ∧ (s.takeCycleEnd n mark).sync = s.sync ∧
    (s.takeCycleEnd n mark).tracker = s.tracker ∧ (s.takeCycleEnd n mark).front = s.front ∧
    (s.takeCycleEnd n mark).table = s.table ∧ (s.takeCycleEnd n mark).verdicts = s.verdicts ∧
    (s.takeCycleEnd n mark).gap = s.gap ∧ (s.takeCycleEnd n mark).store = s.store ∧
    (s.takeCycleEnd n mark).notices = s.notices ∧ (s.takeCycleEnd n mark).lines = s.lines ∧
    (s.takeCycleEnd n mark).link = s.link ∧ (s.takeCycleEnd n mark).settings = s.settings ∧
    (s.takeCycleEnd n mark).freeIndex = s.freeIndex := by
  unfold State.takeCycleEnd
  dsimp only
  (repeat' split) <;> simp

/-- `startWindow` changes at most: engine, table. -/
@[simp] theorem State.startWindow_keeps (n : Word32) :
    (s.startWindow n).pending = s.pending ∧ (s.startWindow n).now = s.now ∧ (s.startWindow n).phase = s.phase ∧
    (s.startWindow n).comparators = s.comparators ∧ (s.startWindow n).sampled = s.sampled ∧
    (s.startWindow n).supplyGood = s.supplyGood ∧ (s.startWindow n).qualifier = s.qualifier ∧
    (s.startWindow n).sync = s.sync ∧ (s.startWindow n).tracker = s.tracker ∧ (s.startWindow n).front = s.front ∧
    (s.startWindow n).verdicts = s.verdicts ∧ (s.startWindow n).gap = s.gap ∧ (s.startWindow n).store = s.store ∧
    (s.startWindow n).notices = s.notices ∧ (s.startWindow n).lines = s.lines ∧ (s.startWindow n).link = s.link ∧
    (s.startWindow n).settings = s.settings ∧ (s.startWindow n).transit = s.transit ∧
    (s.startWindow n).freeIndex = s.freeIndex := by
  unfold State.startWindow
  dsimp only
  simp

/-- `takeCycleStart` changes at most: engine, table. -/
@[simp] theorem State.takeCycleStart_keeps (n : Word32) :
    (s.takeCycleStart n).pending = s.pending ∧ (s.takeCycleStart n).now = s.now ∧
    (s.takeCycleStart n).phase = s.phase ∧ (s.takeCycleStart n).comparators = s.comparators ∧
    (s.takeCycleStart n).sampled = s.sampled ∧ (s.takeCycleStart n).supplyGood = s.supplyGood ∧
    (s.takeCycleStart n).qualifier = s.qualifier ∧ (s.takeCycleStart n).sync = s.sync ∧
    (s.takeCycleStart n).tracker = s.tracker ∧ (s.takeCycleStart n).front = s.front ∧
    (s.takeCycleStart n).verdicts = s.verdicts ∧ (s.takeCycleStart n).gap = s.gap ∧
    (s.takeCycleStart n).store = s.store ∧ (s.takeCycleStart n).notices = s.notices ∧
    (s.takeCycleStart n).lines = s.lines ∧ (s.takeCycleStart n).link = s.link ∧
    (s.takeCycleStart n).settings = s.settings ∧ (s.takeCycleStart n).transit = s.transit ∧
    (s.takeCycleStart n).freeIndex = s.freeIndex := by
  unfold State.takeCycleStart
  dsimp only
  (repeat' split) <;> simp

/-- `stageWindow` changes at most: engine, transit. -/
@[simp] theorem State.stageWindow_keeps (w : Nat) :
    (s.stageWindow w).pending = s.pending ∧ (s.stageWindow w).now = s.now ∧ (s.stageWindow w).phase = s.phase ∧
    (s.stageWindow w).comparators = s.comparators ∧ (s.stageWindow w).sampled = s.sampled ∧
    (s.stageWindow w).supplyGood = s.supplyGood ∧ (s.stageWindow w).qualifier = s.qualifier ∧
    (s.stageWindow w).sync = s.sync ∧ (s.stageWindow w).tracker = s.tracker ∧ (s.stageWindow w).front = s.front ∧
    (s.stageWindow w).table = s.table ∧ (s.stageWindow w).verdicts = s.verdicts ∧ (s.stageWindow w).gap = s.gap ∧
    (s.stageWindow w).store = s.store ∧ (s.stageWindow w).notices = s.notices ∧ (s.stageWindow w).lines = s.lines ∧
    (s.stageWindow w).link = s.link ∧ (s.stageWindow w).settings = s.settings ∧
    (s.stageWindow w).freeIndex = s.freeIndex := by
  unfold State.stageWindow
  dsimp only
  (repeat' split) <;> simp

/-- `deliver` changes at most: front, engine, gap. -/
@[simp] theorem State.deliver_keeps (x : SampleSet) :
    (s.deliver x).pending = s.pending ∧ (s.deliver x).now = s.now ∧ (s.deliver x).phase = s.phase ∧
    (s.deliver x).comparators = s.comparators ∧ (s.deliver x).sampled = s.sampled ∧
    (s.deliver x).supplyGood = s.supplyGood ∧ (s.deliver x).qualifier = s.qualifier ∧ (s.deliver x).sync = s.sync ∧
    (s.deliver x).tracker = s.tracker ∧ (s.deliver x).table = s.table ∧ (s.deliver x).verdicts = s.verdicts ∧
    (s.deliver x).store = s.store ∧ (s.deliver x).notices = s.notices ∧ (s.deliver x).lines = s.lines ∧
    (s.deliver x).link = s.link ∧ (s.deliver x).settings = s.settings ∧ (s.deliver x).transit = s.transit ∧
    (s.deliver x).freeIndex = s.freeIndex := by
  unfold State.deliver
  dsimp only
  simp

/-- `clearingFor` changes at most: transit. -/
@[simp] theorem State.clearingFor_keeps (i : Subject) (c : Clearing) :
    (s.clearingFor i c).pending = s.pending ∧ (s.clearingFor i c).now = s.now ∧ (s.clearingFor i c).phase = s.phase ∧
    (s.clearingFor i c).comparators = s.comparators ∧ (s.clearingFor i c).sampled = s.sampled ∧
    (s.clearingFor i c).supplyGood = s.supplyGood ∧ (s.clearingFor i c).qualifier = s.qualifier ∧
    (s.clearingFor i c).sync = s.sync ∧ (s.clearingFor i c).tracker = s.tracker ∧
    (s.clearingFor i c).front = s.front ∧ (s.clearingFor i c).engine = s.engine ∧
    (s.clearingFor i c).table = s.table ∧ (s.clearingFor i c).verdicts = s.verdicts ∧
    (s.clearingFor i c).gap = s.gap ∧ (s.clearingFor i c).store = s.store ∧ (s.clearingFor i c).notices = s.notices ∧
    (s.clearingFor i c).lines = s.lines ∧ (s.clearingFor i c).link = s.link ∧
    (s.clearingFor i c).settings = s.settings ∧ (s.clearingFor i c).freeIndex = s.freeIndex := by
  unfold State.clearingFor
  (repeat' split) <;> simp

/-- `activate` changes at most: table, transit. -/
@[simp] theorem State.activate_keeps (i : Subject) (p : Profile) :
    (s.activate i p).pending = s.pending ∧ (s.activate i p).now = s.now ∧ (s.activate i p).phase = s.phase ∧
    (s.activate i p).comparators = s.comparators ∧ (s.activate i p).sampled = s.sampled ∧
    (s.activate i p).supplyGood = s.supplyGood ∧ (s.activate i p).qualifier = s.qualifier ∧
    (s.activate i p).sync = s.sync ∧ (s.activate i p).tracker = s.tracker ∧ (s.activate i p).front = s.front ∧
    (s.activate i p).engine = s.engine ∧ (s.activate i p).verdicts = s.verdicts ∧ (s.activate i p).gap = s.gap ∧
    (s.activate i p).store = s.store ∧ (s.activate i p).notices = s.notices ∧ (s.activate i p).lines = s.lines ∧
    (s.activate i p).link = s.link ∧ (s.activate i p).settings = s.settings ∧
    (s.activate i p).freeIndex = s.freeIndex := by
  unfold State.activate
  dsimp only
  simp

/-- `enableSubject` changes at most: table, transit. -/
@[simp] theorem State.enableSubject_keeps (i : Subject) :
    (s.enableSubject i).pending = s.pending ∧ (s.enableSubject i).now = s.now ∧ (s.enableSubject i).phase = s.phase ∧
    (s.enableSubject i).comparators = s.comparators ∧ (s.enableSubject i).sampled = s.sampled ∧
    (s.enableSubject i).supplyGood = s.supplyGood ∧ (s.enableSubject i).qualifier = s.qualifier ∧
    (s.enableSubject i).sync = s.sync ∧ (s.enableSubject i).tracker = s.tracker ∧
    (s.enableSubject i).front = s.front ∧ (s.enableSubject i).engine = s.engine ∧
    (s.enableSubject i).verdicts = s.verdicts ∧ (s.enableSubject i).gap = s.gap ∧
    (s.enableSubject i).store = s.store ∧ (s.enableSubject i).notices = s.notices ∧
    (s.enableSubject i).lines = s.lines ∧ (s.enableSubject i).link = s.link ∧
    (s.enableSubject i).settings = s.settings ∧ (s.enableSubject i).freeIndex = s.freeIndex := by
  unfold State.enableSubject
  dsimp only
  (repeat' split) <;> simp

/-- `disableSubject` changes at most: table, transit. -/
@[simp] theorem State.disableSubject_keeps (i : Subject) :
    (s.disableSubject i).pending = s.pending ∧ (s.disableSubject i).now = s.now ∧
    (s.disableSubject i).phase = s.phase ∧ (s.disableSubject i).comparators = s.comparators ∧
    (s.disableSubject i).sampled = s.sampled ∧ (s.disableSubject i).supplyGood = s.supplyGood ∧
    (s.disableSubject i).qualifier = s.qualifier ∧ (s.disableSubject i).sync = s.sync ∧
    (s.disableSubject i).tracker = s.tracker ∧ (s.disableSubject i).front = s.front ∧
    (s.disableSubject i).engine = s.engine ∧ (s.disableSubject i).verdicts = s.verdicts ∧
    (s.disableSubject i).gap = s.gap ∧ (s.disableSubject i).store = s.store ∧
    (s.disableSubject i).notices = s.notices ∧ (s.disableSubject i).lines = s.lines ∧
    (s.disableSubject i).link = s.link ∧ (s.disableSubject i).settings = s.settings ∧
    (s.disableSubject i).freeIndex = s.freeIndex := by
  unfold State.disableSubject
  dsimp only
  (repeat' split) <;> simp

/-- `nameOne` changes at most: table, transit. -/
@[simp] theorem State.nameOne_keeps (i : Subject) :
    (s.nameOne i).pending = s.pending ∧ (s.nameOne i).now = s.now ∧ (s.nameOne i).phase = s.phase ∧
    (s.nameOne i).comparators = s.comparators ∧ (s.nameOne i).sampled = s.sampled ∧
    (s.nameOne i).supplyGood = s.supplyGood ∧ (s.nameOne i).qualifier = s.qualifier ∧ (s.nameOne i).sync = s.sync ∧
    (s.nameOne i).tracker = s.tracker ∧ (s.nameOne i).front = s.front ∧ (s.nameOne i).engine = s.engine ∧
    (s.nameOne i).verdicts = s.verdicts ∧ (s.nameOne i).gap = s.gap ∧ (s.nameOne i).store = s.store ∧
    (s.nameOne i).notices = s.notices ∧ (s.nameOne i).lines = s.lines ∧ (s.nameOne i).link = s.link ∧
    (s.nameOne i).settings = s.settings ∧ (s.nameOne i).freeIndex = s.freeIndex := by
  unfold State.nameOne
  dsimp only
  (repeat' split) <;> simp

/-- `setVerdict` changes at most: verdicts, transit. -/
@[simp] theorem State.setVerdict_keeps (i : Subject) (e : VerdictEntry) :
    (s.setVerdict i e).pending = s.pending ∧ (s.setVerdict i e).now = s.now ∧ (s.setVerdict i e).phase = s.phase ∧
    (s.setVerdict i e).comparators = s.comparators ∧ (s.setVerdict i e).sampled = s.sampled ∧
    (s.setVerdict i e).supplyGood = s.supplyGood ∧ (s.setVerdict i e).qualifier = s.qualifier ∧
    (s.setVerdict i e).sync = s.sync ∧ (s.setVerdict i e).tracker = s.tracker ∧ (s.setVerdict i e).front = s.front ∧
    (s.setVerdict i e).engine = s.engine ∧ (s.setVerdict i e).table = s.table ∧ (s.setVerdict i e).gap = s.gap ∧
    (s.setVerdict i e).store = s.store ∧ (s.setVerdict i e).notices = s.notices ∧ (s.setVerdict i e).lines = s.lines ∧
    (s.setVerdict i e).link = s.link ∧ (s.setVerdict i e).settings = s.settings ∧
    (s.setVerdict i e).freeIndex = s.freeIndex := by
  unfold State.setVerdict
  dsimp only
  (repeat' split) <;> simp

/-- `fileExceed` changes at most: transit. -/
@[simp] theorem State.fileExceed_keeps (r : WindowReport) (n : Nat) :
    (s.fileExceed r n).pending = s.pending ∧ (s.fileExceed r n).now = s.now ∧ (s.fileExceed r n).phase = s.phase ∧
    (s.fileExceed r n).comparators = s.comparators ∧ (s.fileExceed r n).sampled = s.sampled ∧
    (s.fileExceed r n).supplyGood = s.supplyGood ∧ (s.fileExceed r n).qualifier = s.qualifier ∧
    (s.fileExceed r n).sync = s.sync ∧ (s.fileExceed r n).tracker = s.tracker ∧ (s.fileExceed r n).front = s.front ∧
    (s.fileExceed r n).engine = s.engine ∧ (s.fileExceed r n).table = s.table ∧
    (s.fileExceed r n).verdicts = s.verdicts ∧ (s.fileExceed r n).gap = s.gap ∧ (s.fileExceed r n).store = s.store ∧
    (s.fileExceed r n).notices = s.notices ∧ (s.fileExceed r n).lines = s.lines ∧ (s.fileExceed r n).link = s.link ∧
    (s.fileExceed r n).settings = s.settings ∧ (s.fileExceed r n).freeIndex = s.freeIndex := by
  unfold State.fileExceed
  dsimp only
  (repeat' split) <;> simp

/-- `takeReport` changes at most: verdicts, transit. -/
@[simp] theorem State.takeReport_keeps (r : WindowReport) :
    (s.takeReport r).pending = s.pending ∧ (s.takeReport r).now = s.now ∧ (s.takeReport r).phase = s.phase ∧
    (s.takeReport r).comparators = s.comparators ∧ (s.takeReport r).sampled = s.sampled ∧
    (s.takeReport r).supplyGood = s.supplyGood ∧ (s.takeReport r).qualifier = s.qualifier ∧
    (s.takeReport r).sync = s.sync ∧ (s.takeReport r).tracker = s.tracker ∧ (s.takeReport r).front = s.front ∧
    (s.takeReport r).engine = s.engine ∧ (s.takeReport r).table = s.table ∧ (s.takeReport r).gap = s.gap ∧
    (s.takeReport r).store = s.store ∧ (s.takeReport r).notices = s.notices ∧ (s.takeReport r).lines = s.lines ∧
    (s.takeReport r).link = s.link ∧ (s.takeReport r).settings = s.settings ∧
    (s.takeReport r).freeIndex = s.freeIndex := by
  unfold State.takeReport
  dsimp only
  (repeat' split) <;> simp

/-- `setGapGroup` changes at most: gap, transit. -/
@[simp] theorem State.setGapGroup_keeps (g : Group) (x : GapGroup) :
    (s.setGapGroup g x).pending = s.pending ∧ (s.setGapGroup g x).now = s.now ∧ (s.setGapGroup g x).phase = s.phase ∧
    (s.setGapGroup g x).comparators = s.comparators ∧ (s.setGapGroup g x).sampled = s.sampled ∧
    (s.setGapGroup g x).supplyGood = s.supplyGood ∧ (s.setGapGroup g x).qualifier = s.qualifier ∧
    (s.setGapGroup g x).sync = s.sync ∧ (s.setGapGroup g x).tracker = s.tracker ∧
    (s.setGapGroup g x).front = s.front ∧ (s.setGapGroup g x).engine = s.engine ∧
    (s.setGapGroup g x).table = s.table ∧ (s.setGapGroup g x).verdicts = s.verdicts ∧
    (s.setGapGroup g x).store = s.store ∧ (s.setGapGroup g x).notices = s.notices ∧
    (s.setGapGroup g x).lines = s.lines ∧ (s.setGapGroup g x).link = s.link ∧
    (s.setGapGroup g x).settings = s.settings ∧ (s.setGapGroup g x).freeIndex = s.freeIndex := by
  unfold State.setGapGroup
  dsimp only
  (repeat' split) <;> simp

/-- `examine` changes at most: gap, transit. -/
@[simp] theorem State.examine_keeps (g : Group) (p : GapPart) :
    (s.examine g p).pending = s.pending ∧ (s.examine g p).now = s.now ∧ (s.examine g p).phase = s.phase ∧
    (s.examine g p).comparators = s.comparators ∧ (s.examine g p).sampled = s.sampled ∧
    (s.examine g p).supplyGood = s.supplyGood ∧ (s.examine g p).qualifier = s.qualifier ∧
    (s.examine g p).sync = s.sync ∧ (s.examine g p).tracker = s.tracker ∧ (s.examine g p).front = s.front ∧
    (s.examine g p).engine = s.engine ∧ (s.examine g p).table = s.table ∧ (s.examine g p).verdicts = s.verdicts ∧
    (s.examine g p).store = s.store ∧ (s.examine g p).notices = s.notices ∧ (s.examine g p).lines = s.lines ∧
    (s.examine g p).link = s.link ∧ (s.examine g p).settings = s.settings ∧
    (s.examine g p).freeIndex = s.freeIndex := by
  unfold State.examine
  dsimp only
  (repeat' split) <;> simp

/-- `setLines` changes at most: lines. -/
@[simp] theorem State.setLines_keeps (ls : PerLine LineSettings) :
    (s.setLines ls).pending = s.pending ∧ (s.setLines ls).now = s.now ∧ (s.setLines ls).phase = s.phase ∧
    (s.setLines ls).comparators = s.comparators ∧ (s.setLines ls).sampled = s.sampled ∧
    (s.setLines ls).supplyGood = s.supplyGood ∧ (s.setLines ls).qualifier = s.qualifier ∧
    (s.setLines ls).sync = s.sync ∧ (s.setLines ls).tracker = s.tracker ∧ (s.setLines ls).front = s.front ∧
    (s.setLines ls).engine = s.engine ∧ (s.setLines ls).table = s.table ∧ (s.setLines ls).verdicts = s.verdicts ∧
    (s.setLines ls).gap = s.gap ∧ (s.setLines ls).store = s.store ∧ (s.setLines ls).notices = s.notices ∧
    (s.setLines ls).link = s.link ∧ (s.setLines ls).settings = s.settings ∧ (s.setLines ls).transit = s.transit ∧
    (s.setLines ls).freeIndex = s.freeIndex := by
  unfold State.setLines
  dsimp only
  simp

/-- `beginSave` changes at most: settings. -/
@[simp] theorem State.beginSave_keeps  :
    (s.beginSave).pending = s.pending ∧ (s.beginSave).now = s.now ∧ (s.beginSave).phase = s.phase ∧
    (s.beginSave).comparators = s.comparators ∧ (s.beginSave).sampled = s.sampled ∧
    (s.beginSave).supplyGood = s.supplyGood ∧ (s.beginSave).qualifier = s.qualifier ∧ (s.beginSave).sync = s.sync ∧
    (s.beginSave).tracker = s.tracker ∧ (s.beginSave).front = s.front ∧ (s.beginSave).engine = s.engine ∧
    (s.beginSave).table = s.table ∧ (s.beginSave).verdicts = s.verdicts ∧ (s.beginSave).gap = s.gap ∧
    (s.beginSave).store = s.store ∧ (s.beginSave).notices = s.notices ∧ (s.beginSave).lines = s.lines ∧
    (s.beginSave).link = s.link ∧ (s.beginSave).transit = s.transit ∧ (s.beginSave).freeIndex = s.freeIndex := by
  unfold State.beginSave
  dsimp only
  simp

/-- `defaultSubject` changes at most: transit. -/
@[simp] theorem State.defaultSubject_keeps (i : Subject) :
    (s.defaultSubject i).pending = s.pending ∧ (s.defaultSubject i).now = s.now ∧
    (s.defaultSubject i).phase = s.phase ∧ (s.defaultSubject i).comparators = s.comparators ∧
    (s.defaultSubject i).sampled = s.sampled ∧ (s.defaultSubject i).supplyGood = s.supplyGood ∧
    (s.defaultSubject i).qualifier = s.qualifier ∧ (s.defaultSubject i).sync = s.sync ∧
    (s.defaultSubject i).tracker = s.tracker ∧ (s.defaultSubject i).front = s.front ∧
    (s.defaultSubject i).engine = s.engine ∧ (s.defaultSubject i).table = s.table ∧
    (s.defaultSubject i).verdicts = s.verdicts ∧ (s.defaultSubject i).gap = s.gap ∧
    (s.defaultSubject i).store = s.store ∧ (s.defaultSubject i).notices = s.notices ∧
    (s.defaultSubject i).lines = s.lines ∧ (s.defaultSubject i).link = s.link ∧
    (s.defaultSubject i).settings = s.settings ∧ (s.defaultSubject i).freeIndex = s.freeIndex := by
  unfold State.defaultSubject
  simp

/-- `startSubject` changes at most: table, transit. -/
@[simp] theorem State.startSubject_keeps (i : Subject) :
    (s.startSubject i).pending = s.pending ∧ (s.startSubject i).now = s.now ∧ (s.startSubject i).phase = s.phase ∧
    (s.startSubject i).comparators = s.comparators ∧ (s.startSubject i).sampled = s.sampled ∧
    (s.startSubject i).supplyGood = s.supplyGood ∧ (s.startSubject i).qualifier = s.qualifier ∧
    (s.startSubject i).sync = s.sync ∧ (s.startSubject i).tracker = s.tracker ∧ (s.startSubject i).front = s.front ∧
    (s.startSubject i).engine = s.engine ∧ (s.startSubject i).verdicts = s.verdicts ∧ (s.startSubject i).gap = s.gap ∧
    (s.startSubject i).store = s.store ∧ (s.startSubject i).notices = s.notices ∧ (s.startSubject i).lines = s.lines ∧
    (s.startSubject i).link = s.link ∧ (s.startSubject i).settings = s.settings ∧
    (s.startSubject i).freeIndex = s.freeIndex := by
  unfold State.startSubject
  dsimp only
  (repeat' split) <;> simp

/-- `clearCounters` changes at most: tracker, store, link. -/
@[simp] theorem State.clearCounters_keeps  :
    (s.clearCounters).pending = s.pending ∧ (s.clearCounters).now = s.now ∧ (s.clearCounters).phase = s.phase ∧
    (s.clearCounters).comparators = s.comparators ∧ (s.clearCounters).sampled = s.sampled ∧
    (s.clearCounters).supplyGood = s.supplyGood ∧ (s.clearCounters).qualifier = s.qualifier ∧
    (s.clearCounters).sync = s.sync ∧ (s.clearCounters).front = s.front ∧ (s.clearCounters).engine = s.engine ∧
    (s.clearCounters).table = s.table ∧ (s.clearCounters).verdicts = s.verdicts ∧ (s.clearCounters).gap = s.gap ∧
    (s.clearCounters).notices = s.notices ∧ (s.clearCounters).lines = s.lines ∧
    (s.clearCounters).settings = s.settings ∧ (s.clearCounters).transit = s.transit ∧
    (s.clearCounters).freeIndex = s.freeIndex := by
  unfold State.clearCounters
  dsimp only
  simp

/-- `countRequest` changes at most: store, link. -/
@[simp] theorem State.countRequest_keeps (k : Byte) :
    (s.countRequest k).pending = s.pending ∧ (s.countRequest k).now = s.now ∧ (s.countRequest k).phase = s.phase ∧
    (s.countRequest k).comparators = s.comparators ∧ (s.countRequest k).sampled = s.sampled ∧
    (s.countRequest k).supplyGood = s.supplyGood ∧ (s.countRequest k).qualifier = s.qualifier ∧
    (s.countRequest k).sync = s.sync ∧ (s.countRequest k).tracker = s.tracker ∧ (s.countRequest k).front = s.front ∧
    (s.countRequest k).engine = s.engine ∧ (s.countRequest k).table = s.table ∧
    (s.countRequest k).verdicts = s.verdicts ∧ (s.countRequest k).gap = s.gap ∧
    (s.countRequest k).notices = s.notices ∧ (s.countRequest k).lines = s.lines ∧
    (s.countRequest k).settings = s.settings ∧ (s.countRequest k).transit = s.transit ∧
    (s.countRequest k).freeIndex = s.freeIndex := by
  unfold State.countRequest
  dsimp only
  (repeat' split) <;> simp

/-- `framingError` changes at most: link. -/
@[simp] theorem State.framingError_keeps  :
    (s.framingError).pending = s.pending ∧ (s.framingError).now = s.now ∧ (s.framingError).phase = s.phase ∧
    (s.framingError).comparators = s.comparators ∧ (s.framingError).sampled = s.sampled ∧
    (s.framingError).supplyGood = s.supplyGood ∧ (s.framingError).qualifier = s.qualifier ∧
    (s.framingError).sync = s.sync ∧ (s.framingError).tracker = s.tracker ∧ (s.framingError).front = s.front ∧
    (s.framingError).engine = s.engine ∧ (s.framingError).table = s.table ∧ (s.framingError).verdicts = s.verdicts ∧
    (s.framingError).gap = s.gap ∧ (s.framingError).store = s.store ∧ (s.framingError).notices = s.notices ∧
    (s.framingError).lines = s.lines ∧ (s.framingError).settings = s.settings ∧ (s.framingError).transit = s.transit ∧
    (s.framingError).freeIndex = s.freeIndex := by
  unfold State.framingError
  dsimp only
  simp

/-- `stageProfile` changes at most: table, transit. -/
@[simp] theorem State.stageProfile_keeps (i : Subject) (p : Profile) :
    (s.stageProfile i p).1.pending = s.pending ∧ (s.stageProfile i p).1.now = s.now ∧
    (s.stageProfile i p).1.phase = s.phase ∧ (s.stageProfile i p).1.comparators = s.comparators ∧
    (s.stageProfile i p).1.sampled = s.sampled ∧ (s.stageProfile i p).1.supplyGood = s.supplyGood ∧
    (s.stageProfile i p).1.qualifier = s.qualifier ∧ (s.stageProfile i p).1.sync = s.sync ∧
    (s.stageProfile i p).1.tracker = s.tracker ∧ (s.stageProfile i p).1.front = s.front ∧
    (s.stageProfile i p).1.engine = s.engine ∧ (s.stageProfile i p).1.verdicts = s.verdicts ∧
    (s.stageProfile i p).1.gap = s.gap ∧ (s.stageProfile i p).1.store = s.store ∧
    (s.stageProfile i p).1.notices = s.notices ∧ (s.stageProfile i p).1.lines = s.lines ∧
    (s.stageProfile i p).1.link = s.link ∧ (s.stageProfile i p).1.settings = s.settings ∧
    (s.stageProfile i p).1.freeIndex = s.freeIndex := by
  unfold State.stageProfile
  dsimp only
  (repeat' split) <;> simp

/-- `fileRecord` changes at most: store, transit. -/
@[simp] theorem State.fileRecord_keeps (mk : Nat → Record) :
    (s.fileRecord mk).1.pending = s.pending ∧ (s.fileRecord mk).1.now = s.now ∧ (s.fileRecord mk).1.phase = s.phase ∧
    (s.fileRecord mk).1.comparators = s.comparators ∧ (s.fileRecord mk).1.sampled = s.sampled ∧
    (s.fileRecord mk).1.supplyGood = s.supplyGood ∧ (s.fileRecord mk).1.qualifier = s.qualifier ∧
    (s.fileRecord mk).1.sync = s.sync ∧ (s.fileRecord mk).1.tracker = s.tracker ∧
    (s.fileRecord mk).1.front = s.front ∧ (s.fileRecord mk).1.engine = s.engine ∧
    (s.fileRecord mk).1.table = s.table ∧ (s.fileRecord mk).1.verdicts = s.verdicts ∧
    (s.fileRecord mk).1.gap = s.gap ∧ (s.fileRecord mk).1.notices = s.notices ∧ (s.fileRecord mk).1.lines = s.lines ∧
    (s.fileRecord mk).1.link = s.link ∧ (s.fileRecord mk).1.settings = s.settings ∧
    (s.fileRecord mk).1.freeIndex = s.freeIndex := by
  unfold State.fileRecord
  dsimp only
  (repeat' split) <;> simp

/-- `captureSubject` changes at most: store, transit. -/
@[simp] theorem State.captureSubject_keeps (i : Subject) (wanted : Bool) :
    (s.captureSubject i wanted).2.pending = s.pending ∧ (s.captureSubject i wanted).2.now = s.now ∧
    (s.captureSubject i wanted).2.phase = s.phase ∧ (s.captureSubject i wanted).2.comparators = s.comparators ∧
    (s.captureSubject i wanted).2.sampled = s.sampled ∧ (s.captureSubject i wanted).2.supplyGood = s.supplyGood ∧
    (s.captureSubject i wanted).2.qualifier = s.qualifier ∧ (s.captureSubject i wanted).2.sync = s.sync ∧
    (s.captureSubject i wanted).2.tracker = s.tracker ∧ (s.captureSubject i wanted).2.front = s.front ∧
    (s.captureSubject i wanted).2.engine = s.engine ∧ (s.captureSubject i wanted).2.table = s.table ∧
    (s.captureSubject i wanted).2.verdicts = s.verdicts ∧ (s.captureSubject i wanted).2.gap = s.gap ∧
    (s.captureSubject i wanted).2.notices = s.notices ∧ (s.captureSubject i wanted).2.lines = s.lines ∧
    (s.captureSubject i wanted).2.link = s.link ∧ (s.captureSubject i wanted).2.settings = s.settings ∧
    (s.captureSubject i wanted).2.freeIndex = s.freeIndex := by
  have h := State.fileRecord_keeps s (s.manualRecord i wanted)
  unfold State.captureSubject
  dsimp only
  cases hr : s.fileRecord (s.manualRecord i wanted) with
  | mk a b => rw [hr] at h; cases b <;> simpa using h

/-- `retainRecord` changes at most: store. -/
@[simp] theorem State.retainRecord_keeps (n : Nat) (flag : Bool) :
    (s.retainRecord n flag).2.pending = s.pending ∧ (s.retainRecord n flag).2.now = s.now ∧
    (s.retainRecord n flag).2.phase = s.phase ∧ (s.retainRecord n flag).2.comparators = s.comparators ∧
    (s.retainRecord n flag).2.sampled = s.sampled ∧ (s.retainRecord n flag).2.supplyGood = s.supplyGood ∧
    (s.retainRecord n flag).2.qualifier = s.qualifier ∧ (s.retainRecord n flag).2.sync = s.sync ∧
    (s.retainRecord n flag).2.tracker = s.tracker ∧ (s.retainRecord n flag).2.front = s.front ∧
    (s.retainRecord n flag).2.engine = s.engine ∧ (s.retainRecord n flag).2.table = s.table ∧
    (s.retainRecord n flag).2.verdicts = s.verdicts ∧ (s.retainRecord n flag).2.gap = s.gap ∧
    (s.retainRecord n flag).2.notices = s.notices ∧ (s.retainRecord n flag).2.lines = s.lines ∧
    (s.retainRecord n flag).2.link = s.link ∧ (s.retainRecord n flag).2.settings = s.settings ∧
    (s.retainRecord n flag).2.transit = s.transit ∧ (s.retainRecord n flag).2.freeIndex = s.freeIndex := by
  unfold State.retainRecord
  dsimp only
  (repeat' split) <;> simp

/-- `defaultEngine` changes at most: engine, transit. -/
@[simp] theorem State.defaultEngine_keeps :
    (s.defaultEngine).pending = s.pending ∧ (s.defaultEngine).now = s.now ∧ (s.defaultEngine).phase = s.phase ∧
    (s.defaultEngine).comparators = s.comparators ∧ (s.defaultEngine).sampled = s.sampled ∧
    (s.defaultEngine).supplyGood = s.supplyGood ∧ (s.defaultEngine).qualifier = s.qualifier ∧
    (s.defaultEngine).sync = s.sync ∧ (s.defaultEngine).tracker = s.tracker ∧ (s.defaultEngine).front = s.front ∧
    (s.defaultEngine).table = s.table ∧ (s.defaultEngine).verdicts = s.verdicts ∧ (s.defaultEngine).gap = s.gap ∧
    (s.defaultEngine).store = s.store ∧ (s.defaultEngine).notices = s.notices ∧ (s.defaultEngine).lines = s.lines ∧
    (s.defaultEngine).link = s.link ∧ (s.defaultEngine).settings = s.settings ∧
    (s.defaultEngine).freeIndex = s.freeIndex := by
  unfold State.defaultEngine
  dsimp only
  simp

/-- Namings taken one after the other change at most: table, transit. -/
theorem State.foldl_nameOne_keeps (names : List Subject) :
    (names.foldl State.nameOne s).pending = s.pending ∧ (names.foldl State.nameOne s).now = s.now ∧
    (names.foldl State.nameOne s).phase = s.phase ∧ (names.foldl State.nameOne s).comparators = s.comparators ∧
    (names.foldl State.nameOne s).sampled = s.sampled ∧ (names.foldl State.nameOne s).supplyGood = s.supplyGood ∧
    (names.foldl State.nameOne s).qualifier = s.qualifier ∧ (names.foldl State.nameOne s).sync = s.sync ∧
    (names.foldl State.nameOne s).tracker = s.tracker ∧ (names.foldl State.nameOne s).front = s.front ∧
    (names.foldl State.nameOne s).engine = s.engine ∧ (names.foldl State.nameOne s).verdicts = s.verdicts ∧
    (names.foldl State.nameOne s).gap = s.gap ∧ (names.foldl State.nameOne s).store = s.store ∧
    (names.foldl State.nameOne s).notices = s.notices ∧ (names.foldl State.nameOne s).lines = s.lines ∧
    (names.foldl State.nameOne s).link = s.link ∧ (names.foldl State.nameOne s).settings = s.settings ∧
    (names.foldl State.nameOne s).freeIndex = s.freeIndex := by
  induction names generalizing s with
  | nil => simp
  | cons i rest ih =>
    have h := ih (s.nameOne i)
    simpa using h

/-- `takeNamings` changes at most: table, transit. -/
@[simp] theorem State.takeNamings_keeps :
    (s.takeNamings).pending = s.pending ∧ (s.takeNamings).now = s.now ∧ (s.takeNamings).phase = s.phase ∧
    (s.takeNamings).comparators = s.comparators ∧ (s.takeNamings).sampled = s.sampled ∧
    (s.takeNamings).supplyGood = s.supplyGood ∧ (s.takeNamings).qualifier = s.qualifier ∧
    (s.takeNamings).sync = s.sync ∧ (s.takeNamings).tracker = s.tracker ∧ (s.takeNamings).front = s.front ∧
    (s.takeNamings).engine = s.engine ∧ (s.takeNamings).verdicts = s.verdicts ∧ (s.takeNamings).gap = s.gap ∧
    (s.takeNamings).store = s.store ∧ (s.takeNamings).notices = s.notices ∧ (s.takeNamings).lines = s.lines ∧
    (s.takeNamings).link = s.link ∧ (s.takeNamings).settings = s.settings ∧
    (s.takeNamings).freeIndex = s.freeIndex := by
  unfold State.takeNamings
  have h := State.foldl_nameOne_keeps { s with transit := { s.transit with namings := [] } } s.transit.namings.flatten
  simpa using h

/-- `abortForDefaults` changes at most: engine, table, transit. -/
@[simp] theorem State.abortForDefaults_keeps :
    (s.abortForDefaults).pending = s.pending ∧ (s.abortForDefaults).now = s.now ∧
    (s.abortForDefaults).phase = s.phase ∧ (s.abortForDefaults).comparators = s.comparators ∧
    (s.abortForDefaults).sampled = s.sampled ∧ (s.abortForDefaults).supplyGood = s.supplyGood ∧
    (s.abortForDefaults).qualifier = s.qualifier ∧ (s.abortForDefaults).sync = s.sync ∧
    (s.abortForDefaults).tracker = s.tracker ∧ (s.abortForDefaults).front = s.front ∧
    (s.abortForDefaults).verdicts = s.verdicts ∧ (s.abortForDefaults).gap = s.gap ∧
    (s.abortForDefaults).store = s.store ∧ (s.abortForDefaults).notices = s.notices ∧
    (s.abortForDefaults).lines = s.lines ∧ (s.abortForDefaults).link = s.link ∧
    (s.abortForDefaults).settings = s.settings ∧ (s.abortForDefaults).freeIndex = s.freeIndex := by
  unfold State.abortForDefaults
  split <;> simp

/-- `watchRelease` changes at most: supplyGood. -/
@[simp] theorem State.watchRelease_keeps (n : Nat) :
    (s.watchRelease n).pending = s.pending ∧ (s.watchRelease n).now = s.now ∧ (s.watchRelease n).phase = s.phase ∧
    (s.watchRelease n).comparators = s.comparators ∧ (s.watchRelease n).sampled = s.sampled ∧
    (s.watchRelease n).qualifier = s.qualifier ∧ (s.watchRelease n).sync = s.sync ∧
    (s.watchRelease n).tracker = s.tracker ∧ (s.watchRelease n).front = s.front ∧
    (s.watchRelease n).engine = s.engine ∧ (s.watchRelease n).table = s.table ∧
    (s.watchRelease n).verdicts = s.verdicts ∧ (s.watchRelease n).gap = s.gap ∧ (s.watchRelease n).store = s.store ∧
    (s.watchRelease n).notices = s.notices ∧ (s.watchRelease n).lines = s.lines ∧ (s.watchRelease n).link = s.link ∧
    (s.watchRelease n).settings = s.settings ∧ (s.watchRelease n).transit = s.transit ∧
    (s.watchRelease n).freeIndex = s.freeIndex := by
  unfold State.watchRelease
  (repeat' split) <;> simp

end Sys2Proof.Machine
end

