-- ==== Sys2Proof/Laws/Blocks.lean ====
section
/-! SUPPORT. What the blocks' own computations give, in the words of the rules: the period, matches, levels, counters, conditions, room in
the store, the first hand-off that fits, characters, and the start of a reset. -/

namespace Sys2Proof.Machine

/-! ### Hand-offs -/

/-- The first element that fits, when nothing before it does. -/
theorem takeFirst_append {α : Type} (p : α → Bool) (a b : List α) (x : α) (ha : ∀ y ∈ a, p y = false) (hx : p x = true) :
    takeFirst p (a ++ x :: b) = some (x, a ++ b) := by
  induction a with
  | nil => simp [hx]
  | cons y ys ih => simp [takeFirst, ha y (by simp), ih fun z hz => ha z (List.mem_cons_of_mem _ hz)]

/-! ### Counters -/

theorem satInc16_eq (x : Word16) : satInc16 x = countUp16 x := rfl

theorem satInc32_eq (x : Word32) : satInc32 x = countUp32 x := rfl

/-! ### Sync Tracker -/

/-- An entry into SEARCH from a running grid drops the cycle in progress at the Front End and the Gap Detector (R6, R30, R108). -/
theorem State.enterSearch_drops (s : State) (n : Nat) :
    (s.enterSearch n).front = (if s.tracker.grid.isSome then s.front.stopped else s.front)
    ∧ (s.enterSearch n).gap = (if s.tracker.grid.isSome then s.gap.stopped else s.gap) := by
  unfold State.enterSearch State.stopGrid State.moveTo
  cases h : s.tracker.grid <;> constructor <;> (dsimp only; split <;> split <;> rfl)

/-- The period loop computes R13's period. -/
theorem correctedPeriod_eq (m e : Int) : correctedPeriod m e = periodAfter m e := by
  unfold correctedPeriod clampPeriod periodAfter Config.minPeriod Config.maxPeriod
  norm_cast

/-- The period after a correction lies in the tracking range (R9, R13). -/
theorem correctedPeriod_range (m e : Int) : 153847 ≤ correctedPeriod m e ∧ correctedPeriod m e ≤ 250000 := by
  unfold correctedPeriod clampPeriod Config.minPeriod Config.maxPeriod
  omega

/-- The measured period is R13's spacing since the match before. -/
theorem measuredPeriod_eq (g : Grid) (t : Nat) (before : Option Nat) : measuredPeriod g t before = spacingSince g t before := by
  cases before <;> rfl

/-- An edge that matches a boundary is recorded, and the state rules of a match follow. -/
theorem State.gridEdge_of_match (s : State) (t : Nat) (g g' : Grid) (e m : Int) (pc : Nat)
    (h : matchesBoundary g t e m pc g') :
    s.gridEdge g t = { s with tracker := { s.tracker with grid := some g' } }.matchRules e pc := by
  rcases h with ⟨h1, h2, _, h3, rfl, rfl, rfl, rfl⟩ | ⟨h1, h2, h3, h4, rfl, rfl, rfl, rfl⟩ |
    ⟨p, hp, h1, h2, h3, h4, rfl, rfl, rfl, rfl⟩
  · simp only [State.gridEdge, h1, if_true]
    rw [if_pos (by omega)]
    simp [State.matchStart, h3, State.matchedEdge, measuredPeriod_eq, Grid.matchedBefore, correctedPeriod_eq,
      Nat.cast_sub h1]
  · simp only [State.gridEdge, show g.start ≤ t by omega, if_true]
    rw [if_neg (by omega), if_pos (by omega)]
    have : ((t - g.start : Nat) : Int) - g.period = t - (g.start + g.period) := by omega
    simp [State.matchEnd, h4, State.matchedEdge, measuredPeriod_eq, correctedPeriod_eq, this]
  · simp only [State.gridEdge, show ¬ g.start ≤ t by omega, if_false, hp]
    rw [if_pos (by omega)]
    have : (t : Int) - p.start - p.period = t - (p.start + p.period) := by omega
    simp [State.matchStart, h4, State.matchedEdge, measuredPeriod_eq, Grid.matchedBefore, correctedPeriod_eq,
      this, hp]

/-! ### Front End and Engine -/

/-- The sample of a view is R27's. -/
theorem Conversion.sample_eq (c : Conversion) (i : Subject) (vw : View) :
    c.sampleSet.sample i vw = viewSample c.sampleSet.row i vw := by
  cases i <;> cases vw <;> rfl

/-- A sample goes into an accumulator set as R54 and R55 say. -/
theorem ViewAcc.take_eq (a : ViewAcc) (k : Nat) (r : Reading) : a.take k r = a.after k r := by
  unfold ViewAcc.take ViewAcc.after
  congr 1
  · cases a.max with
    | none => rfl
    | some m => simp only [Option.some.injEq]; split <;> omega
  · cases a.min with
    | none => rfl
    | some m => simp only [Option.some.injEq]; split <;> omega

theorem isqrtFrom_spec (x : Nat) : ∀ b r, r * r ≤ x → x < (r + 2 ^ b) * (r + 2 ^ b) →
    isqrtFrom x b r * isqrtFrom x b r ≤ x ∧ x < (isqrtFrom x b r + 1) * (isqrtFrom x b r + 1) := by
  intro b
  induction b with
  | zero => intro r h1 h2; simpa [isqrtFrom] using ⟨h1, h2⟩
  | succ b ih =>
    intro r h1 h2
    unfold isqrtFrom
    split
    · rename_i h
      refine ih _ h ?_
      have : r + 2 ^ b + 2 ^ b = r + 2 ^ (b + 1) := by rw [pow_succ]; omega
      rw [this]; exact h2
    · exact ih _ h1 (by omega)

/-- The integer square root is the largest integer whose square does not exceed its operand (R60). -/
theorem isqrt_eq (x : Nat) : isqrt x = Nat.sqrt x := by
  have h : x < (0 + 2 ^ (x.log2 / 2 + 1)) * (0 + 2 ^ (x.log2 / 2 + 1)) := by
    rw [Nat.zero_add, ← pow_add]
    calc x < 2 ^ (x.log2 + 1) := Nat.lt_log2_self
      _ ≤ _ := Nat.pow_le_pow_right (by norm_num) (by omega)
  obtain ⟨h1, h2⟩ := isqrtFrom_spec x _ 0 (Nat.zero_le _) h
  exact Nat.eq_sqrt.2 ⟨h1, h2⟩

/-- A view's report holds the mean, ripple and levels of R58 to R60. -/
theorem ViewAcc.report_eq (a : ViewAcc) (n : Nat) : a.report n = a.yields n := by
  have h : rippleLevel a.spread a.reference = a.rippleByRule := by
    unfold rippleLevel ViewAcc.spread ViewAcc.rippleByRule
    cases a.max <;> cases a.min <;> simp
  simp [ViewAcc.report, ViewAcc.yields, meanOf, h, harmonicLevel, levelByRule, isqrt_eq, pow_two]

theorem Subject.condClass_eq (i : Subject) : i.condClass = condClassByRule i := by cases i <;> rfl

/-! ### Waveforms and gap latches -/

theorem Subject.channels_eq (i : Subject) : i.channels = channelsByRule i := by cases i <;> rfl

/-- A copy of a cycle for a subject (R32, R127). -/
theorem copyCycle_eq (n : Word32) (rows : List Row) (i : Subject) : copyCycle n rows i.channels = waveByRule i n rows := by
  simp [copyCycle, waveByRule, Subject.channels_eq, copyChannel, List.countP_eq_length_filter]

/-- A filing goes on with the copy of its own subject's or group's channels (R104, R118). -/
theorem Filing.withWave_eq (f : Filing) (n : Word32) (rows : List Row) :
    f.withWave (some (copyCycle n rows f.channels)) = filingWithCopy f n rows := by
  cases f with
  | exceed i => simp [Filing.withWave, Filing.channels, filingWithCopy, copyCycle_eq]
  | gap g => cases g <;> simp [Filing.withWave, Filing.channels, filingWithCopy, copyCycle_eq, Group.subject]
  | sync => rfl

/-- Gap-any is true while one of the twelve latches is set (R107). -/
theorem GapGroup.gapAny_eq (x : GapGroup) : x.gapAny = anyLatchSet x := by
  simp [GapGroup.gapAny, anyLatchSet, PerSide.get, PerSector.toList, PerSector.get, List.finRange, List.ofFn, Fin.foldr, Fin.foldr.loop,
    Bool.or_assoc]

/-! ### Verdict Unit -/

theorem counterAfter_eq (c : Nat) (o : LastOutcome) (n : Nat) : counterAfter c o n = counterByRule c o n := by
  cases o <;> simp [counterAfter, counterByRule]

theorem conditionAfter_eq (b : Condition) (o : LastOutcome) (c n : Nat) :
    conditionAfter b o c n = conditionByRule b o c n := by
  cases o <;> cases b <;> simp [conditionAfter, conditionByRule]

/-- The counter stays within 0 to 15 (R97). -/
theorem counterAfter_le (c : Nat) (o : LastOutcome) (n : Nat) (h : c ≤ 15) : counterAfter c o n ≤ 15 := by
  cases o <;> simp [counterAfter] <;> omega

/-- The condition stays HEALTHY exactly while the counter is 0 (R88, R97, R98). -/
theorem conditionAfter_healthy (b : Condition) (o : LastOutcome) (c k n : Nat) (hb : b = .healthy ↔ c = 0) :
    conditionAfter b o (counterAfter c o k) n = .healthy ↔ counterAfter c o k = 0 := by
  cases o with
  | none | aborted | clipped | lowload => exact hb
  | exceed =>
    simp only [conditionAfter]
    by_cases h : counterAfter c .exceed k = 0
    · simp [h]
    · cases b <;> simp only [h, if_false] <;> (try split) <;> simp
  | pass =>
    simp only [conditionAfter]
    by_cases h : counterAfter c .pass k = 0
    · simp [h]
    · cases b <;> simp [h]

/-- A window enters ALARM by EXCEED only (R98). -/
theorem conditionAfter_alarm (b : Condition) (o : LastOutcome) (c n : Nat) (hb : b ≠ .alarm)
    (h : conditionAfter b o c n = .alarm) : o = .exceed := by
  cases o <;> cases b <;> simp_all [conditionAfter] <;> split at h <;> simp at h

theorem VerdictEntry.obey_eq (e : VerdictEntry) (o : VerdictOrder) : e.obey o = e.afterOrder o := by
  cases o with
  | disable b => cases b <;> rfl
  | enable | activation | loadDefaults | startUp => rfl

/-! ### Capture Store -/

/-- Below its capacity and its last number the store keeps every entry beside a new one (R129). -/
theorem CaptureStore.room_below (st : CaptureStore) (h : st.counter < 4294967295) (h2 : st.entries.length < 48) :
    st.room = some st.entries := by
  simp [CaptureStore.room, Config.lastNumber, Config.storeCapacity, h2, Nat.not_le.2 h]

/-- A full store gives up its first unretained entry (R130). -/
theorem CaptureStore.room_full (st : CaptureStore) (h : st.counter < 4294967295) (h2 : 48 ≤ st.entries.length)
    (kept rest : List StoreEntry) (old : StoreEntry) (he : st.entries = kept ++ old :: rest)
    (hk : ∀ e ∈ kept, e.retained = true) (ho : old.retained = false) : st.room = some (kept ++ rest) := by
  have := takeFirst_append (fun e : StoreEntry => !e.retained) kept rest old (by simpa using hk) (by simpa using ho)
  simp only [CaptureStore.room, Config.lastNumber, Config.storeCapacity, Nat.not_le.2 h, Nat.not_lt.2 h2, if_false]
  simp [he, this]

/-- There is no room when the numbers are used up or every entry of a full store is retained (R131). -/
theorem CaptureStore.room_none (st : CaptureStore)
    (h : 4294967295 ≤ st.counter ∨ (48 ≤ st.entries.length ∧ ∀ e ∈ st.entries, e.retained = true)) : st.room = none := by
  unfold CaptureStore.room
  rcases h with h | ⟨h, h'⟩
  · simp [Config.lastNumber, h]
  · have := (takeFirst_none (p := fun e : StoreEntry => !e.retained) (xs := st.entries)).2 (by simpa using h')
    simp only [Config.storeCapacity, Nat.not_lt.2 h, if_false, this]
    split <;> rfl

/-! ### Notices and lines -/

theorem NoticeUnit.wantsAttn_eq (n : NoticeUnit) : n.wantsAttn = attnByRule n.latches n.settings := rfl

theorem LineRun.start_eq (l : LineSettings) (b : Bool) (t : Nat) : LineRun.start l b t = lineFrom l b t := by
  simp [LineRun.start, lineFrom, pulseTicks]

/-- A selection's item is true by R157's table. -/
theorem Selection.itemTrue_iff (sel : Selection) (c : Condition) :
    sel.itemTrue c = true ↔ (sel = .watch ∧ c ≠ .healthy) ∨ (sel = .alarm ∧ c = .alarm) := by
  cases sel <;> cases c <;> decide

/-- A line's source is true exactly while a selected item is (R157). -/
theorem lineSource_iff (l : LineSettings) (x : Indications) : lineSource l x = true ↔ someItemTrue l x := by
  simp only [lineSource, lineItems, someItemTrue, List.any_append, List.any_map, Bool.or_eq_true, List.any_eq_true,
    Function.comp, id_eq, Selection.itemTrue_iff, Bool.and_eq_true, List.mem_singleton, exists_eq_left]
  constructor
  · rintro ((⟨i, _, h | h⟩ | ⟨g, _, h⟩) | h)
    · exact Or.inl ⟨i, h⟩
    · exact Or.inr (Or.inl ⟨i, h⟩)
    · exact Or.inr (Or.inr (Or.inl ⟨g, h⟩))
    · exact Or.inr (Or.inr (Or.inr h))
  · rintro (⟨i, h⟩ | ⟨i, h⟩ | ⟨g, h⟩ | h)
    · exact Or.inl (Or.inl ⟨i, by cases i <;> decide, Or.inl h⟩)
    · exact Or.inl (Or.inl ⟨i, by cases i <;> decide, Or.inr h⟩)
    · exact Or.inl (Or.inr ⟨g, by cases g <;> decide, h⟩)
    · exact Or.inr h

/-! ### Link Controller and resets -/

theorem Link.charTicks_one (k : Link) : k.charTicks 1 = k.characterTicks := by
  unfold Link.charTicks Link.characterTicks Link.baud
  cases k.fast <;> simp

/-- The ticks of `n` characters are the least whole number that holds their ten bits each (R179; log entry 36). -/
theorem Link.charTicks_eq (k : Link) (n ticks baud : Nat) (hb : baud = if k.fast then 115200 else 38400)
    (h1 : ticks * baud < n * 100000000 + baud) (h2 : n * 100000000 ≤ ticks * baud) : k.charTicks n = ticks := by
  have hk : k.baud = baud := by rw [hb]; rfl
  have hpos : 0 < baud := by rw [hb]; split <;> decide
  unfold Link.charTicks
  rw [hk, Nat.div_eq_iff hpos]
  constructor <;> omega

/-- One bit goes into the check register as R185 says. -/
theorem crcBit_eq (r : Word16) (b : Bool) : (crcBit r b).toNat = checkBit r.toNat b := by
  have hm : r.msb = decide (32768 ≤ r.toNat) := by simp [BitVec.msb_eq_decide]
  unfold crcBit checkBit
  rw [hm]
  split
  · simp [Nat.shiftLeft_eq, Nat.mul_comm]
  · simp [BitVec.toNat_xor, Nat.shiftLeft_eq, Nat.mul_comm]

/-- An edge dated before the end of the cycle in progress is judged by the grid (R11; log entry 31). -/
theorem execEdge_of_lt (s : State) (t : Nat) (rest : List Nat) (g : Grid) (h1 : s.qualifier.edges = t :: rest)
    (h2 : s.tracker.grid = some g) (h3 : t < g.start + g.period) : execEdge s = .next ((s.withEdges rest).gridEdge g t) := by
  simp only [execEdge, h1, h2, if_neg (Nat.not_le.2 h3)]

/-- A matching edge lies before the end of the cycle in progress. -/
theorem matchesBoundary_lt {g g' : Grid} {t : Nat} {e m : Int} {pc : Nat} (h : matchesBoundary g t e m pc g') :
    t < g.start + g.period := by
  rcases h with h | h | ⟨p, h⟩ <;> omega

theorem Link.classOf_eq (k : Link) (a : Byte) : k.classOf a = k.addressClass a := by
  unfold Link.classOf Link.addressClass
  have : a = k.address.setWidth 8 ↔ a.toNat = k.address.toNat := by
    constructor
    · intro h; rw [h]; simp; omega
    · intro h; apply BitVec.eq_of_toNat_eq; rw [h]; simp; omega
  simp [this]

/-- The start of a reset leaves what every chapter says it leaves. -/
theorem State.beginReset_isReset (s : State) (c : Cause) : isReset s c s.now (s.beginReset c) := by
  refine ⟨rfl, rfl, rfl, rfl, rfl, rfl, rfl, rfl, rfl, rfl, rfl, rfl, rfl, ?_, rfl, rfl, rfl, rfl, ?_, ?_, ?_, rfl, ?_, ?_,
    rfl, ?_, rfl, ?_, ?_, rfl, rfl, rfl, rfl, ?_, rfl⟩
  · intro row h ch
    rw [List.eq_of_mem_replicate h]
    cases ch with
    | vb => rfl
    | bridge g d => cases g <;> cases d <;> rfl
  · intro i; cases i <;> exact ⟨rfl, rfl⟩
  · intro i; cases i <;> rfl
  · intro g d j; cases g <;> cases d <;> fin_cases j <;> exact ⟨rfl, rfl⟩
  · cases c <;> rfl
  · intro x; cases x <;> rfl
  · intro x; cases x <;> rfl
  · intro h; simp [State.beginReset, SettingsStore.imageAfterReset, h]
  · intro h; simp [State.beginReset, SettingsStore.imageAfterReset, h]
  · simp only [State.beginReset]
    by_cases h : s.phase = .running <;> cases c <;> cases s.settings.lastCause <;> simp [h, Cause.further]

end Sys2Proof.Machine
end

