-- ==== Sys2Proof/Laws/Requests.lean ====
section
/-! SUPPORT. What a request row does, once for all kinds: the common checks and the owner in one equation; and the fields of bodies read
back. -/

namespace Sys2Proof.Machine

/-- A request row is the reception of its frame. -/
theorem exec_row (k : RequestKind) (f : Frame) (s : State) : exec (k.row f) s = .next (s.receiveFrame k.code f) := by
  cases k <;> rfl

/-- Every kind's code is decoded to the kind. -/
@[simp] theorem kindOf_code (k : RequestKind) : kindOf k.code = some k := by cases k <;> decide

theorem Link.charTicks_ticksOf (k : Link) (n : Nat) : k.charTicks n = k.ticksOf n := by
  have h : ∀ a b c : Nat, b = c + 1 → a + b - 1 = a + c := by omega
  unfold Link.charTicks Link.ticksOf Link.baud
  cases k.fast
  · simp only [Bool.false_eq_true, if_false]; rw [h _ 38400 38399 rfl]
  · simp only [if_true]; rw [h _ 115200 115199 rfl]

theorem Link.startByteTick_eq (k : Link) (f : Frame) : k.startByteTick f = k.startTick f := by
  rw [Link.startByteTick, Link.startTick, Link.charTicks_ticksOf]

/-- A frame that is heard is counted and answered. -/
theorem State.receiveFrame_of_hears (k : RequestKind) (f : Frame) (s : State) (h : s.hears f) :
    s.receiveFrame k.code f =
      let r := answerRequest k.code f.body (s.counted k f)
      if f.broadcast then r.2.afterBroadcast
      else r.2.linkTo (.turnaround (replyBytes s.link.address f.tag k.code r.1) f.time) := by
  obtain ⟨h1, h2, _, h4⟩ := h
  rw [← Link.startByteTick_eq] at h4
  have hc : (s.reach f.time).countRequest k.code = s.counted k f := by
    unfold State.countRequest State.counted State.reach CaptureStore.clearMarks
    simp only [kindOf_code]
    split <;> rfl
  have hl : (s.reach f.time).link = s.link := rfl
  simp only [State.receiveFrame, hl, h1, h4, if_true, State.meetFrame, Nat.not_lt.2 h2, if_false, State.dispatch, hc]

/-- The characters of a run, one by one, are its bytes with their ticks. -/
theorem Link.timed_eq (k : Link) (t : Nat) (bytes : List Byte) (n : Nat) :
    k.timed t bytes = (bytes.zipIdx n).map fun x => (t - k.ticksOf (bytes.length + n - 1 - x.2), x.1) := by
  induction bytes generalizing n with
  | nil => rfl
  | cons b rest ih =>
    have h : (b :: rest).length + n - 1 - n = rest.length := by simp
    have h' : rest.length + (n + 1) - 1 = (b :: rest).length + n - 1 := by simp [Nat.add_right_comm, Nat.add_assoc]
    simp only [Link.timed, List.zipIdx_cons, List.map_cons, Link.charTicks_ticksOf, h, ih (n + 1), h']

/-- What every character keeps, the rest of a frame keeps. -/
theorem State.takeRest_keeps (P : State → Prop) (h : ∀ s t v, P s → P (s.characterAt t v false)) (s : State) (kind : Byte) (f : Frame)
    (first : Nat) (hs : P s) : P (s.takeRest kind f first) := by
  unfold State.takeRest
  generalize (s.link.frameCharacters kind f).filter _ = cs
  induction cs generalizing s with
  | nil => exact hs
  | cons c rest ih => exact ih _ (h _ _ _ hs)

/-- Taking characters one by one is the CHARACTER row over and over. -/
theorem takesCharacters_eq (cs : List (Nat × Byte)) (s : State) :
    takesCharacters cs s = .next (cs.foldl (fun s c => s.characterAt c.1 c.2 false) s) := by
  induction cs generalizing s with
  | nil => rfl
  | cons c rest ih => simpa [takesCharacters, exec, execCharacter] using ih _

/-- A request that passes the common checks goes to its owner. -/
theorem answerRequest_of_checks (k : RequestKind) (body : List Byte) (s : State)
    (hl : ∀ n, k.fixedLength = some n → body.length = n) (hb : k.inBusySet = true → s.settings.saving = false) :
    answerRequest k.code body s = ownerTakes k body s := by
  have hn : lengthRefusal k body = none := by
    unfold lengthRefusal
    cases hk : k.fixedLength with
    | none => rfl
    | some n => simp [hl n hk]
  simp only [answerRequest, kindOf_code, hn]
  rw [if_neg]
  cases h : k.inBusySet <;> simp [hb, h]

/-- What follows an answer, when no RESTART waits. -/
theorem State.answered_of_quiet (k : RequestKind) (f : Frame) (s t : State) (a : Answer)
    (ha : t.link.address = s.link.address) (hr : t.settings.restartPending = false) :
    (if f.broadcast then t.afterBroadcast
      else t.linkTo (.turnaround (replyBytes s.link.address f.tag k.code a) f.time)) = t.answered k f a := by
  unfold State.afterBroadcast State.answered
  cases f.broadcast <;> simp [hr, ha, State.linkTo]

/-- A heard request that passes the common checks, and whose owner answers `a` and leaves `t`, leaves `t` answered with `a`. -/
theorem exec_row_of_owner (k : RequestKind) (f : Frame) (s t : State) (a : Answer) (h : s.hears f)
    (hl : ∀ n, k.fixedLength = some n → f.body.length = n) (hb : k.inBusySet = true → s.settings.saving = false)
    (ho : ownerTakes k f.body (s.counted k f) = (a, t)) (ha : t.link.address = s.link.address)
    (hr : t.settings.restartPending = false) : exec (k.row f) s = .next (t.answered k f a) := by
  rw [exec_row, s.receiveFrame_of_hears k f h,
    answerRequest_of_checks k f.body _ hl (by simpa [State.counted] using hb), ho]
  exact congrArg _ (State.answered_of_quiet k f s t a ha hr)

/-! ### Numbers in bodies -/

theorem Subject.ofNumber_number (b : Byte) (i : Subject) (h : b.toNat = i.number) : Subject.ofNumber? b.toNat = some i := by
  rw [h]; cases i <;> rfl

theorem Subject.ofNumber_above (b : Byte) (h : 4 < b.toNat) : Subject.ofNumber? b.toNat = none := by
  generalize b.toNat = n at h
  match n, h with
  | n + 5, _ => rfl

theorem Group.ofNumber_number (b : Byte) (g : Group) (h : b.toNat = g.number) : Group.ofNumber? b.toNat = some g := by
  rw [h]; cases g <;> rfl

theorem Group.ofNumber_above (b : Byte) (h : 3 < b.toNat) : Group.ofNumber? b.toNat = none := by
  generalize b.toNat = n at h
  match n, h with
  | n + 4, _ => rfl

theorem Channel.ofNumber_number (b : Byte) (c : Channel) (h : b.toNat = c.number) : Channel.ofNumber? b.toNat = some c := by
  rw [h]
  cases c with
  | vb => rfl
  | bridge g d => cases g <;> cases d <;> rfl

/-- A byte made from a byte's number is the byte. -/
@[simp] theorem b8_toNat (b : Byte) : b8 b.toNat = b := by simp [b8]

/-- The number of a byte made from a number below 256 is the number. -/
theorem toNat_b8 (n : Nat) (h : n < 256) : (b8 n).toNat = n := by simp [b8, Nat.mod_eq_of_lt h]

/-- The four bytes of the number that four bytes make are those bytes. -/
theorem le32_numberOf (b0 b1 b2 b3 : Byte) : le32 (numberOf b0 b1 b2 b3) = [b0, b1, b2, b3] := by
  have h0 := b0.isLt; have h1 := b1.isLt; have h2 := b2.isLt; have h3 := b3.isLt
  simp only [le32, numberOf, b8, List.cons.injEq, and_true]
  refine ⟨?_, ?_, ?_, ?_⟩ <;> apply BitVec.eq_of_toNat_eq <;> simp only [BitVec.toNat_ofNat] <;> omega

/-- The two bytes of the number that two bytes make are those bytes. -/
theorem le16_of_bytes (lo hi : Byte) : le16 (lo.toNat + 256 * hi.toNat) = [lo, hi] := by
  have h0 := lo.isLt; have h1 := hi.isLt
  simp only [le16, b8, List.cons.injEq, and_true]
  refine ⟨?_, ?_⟩ <;> apply BitVec.eq_of_toNat_eq <;> simp only [BitVec.toNat_ofNat] <;> omega

/-! ### Steps of a walk -/

theorem demand_ok (p : Bool) (off : Nat) (u : Unit) : demand p off = .ok u ↔ p = true := by
  unfold demand; cases p <;> simp

theorem needByte_ok (body : List Byte) (off n : Nat) :
    needByte body off = .ok n ↔ ∃ b, body[off]? = some b ∧ b.toNat = n := by
  unfold needByte; cases body[off]? <;> simp

theorem byteIn_ok (body : List Byte) (off lo hi n : Nat) :
    byteIn body off lo hi = .ok n ↔ ∃ b, body[off]? = some b ∧ b.toNat = n ∧ lo ≤ n ∧ n ≤ hi := by
  unfold byteIn needByte demand
  cases body[off]? with
  | none => simp [bind, Except.bind]
  | some b =>
    by_cases h : lo ≤ b.toNat ∧ b.toNat ≤ hi
    · simp [bind, Except.bind, pure, Except.pure, h.1, h.2]
      rintro rfl; exact h
    · have : (decide (lo ≤ b.toNat) && decide (b.toNat ≤ hi)) = false := by simpa using h
      simp only [bind, Except.bind, this]
      simp only [Option.some.injEq, exists_eq_left', Bool.false_eq_true, if_false, reduceCtorEq, false_iff]
      rintro ⟨rfl, h1, h2⟩; exact h ⟨h1, h2⟩

theorem endAt_ok (body : List Byte) (off : Nat) (u : Unit) : endAt body off = .ok u ↔ body.length ≤ off := by
  unfold endAt; split <;> simp <;> omega

/-- A two-byte field is its low byte and then its high byte (R222). -/
theorem le16_eq (n : Nat) : le16 n = bytesOf 2 n := by simp [le16, b8, bytesOf, List.range_succ]

theorem le32_eq (n : Nat) : le32 n = bytesOf 4 n := by simp [le32, b8, bytesOf, List.range_succ]

theorem b8_eq (n : Nat) : [b8 n] = bytesOf 1 n := by simp [b8, bytesOf, List.range_succ]

theorem codeBytes_eq (x : Int) : codeBytes x = bytesOf 2 (x % 65536).toNat := by rw [← le16_eq]; rfl

theorem meanBytes_eq (x : Int) : meanBytes x = meanByRule x := by rw [meanByRule, ← le32_eq]; rfl

theorem flagByte_eq (b : Bool) : flagByte b = flagOf b := by cases b <;> rfl

/-- A latch map has bit `j` for sector `j` (R222). -/
theorem sectorByte_eq (p : PerSector Bool) : [sectorByte p] = sectorsByRule p.get := by
  rw [sectorsByRule, ← b8_eq]
  obtain ⟨a, b, c, d, e, f⟩ := p
  simp [sectorByte, List.finRange, List.ofFn, Fin.foldr, Fin.foldr.loop]
  revert a b c d e f
  decide

theorem Channel.number_eq (ch : Channel) : ch.number = channelNumber ch := by
  cases ch with
  | bridge g d => cases g <;> cases d <;> rfl
  | vb => rfl

theorem Selection.code_eq (x : Selection) : x.code = selectionCode x := by cases x <;> rfl

/-- The code, body length and effect on the purge marks of each kind (R149, R189, R221). -/
theorem RequestKind.of_kindTable : ∀ x ∈ kindTable,
    x.1.code = BitVec.ofNat 8 x.2.1 ∧ x.1.fixedLength = x.2.2.1 ∧ x.1.keepsMarks = x.2.2.2 := by decide

/-! ### The layouts of settings -/

/-- Sync settings are sent in the SET-SYNC layout (R222). -/
theorem syncBytes_eq (y : SyncSettings) : syncBytes y = syncByRule y := by
  have h : Source.code = sourceCode := by funext x; cases x <;> rfl
  have hp : y.polarity.code = polarityCode y.polarity := by cases y.polarity <;> rfl
  simp [syncBytes, syncByRule, bytesOf, b8, h, hp]

theorem viewBytes_eq (v : ViewSettings) : viewBytes v = viewByRule v := by
  have h : (fun n => [b8 n]) = bytesOf 1 := funext b8_eq
  simp [viewBytes, viewByRule, le16_eq, List.map_eq_flatMap, h, ← b8_eq]

theorem limitBytes_eq (e : LimitEntry) : limitBytes e = limitByRule e := by
  have h : e.view.code = viewCode e.view := by cases e.view <;> rfl
  have hq : e.quantity.code = quantityCode e.quantity := by cases e.quantity <;> rfl
  simp [limitBytes, limitByRule, le16_eq, ← b8_eq, h, hq]

/-- A profile is sent in the SET-PROFILE layout (R223). -/
theorem profileBytes_eq (p : Profile) : profileBytes p = profileByRule p := by
  have h : limitBytes = limitByRule := funext limitBytes_eq
  simp only [profileBytes, profileByRule, h, flagByte_eq]
  cases p.body <;> simp [profileBodyBytes, gapBytes, viewBytes_eq, le16_eq, ← b8_eq, flagByte_eq]

/-- A line's settings are sent in the SET-LINES layout (R163, R166). -/
theorem lineBytes_eq (l : LineSettings) : lineBytes l = lineByRule l := by
  simp [lineBytes, lineByRule, Subject.all, Selection.code_eq, flagByte_eq, b8]; rfl

theorem Selection.item_eq (sel : Selection) (c : Condition) : flagByte (sel.itemTrue c) = subjectItem sel c := by
  cases sel <;> cases c <;> rfl

/-- The items of a line as READ-LINES sends them (R157, R166). -/
theorem lineItems_eq (l : LineSettings) (x : Indications) : (lineItems l x).map flagByte = itemsByRule l x := by
  have hb : ∀ a b : Bool, flagByte (a && b) = if a = true ∧ b = true then 1 else 0 := by decide
  simp [lineItems, itemsByRule, Subject.all, Group.all, Selection.item_eq, hb]

/-- Eleven bytes within their values are read field by field (R163). -/
theorem lineAt_isLineAt (body : List Byte) (o : Nat)
    (h : ∀ k, k < 11 → u8At body (o + k) ≤ if k < 5 then 2 else if k = 5 then 15 else if k < 9 then 1 else 255) :
    isLineAt (lineAt body o) body o := by
  have h0 := h 0; have h1 := h 1; have h2 := h 2; have h3 := h 3; have h4 := h 4; have h5 := h 5
  simp at h0 h1 h2 h3 h4 h5
  have hsel : ∀ n, n ≤ 2 → (Selection.ofNumber n = .none ↔ n = 0) ∧ (Selection.ofNumber n = .watch ↔ n = 1)
      ∧ (Selection.ofNumber n = .alarm ↔ n = 2) := by decide
  have hgap : ∀ b : Byte, b.toNat ≤ 15 → (b.getLsbD 0 = true ↔ b.toNat / 1 % 2 = 1) ∧ (b.getLsbD 1 = true ↔ b.toNat / 2 % 2 = 1)
      ∧ (b.getLsbD 2 = true ↔ b.toNat / 4 % 2 = 1) ∧ (b.getLsbD 3 = true ↔ b.toNat / 8 % 2 = 1) := by decide
  have hg := hgap _ h5
  refine ⟨?_, ?_, ?_, ?_, ?_, rfl, rfl⟩
  · intro k i hk; simp at hk; rcases hk with ⟨rfl, rfl⟩ | ⟨rfl, rfl⟩ | ⟨rfl, rfl⟩ | ⟨rfl, rfl⟩ | ⟨rfl, rfl⟩
    all_goals apply hsel; assumption
  · intro k i hk; simp at hk; rcases hk with ⟨rfl, rfl⟩ | ⟨rfl, rfl⟩ | ⟨rfl, rfl⟩ | ⟨rfl, rfl⟩
    · exact hg.1
    · exact hg.2.1
    · exact hg.2.2.1
    · exact hg.2.2.2
  all_goals simp [lineAt]

/-! ### Defaults and legal settings -/

theorem WorkingSettings.default_eq : WorkingSettings.default = settingsDefaults := rfl

theorem defaultProfiles_eq : defaultProfiles = settingsDefaults.profiles := rfl

theorem defaultLines_get (l : LineId) : defaultLines.get l = lineDefaults := by cases l <;> rfl

/-- The checks of SET-NOTICES are R170's ranges. -/
theorem noticesOk_iff (n : NoticeSettings) : noticesOk n = true ↔ noticesLegal n := by
  have h : ∀ c, c ∈ NoticeClass.all := by intro c; cases c <;> decide
  simp [noticesOk, noticesLegal, h]

/-- The checks of SET-LINES on data are R163's ranges. -/
theorem linesOk_iff (ls : PerLine LineSettings) : linesOk ls = true ↔ linesLegal ls := by
  have h : ∀ l, l ∈ LineId.all := by intro l; cases l <;> decide
  simp [linesOk, linesLegal, lineOk, h, and_assoc]

/-- An image's contents pass when every part is legal (R214). -/
theorem contentsOk_iff (c : WorkingSettings) : contentsOk c = true ↔ contentsLegal c := by
  have h : ∀ i, i ∈ Subject.all := by intro i; cases i <;> decide
  simp [contentsOk, contentsLegal, noticesOk_iff, linesOk_iff, powerLength, h, and_assoc, or_assoc]

/-! ### The fields of a walked body -/

/-- A one-byte field passes when it lies within the body and its byte within the range. -/
theorem byteField_passes {off lo hi : Nat} {body : List Byte} :
    (byteField off lo hi).passes body ↔ off + 1 ≤ body.length ∧ lo ≤ u8At body off ∧ u8At body off ≤ hi := Iff.rfl

/-- A two-byte field passes when it lies within the body and its value, low byte first, within the range. -/
theorem wordField_passes {off lo hi : Nat} {body : List Byte} :
    (wordField off lo hi).passes body ↔
      off + 2 ≤ body.length ∧ lo ≤ u8At body off + 256 * u8At body (off + 1) ∧ u8At body off + 256 * u8At body (off + 1) ≤ hi := Iff.rfl

end Sys2Proof.Machine
end

