-- ==== Sys2Proof/WellFormed.lean ====
section
/-! DEFINITION. Which commands are well formed: a frame's body has a length its length byte can carry (0 to 240,
R182), and UNDEFINED_KIND carries a kind that is undefined (R188). -/

namespace Sys2Proof

/-- The body fits the length byte (chapter 9.3: 0 to 240). -/
def Frame.ok (f : Frame) : Bool := f.body.length ≤ 240

/-- The check on each command. -/
def Instr.wellFormed : Instr → Bool
  | .undefinedKind k f => (kindOf k).isNone && f.ok
  | .identify f => f.ok
  | .readStatus f => f.ok
  | .clearCounters f => f.ok
  | .setSync f => f.ok
  | .readSync f => f.ok
  | .setWindow f => f.ok
  | .setProfile f => f.ok
  | .readProfile f => f.ok
  | .enable f => f.ok
  | .disable f => f.ok
  | .readResult f => f.ok
  | .clearGap f => f.ok
  | .capture f => f.ok
  | .readRecord f => f.ok
  | .readWave f => f.ok
  | .retain f => f.ok
  | .release f => f.ok
  | .retainMap f => f.ok
  | .markFirst f => f.ok
  | .markLast f => f.ok
  | .purge f => f.ok
  | .setNotices f => f.ok
  | .fetchNotices f => f.ok
  | .setLines f => f.ok
  | .readLines f => f.ok
  | .saveSettings f => f.ok
  | .loadDefaults f => f.ok
  | .restart f => f.ok
  | .acceptedTransition | .edge | .lateZoneClose | .searchTimerExpiry | .cycleStart | .sampleSet _ | .windowStart
  | .cycleEnd | .windowAbort | .disableMessage | .windowEndNaming | .windowReport _ | .abortReport _
  | .verdictOrder _ | .gapExamination _ | .copyRequest _ | .filing _ | .noticeRaise _ | .indicationChange _
  | .pulseTimerExpiry _ | .character _ _ _ | .interByteTimeout | .replyBegin _ | .replyEnd | .saveCompletion _ _ _
  | .powerReset _ _ | .pinReset _ _ | .resetEnd _ _ | .endOfStartUp _ | .qualifierSample _ _ | .instant _
  | .detectorClearingEvent _ => true

end Sys2Proof
end

