-- ==== Sys2Proof/Tests/Slice0.lean ====
section
/-! SUPPORT. Tests: the well-formedness smoke, the worked cases of the spec, and one witness for the hypotheses of every
statement, clause by clause. -/

namespace Sys2Proof.Tests

open Sys2Proof.Machine

/-! ### Helpers -/

/-- A running block with nothing in flight, on the defaults, as station 3. -/
def idle : State :=
  { State.reset with phase := .running, link := { State.reset.link with state := .hunt, address := 3, fast := true } }

/-- A frame to station 3 with the body given. -/
def ask (body : List Byte) : Frame := { time := 1000, broadcast := false, tag := 0x21, body := body }

/-- A frame whose body is one byte longer than a length byte can say. -/
def longFrame : Frame := ask (List.replicate 241 0)

theorem idle_hears (body : List Byte) (h : body.length ≤ 240) : idle.hears (ask body) := ⟨rfl, h, rfl, Nat.zero_le _⟩

/-- What a command leaves behind; the state itself if it stopped. -/
def after (c : Instr) (s : State) : State :=
  match exec c s with
  | .next t => t
  | .fault _ => s
  | .refused _ => s

/-! ### Well-formedness and the decoder -/

theorem test_wellFormed_refuses_long_bodies : ∀ k : RequestKind, (k.row longFrame).wellFormed = false := by
  intro k; cases k <;> decide +kernel

theorem test_wellFormed_refuses_a_defined_kind_as_undefined : ∀ k : RequestKind,
    (Instr.undefinedKind k.code (ask [])).wellFormed = false := by
  intro k; cases k <;> decide

theorem test_wellFormed_refuses_a_long_undefined_frame : (Instr.undefinedKind 0x7E longFrame).wellFormed = false := by decide +kernel

theorem test_wellFormed_accepts_bodies : (∀ k : RequestKind, (k.row (ask [1])).wellFormed = true)
    ∧ (Instr.undefinedKind 0x7E (ask [])).wellFormed = true := by
  refine ⟨?_, by decide⟩
  intro k; cases k <;> decide

theorem test_no_word_spells_a_command : decodeTableWord 8 0x10 = none := rfl

theorem test_kind_codes : kindOf 0x02 = some .readStatus ∧ kindOf 0x38 = some .purge ∧ kindOf 0x52 = some .restart
    ∧ kindOf 0x00 = none ∧ kindOf 0x7F = none := by decide

/-! ### The queue and the way from reset -/

theorem test_step_takes_the_front : step { idle with pending := [.edge, .replyEnd] } = .next { idle with pending := [.replyEnd] } := by
  rfl

/-- The supply has just risen above 2.95 V in the POWER reset of `State.reset`. -/
def supplied : State := after (.powerReset 0 2951) State.reset

theorem test_start_up_from_reset :
    let s := after (.endOfStartUp 60000) (after (.resetEnd 20000 ⟨3, true⟩) supplied)
    s.phase = .running ∧ s.link.state = .hunt ∧ s.link.address = 3 ∧ s.notices.latches.restart = ⟨true, 1⟩
      ∧ s.notices.attn = true ∧ s.tracker.searchStart = some 60000 := by
  refine ⟨rfl, rfl, rfl, rfl, rfl, rfl⟩

/-! ### Worked cases of the spec -/

/-- 11.1: the check value's standard figure, and the example frame of 9.4. -/
theorem test_check_value : crc16 [0x31, 0x32, 0x33, 0x34, 0x35, 0x36, 0x37, 0x38, 0x39] = 0x29B1
    ∧ crc16 [0x03, 0x21, 0x02, 0x00] = 0xC888
    ∧ frameBytes 0x03 0x21 0x02 [] = [0xC5, 0x03, 0x21, 0x02, 0x00, 0x88, 0xC8] := by decide +kernel

/-- The seven characters of the example frame of 9.4, at 115,200 bit/s. -/
def exampleFrame : State :=
  [0xC5, 0x03, 0x21, 0x02, 0x00, 0x88, 0xC8].foldl (fun s (v : Byte) => after (.character (s.now + 868) v false) s) idle

/-- 9.4, 11.5: the example frame is dispatched as READ-STATUS, and its reply begins as the spec says. -/
theorem test_example_frame : exampleFrame.link.requests = 1
    ∧ (match exampleFrame.link.state with
        | .turnaround reply start => some (reply.take 5, reply.length, start)
        | .off | .hunt | .receive _ _ _ | .send _ _ => none)
      = some ([0xC5, 0x03, 0x21, 0x82, 0x38], 63, 6076) := by decide +kernel

/-- Chapter 1, the step from 50 Hz to 49.9 Hz: the period after each match. -/
theorem test_period_table :
    [(200401, 401), (200401, 802), (200401, 702), (200401, 502), (200401, 327), (200401, 202), (200401, 121), (200401, 71),
      (200401, 41), (200401, 24)].map (fun x : Int × Int => correctedPeriod x.1 x.2)
      = [200501, 200601, 200576, 200526, 200482, 200451, 200431, 200418, 200411, 200407] := by decide +kernel

/-- 3.8, the 12th-order component, and the signs of the mean. -/
theorem test_level_arithmetic : harmonicLevel 3145458240 0 384 20000 = 499 ∧ harmonicLevel 0 0 384 20000 = 0
    ∧ meanOf 6144000 384 = 16000 ∧ meanOf (-1000) 384 = -2 ∧ rippleLevel 2000 20000 = 1000 ∧ rippleLevel 2000 250 = 65535 := by
  decide +kernel

/-- 2.3, the saturating instant: IA1 above the span, IB1 inside it. -/
theorem test_saturating_instant :
    let row : Row := { Row.zero with cur := Row.zero.cur.set .g1 ⟨convert 40000, convert 31020⟩ }
    row.cur.g1 = ⟨⟨32767, true⟩, ⟨31020, false⟩⟩ ∧ groupSum row .g1 = ⟨63787, true⟩ ∧ groupSum row .g0 = ⟨0, false⟩ := by decide

/-- Chapter 6, the short-sector test at its boundary. -/
def boundaryBridge : List Reading :=
  List.replicate 32 ⟨1000, false⟩ ++ List.replicate 32 ⟨500, false⟩ ++ List.replicate 32 ⟨1000, false⟩

theorem test_short_sector_boundary :
    let at_ (percent : Nat) := (countersAfter boundaryBridge 0 ⟨true, ⟨0, 8⟩, percent, 3, 500⟩ ⟨2, 2, 2, 2, 2, 2⟩).toList
    at_ 60 = [0, 0, 0, 0, 0, 0] ∧ at_ 70 = [0, 0, 3, 3, 0, 0] := by decide +kernel

/-- Chapter 5, judging one window of a group: window 318 of G2. -/
def window318 : WindowReport :=
  { subject := .g2, number := 318, w := 4, firstCycle := 1000, lastCycle := 1003, holdover := false
    views :=
      [⟨.a, 5020, 1900, false, [(5, 350)]⟩, ⟨.b, 4780, 1150, false, [(5, 200)]⟩,
        ⟨.s, 9800, 2600, false, [(1, 40), (5, 190), (12, 499)]⟩]
    floor := 2000
    limits :=
      [⟨.s, .order 12, 500, 1⟩, ⟨.a, .order 5, 200, 2⟩, ⟨.b, .order 5, 200, 2⟩, ⟨.s, .ripple, 2500, 1⟩, ⟨.s, .order 1, 150, 3⟩]
    waveOnExceed := false }

theorem test_window_318_is_judged : window318.outcome = .exceed ∧ window318.exceededList = [1, 3] ∧ window318.step = 2
    ∧ counterAfter 1 .exceed 2 = 3 ∧ conditionAfter .watch .exceed 3 3 = .alarm := by decide +kernel

/-- R93, R94, R98: a threshold activated just before a window that clips, or passes, moves no condition up. -/
theorem test_condition_is_kept : conditionAfter .watch .clipped 3 2 = .watch ∧ conditionAfter .watch .lowload 3 2 = .watch
    ∧ conditionAfter .watch .pass 2 2 = .watch ∧ conditionAfter .alarm .pass 1 2 = .alarm ∧ conditionAfter .alarm .pass 0 2 = .healthy := by
  decide

/-- 8.8, one fetch. -/
def beforeFetch : State :=
  let settings : NoticeSettings :=
    { NoticeSettings.default with enable := NoticeSettings.default.enable.set .clip false
                                  level := NoticeSettings.default.level.set .store 0 }
  [.restart, .sync, .sync, .condG1, .condG1, .condG1, .gap, .clip, .clip, .clip, .clip, .store].foldl
    (fun s c => after (.noticeRaise c) { s with transit := { s.transit with raises := [c] } })
    { idle with notices := { idle.notices with settings := settings } }

theorem test_one_fetch : beforeFetch.notices.attn = true
    ∧ ownFetchNotices [0] beforeFetch
        = (.accept [5, 3, 3, 3, 7, 3, 1, 1, 2, 2, 0, 1, 1, 9, 0, 1, 1, 0], { beforeFetch with notices := beforeFetch.notices.clearReturned })
    ∧ beforeFetch.notices.clearReturned.attn = false
    ∧ beforeFetch.notices.clearReturned.latches.clip = ⟨true, 4⟩ := by decide +kernel

/-- Chapter 7, the worked case: a filing overwrites 303, and NEXT then skips two numbers. -/
def plainRecord (n : Nat) : Record :=
  { number := n, kind := .sync, subject := none, stamp := 0, source := .sya, offset := 0, verdict := none, summary := none
    exceeded := none, gap := none, sync := some ⟨.sya, 200000, 3⟩, wave := none }

def fullStore : State :=
  { idle with
    store :=
      { entries := (List.range 48).map fun k => ⟨plainRecord (301 + k), k == 0 || k == 1 || k == 9⟩
        counter := 349, cursor := 302, firstMark := none, lastMark := none, drops := 0 } }

def lossFiling : Filing := .sync .sya 0 0 ⟨.sya, 200000, 3⟩

theorem test_overwrite_and_skip :
    let s := { fullStore with transit := { fullStore.transit with filings := [lossFiling, lossFiling] } }
    let t := after (.filing 0) (after (.filing 0) s)
    t.store.entries.map (·.record.number) = [301, 302] ++ (List.range 46).map (305 + ·) ∧ t.store.counter = 351
      ∧ ((ownReadRecord [2, 0, 0, 0, 0] t).2.store.cursor, skippedFigure t.store.cursor 305) = (305, 2) := by decide +kernel

theorem test_purge_range :
    let s := { fullStore with store := { fullStore.store with firstMark := some 306, lastMark := some 330 } }
    (ownPurge s).1 = .accept (le32 306 ++ le32 330 ++ [24, 1]) ∧ (ownPurge s).2.store.entries.length = 24 := by decide +kernel

/-- 11.3, the example: a profile body of 53 bytes, whose entry 2 names an order its view does not list. -/
def g2Profile (order : Nat) : Profile :=
  { enabledAtStart := false, waveOnExceed := false, threshold := 3, floor := 2000
    body := .group ⟨20000, [5]⟩ ⟨20000, [5]⟩ ⟨20000, [1, 5, 12]⟩ .default
    limits :=
      [⟨.s, .order 12, 500, 1⟩, ⟨.a, .order 5, 200, 2⟩, ⟨.b, .order order, 200, 2⟩, ⟨.s, .ripple, 2500, 1⟩, ⟨.s, .order 1, 150, 3⟩] }

theorem test_profile_offsets :
    (2 :: profileBytes (g2Profile 5)).length = 53
      ∧ (walkProfile (2 :: profileBytes (g2Profile 5))).toOption = some (.g2, g2Profile 5)
      ∧ (match walkProfile (2 :: profileBytes (g2Profile 7)) with | .error e => some e | .ok _ => none) = some (.argument, 39)
      ∧ (match walkProfile ((2 :: profileBytes (g2Profile 5)).take 50) with | .error e => some e | .ok _ => none)
          = some (.length, 50) := by decide +kernel

/-! ### Witnesses: the hypotheses of each statement are met, clause by clause, at the ends of their ranges -/

/-- A qualifier that knows its level. -/
def sampling (level : Bool) (run : Nat) : State := { idle with qualifier := ⟨some level, run, 900, []⟩ }

/-- The inputs of one sample: SYA rises to its threshold, SYB falls to its, SYC stays between. -/
def swing : PerSource (List Int) := ⟨[-25000, 25000], [-25000], [24999, -24999]⟩

theorem witness_QualifierSample_inputs :
    (∀ src, (⟨true, false, false⟩ : PerSource Bool).get src =
      (swing.get src).foldl (fun h v => if 25000 ≤ v then true else if v ≤ -25000 then false else h) (idle.comparators.get src))
    ∧ true = (⟨true, false, false⟩ : PerSource Bool).get (idle.sync.list.getD (idle.tracker.position - 1) .sya) := by
  refine ⟨?_, rfl⟩
  intro src; cases src <;> decide

theorem witness_QualifierSample_clauses : State.reset.phase ≠ .running
    ∧ (idle.phase = .running ∧ idle.qualifier.level = none ∧ idle.sampleDue 0)
    ∧ (({ idle with sampled := some 900 } : State).sampleDue 910 ∧ ¬({ idle with sampled := some 900 } : State).sampleDue 909)
    ∧ ((sampling true 3).qualifier.level = some true ∧ (sampling true 3).qualifier.runCount < (sampling true 3).sync.depth)
    ∧ ((sampling false 0).qualifier.level = some (!true) ∧ (sampling false 0).qualifier.runCount = 0
        ∧ 0 < (sampling false 0).sync.depth)
    ∧ ((sampling false 3).qualifier.level = some (!true) ∧ 0 < (sampling false 3).qualifier.runCount
        ∧ (sampling false 3).qualifier.runCount < (sampling false 3).sync.depth)
    ∧ exec .acceptedTransition (sampling false 3) = .next (sampling false 3) :=
  ⟨by decide, ⟨rfl, rfl, Or.inl ⟨rfl, by decide⟩⟩,
    ⟨Or.inr ⟨900, rfl, rfl⟩, fun h => h.elim (fun x => nomatch x.1) fun ⟨_, x, y⟩ => by cases x; cases y⟩,
    ⟨rfl, by decide⟩, ⟨rfl, rfl, by decide⟩, ⟨rfl, by decide, by decide⟩, rfl⟩

/-- A sample between two ticks of the sample clock changes nothing. -/
theorem test_sample_clock :
    exec (.qualifierSample 909 swing) { idle with sampled := some 900 } = .next { idle with sampled := some 900 }
    ∧ (after (.qualifierSample 910 swing) { idle with sampled := some 900 }).sampled = some 910 := ⟨rfl, rfl⟩

theorem witness_AcceptedTransition :
    ((sampling false 4).qualifier.level = some false ∧ (sampling false 4).sync.depth ≤ (sampling false 4).qualifier.runCount)
    ∧ ((sampling true 3).qualifier.level = some true ∧ (sampling true 3).qualifier.runCount < (sampling true 3).sync.depth)
    ∧ idle.qualifier.level = none := by decide

/-- A cycle in progress that began 200,000 ticks after the one before, whose boundary was matched. -/
def grid : Grid :=
  { start := 1000000, period := 200000, nextPeriod := 200000, boundary := ⟨none, false⟩, early := none
    prev := some ⟨800000, 200000, ⟨some 800000, true⟩⟩, nextInstant := 0, holdMark := false }

/-- A tracker that runs the grid `g`, with edges handed over. -/
def tracking (state : TrackerState) (g : Grid) (edges : List Nat) (misses warmUp : Nat) : State :=
  { idle with
    qualifier := ⟨some true, 0, 900, edges⟩
    tracker := { idle.tracker with state := state, grid := some g, misses := misses, warmUp := warmUp, cycle := 7 }
    front := { idle.front with assembly := ⟨some 7, []⟩ }
    gap := { idle.gap with inHand := ⟨some 7, []⟩ } }

/-- A tracker in SEARCH with an edge handed over. -/
def searching (t : Nat) (remembered : Option Nat) : State :=
  { idle with qualifier := ⟨some true, 0, t, [t]⟩, tracker := { idle.tracker with remembered := remembered } }

theorem witness_EdgeInSearch :
    ((searching 500 none).qualifier.edges = [500] ∧ (searching 500 none).tracker.state = .search
      ∧ (searching 500 none).tracker.grid = none ∧ (searching 500 none).tracker.remembered = none)
    ∧ ((searching 154346 (some 500)).tracker.remembered = some 500 ∧ 154346 < 500 + 153847)
    ∧ ((searching 250501 (some 500)).tracker.remembered = some 500 ∧ 500 + 250000 < 250501)
    ∧ ((searching 154347 (some 500)).tracker.remembered = some 500 ∧ 500 + 153847 ≤ 154347 ∧ 154347 ≤ 500 + 250000)
    ∧ ((searching 250500 (some 500)).tracker.remembered = some 500 ∧ 500 + 153847 ≤ 250500 ∧ 250500 ≤ 500 + 250000) := by
  decide +kernel

/-- A match at the ends of the three zones: the late zone, the early zone, and the early zone of the cycle before. -/
theorem witness_match_late_zone : matchesBoundary grid 1025000 25000 225000 200000
    { grid with boundary := ⟨some 1025000, false⟩, nextPeriod := 231250 } :=
  Or.inl ⟨by decide, by decide, by decide, rfl, rfl, rfl, rfl, rfl⟩

theorem witness_match_late_zone_start : matchesBoundary grid 1000000 0 200000 200000
    { grid with boundary := ⟨some 1000000, false⟩, nextPeriod := 200000 } :=
  Or.inl ⟨by decide, by decide, by decide, rfl, rfl, rfl, rfl, rfl⟩

theorem witness_match_early_zone : matchesBoundary grid 1175000 (-25000) 200000 200000
    { grid with early := some 1175000, nextPeriod := 193750 } :=
  Or.inr (Or.inl ⟨by decide, by decide, by decide, rfl, rfl, rfl, rfl, rfl⟩)

theorem witness_match_cycle_before : matchesBoundary grid 975000 (-25000) 175000 200000
    { grid with boundary := ⟨some 975000, false⟩, nextPeriod := 168750 } :=
  Or.inr (Or.inr ⟨⟨800000, 200000, ⟨some 800000, true⟩⟩, rfl, by decide, by decide, by decide, rfl, rfl, rfl, rfl, rfl⟩)

theorem witness_EdgeWhileTheGridRuns : idle.qualifier.edges = []
    ∧ ((tracking .locked grid [1025000] 0 16).qualifier.edges = [1025000]
        ∧ (tracking .locked grid [1025000] 0 16).tracker.grid = some grid
        ∧ (tracking .locked grid [1025000] 0 16).tracker.state = .locked)
    ∧ (tracking .holdover grid [1025000] 2 16).tracker.state = .holdover
    ∧ ((tracking .warmup grid [1025000] 0 0).tracker.state = .warmup ∧ ((200000 / 64 : Nat) : Int) < |(25000 : Int)|)
    ∧ (|(0 : Int)| ≤ ((200000 / 64 : Nat) : Int)
        ∧ (tracking .warmup grid [1000000] 0 14).tracker.warmUp + 1 < (tracking .warmup grid [1000000] 0 14).sync.warmUpTarget
        ∧ (tracking .warmup grid [1000000] 0 15).sync.warmUpTarget ≤ (tracking .warmup grid [1000000] 0 15).tracker.warmUp + 1) := by
  decide +kernel

theorem witness_SpuriousEdge :
    (∀ p, grid.prev = some p → grid.start = p.start + p.period)
    ∧ isSpurious grid 1025001 ∧ isSpurious grid 1174999
    ∧ isSpurious { grid with boundary := ⟨some 1000100, false⟩ } 1000200
    ∧ isSpurious { grid with early := some 1190000 } 1195000
    ∧ isSpurious grid 974999
    ∧ isSpurious { grid with boundary := ⟨none, true⟩ } 975000 := by
  refine ⟨?_, ?_, ?_, ?_, ?_, ?_, ?_⟩
  · intro p h; cases h; rfl
  · exact Or.inl ⟨by decide, by decide⟩
  · exact Or.inl ⟨by decide, by decide⟩
  · exact Or.inr (Or.inl ⟨by decide, by decide, by decide, by decide⟩)
  · exact Or.inr (Or.inr (Or.inl ⟨by decide, by decide, by decide, by decide⟩))
  · exact Or.inr (Or.inr (Or.inr (Or.inl ⟨_, rfl, by decide, by decide⟩)))
  · exact Or.inr (Or.inr (Or.inr (Or.inr ⟨_, rfl, by decide, by decide, by decide⟩)))

theorem witness_EdgeOfTheNextCycle : (tracking .locked grid [1200000] 0 16).qualifier.edges = [1200000]
    ∧ (tracking .locked grid [1200000] 0 16).tracker.grid = some grid ∧ grid.start + grid.period ≤ 1200000 := by decide +kernel

theorem witness_LateZoneCloses :
    ((tracking .locked { grid with boundary := ⟨none, true⟩ } [] 0 16).tracker.grid = some { grid with boundary := ⟨none, true⟩ })
    ∧ (grid.boundary = ⟨none, false⟩ ∧ (tracking .locked grid [] 0 16).tracker.state = .locked)
    ∧ ((tracking .holdover grid [] 1 16).tracker.state = .holdover ∧ (tracking .holdover grid [] 1 16).tracker.misses + 1 < 3)
    ∧ ({ grid with boundary := ⟨some 1000100, false⟩ } : Grid).boundary.matched.isSome = true := by decide +kernel

theorem witness_MissedBoundaryEndsTheGrid :
    ((tracking .warmup grid [] 0 3).tracker.grid = some grid ∧ grid.boundary = ⟨none, false⟩
      ∧ 1025000 = max (tracking .warmup grid [] 0 3).now (grid.start + grid.period / 8)
      ∧ (tracking .warmup grid [] 0 3).tracker.state = .warmup)
    ∧ ((tracking .holdover grid [] 2 16).tracker.state = .holdover ∧ 3 ≤ (tracking .holdover grid [] 2 16).tracker.misses + 1) := by
  decide +kernel

/-- A block in SEARCH with two sources listed, on the second. -/
def twoSources : State :=
  { idle with sync := { idle.sync with list := [.syb, .sya] }
              tracker := { idle.tracker with searchStart := some 500, position := 2 } }

theorem witness_SearchTimerExpires : idle.tracker.searchStart = none
    ∧ (({ idle with tracker := { idle.tracker with searchStart := some 500 } } : State).tracker.searchStart = some 500
        ∧ idle.sync.list.length ≤ 1)
    ∧ (twoSources.tracker.searchStart = some 500 ∧ 1 < twoSources.sync.list.length ∧ twoSources.tracker.state = .search
        ∧ twoSources.tracker.grid = none ∧ twoSources.sync.list.Nodup ∧ 1 ≤ twoSources.tracker.position
        ∧ twoSources.tracker.position ≤ twoSources.sync.list.length) := by decide +kernel

/-- A cycle whose 96 instants are issued and `n` of whose sets are delivered. -/
def sampled (n : Nat) : State :=
  let s := tracking .locked { grid with boundary := ⟨some 1000000, true⟩, nextInstant := 96 } [] 0 16
  { s with front := { s.front with assembly := ⟨some 7, List.replicate n Row.zero⟩ } }

theorem witness_CycleStart : idle.tracker.grid = none
    ∧ ((sampled 95).tracker.grid.isSome = true ∧ (sampled 95).front.assembly.rows.length ≠ 96)
    ∧ (tracking .locked grid [] 0 16).tracker.grid.isSome = true ∧ grid.boundary.closed = false
    ∧ ((sampled 96).front.assembly.rows.length = 96 ∧ (sampled 96).tracker.grid.all (fun g => g.boundary.closed) = true
        ∧ (sampled 96).transit.engine = [] ∧ (sampled 96).transit.exams = [] ∧ (sampled 96).transit.copies = []
        ∧ (sampled 96).transit.reports = []) := by decide +kernel

/-- An input of the value given at all nine channels, and the conversion that holds it. -/
def level (x : Int) : PerChannel Int := .ofFn fun _ => x
def held (x : Int) : Conversion := { index := 0, cycle := 7, inputs := level x, held := 1000000 }

theorem witness_InstantHoldsTheInputs : idle.tracker.grid = none
    ∧ ((sampled 95).tracker.grid.any (fun g => decide (96 ≤ g.nextInstant)) = true)
    ∧ ((tracking .locked grid [] 0 16).tracker.grid = some grid ∧ grid.nextInstant < 96
        ∧ (tracking .locked grid [] 0 16).front.conversion = none) := by decide +kernel

theorem witness_SampleSetDelivered : idle.front.conversion = none
    ∧ (({ idle with front := { idle.front with conversion := some (held 32768) } } : State).front.conversion = some (held 32768))
    ∧ 999999 < (held 0).held ∧ (held 0).held + 1200 < 1001201
    ∧ ((held 0).held ≤ 1000000 ∧ 1001200 ≤ (held 0).held + 1200 ∧ idle.transit.engine = [])
    ∧ 32767 < (held 32768).inputs.get .vb ∧ (held (-32768)).inputs.get .vb < -32767
    ∧ ((1 : Nat) ≤ 1 ∧ (1 : Nat) ≤ 95 ∧ (1 : Nat) ≤ 47) := by decide +kernel

/-- Copy requests for the cycle in the assembly and for the one in the buffer. -/
def copying : State :=
  { sampled 96 with
    front := { (sampled 96).front with buffer := { (sampled 96).front.buffer with valid := true, cycle := 6 } }
    transit := { (sampled 96).transit with copies := [⟨7, lossFiling⟩, ⟨6, lossFiling⟩] } }

theorem witness_CopyComesFromTheStoreThatHoldsTheCycle : copying.transit.copies[2]? = none
    ∧ (copying.transit.copies[0]? = some ⟨7, lossFiling⟩ ∧ copying.front.assembly.cycle = some 7
        ∧ copying.front.assembly.rows.length = 96)
    ∧ (copying.transit.copies[1]? = some ⟨6, lossFiling⟩ ∧ copying.front.assembly.cycle ≠ some 6
        ∧ copying.front.buffer.valid = true ∧ copying.front.buffer.cycle = 6) := by decide +kernel

/-- The Engine with a message from the tracker, and a window running or not. -/
def engineAt (m : EngineMsg) (running : Bool) (completed sets : Nat) : State :=
  { idle with
    engine :=
      { idle.engine with
        running := running, completed := completed, sampleCount := sets
        participants := if running then [⟨.bus, 0, [], false, [ViewAcc.opened .v .default]⟩] else [] }
    transit := { idle.transit with engine := [m] } }

theorem witness_CycleEnd : (∀ n mark rest, idle.transit.engine ≠ .cycleEnd n mark :: rest)
    ∧ ((engineAt (.cycleEnd 7 true) false 0 0).transit.engine = [.cycleEnd 7 true]
        ∧ (engineAt (.cycleEnd 7 true) false 0 0).engine.running = false)
    ∧ ((engineAt (.cycleEnd 7 true) true 2 288).engine.completed + 1 < (engineAt (.cycleEnd 7 true) true 2 288).engine.w)
    ∧ ((engineAt (.cycleEnd 7 true) true 3 384).engine.completed + 1 = (engineAt (.cycleEnd 7 true) true 3 384).engine.w
        ∧ (engineAt (.cycleEnd 7 true) true 3 384).engine.running = true
        ∧ (engineAt (.cycleEnd 7 true) true 3 384).engine.sampleCount
          = 96 * (engineAt (.cycleEnd 7 true) true 3 384).engine.w)
    ∧ (engineAt (.cycleEnd 7 true) true 3 383).engine.sampleCount ≠ 96 * (engineAt (.cycleEnd 7 true) true 3 383).engine.w := by
  refine ⟨?_, by decide +kernel⟩
  intro n mark rest h; cases h

/-- The Engine with a cycle start to take, and a tracker in the state given. -/
def startAt (state : TrackerState) (justEnded running : Bool) : State :=
  let s := engineAt (.cycleStart 8) running 0 0
  { s with tracker := { s.tracker with state := state }, engine := { s.engine with justEnded := justEnded } }

theorem witness_WindowStart :
    ((∀ n rest, idle.transit.engine ≠ .cycleStart n :: rest))
    ∧ ((startAt .locked false false).transit.engine = [.cycleStart 8] ∧ (startAt .locked false false).transit.namings = []
        ∧ (startAt .locked false false).transit.disables = [])
    ∧ ({ idle with transit := { idle.transit with disables := [.g1] } } : State).transit.disables ≠ []
    ∧ (startAt .locked false true).engine.running = true
    ∧ ¬((startAt .holdover false false).tracker.state = .locked
        ∨ ((startAt .holdover false false).tracker.state = .holdover ∧ (startAt .holdover false false).engine.justEnded = true))
    ∧ ((startAt .holdover true false).engine.running = false ∧ (startAt .holdover true false).tracker.state = .holdover
        ∧ (startAt .holdover true false).engine.justEnded = true)
    ∧ ((startAt .locked false false).engine.running = false ∧ (startAt .locked false false).tracker.state = .locked) := by
  refine ⟨?_, by decide +kernel⟩
  intro n rest h; cases h

theorem witness_WindowAbortAndDisableMessage :
    ((∀ rest, idle.transit.engine ≠ .gridStop :: rest) ∧ ∀ c rest, idle.transit.engine ≠ .abort c :: rest)
    ∧ ((engineAt .gridStop false 0 0).transit.engine = [.gridStop] ∧ (engineAt .gridStop false 0 0).engine.running = false)
    ∧ (engineAt (.abort .loadDefaults) false 0 0).transit.engine = [.abort .loadDefaults]
    ∧ ((engineAt (.abort .setSync) true 1 96).transit.engine = [.abort .setSync]
        ∧ (engineAt (.abort .setSync) true 1 96).engine.running = true)
    ∧ idle.transit.disables = []
    ∧ ({ idle with transit := { idle.transit with disables := [.g1] } } : State).transit.disables = [.g1] := by
  refine ⟨⟨?_, ?_⟩, by decide +kernel⟩
  · intro rest h; cases h
  · intro c rest h; cases h

theorem witness_SetWindow : (idle.hears (ask [3]) ∧ idle.settings.saving = false ∧ (3 : Byte).toNat ∉ [2, 4, 8, 16])
    ∧ ((16 : Byte).toNat ∈ [2, 4, 8, 16] ∧ (engineAt .gridStop true 1 96).engine.running = true
        ∧ (engineAt .gridStop true 1 96).hears (ask [16]))
    ∧ ((2 : Byte).toNat ∈ [2, 4, 8, 16] ∧ idle.engine.running = false) :=
  ⟨⟨idle_hears _ (by decide), rfl, by decide⟩, ⟨by decide, rfl, rfl, by decide, rfl, Nat.zero_le _⟩, by decide, rfl⟩

/-- A subject in the state given, with a profile pending for it or not. -/
def subjectAt (i : Subject) (state : SubjectState) (pendingProfile : Option Profile) : State :=
  { idle with
    table := idle.table.set i { state := state, active := (idle.table.get i).active, pendingProfile := pendingProfile }
    transit := { idle.transit with namings := [[i]] } }

theorem witness_WindowEndNaming : idle.transit.namings = []
    ∧ ((subjectAt .g2 .measuring (some (g2Profile 5))).transit.namings = [[.g2]] ∧ ([.g2] : List Subject).Nodup
        ∧ ([.g2] : List Subject) =
          ([.g2] : List Subject).filter (fun i =>
            decide (((subjectAt .g2 .measuring (some (g2Profile 5))).table.get i).state = .measuring)
              && ((subjectAt .g2 .measuring (some (g2Profile 5))).table.get i).pendingProfile.isSome)) := by decide +kernel

theorem witness_EnableAndDisable : (idle.hears (ask [5]) ∧ 4 < (5 : Byte).toNat)
    ∧ ((subjectAt .bus .waiting none).hears (ask [4]) ∧ (4 : Byte).toNat = Subject.bus.number
        ∧ ((subjectAt .bus .waiting none).table.get .bus).state ≠ .disabled
        ∧ ((subjectAt .bus .waiting none).table.get .bus).state = .waiting)
    ∧ ((0 : Byte).toNat = Subject.g0.number ∧ (idle.table.get .g0).state = .disabled)
    ∧ ((subjectAt .g2 .measuring (some (g2Profile 5))).table.get .g2).state = .measuring :=
  ⟨⟨idle_hears _ (by decide), by decide⟩, ⟨⟨rfl, by decide, rfl, Nat.zero_le _⟩, rfl, by decide, rfl⟩, ⟨rfl, rfl⟩, rfl⟩

theorem witness_SetProfile : idle.hears (ask (2 :: profileBytes (g2Profile 5)))
    ∧ idle.settings.saving = false
    ∧ (match walkProfile (ask (2 :: profileBytes (g2Profile 5))).body with | .error _ => none | .ok x => some x)
        = some (.g2, g2Profile 5)
    ∧ (match walkProfile (ask (2 :: profileBytes (g2Profile 7))).body with | .error e => some e | .ok _ => none)
        = some (.argument, 39)
    ∧ (idle.table.get .g2).state ≠ .measuring
    ∧ ((subjectAt .g2 .measuring none).table.get .g2).state = .measuring :=
  ⟨idle_hears _ (by decide +kernel), rfl, by decide +kernel, by decide +kernel, by decide, rfl⟩

/-- Refusals of SET-PROFILE: no byte at all, a subject above 4, a body that ends before its second field. -/
theorem witness_SetProfileRefused : isFirstFailure (profileFields []) [] (byteField 0 0 4)
    ∧ isFirstFailure (profileFields [5]) [5] (byteField 0 0 4)
    ∧ isFirstFailure (profileFields [4]) [4] (byteField 1 0 1) :=
  ⟨⟨[], _, rfl, by simp, fun h => absurd h.1 (by decide)⟩, ⟨[], _, rfl, by simp, fun h => absurd (byteField_passes.1 h) (by decide)⟩,
    ⟨[byteField 0 0 4], _, rfl, by simpa using byteField_passes.2 (by decide), fun h => absurd h.1 (by decide)⟩⟩

/-- Profiles of no orders and no limits, of BUS and of a group, each with a byte too many. -/
def surplusBus : List Byte := [4, 0, 0, 1, 0, 0, 1, 0, 0, 0, 9]
def surplusGroup : List Byte := [0, 1, 1, 15, 0xFF, 0x7F, 1, 0, 0, 1, 0, 0, 1, 0, 0, 1, 95, 0, 10, 2, 0, 0, 0, 9]

theorem witness_SetProfileSurplus :
    ((∀ x ∈ profileFields surplusBus, x.passes surplusBus) ∧ profileEnd surplusBus < surplusBus.length)
    ∧ ((∀ x ∈ profileFields surplusGroup, x.passes surplusGroup) ∧ profileEnd surplusGroup < surplusGroup.length) := by
  refine ⟨⟨?_, by decide⟩, ?_, by decide⟩
  · have h : profileFields surplusBus =
        [byteField 0 0 4, byteField 1 0 1, byteField 2 0 1, byteField 3 1 15, wordField 4 0 32767, wordField 6 1 32767,
          byteField 8 0 12, byteField 9 0 16] := rfl
    rw [h]; simp only [List.forall_mem_cons]
    refine ⟨?_, ?_, ?_, ?_, ?_, ?_, ?_, ?_, by simp⟩ <;>
      first | exact byteField_passes.2 (by decide) | exact wordField_passes.2 (by decide)
  · have h : profileFields surplusGroup =
        [byteField 0 0 4, byteField 1 0 1, byteField 2 0 1, byteField 3 1 15, wordField 4 0 32767, wordField 6 1 32767,
          byteField 8 0 12, wordField 9 1 32767, byteField 11 0 12, wordField 12 1 32767, byteField 14 0 12, byteField 15 0 1,
          byteField 16 0 95, byteField 17 0 95, byteField 18 10 90, byteField 19 2 15, wordField 20 0 32767, byteField 22 0 16] := rfl
    rw [h]; simp only [List.forall_mem_cons]
    refine ⟨?_, ?_, ?_, ?_, ?_, ?_, ?_, ?_, ?_, ?_, ?_, ?_, ?_, ?_, ?_, ?_, ?_, ?_, by simp⟩ <;>
      first | exact byteField_passes.2 (by decide) | exact wordField_passes.2 (by decide)

theorem witness_ReadProfileAndReadResult : (idle.hears (ask [5, 0]) ∧ 4 < (5 : Byte).toNat)
    ∧ (idle.hears (ask [4, 2]) ∧ (4 : Byte).toNat = Subject.bus.number ∧ 1 < (2 : Byte).toNat)
    ∧ ((subjectAt .g2 .measuring (some (g2Profile 5))).table.get .g2).pendingProfile = some (g2Profile 5)
    ∧ (idle.table.get .g2).pendingProfile = none
    ∧ idle.hears (ask [4]) :=
  ⟨⟨idle_hears _ (by decide), by decide⟩, ⟨idle_hears _ (by decide), rfl, by decide⟩, rfl, rfl, idle_hears _ (by decide)⟩

/-- The window of the worked case with its S view's mean, its limits and its clip marks as given. -/
def windowWith (mean : Int) (limits : List LimitEntry) (clip : Bool) : WindowReport :=
  { window318 with views := [⟨.a, 5020, 1900, clip, [(5, 350)]⟩, ⟨.s, mean, 2600, false, [(1, 40)]⟩], limits := limits }

theorem witness_OutcomeOfAReport :
    ((window318.views.map fun v => v.view).Nodup ∧ (∀ v ∈ window318.views, (v.levels.map Prod.fst).Nodup)
      ∧ ⟨.s, 9800, 2600, false, [(1, 40), (5, 190), (12, 499)]⟩ ∈ window318.views)
    ∧ (∃ v ∈ (windowWith 2000 [] true).views, v.clip = true)
    ∧ ((∀ v ∈ (windowWith 1999 [] false).views, v.clip = false) ∧ (1999 : Int) < (windowWith 1999 [] false).floor)
    ∧ (((windowWith 2000 [] false).floor : Int) ≤ 2000 ∧ ∀ e ∈ (windowWith 2000 [] false).limits, ¬isExceeded (windowWith 2000 [] false) e)
    ∧ (∃ e ∈ window318.limits, isExceeded window318 e) := by
  refine ⟨by decide +kernel, by decide +kernel, by decide +kernel, ⟨by decide, ?_⟩, ?_⟩
  · intro e h; cases h
  · exact ⟨⟨.s, .ripple, 2500, 1⟩, by decide +kernel, ⟨.s, 9800, 2600, false, [(1, 40), (5, 190), (12, 499)]⟩, by decide +kernel,
      rfl, by decide⟩

/-- A report for G2 in flight, with its verdict as before the worked case's window; and the subject not enabled. -/
def judging (enabled : Bool) : State :=
  { idle with
    verdicts := idle.verdicts.set .g2 { enabled := enabled, counter := 1, condition := .watch, results := none, last := .none, judged := 0, exceeded := 0 }
    transit := { idle.transit with reports := [window318], aborts := [.g2], orders := [(.g2, .activation)] } }

theorem witness_WindowReportTaken : (∀ r ∈ (judging true).transit.reports, r.subject ≠ .g0)
    ∧ ((judging true).transit.reports = [] ++ window318 :: [] ∧ window318.subject = .g2)
    ∧ ((judging false).verdicts.get .g2).enabled = false
    ∧ (((judging true).verdicts.get .g2).enabled = true ∧ 3 = counterByRule 1 window318.outcome window318.step
        ∧ .alarm = conditionByRule .watch window318.outcome 3 3) := by decide +kernel

theorem witness_AbortReportsAndOrders : .g0 ∉ (judging true).transit.aborts
    ∧ ((judging true).transit.aborts = [] ++ .g2 :: [] ∧ .g2 ∉ ([] : List Subject))
    ∧ (((judging false).verdicts.get .g2).enabled = false ∧ ((judging true).verdicts.get .g2).enabled = true)
    ∧ ((∀ x ∈ (judging true).transit.orders, x.1 ≠ .g0) ∧ (judging true).transit.orders = [] ++ (.g2, .activation) :: []) := by
  decide +kernel

/-- G1 to be examined over the boundary case's bridge on both sides, at gap percent 70. -/
def examining (state : SubjectState) (enable : Bool) (tracker : TrackerState) : State :=
  { idle with
    tracker := { idle.tracker with state := tracker }
    table := idle.table.set .g1
      { state := state
        active :=
          { Profile.groupDefault with
            body := .group .default .default .default ⟨enable, ⟨0, 8⟩, 70, 3, 500⟩ }
        pendingProfile := none }
    gap :=
      { idle.gap with
        groups := idle.gap.groups.set .g1 { GapGroup.reset with counters := ⟨⟨0, 0, 2, 2, 0, 0⟩, ⟨0, 0, 0, 0, 0, 0⟩⟩ }
        ended := ⟨some 703, boundaryBridge.map fun x => ⟨⟨x, x⟩, ⟨x, x⟩, ⟨x, x⟩, ⟨x, x⟩⟩⟩ }
    transit := { idle.transit with exams := [.g1] } }

/-- The same with a clearing of G1 in flight. -/
def clearing : State :=
  { examining .waiting true .locked with
    transit := { (examining .waiting true .locked).transit with clearings := [(.g1, .disable)] } }

theorem witness_GapExamination : .g0 ∉ (examining .waiting true .locked).transit.exams
    ∧ (∃ c ∈ clearing.transit.clearings, c.1 = .g1) ∧ (∀ c ∈ (examining .waiting true .locked).transit.clearings, c.1 ≠ .g1)
    ∧ ((examining .waiting true .locked).transit.exams = [] ++ .g1 :: []
        ∧ ((examining .waiting true .locked).table.get Group.g1.subject).active.gap? = some ⟨true, ⟨0, 8⟩, 70, 3, 500⟩)
    ∧ ((examining .disabled true .locked).table.get Group.g1.subject).state = .disabled
    ∧ ((examining .waiting true .warmup).tracker.state ≠ .locked ∧ (examining .waiting true .warmup).tracker.state ≠ .holdover)
    ∧ ((examining .waiting true .holdover).tracker.state = .holdover
        ∧ ((examining .waiting true .holdover).table.get Group.g1.subject).state ≠ .disabled
        ∧ (examining .waiting true .holdover).gap.ended.cycle = some 703) := by decide +kernel

/-- Chapter 6, the failed arm: the third judged short cycle declares sectors 2 and 3 of bridge A. -/
theorem test_failed_arm_is_declared :
    let t := after (.gapExamination .g1) (examining .waiting true .locked)
    t.gap.groups.g1.counters.a = ⟨0, 0, 3, 3, 0, 0⟩ ∧ t.gap.groups.g1.latches.a = ⟨false, false, true, true, false, false⟩
      ∧ t.transit.raises = [.gap] ∧ t.transit.changes = [.gapAny .g1 true] ∧ t.transit.copies.length = 1 := by decide +kernel

theorem witness_GapClearing : (∀ x ∈ clearing.transit.clearings, x.1 ≠ .g0)
    ∧ clearing.transit.clearings = [] ++ (.g1, .disable) :: []
    ∧ idle.hears (ask [4]) ∧ 3 < (4 : Byte).toNat ∧ idle.hears (ask [3]) ∧ (3 : Byte).toNat = Group.g3.number :=
  ⟨by decide +kernel, rfl, idle_hears _ (by decide), by decide, idle_hears _ (by decide), rfl⟩

/-- The full store with a filing in flight, and the same with all 48 records retained. -/
def filing (retained : Bool) : State :=
  { fullStore with
    store := { fullStore.store with entries := fullStore.store.entries.map fun e => { e with retained := e.retained || retained } }
    transit := { fullStore.transit with filings := [lossFiling] } }

theorem witness_Filing : idle.transit.filings[0]? = none
    ∧ ((filing false).transit.filings[0]? = some lossFiling)
    ∧ (idle.store.counter < 4294967295 ∧ idle.store.entries.length < 48)
    ∧ ((filing false).store.counter < 4294967295 ∧ 48 ≤ (filing false).store.entries.length
        ∧ (filing false).store.entries = (filing false).store.entries.take 2
          ++ (⟨plainRecord 303, false⟩ : StoreEntry) :: (filing false).store.entries.drop 3
        ∧ ∀ e ∈ (filing false).store.entries.take 2, e.retained = true)
    ∧ (48 ≤ (filing true).store.entries.length ∧ ∀ e ∈ (filing true).store.entries, e.retained = true) := by decide +kernel

theorem witness_Capture : (idle.hears (ask [5, 0]) ∧ 4 < (5 : Byte).toNat)
    ∧ (idle.hears (ask [4, 2]) ∧ (4 : Byte).toNat ≤ 4 ∧ 1 < (2 : Byte).toNat)
    ∧ (idle.hears (ask [4, 1]) ∧ (4 : Byte).toNat = Subject.bus.number ∧ (1 : Byte).toNat ≤ 1
        ∧ idle.store.counter < 4294967295 ∧ idle.store.entries.length < 48)
    ∧ ((filing false).hears (ask [2, 1]) ∧ 48 ≤ (filing false).store.entries.length)
    ∧ ((filing true).hears (ask [2, 1]) ∧ ∀ e ∈ (filing true).store.entries, e.retained = true) :=
  ⟨⟨idle_hears _ (by decide), by decide⟩, ⟨idle_hears _ (by decide), by decide, by decide⟩,
    ⟨idle_hears _ (by decide), rfl, by decide, by decide, by decide⟩, ⟨⟨rfl, by decide, rfl, Nat.zero_le _⟩, by decide +kernel⟩,
    ⟨rfl, by decide, rfl, Nat.zero_le _⟩, by decide +kernel⟩

theorem witness_ReadRecord : (fullStore.hears (ask [3, 0, 0, 0, 0]) ∧ 2 < (3 : Byte).toNat)
    ∧ (fullStore.store.entries.find? (fun e => decide (e.record.number = numberOf 0x5C 1 0 0)) = some ⟨plainRecord 348, false⟩
        ∧ fullStore.store.entries.find? (fun e => decide (e.record.number = numberOf 0x5D 1 0 0)) = none)
    ∧ (fullStore.store.entries.head? = some ⟨plainRecord 301, true⟩ ∧ idle.store.entries.head? = none)
    ∧ (fullStore.store.entries.find? (fun e => decide (fullStore.store.cursor < e.record.number)) = some ⟨plainRecord 303, false⟩
        ∧ idle.store.entries.find? (fun e => decide (idle.store.cursor < e.record.number)) = none) :=
  ⟨⟨⟨rfl, by decide, rfl, Nat.zero_le _⟩, by decide⟩, by decide +kernel⟩

/-- The manual record of a VB waveform, and a store that holds it beside a record without one. -/
def vbWave : WaveChannel := { channel := .vb, codes := List.replicate 96 5, clipped := 0 }
def waveStore : State :=
  { idle with
    store :=
      { idle.store with entries := [⟨plainRecord 1, false⟩, ⟨{ plainRecord 2 with wave := some ⟨7, [vbWave]⟩ }, false⟩]
                        counter := 3 } }

theorem witness_ReadWave : (waveStore.hears (ask [2, 0, 0, 0, 9, 0, 1]) ∧ 8 < (9 : Byte).toNat)
    ∧ ((8 : Byte).toNat ≤ 8 ∧ 95 < (96 : Byte).toNat) ∧ (95 : Byte).toNat ≤ 95
    ∧ (waveStore.store.entries.find? (fun e => decide (e.record.number = numberOf 3 0 0 0)) = none ∧ (1 : Byte) ≠ 0)
    ∧ ((8 : Byte).toNat = Channel.vb.number
        ∧ waveStore.store.entries.find? (fun e => decide (e.record.number = numberOf 1 0 0 0)) = some ⟨plainRecord 1, false⟩
        ∧ (plainRecord 1).wave = none)
    ∧ (waveStore.store.entries.find? (fun e => decide (e.record.number = numberOf 2 0 0 0))
          = some ⟨{ plainRecord 2 with wave := some ⟨7, [vbWave]⟩ }, false⟩
        ∧ [vbWave] = [] ++ vbWave :: [] ∧ vbWave.channel = .vb) :=
  ⟨⟨⟨rfl, by decide, rfl, Nat.zero_le _⟩, by decide⟩, by decide +kernel⟩

theorem witness_Retention : (fullStore.hears (ask [0x5D, 1, 0, 0])
      ∧ fullStore.store.entries.find? (fun e => decide (e.record.number = numberOf 0x5D 1 0 0)) = none)
    ∧ fullStore.store.entries.find? (fun e => decide (e.record.number = numberOf 0x2D 1 0 0)) = some ⟨plainRecord 301, true⟩
    ∧ (fullStore.store.entries.map fun e => e.record.number).Nodup :=
  ⟨⟨⟨rfl, by decide, rfl, Nat.zero_le _⟩, by decide +kernel⟩, by decide +kernel⟩

theorem witness_PurgeMarks : idle.hears (ask []) ∧ (ask []).body.length ≠ 4 ∧ idle.hears (ask [0x32, 1, 0, 0])
    ∧ (({ idle with store := { idle.store with firstMark := some 306 } } : State).store.firstMark = some 306
        ∧ 306 ≤ numberOf 0x32 1 0 0 ∧ numberOf 0x31 1 0 0 < 306)
    ∧ idle.store.firstMark = none :=
  ⟨idle_hears _ (by decide), by decide, idle_hears _ (by decide), ⟨rfl, by decide, by decide⟩, rfl⟩

theorem witness_Purge :
    let s : State := { fullStore with store := { fullStore.store with firstMark := some 306, lastMark := some 330 } }
    (s.hears (ask []) ∧ s.store.firstMark = some 306 ∧ s.store.lastMark = some 330)
      ∧ (fullStore.store.firstMark = none ∧ fullStore.store.lastMark = none) :=
  ⟨⟨⟨rfl, by decide, rfl, Nat.zero_le _⟩, rfl, rfl⟩, rfl, rfl⟩

theorem witness_NoticeRaise : .gap ∉ idle.transit.raises
    ∧ (({ idle with transit := { idle.transit with raises := [.sync, .gap, .gap] } } : State).transit.raises
        = [.sync] ++ .gap :: [.gap] ∧ .gap ∉ ([.sync] : List NoticeClass)) := by decide

/-- The values SET-NOTICES allows at each offset, and a body of the highest of them with one byte replaced. -/
def noticeTop (k : Nat) : Nat := if k = 25 ∨ (k < 24 ∧ k % 2 = 0) then 1 else 3
def noticeBody (k : Nat) (v : Byte) : List Byte := ((List.range 26).map fun j => b8 (noticeTop j)).set k v

theorem witness_SetNotices : idle.hears (ask (noticeBody 25 2)) ∧ (ask (noticeBody 25 2)).body.length = 26
    ∧ (noticeTop 25 < u8At (ask (noticeBody 25 2)).body 25
        ∧ ∀ j, j < 25 → u8At (ask (noticeBody 25 2)).body j ≤ noticeTop j)
    ∧ ∀ k, k < 26 → u8At (ask (noticeBody 25 1)).body k ≤ noticeTop k :=
  ⟨idle_hears _ (by decide +kernel), by decide +kernel, by decide +kernel, by decide +kernel⟩

/-- The classes that the worked fetch returns, in their order. -/
def fetchedClasses : List NoticeClass := [.condG1, .gap, .sync, .restart, .store]

theorem witness_FetchNotices : (beforeFetch.hears (ask [2]) ∧ 1 < (2 : Byte).toNat)
    ∧ beforeFetch.hears (ask [1]) ∧ beforeFetch.hears (ask [0])
    ∧ (∀ c, beforeFetch.notices.settings.level.get c ≤ 3)
    ∧ 1 = NoticeClass.all.countP (fun c => (beforeFetch.notices.latches.get c).latch && !beforeFetch.notices.settings.enable.get c)
    ∧ (∀ c, c ∈ fetchedClasses ↔
        (beforeFetch.notices.latches.get c).latch = true ∧ beforeFetch.notices.settings.enable.get c = true)
    ∧ fetchedClasses.Pairwise (fun c d => beforeFetch.notices.settings.level.get d < beforeFetch.notices.settings.level.get c
        ∨ (beforeFetch.notices.settings.level.get c = beforeFetch.notices.settings.level.get d ∧ c.number < d.number)) := by
  refine ⟨⟨⟨rfl, by decide, rfl, Nat.zero_le _⟩, by decide⟩, ⟨rfl, by decide, rfl, Nat.zero_le _⟩, ⟨rfl, by decide, rfl, Nat.zero_le _⟩, ?_, by decide +kernel, ?_, by decide +kernel⟩
  · intro c; cases c <;> decide +kernel
  · intro c; cases c <;> decide +kernel

/-- Line ALM0 pulsed, on while G0 is in ALARM; its source and run as given; a change of G0's condition on its way. -/
def lineAt0 (source : Bool) (phase : LinePhase) (timer : Option Nat) (c : Condition) : State :=
  { idle with
    lines :=
      { idle.lines with
        settings := idle.lines.settings.set .alm0
          { LineSettings.default with subjects := ⟨.alarm, .none, .none, .none, .none⟩, pulsed := true }
        run := idle.lines.run.set .alm0 { source := source, phase := phase, timer := timer, pin := .inactive } }
    transit := { idle.transit with changes := [.condition .g0 c] } }

theorem witness_LineEvents : (∀ c ∈ idle.transit.changes, c.item ≠ .syncAbsent)
    ∧ ((lineAt0 false .idle none .alarm).transit.changes = [] ++ .condition .g0 .alarm :: []
        ∧ (Change.condition .g0 .alarm).item = .condition .g0)
    ∧ (someItemTrue ((lineAt0 false .idle none .alarm).lines.settings.get .alm0)
          { (lineAt0 false .idle none .alarm).lines.seen with
            conditions := (lineAt0 false .idle none .alarm).lines.seen.conditions.set .g0 .alarm }
        ∧ ((lineAt0 false .idle none .alarm).lines.run.get .alm0).source = false)
    ∧ (¬someItemTrue ((lineAt0 true .on none .watch).lines.settings.get .alm0)
          { (lineAt0 true .on none .watch).lines.seen with
            conditions := (lineAt0 true .on none .watch).lines.seen.conditions.set .g0 .watch }
        ∧ ((lineAt0 true .on none .watch).lines.run.get .alm0).source = true)
    ∧ ((idle.lines.run.get .alm0).timer = none ∧ ((lineAt0 true .on (some 5) .alarm).lines.run.get .alm0).timer = some 5
        ∧ ((lineAt0 true .on (some 5) .alarm).lines.run.get .alm0).phase = .on
        ∧ ((lineAt0 true .off (some 5) .alarm).lines.run.get .alm0).phase = .off) := by
  refine ⟨by decide, ⟨rfl, rfl⟩, ⟨Or.inr (Or.inl ⟨.g0, rfl, rfl⟩), rfl⟩, ⟨?_, rfl⟩, by decide⟩
  rintro (⟨i, h, _⟩ | ⟨i, h, g⟩ | ⟨x, h, _⟩ | ⟨h, _⟩)
  · cases i <;> cases h
  · cases i <;> first | cases h; done | cases g
  · cases x <;> cases h
  · cases h

/-- The values SET-LINES allows at each offset, and a body of the highest of them with one byte replaced. -/
def lineLow (k : Nat) : Nat := if 9 ≤ k % 11 then 1 else 0
def lineHigh (k : Nat) : Nat := if k % 11 < 5 then 2 else if k % 11 = 5 then 15 else if k % 11 < 9 then 1 else 255
def lineBody (k : Nat) (v : Byte) : List Byte := ((List.range 44).map fun j => b8 (lineHigh j)).set k v

theorem witness_SetLines : idle.hears (ask (lineBody 43 0)) ∧ (ask (lineBody 43 0)).body.length = 44
    ∧ (u8At (ask (lineBody 43 0)).body 43 < lineLow 43
        ∧ ∀ j, j < 43 → lineLow j ≤ u8At (ask (lineBody 43 0)).body j ∧ u8At (ask (lineBody 43 0)).body j ≤ lineHigh j)
    ∧ lineHigh 0 < u8At (ask (lineBody 0 3)).body 0
    ∧ ∀ k, k < 44 → lineLow k ≤ u8At (ask (lineBody 43 1)).body k ∧ u8At (ask (lineBody 43 1)).body k ≤ lineHigh k :=
  ⟨idle_hears _ (by decide +kernel), by decide +kernel, by decide +kernel, by decide +kernel, by decide +kernel⟩

theorem witness_requests_without_a_body : idle.hears (ask []) ∧ (ask []).body = [] ∧ idle.settings.saving = false :=
  ⟨idle_hears _ (by decide), rfl, rfl⟩

/-- The Link Controller in the state given, with a RESTART waiting or not. -/
def linkAt (x : LinkState) (restart : Bool) : State :=
  { idle with link := { idle.link with state := x }, settings := { idle.settings with restartPending := restart } }

theorem witness_CharactersCollect : State.reset.link.state = .off
    ∧ (linkAt (.send [1] 0) false).link.state = .send [1] 0 ∧ idle.link.state = .hunt
    ∧ (∀ got cls last, idle.link.state ≠ .receive got cls last)
    ∧ (linkAt (.receive [3, 0x21, 2] .own 100) false).link.state = .receive [3, 0x21, 2] .own 100
    ∧ 100 + 20000 + idle.link.characterTicks < 20970 ∧ 20969 ≤ 100 + 20000 + idle.link.characterTicks
    ∧ (([3, 0x21, 2] : List Byte).length = 3 ∧ 240 < (241 : Byte).toNat ∧ (240 : Byte).toNat ≤ 240)
    ∧ (4 ≤ ([3, 0x21, 2, 0] : List Byte).length ∧ ([3, 0x21, 2, 0] : List Byte).length + 1 < 6 + u8At [3, 0x21, 2, 0] 3)
    ∧ (([3, 0x21, 2, 0, 0x88] : List Byte).length + 1 = 6 + u8At [3, 0x21, 2, 0, 0x88] 3
        ∧ ([3, 0x21, 2, 0, 0x88] : List Byte).drop (4 + u8At [3, 0x21, 2, 0, 0x88] 3) ++ [0xC9]
          ≠ le16 (crc16 (([3, 0x21, 2, 0, 0x88] : List Byte).take (4 + u8At [3, 0x21, 2, 0, 0x88] 3))).toNat) := by
  refine ⟨rfl, rfl, rfl, ?_, by decide +kernel⟩
  intro got cls last h; cases h

theorem witness_CharactersDispatchTheFrame :
    (linkAt (.receive [3, 0x21, 2, 0, 0x88] .own 100) false).link.state = .receive [3, 0x21, 2, 0, 0x88] .own 100
    ∧ 20969 ≤ 100 + 20000 + (linkAt (.receive [3, 0x21, 2, 0, 0x88] .own 100) false).link.characterTicks
    ∧ ([] : List Byte).length ≤ 240
    ∧ (linkAt (.receive [3, 0x21, 2, 0, 0x88] .own 100) false).link.huntFrom
        ≤ (linkAt (.receive [3, 0x21, 2, 0, 0x88] .own 100) false).link.startTick { ask [] with time := 20969 }
    ∧ [3, 0x21, 2, 0, 0x88] ++ [0xC8] = ((3 : Byte) :: 0x21 :: 2 :: b8 ([] : List Byte).length :: [])
        ++ le16 (crc16 ((3 : Byte) :: 0x21 :: 2 :: b8 ([] : List Byte).length :: [])).toNat
    ∧ (2 : Byte) = RequestKind.readStatus.code := by decide +kernel

theorem witness_FramesOutsideHunt : State.reset.link.state = .off
    ∧ (idle.link.state = .hunt ∧ idle.link.huntFrom ≤ idle.link.startTick longFrame ∧ 240 < longFrame.body.length)
    ∧ ((linkAt (.receive [] .unknown 100) false).link.state = .receive [] .unknown 100
        ∧ (linkAt (.receive [] .unknown 100) false).link.startTick (ask []) ≤ 100
        ∧ 100 < (linkAt (.receive [] .unknown 100) false).link.startTick { ask [] with time := 5310 })
    ∧ ((linkAt (.turnaround [1] 0) false).link.state = .turnaround [1] 0
        ∧ 0 ≤ (linkAt (.turnaround [1] 0) false).link.startTick (ask [])
        ∧ (linkAt (.turnaround [1] 0) false).settings.restartPending = false
        ∧ (linkAt (.turnaround [1] 0) true).settings.restartPending = true
        ∧ (linkAt (.turnaround [1] 9) false).link.startTick (ask []) < 9)
    ∧ (0xC4 : Byte) ≠ 0xC5
    ∧ RequestKind.identify.row (ask []) = .identify (ask []) := by decide +kernel

/-- Start-up has just ended, at tick 60,000. -/
def started : State := after (.endOfStartUp 60000) (after (.resetEnd 20000 ⟨3, true⟩) supplied)

/-- R215: the first frame taken is one whose start byte came after HUNT was entered; of a frame begun one tick earlier nothing is taken,
and a value 0xC5 among its last characters opens a frame. -/
theorem test_first_frame_after_start_up : started.link.state = .hunt
    ∧ (after (.identify { ask [] with time := 65209 }) started).link.requests = 1
    ∧ after (.identify { ask [] with time := 65208 }) started = { started with now := 65208 }
    ∧ (after (.enable { ask [0xC5] with time := 65208 }) started).link.state = .receive [0x5A, 0xEC] .foreign 65208
    ∧ (started.link.startTick { ask [] with time := 65208 } < started.link.huntFrom) := by decide +kernel

/-- In RECEIVE, a frame that began after the last character taken fills up the frame being collected, here a foreign one with one body
byte, and is heard once that frame's timer has run out. -/
theorem test_frames_in_receive :
    (after (.identify { ask [] with time := 6000 }) (linkAt (.receive [] .unknown 100) false)).link.state
      = .hunt
    ∧ (after (.identify { ask [] with time := 6000 }) (linkAt (.receive [] .unknown 100) false)).link.requests = 0
    ∧ (after (.identify { ask [] with time := 60000 }) (linkAt (.receive [] .unknown 100) false)).link.requests = 1
    ∧ (after (.identify { ask [] with time := 60000 }) (linkAt (.receive [] .unknown 100) false)).link.framing = 1 := by decide +kernel

/-- A frame that ends at tick 60,000 began its start byte 5,209 ticks before, and the reset of a RESTART begins there. -/
theorem test_reset_begins_at_the_start_byte :
    (after (.identify { ask [] with time := 60000 }) (linkAt (.turnaround [1] 0) true)).phase = .inReset .request 54791 := rfl

/-- The levels of 0xC5 on TXD: a tick in each of its ten bits at 115,200 bit/s, and the mark after it. -/
theorem test_txd : ((List.range 11).map fun k => ({ linkAt (.send [0xC5] 6000) false with now := 6000 + k * 87 } : State).txd)
    = [false, true, false, true, false, false, false, true, true, true, true] ∧ idle.txd = true := by decide +kernel

theorem witness_ReplyFrame :
    ([BitVec.ofNat 8 (3 : BitVec 4).toNat, 0x21, 0x82, BitVec.ofNat 8 ([] : List Byte).length] ++ [] : List Byte) = [3, 0x21, 0x82, 0]
    ∧ (0x82 : Byte) = 0x02 + 0x80
    ∧ ((.range, 8) : RefusalCode × Nat) ∈ ([(.unknown, 1), (.length, 2), (.argument, 3), (.state, 4), (.busy, 5), (.sequence, 6),
        (.notfound, 7), (.range, 8)] : List (RefusalCode × Nat)) := by decide

theorem witness_LineLevels : (∀ r b, idle.link.state ≠ .send r b)
    ∧ ((linkAt (.send [0xC5] 6000) false).link.state = .send [0xC5] 6000 ∧ ([0xC5] : List Byte)[0]? = some 0xC5
        ∧ (10 * 0 + 9) * 10000000 ≤ (6782 - 6000) * 115200 ∧ (6782 - 6000) * 115200 < (10 * 0 + 9 + 1) * 10000000
        ∧ ([0xC5] : List Byte).length * 100000000 ≤ (6869 - 6000) * 115200) := by
  refine ⟨?_, by decide +kernel⟩
  intro r b h; cases h

theorem witness_ReplyBeginsAndEnds : ((∀ r b, idle.link.state ≠ .turnaround r b) ∧ ∀ r b, idle.link.state ≠ .send r b)
    ∧ ((linkAt (.turnaround [1] 1000) false).link.state = .turnaround [1] 1000 ∧ 5999 < 1000 + 5000 ∧ 1000 + 50000 < 51001)
    ∧ (1000 + 5000 ≤ 6000 ∧ 51000 ≤ 1000 + 50000)
    ∧ ((linkAt (.send [1] 6000) false).link.state = .send [1] 6000
        ∧ 115200 = (if (linkAt (.send [1] 6000) false).link.fast then 115200 else 38400)
        ∧ 869 * 115200 < ([1] : List Byte).length * 100000000 + 115200 ∧ ([1] : List Byte).length * 100000000 ≤ 869 * 115200)
    ∧ ((linkAt (.send [1] 6000) false).settings.restartPending = false
        ∧ (linkAt (.send [1] 6000) true).settings.restartPending = true) := by
  refine ⟨⟨?_, ?_⟩, by decide +kernel⟩ <;> intro r b h <;> cases h

/-- A save in progress, accepted at tick 1,000. -/
def saving : State :=
  { idle with settings := { idle.settings with saving := true, snapshot := some ⟨.default, 0x1234, 1000⟩ } }

theorem witness_CommonChecks : idle.hears (ask [1]) ∧ (∀ k : RequestKind, (0x7F : Byte) ≠ k.code)
    ∧ (RequestKind.purge.fixedLength = some 0 ∧ (ask [1]).body.length ≠ 0)
    ∧ (saving.hears (ask []) ∧ .saveSettings ∈ ([.setSync, .setWindow, .setProfile, .setNotices, .setLines, .saveSettings,
          .loadDefaults, .restart] : List RequestKind) ∧ RequestKind.saveSettings.fixedLength = some (ask []).body.length
        ∧ RequestKind.setSync.fixedLength = none ∧ saving.settings.saving = true) := by
  refine ⟨idle_hears _ (by decide), ?_, ⟨rfl, by decide⟩, ⟨rfl, by decide, rfl, Nat.zero_le _⟩, by decide, rfl, rfl, rfl⟩
  intro k; cases k <;> decide

theorem witness_ReadSync : (idle.hears (ask []) ∧ idle.tracker.grid = none ∧ idle.tracker.searchStart = none)
    ∧ ((tracking .locked grid [] 0 16).hears (ask []) ∧ (tracking .locked grid [] 0 16).tracker.grid = some grid
        ∧ 50000 = 10000000000 / grid.period)
    ∧ (twoSources.tracker.searchStart = some 500 ∧ 0 = (max twoSources.now (ask []).time - 500) / 10000) :=
  ⟨⟨idle_hears _ (by decide), rfl, rfl⟩, ⟨⟨rfl, by decide, rfl, Nat.zero_le _⟩, rfl, by decide⟩, rfl, by decide⟩

theorem witness_SetSync : idle.hears (ask (syncBytes .default)) ∧ idle.settings.saving = false
    ∧ (match walkSync (ask (syncBytes .default)).body with | .error _ => none | .ok y => some y) = some .default
    ∧ (match walkSync (ask []).body with | .error e => some e | .ok _ => none) = some (.length, 0) :=
  ⟨idle_hears _ (by decide +kernel), rfl, by decide +kernel, by decide +kernel⟩

/-- Refusals of SET-SYNC: no byte at all, a count of 4, a source listed twice; and a byte too many. -/
theorem witness_SetSyncRefused : isFirstFailure (syncFields []) [] (byteField 0 1 3)
    ∧ isFirstFailure (syncFields [4]) [4] (byteField 0 1 3)
    ∧ isFirstFailure (syncFields [2, 1, 1]) [2, 1, 1] ⟨2, 1, fun v => v ≤ 2 ∧ ∀ j, j < 1 → u8At [2, 1, 1] (j + 1) ≠ v⟩ :=
  ⟨⟨[], _, rfl, by simp, fun h => absurd h.1 (by decide)⟩, ⟨[], _, rfl, by simp, fun h => absurd (byteField_passes.1 h) (by decide)⟩,
    ⟨[byteField 0 1 3, ⟨1, 1, fun v => v ≤ 2 ∧ ∀ j, j < 0 → u8At [2, 1, 1] (j + 1) ≠ v⟩], _, rfl,
      by simp only [List.forall_mem_cons]; exact ⟨byteField_passes.2 (by decide), ⟨by decide, by decide, fun _ h => absurd h (Nat.not_lt_zero _)⟩, by simp⟩,
      fun h => h.2.2 0 (by decide) rfl⟩⟩

def surplusSync : List Byte := [1, 2, 0, 95, 0, 1, 16, 64, 9]

theorem witness_SetSyncSurplus : (∀ x ∈ syncFields surplusSync, x.passes surplusSync) ∧ u8At surplusSync 0 + 7 < surplusSync.length := by
  refine ⟨?_, by decide⟩
  have h : syncFields surplusSync =
      [byteField 0 1 3, ⟨1, 1, fun v => v ≤ 2 ∧ ∀ j, j < 0 → u8At surplusSync (j + 1) ≠ v⟩, byteField 2 0 95, byteField 3 0 95,
        byteField 4 0 95, byteField 5 0 1, ⟨6, 1, fun v => v ∈ [2, 4, 8, 16]⟩, byteField 7 4 64] := rfl
  rw [h]; simp only [List.forall_mem_cons]
  refine ⟨?_, ⟨by decide, by decide, fun _ h => absurd h (Nat.not_lt_zero _)⟩, ?_, ?_, ?_, ?_, ⟨by decide, by decide⟩, ?_, by simp⟩ <;>
    exact byteField_passes.2 (by decide)

theorem witness_SaveCompletion : idle.settings.snapshot = none
    ∧ saving.settings.snapshot = some ⟨.default, 0x1234, 1000⟩
    ∧ (999 < 1000 ∧ 1000 + 1500000 < 1501001) ∧ (1000 ≤ 1000 ∧ 1501000 ≤ 1000 + 1500000)
    ∧ ((false = true) ↔ (crc16 (Config.imageBytes .default) = 0x1234 ∧ (0x1235 : Word16) = 0x1234))
    ∧ ((true = true) ↔ (crc16 (Config.imageBytes .default) = crc16 (Config.imageBytes .default)
        ∧ crc16 (Config.imageBytes .default) = crc16 (Config.imageBytes .default))) :=
  ⟨rfl, rfl, by decide, by decide, ⟨fun h => (nomatch h), fun h => absurd h.2 (by decide)⟩, ⟨fun _ => ⟨rfl, rfl⟩, fun _ => rfl⟩⟩

/-- A window runs in which G2 takes part, with a profile pending for it. -/
def measuring : State :=
  { subjectAt .g2 .measuring (some (g2Profile 5)) with
    engine := { idle.engine with running := true, participants := [⟨.g2, 0, [], false, []⟩] }, transit := idle.transit }

theorem witness_LoadDefaults : (idle.hears (ask []) ∧ (ask []).body = [] ∧ idle.settings.saving = false ∧ idle.engine.running = false)
    ∧ (measuring.hears (ask []) ∧ measuring.settings.saving = false ∧ measuring.engine.running = true
        ∧ measuring.transit.namings = [] ∧ (measuring.engine.participants.map (·.subject)).Nodup
        ∧ [.g2] = (measuring.engine.participants.map (·.subject)).filter (fun i =>
            decide ((measuring.table.get i).state = .measuring) && (measuring.table.get i).pendingProfile.isSome)) :=
  ⟨⟨idle_hears _ (by decide), rfl, rfl, rfl⟩, ⟨rfl, by decide, rfl, Nat.zero_le _⟩, rfl, rfl, rfl, by decide, by decide +kernel⟩

theorem witness_ResetsBegin_levels : (∀ b, idle.phase ≠ .inReset .power b) ∧ State.reset.phase = .inReset .power 0
    ∧ (State.reset.supplyGood = none ∧ supplied.phase = .inReset .power 0 ∧ supplied.supplyGood = some 0)
    ∧ ((2849 : Nat) < 2850 ∧ (2850 : Nat) ≤ 2950 ∧ (2950 : Nat) < 2951 ∧ (19 : Nat) < 20 ∧ (20 : Nat) ≤ 20) :=
  ⟨fun _ h => (nomatch h), rfl, ⟨rfl, rfl, rfl⟩, by decide⟩

/-- R227: in a POWER reset a supply between the two levels ends the 2 ms, and the row that was due then changes nothing. -/
theorem test_supply_between_the_levels :
    (after (.resetEnd 20000 ⟨3, true⟩) (after (.powerReset 15000 2950) supplied)).phase = .inReset .power 0
    ∧ (after (.resetEnd 36000 ⟨3, true⟩) (after (.powerReset 16000 3300) (after (.powerReset 15000 2950) supplied))).phase = .startUp 36000 :=
  ⟨rfl, rfl⟩

theorem witness_ResetsBegin : idle.hears (ask []) ∧ idle.settings.saving = false ∧ (ask []).broadcast = false
    ∧ idle.hears { ask [] with broadcast := true } ∧ ({ ask [] with broadcast := true } : Frame).broadcast = true :=
  ⟨idle_hears _ (by decide), rfl, rfl, ⟨rfl, by decide, rfl, Nat.zero_le _⟩, rfl⟩

theorem witness_ResetEndAndStartUp : (∀ c b, idle.phase ≠ .inReset c b) ∧ State.reset.phase = .inReset .power 0
    ∧ ((∀ good, State.reset.supplyGood = some good → 20000 ≠ good + 20000)
        ∧ (∀ good, supplied.supplyGood = some good → 19999 ≠ good + 20000)
        ∧ supplied.supplyGood = some 0 ∧ 20000 = 0 + 20000)
    ∧ ((after (.pinReset 500 20) idle).phase = .inReset .pin 500 ∧ (499 : Nat) < 500 ∧ (500 : Nat) ≤ 500)
    ∧ ((after (.restart { ask [] with broadcast := true }) idle).phase = .inReset .request 1000
        ∧ (1999 : Nat) ≠ 1000 + 1000 ∧ (2000 : Nat) = 1000 + 1000)
    ∧ ((true = true) ↔ ((⟨.default, crc16 (Config.imageBytes .default), true⟩ : Image).mark = true
        ∧ crc16 (Config.imageBytes (⟨.default, crc16 (Config.imageBytes .default), true⟩ : Image).contents)
          = (⟨.default, crc16 (Config.imageBytes .default), true⟩ : Image).check
        ∧ contentsLegal (⟨.default, crc16 (Config.imageBytes .default), true⟩ : Image).contents))
    ∧ (∀ b, idle.phase ≠ .startUp b)
    ∧ ((after (.resetEnd 20000 ⟨3, true⟩) supplied).phase = .startUp 20000
        ∧ (after (.resetEnd 20000 ⟨3, true⟩) supplied).tracker.grid = none
        ∧ (after (.resetEnd 20000 ⟨3, true⟩) supplied).tracker.state = .search
        ∧ 20000 + 250000 < 270001 ∧ 270000 ≤ 20000 + 250000) := by
  refine ⟨?_, rfl, ⟨fun _ h => (nomatch h), fun _ h => by cases h; decide, rfl, rfl⟩, ⟨rfl, by decide, by decide⟩,
    ⟨rfl, by decide, rfl⟩, ?_, ?_, rfl, rfl, rfl, by decide, by decide⟩
  · intro c b h; cases h
  · exact ⟨fun _ => ⟨rfl, rfl, (contentsOk_iff _).1 (by decide +kernel)⟩, fun _ => rfl⟩
  · intro b h; cases h

/-- The laws hold at a state beyond reset, from which a step answers. -/
theorem witness_laws : StoreLaw idle ∧ GridLaw idle ∧ QuietLaw idle
    ∧ step { idle with pending := [.identify (ask [])] } = exec (.identify (ask [])) { idle with pending := [] } := by
  refine ⟨by unfold StoreLaw; exact ⟨by decide, by decide, by decide, by decide, by decide, by decide, fun _ h => by cases h⟩, ?_, ?_, rfl⟩
  · exact ⟨⟨fun _ => rfl, fun _ => rfl⟩, by decide, fun _ => ⟨rfl, rfl, rfl⟩, fun _ h => by cases h⟩
  · exact ⟨by decide, fun h => absurd rfl h⟩

/-- A run of three in progress behind an edge not yet taken. -/
theorem witness_EdgeLaw : EdgeLaw idle ∧ EdgeLaw { idle with sampled := some 920, qualifier := ⟨some false, 3, 900, [400, 700]⟩ } :=
  ⟨⟨by decide, by decide, fun _ => ⟨rfl, rfl⟩, fun _ h => nomatch h⟩,
    ⟨by decide, by decide, fun h => (nomatch h), fun _ h => by cases h; decide⟩⟩

theorem witness_VerdictAndNoticeLaw : VerdictAndNoticeLaw idle ∧ SettingsLaw idle := by
  refine ⟨⟨?_, ?_⟩, by decide +kernel, (noticesOk_iff _).1 (by decide +kernel), (linesOk_iff _).1 (by decide +kernel), by decide, fun _ h => (by cases h), ?_⟩
  · intro i; cases i <;> decide
  · intro c; cases c <;> decide
  · intro i
    refine ⟨by cases i <;> decide +kernel, fun p h => ?_, fun h => absurd rfl h⟩
    cases i <;> cases h

theorem witness_encodings : syncOk .default = true ∧ profileOk .g2 (g2Profile 5) = true := by decide +kernel

end Sys2Proof.Tests
end

