-- ==== Sys2Proof/Proofs/ReportOutcome.lean ====
section
/-! PROOFS. The outcome, the exceeded-entry list and the step of a window report (chapter 5, R92 to R96). A report is read through two
searches, one for a view and one for an order's level; where no view and no order stands twice, a search finds exactly the one entry
there is, so that the model's tests and the rules' wording agree. -/

namespace Sys2Proof.Machine

/-- In a list whose keys are all different, a search by key finds the one entry that has it. -/
theorem find?_key_eq_some_iff {α β : Type} [BEq β] [LawfulBEq β] {key : α → β} {l : List α} (hl : (l.map key).Nodup) {k : β} {a : α} :
    (l.find? fun x => key x == k) = some a ↔ a ∈ l ∧ key a = k := by
  constructor
  · intro h
    exact ⟨List.mem_of_find?_eq_some h, by simpa using List.find?_some h⟩
  · rintro ⟨ha, rfl⟩
    obtain ⟨b, hb⟩ := Option.isSome_iff_exists.1 ((List.find?_isSome (p := fun x => key x == key a)).2 ⟨a, ha, beq_self_eq_true (key a)⟩)
    have hkey : key b = key a := by simpa using List.find?_some hb
    rw [hb, List.inj_on_of_nodup_map hl (List.mem_of_find?_eq_some hb) ha hkey]

namespace WindowReport

variable {r : WindowReport}

/-! ### The views and levels of a report -/

theorem view?_eq_some_iff (hviews : (r.views.map fun v => v.view).Nodup) {vw : View} {x : ViewReport} :
    r.view? vw = some x ↔ x ∈ r.views ∧ x.view = vw :=
  find?_key_eq_some_iff hviews

theorem clipped_iff : r.clipped = true ↔ ∃ v ∈ r.views, v.clip = true := List.any_eq_true

theorem not_clipped (h : ∀ v ∈ r.views, v.clip = false) : ¬r.clipped = true := by
  rw [clipped_iff]
  rintro ⟨v, hv, hclip⟩
  simp [h v hv] at hclip

/-- R94: the load test reads the mean of view S of a group and of view V of BUS. -/
theorem load_eq_mean (hviews : (r.views.map fun v => v.view).Nodup) {x : ViewReport} (hx : x ∈ r.views)
    (hview : x.view = if r.subject = .bus then .v else .s) : r.load = x.mean := by
  have hkind : (if r.subject = .bus then View.v else View.s) = if r.subject.group?.isSome then .s else .v := by
    cases r.subject <;> rfl
  have hfind : r.view? (if r.subject.group?.isSome then .s else .v) = some x :=
    (view?_eq_some_iff hviews).2 ⟨hx, hview.trans hkind⟩
  simp only [load, hfind]

theorem level?_ripple {e : LimitEntry} (hq : e.quantity = .ripple) : r.level? e = (r.view? e.view).map (·.ripple) := by
  unfold level?
  cases r.view? e.view <;> simp [hq]

theorem level?_order {e : LimitEntry} {h : Nat} (hq : e.quantity = .order h) :
    r.level? e = (r.view? e.view).bind fun x => (x.levels.find? fun p => p.1 == h).map (·.2) := by
  unfold level?
  cases r.view? e.view <;> simp [hq]

/-! ### The exceeded entries (R95, R96) -/

theorem exceeds_iff_level {e : LimitEntry} : r.exceeds e = true ↔ ∃ level, r.level? e = some level ∧ e.limit < level := by
  unfold exceeds
  cases r.level? e <;> simp

/-- R95: the model's test of a limit entry is the rule's, where each view and each order of a view is reported once. -/
theorem exceeds_iff (hviews : (r.views.map fun v => v.view).Nodup) (hlevels : ∀ v ∈ r.views, (v.levels.map Prod.fst).Nodup)
    {e : LimitEntry} : r.exceeds e = true ↔ isExceeded r e := by
  rw [exceeds_iff_level]
  unfold isExceeded
  cases hq : e.quantity with
  | ripple => simp [level?_ripple hq, view?_eq_some_iff hviews, and_assoc]
  | order h =>
    have hlevel (level : Nat) : r.level? e = some level ↔ ∃ v ∈ r.views, v.view = e.view ∧ (h, level) ∈ v.levels := by
      rw [level?_order hq, Option.bind_eq_some_iff]
      refine exists_congr fun v => ?_
      rw [view?_eq_some_iff hviews, and_assoc]
      refine and_congr_right fun hv => and_congr_right fun _ => ?_
      simp [find?_key_eq_some_iff (hlevels v hv)]
    simp only [hlevel]
    constructor
    · rintro ⟨level, ⟨v, hv, hview, hmem⟩, hlt⟩
      exact ⟨v, hv, hview, level, hmem, hlt⟩
    · rintro ⟨v, hv, hview, level, hmem, hlt⟩
      exact ⟨level, ⟨v, hv, hview, hmem⟩, hlt⟩

theorem mem_exceededPairs {p : LimitEntry × Nat} : p ∈ r.exceededPairs ↔ r.limits[p.2]? = some p.1 ∧ r.exceeds p.1 = true := by
  rw [exceededPairs, List.mem_filter, List.mem_zipIdx_iff_getElem?]

theorem mem_exceededList {k : Nat} : k ∈ r.exceededList ↔ ∃ e, r.limits[k]? = some e ∧ r.exceeds e = true := by
  simp [exceededList, mem_exceededPairs]

/-- R96: the indices ascend, being those of the limit list with some left out. -/
theorem exceededList_pairwise_lt : r.exceededList.Pairwise (· < ·) := by
  have hsub : r.exceededList.Sublist (List.range' 0 r.limits.length) := by
    rw [← List.zipIdx_map_snd]
    exact List.filter_sublist.map _
  exact (List.pairwise_lt_range' 1).sublist hsub

theorem exceededList_isEmpty_iff : r.exceededList.isEmpty = true ↔ ∀ e ∈ r.limits, ¬r.exceeds e = true := by
  rw [List.isEmpty_iff, List.eq_nil_iff_forall_not_mem]
  constructor
  · intro hempty e he hex
    obtain ⟨k, hk⟩ := List.mem_iff_getElem?.1 he
    exact hempty k (mem_exceededList.2 ⟨e, hk, hex⟩)
  · intro hnone k hk
    obtain ⟨e, he, hex⟩ := mem_exceededList.1 hk
    exact hnone e (List.mem_of_getElem? he) hex

/-! ### The step (R96) -/

/-- The steps of the exceeded entries, whose maximum is the step of the window. -/
theorem mem_exceeded_steps {n : Nat} :
    n ∈ r.exceededPairs.map (·.1.step) ↔ ∃ e ∈ r.limits, r.exceeds e = true ∧ e.step = n := by
  simp only [List.mem_map, Prod.exists, mem_exceededPairs]
  constructor
  · rintro ⟨e, k, ⟨hk, hex⟩, hn⟩
    exact ⟨e, List.mem_of_getElem? hk, hex, hn⟩
  · rintro ⟨e, he, hex, hn⟩
    obtain ⟨k, hk⟩ := List.mem_iff_getElem?.1 he
    exact ⟨e, k, ⟨hk, hex⟩, hn⟩

/-- The step is the maximum of 0 and the exceeded entries' steps. -/
theorem step_spec :
    r.step ∈ 0 :: r.exceededPairs.map (·.1.step) ∧ ∀ n ∈ 0 :: r.exceededPairs.map (·.1.step), n ≤ r.step :=
  List.max?_eq_some_iff.1 List.max?_cons'

theorem step_le_step {e : LimitEntry} (he : e ∈ r.limits) (hex : r.exceeds e = true) : e.step ≤ r.step :=
  step_spec.2 _ (List.mem_cons_of_mem _ (mem_exceeded_steps.2 ⟨e, he, hex, rfl⟩))

/-- With an entry exceeded the step is one of theirs: were it the 0 that the maximum starts from, every exceeded entry's step would be 0. -/
theorem exists_step_eq (h : ∃ e ∈ r.limits, r.exceeds e = true) : ∃ e ∈ r.limits, r.exceeds e = true ∧ e.step = r.step := by
  obtain ⟨e, he, hex⟩ := h
  rcases List.mem_cons.1 step_spec.1 with hzero | hmem
  · exact ⟨e, he, hex, (step_le_step he hex).antisymm (hzero.trans_le (Nat.zero_le _))⟩
  · exact mem_exceeded_steps.1 hmem

/-! ### The outcome (R92) -/

theorem outcome_of_clipped (h : ∃ v ∈ r.views, v.clip = true) : r.outcome = .clipped := if_pos (clipped_iff.2 h)

section NotClipped

variable (hclip : ∀ v ∈ r.views, v.clip = false)
include hclip

theorem outcome_of_load_lt (hload : r.load < r.floor) : r.outcome = .lowload := by
  rw [outcome, if_neg (not_clipped hclip), if_pos hload]

theorem outcome_of_floor_le (hload : (r.floor : Int) ≤ r.load) :
    r.outcome = if r.exceededList.isEmpty then .pass else .exceed := by
  rw [outcome, if_neg (not_clipped hclip), if_neg (not_lt.2 hload)]

theorem outcome_of_exceeds (hload : (r.floor : Int) ≤ r.load) (h : ∃ e ∈ r.limits, r.exceeds e = true) : r.outcome = .exceed := by
  obtain ⟨e, he, hex⟩ := h
  rw [outcome_of_floor_le hclip hload, if_neg fun hempty => exceededList_isEmpty_iff.1 hempty e he hex]

theorem outcome_of_not_exceeds (hload : (r.floor : Int) ≤ r.load) (h : ∀ e ∈ r.limits, ¬r.exceeds e = true) : r.outcome = .pass := by
  rw [outcome_of_floor_le hclip hload, if_pos (exceededList_isEmpty_iff.2 h)]

end NotClipped

end WindowReport

/-- Settles O21: the load test reads the mean of the view given, an entry is exceeded by the model's test exactly when it is by R95, and
each clause is then the rule of the outcome, of the exceeded list or of the step proved above. -/
theorem outcomeOfAReport : Obligations.OutcomeOfAReport := by
  intro r load hviews hlevels hmem hview
  have hload : r.load = load.mean := WindowReport.load_eq_mean hviews hmem hview
  simp only [← hload, ← WindowReport.exceeds_iff hviews hlevels]
  exact ⟨WindowReport.outcome_of_clipped, WindowReport.outcome_of_load_lt, WindowReport.outcome_of_exceeds,
    WindowReport.outcome_of_not_exceeds, fun _ => WindowReport.mem_exceededList, WindowReport.exceededList_pairwise_lt,
    fun _ => WindowReport.step_le_step, WindowReport.exists_step_eq⟩

end Sys2Proof.Machine
end

