-- ==== Sys2Proof/Proofs/Purge.lean ====
section
/-! PROOFS. PURGE (chapter 7, R150, R151): which entries of the store it removes and keeps, and what its owner answers with and without
both marks. -/

namespace Sys2Proof.Machine

/-! ### The entries of the marked range (R150) -/

theorem StoreEntry.inRange_and_retained_iff {e : StoreEntry} {first last : Nat} :
    (e.inRange first last && e.retained) = true ↔ first ≤ e.record.number ∧ e.record.number ≤ last ∧ e.retained = true := by
  simp [StoreEntry.inRange, and_assoc]

theorem StoreEntry.purged_iff {e : StoreEntry} {first last : Nat} :
    e.purged first last = true ↔ first ≤ e.record.number ∧ e.record.number ≤ last ∧ e.retained = false := by
  simp [StoreEntry.purged, StoreEntry.inRange, and_assoc]

/-- What a PURGE leaves in a list of entries is every entry but the unretained ones of the range. -/
theorem mem_filter_not_purged {entries : List StoreEntry} {e : StoreEntry} {first last : Nat} :
    e ∈ entries.filter (fun e => !e.purged first last) ↔
      e ∈ entries ∧ ¬(first ≤ e.record.number ∧ e.record.number ≤ last ∧ e.retained = false) := by
  rw [List.mem_filter, ← StoreEntry.purged_iff, Bool.not_eq_true', Bool.not_eq_true]

/-- The count of removed entries is that of the unretained ones in the range. -/
theorem length_filter_purged (entries : List StoreEntry) (first last : Nat) :
    (entries.filter fun e => e.purged first last).length =
      entries.countP fun e => decide (first ≤ e.record.number ∧ e.record.number ≤ last ∧ e.retained = false) := by
  rw [← List.countP_eq_length_filter]
  exact List.countP_congr fun e _ => by rw [StoreEntry.purged_iff, decide_eq_true_iff]

/-- The count of kept entries is that of the retained ones in the range. -/
theorem length_filter_inRange_retained (entries : List StoreEntry) (first last : Nat) :
    (entries.filter fun e => e.inRange first last && e.retained).length =
      entries.countP fun e => decide (first ≤ e.record.number ∧ e.record.number ≤ last ∧ e.retained = true) := by
  rw [← List.countP_eq_length_filter]
  exact List.countP_congr fun e _ => by rw [StoreEntry.inRange_and_retained_iff, decide_eq_true_iff]

/-! ### The owner of PURGE -/

theorem ownPurge_of_mark_absent {s : State} (h : s.store.firstMark = none ∨ s.store.lastMark = none) :
    ownPurge s = (.refuse .sequence 0, s.setMarks none none) := by
  unfold ownPurge
  rcases h with hfirst | hlast
  · simp only [hfirst]
  · cases s.store.firstMark <;> simp only [hlast]

theorem ownPurge_of_marks {s : State} {first last : Nat} (hfirst : s.store.firstMark = some first) (hlast : s.store.lastMark = some last) :
    ownPurge s =
      (.accept (le32 first ++ le32 last
          ++ [b8 (s.store.entries.countP fun e =>
                decide (first ≤ e.record.number ∧ e.record.number ≤ last ∧ e.retained = false)),
              b8 (s.store.entries.countP fun e =>
                decide (first ≤ e.record.number ∧ e.record.number ≤ last ∧ e.retained = true))]),
        { s with
          store :=
            { s.store with
              entries := s.store.entries.filter fun e => !e.purged first last
              firstMark := none
              lastMark := none } }) := by
  simp only [ownPurge, hfirst, hlast, length_filter_purged, length_filter_inRange_retained]

/-! ### The request -/

/-- A heard PURGE with an empty body goes to its owner, at any time: a save in progress does not stop it. -/
theorem exec_purge_of_owner {s : State} {f : Frame} {a : Answer} {t : State} (h : s.hears f) (hbody : f.body = [])
    (howner : ownPurge (s.counted .purge f) = (a, t)) (hlink : t.link.address = s.link.address)
    (hrestart : t.settings.restartPending = s.settings.restartPending) :
    exec (.purge f) s = .next (t.answered .purge f a) := by
  have ⟨_, _, hquiet, _⟩ := h
  have hlength : ∀ n, RequestKind.purge.fixedLength = some n → f.body.length = n := by simp [RequestKind.fixedLength, hbody]
  have hbusy : RequestKind.purge.inBusySet = true → s.settings.saving = false := fun hin => absurd hin (by decide)
  exact exec_row_of_owner .purge f s t a h hlength hbusy howner hlink (hrestart.trans hquiet)

/-- PURGE is counted with the marks and the records as they were (R149), so that its owner reads them. -/
theorem counted_purge_store (s : State) (f : Frame) : (s.counted .purge f).store = s.store := rfl

/-- Settles O33: the marks at dispatch decide the owner's answer, and the entries left are those that are not purged. -/
theorem purge : Obligations.Purge := by
  intro s f h hbody
  refine ⟨fun habsent => ?_, fun first last hfirst hlast => ?_⟩
  · have howner := ownPurge_of_mark_absent (s := s.counted .purge f) (by rwa [counted_purge_store])
    exact exec_purge_of_owner h hbody howner rfl rfl
  · have howner := ownPurge_of_marks (s := s.counted .purge f) (by rwa [counted_purge_store]) (by rwa [counted_purge_store])
    exact ⟨_, List.filter_sublist, fun _ => mem_filter_not_purged, exec_purge_of_owner h hbody howner rfl rfl⟩

end Sys2Proof.Machine
end

