-- ==== Sys2Proof/Proofs/CommonChecks.lean ====
section
/-! PROOFS. The common checks of dispatch (chapter 9, R187 to R191): which kind bytes are defined, when each check refuses, and what a
refused request leaves. The code, the body length and the effect on the purge marks of every kind agree with the table (R149, R189,
R221). -/

namespace Sys2Proof.Machine

/-! ### The request kinds (R188 to R190, R221) -/

/-- A kind byte is decoded to the kind whose code it is, and to no other. -/
theorem kindOf_eq_some_iff {kind : Byte} {k : RequestKind} : kindOf kind = some k ↔ kind = k.code := by
  have hdecoded : ∀ (kind : Byte), ∀ k ∈ kindOf kind, kind = k.code := by decide
  exact ⟨hdecoded kind k, fun h => h ▸ kindOf_code k⟩

theorem kindOf_eq_none_iff {kind : Byte} : kindOf kind = none ↔ ∀ k : RequestKind, kind ≠ k.code := by
  simp only [Option.eq_none_iff_forall_ne_some, ne_eq, kindOf_eq_some_iff]

theorem RequestKind.inBusySet_of_mem : ∀ k ∈ ([.setSync, .setWindow, .setProfile, .setNotices, .setLines, .saveSettings, .loadDefaults,
    .restart] : List RequestKind), k.inBusySet = true := by decide

theorem RequestKind.mem_kindTable (k : RequestKind) : (k, k.code.toNat, k.fixedLength, k.keepsMarks) ∈ kindTable := by
  cases k <;> decide

/-! ### When a common check refuses (R188 to R190) -/

theorem lengthRefusal_of_length_ne {k : RequestKind} {body : List Byte} {n : Nat} (hfixed : k.fixedLength = some n)
    (hne : body.length ≠ n) : lengthRefusal k body = some (.refuse .length n) := by
  simp only [lengthRefusal, hfixed, if_neg hne]

theorem lengthRefusal_eq_none {k : RequestKind} {body : List Byte}
    (hlength : k.fixedLength = none ∨ k.fixedLength = some body.length) : lengthRefusal k body = none := by
  rcases hlength with hwalked | hfixed
  · simp only [lengthRefusal, hwalked]
  · simp only [lengthRefusal, hfixed, if_true]

section Refusals

variable {s : State} {k : RequestKind} {body : List Byte}

theorem answerRequest_of_undefined {kind : Byte} (hundefined : kindOf kind = none) :
    answerRequest kind body s = (.refuse .unknown 0, s) := by
  simp only [answerRequest, hundefined]

theorem answerRequest_of_lengthRefusal {refusal : Answer} (hlength : lengthRefusal k body = some refusal) :
    answerRequest k.code body s = (refusal, s) := by
  simp only [answerRequest, kindOf_code, hlength]

theorem answerRequest_of_busy (hlength : lengthRefusal k body = none) (hbusy : k.inBusySet = true) (hsaving : s.settings.saving = true) :
    answerRequest k.code body s = (.refuse .busy 0, s) := by
  simp only [answerRequest, kindOf_code, hlength, hbusy, hsaving, Bool.and_self, if_true]

/-! ### What a refused request leaves (R191) -/

/-- A heard request that a common check refuses is counted and answered with the refusal, and nothing else happens. -/
theorem exec_row_of_commonRefusal {f : Frame} {a : Answer} (h : s.hears f)
    (hanswer : answerRequest k.code f.body (s.counted k f) = (a, s.counted k f)) :
    exec (k.row f) s = .next ((s.counted k f).answered k f a) := by
  have ⟨_, _, hquiet, _⟩ := h
  rw [exec_row, State.receiveFrame_of_hears k f s h, hanswer]
  exact congrArg _ (State.answered_of_quiet k f s (s.counted k f) a rfl hquiet)

/-- A heard frame of any kind byte, defined or not, is dispatched at its tick. -/
theorem State.receiveFrame_eq_dispatch {f : Frame} (kind : Byte) (h : s.hears f) :
    s.receiveFrame kind f = (s.reach f.time).dispatch f.time f.broadcast f.tag kind f.body := by
  obtain ⟨hhunt, hbody, _, hbegan⟩ := h
  rw [← Link.startByteTick_eq] at hbegan
  simp only [State.receiveFrame, hhunt, if_pos hbegan, State.meetFrame, if_neg (Nat.not_lt.2 hbody)]

/-- A frame of an undefined kind is counted and clears the purge marks: no kind exempts it (R187). -/
theorem State.countRequest_of_undefined {kind : Byte} (hundefined : kindOf kind = none) :
    s.countRequest kind =
      { s with
        link := { s.link with requests := countUp16 s.link.requests }
        store := { s.store with firstMark := none, lastMark := none } } := by
  simp only [State.countRequest, hundefined, satInc16_eq, CaptureStore.clearMarks]

theorem exec_undefinedKind_of_hears {f : Frame} {kind : Byte} (h : s.hears f) (hundefined : kindOf kind = none) :
    exec (.undefinedKind kind f) s =
      .next { s with
        now := max s.now f.time
        store := { s.store with firstMark := none, lastMark := none }
        link :=
          { s.link with
            requests := countUp16 s.link.requests
            state :=
              if f.broadcast then .hunt
              else .turnaround (frameBytes (s.link.address.setWidth 8) f.tag 0x7F [kind, 1, 0]) f.time } } := by
  have ⟨_, _, hquiet, _⟩ := h
  have hreceived : exec (.undefinedKind kind f) s = .next (s.receiveFrame kind f) := rfl
  rw [hreceived, State.receiveFrame_eq_dispatch kind h]
  simp only [State.dispatch, State.countRequest_of_undefined hundefined, answerRequest_of_undefined hundefined]
  cases f.broadcast with
  | false => rfl
  | true => simp [State.afterBroadcast, State.linkTo, State.reach, hquiet]

end Refusals

/-! ### The two parts of the obligation -/

theorem refusedByTheCommonChecks : Says.RefusedByTheCommonChecks := by
  intro s f h
  refine ⟨fun kind hkind => ?_, fun k n hfixed hne => ?_, fun k hmem hlength hsaving => ?_⟩
  · exact exec_undefinedKind_of_hears h (kindOf_eq_none_iff.2 hkind)
  · exact exec_row_of_commonRefusal h (answerRequest_of_lengthRefusal (lengthRefusal_of_length_ne hfixed hne))
  · exact exec_row_of_commonRefusal h
      (answerRequest_of_busy (lengthRefusal_eq_none hlength) (RequestKind.inBusySet_of_mem k hmem) hsaving)

theorem requestKinds : Says.RequestKinds :=
  ⟨fun _ _ _ _ hline => RequestKind.of_kindTable _ hline, fun k => ⟨_, _, _, RequestKind.mem_kindTable k⟩, by decide⟩

/-- Settles O44: a refusal by each of the three checks leaves the counted request and nothing else, and the table has every kind's line. -/
theorem commonChecks : Obligations.CommonChecks := ⟨refusedByTheCommonChecks, requestKinds⟩

end Sys2Proof.Machine
end

