-- ==== Sys2Proof/Proofs/StepFrame.lean ====
section
/-! PROOFS. What each command and each request can change: the blocks of the state that it may touch, every other block being as before.
A law about some blocks is kept by every command that does not touch them. The rows of the Link Controller are packaged once
(`KeptByLink`): what frames, owners and resets keep, every such row keeps. -/

namespace Sys2Proof.Machine

/-! ### The blocks of the state -/

/-- The parts of the state, one for each field. -/
inductive Block
  | pending | now | phase | comparators | sampled | supplyGood | qualifier | sync | tracker | front | engine | table | verdicts | gap | store
  | notices | lines | link | settings | transit | freeIndex
  deriving DecidableEq

/-- The state `t` has a block as `s` has it. -/
def State.sameAt (s t : State) : Block → Prop
  | .pending => t.pending = s.pending
  | .now => t.now = s.now
  | .phase => t.phase = s.phase
  | .comparators => t.comparators = s.comparators
  | .sampled => t.sampled = s.sampled
  | .supplyGood => t.supplyGood = s.supplyGood
  | .qualifier => t.qualifier = s.qualifier
  | .sync => t.sync = s.sync
  | .tracker => t.tracker = s.tracker
  | .front => t.front = s.front
  | .engine => t.engine = s.engine
  | .table => t.table = s.table
  | .verdicts => t.verdicts = s.verdicts
  | .gap => t.gap = s.gap
  | .store => t.store = s.store
  | .notices => t.notices = s.notices
  | .lines => t.lines = s.lines
  | .link => t.link = s.link
  | .settings => t.settings = s.settings
  | .transit => t.transit = s.transit
  | .freeIndex => t.freeIndex = s.freeIndex

/-! ### Requests -/

/-- The blocks that the owner of a request may change. -/
def ownerTouches : RequestKind → List Block
  | .identify | .readStatus | .readSync | .readProfile | .readResult | .readWave | .retainMap | .readLines => []
  | .clearCounters => [.tracker, .link, .store]
  | .setSync => [.qualifier, .sync, .tracker, .front, .gap, .transit]
  | .setWindow => [.engine, .transit]
  | .setProfile | .enable | .disable => [.table, .transit]
  | .clearGap => [.gap, .transit]
  | .capture => [.store, .transit]
  | .readRecord | .retain | .release | .markFirst | .markLast | .purge => [.store]
  | .setNotices | .fetchNotices => [.notices]
  | .setLines => [.lines]
  | .saveSettings | .restart => [.settings]
  | .loadDefaults =>
    [.qualifier, .sync, .tracker, .front, .engine, .table, .gap, .notices, .lines, .settings, .transit, .freeIndex]

/-- The orders of LOAD-DEFAULTS to the subjects change at most: transit. -/
@[simp] theorem State.foldl_defaultSubject_keeps (s : State) (names : List Subject) :
    (names.foldl State.defaultSubject s).pending = s.pending ∧ (names.foldl State.defaultSubject s).now = s.now ∧
    (names.foldl State.defaultSubject s).phase = s.phase ∧ (names.foldl State.defaultSubject s).comparators = s.comparators ∧
    (names.foldl State.defaultSubject s).sampled = s.sampled ∧ (names.foldl State.defaultSubject s).supplyGood = s.supplyGood ∧
    (names.foldl State.defaultSubject s).qualifier = s.qualifier ∧ (names.foldl State.defaultSubject s).sync = s.sync ∧
    (names.foldl State.defaultSubject s).tracker = s.tracker ∧ (names.foldl State.defaultSubject s).front = s.front ∧
    (names.foldl State.defaultSubject s).engine = s.engine ∧ (names.foldl State.defaultSubject s).table = s.table ∧
    (names.foldl State.defaultSubject s).verdicts = s.verdicts ∧ (names.foldl State.defaultSubject s).gap = s.gap ∧
    (names.foldl State.defaultSubject s).store = s.store ∧ (names.foldl State.defaultSubject s).notices = s.notices ∧
    (names.foldl State.defaultSubject s).lines = s.lines ∧ (names.foldl State.defaultSubject s).link = s.link ∧
    (names.foldl State.defaultSubject s).settings = s.settings ∧ (names.foldl State.defaultSubject s).freeIndex = s.freeIndex := by
  induction names generalizing s with
  | nil => simp
  | cons i rest ih => simpa using ih (s.defaultSubject i)

/-- LOAD-DEFAULTS leaves the blocks that it does not touch. -/
theorem State.loadDefaults_frame (s : State) {b : Block} (hb : b ∉ ownerTouches .loadDefaults) : s.sameAt s.loadDefaults b := by
  cases b <;> simp [ownerTouches] at hb <;> simp [State.sameAt, State.loadDefaults]

/-- The owner of a request leaves the blocks that its kind does not touch. -/
theorem ownerTakes_frame (k : RequestKind) (body : List Byte) (s : State) {b : Block} (hb : b ∉ ownerTouches k) :
    s.sameAt (ownerTakes k body s).2 b := by
  cases k with
  | identify | readStatus | readSync | readLines => cases b <;> rfl
  | readProfile =>
    simp only [ownerTakes, ownReadProfile]
    (repeat' split) <;> cases b <;> rfl
  | readResult =>
    simp only [ownerTakes, ownReadResult]
    split <;> cases b <;> rfl
  | readWave =>
    simp only [ownerTakes, ownReadWave]
    (repeat' split) <;> cases b <;> rfl
  | retainMap => cases b <;> rfl
  | clearCounters => cases b <;> simp [ownerTouches] at hb <;> rfl
  | setSync =>
    simp only [ownerTakes, ownSetSync]
    split <;> cases b <;> simp [ownerTouches] at hb <;> simp [State.sameAt]
  | setWindow =>
    simp only [ownerTakes, ownSetWindow]
    split <;> cases b <;> simp [ownerTouches] at hb <;> simp [State.sameAt]
  | setProfile =>
    simp only [ownerTakes, ownSetProfile]
    split <;> cases b <;> simp [ownerTouches] at hb <;> simp [State.sameAt]
  | enable =>
    simp only [ownerTakes, ownEnable]
    split <;> cases b <;> simp [ownerTouches] at hb <;> simp [State.sameAt]
  | disable =>
    simp only [ownerTakes, ownDisable]
    split <;> cases b <;> simp [ownerTouches] at hb <;> simp [State.sameAt]
  | clearGap =>
    simp only [ownerTakes, ownClearGap]
    split <;> cases b <;> simp [ownerTouches] at hb <;> simp [State.sameAt]
  | capture =>
    simp only [ownerTakes, ownCapture]
    (repeat' split) <;> cases b <;> simp [ownerTouches] at hb <;> simp [State.sameAt]
  | readRecord =>
    simp only [ownerTakes, ownReadRecord]
    (repeat' split) <;> cases b <;> simp [ownerTouches] at hb <;> rfl
  | retain | release => cases b <;> simp [ownerTouches] at hb <;> simp [State.sameAt, ownerTakes, ownRetain, ownRelease]
  | markFirst => cases b <;> simp [ownerTouches] at hb <;> rfl
  | markLast =>
    simp only [ownerTakes, ownMarkLast]
    (repeat' split) <;> cases b <;> simp [ownerTouches] at hb <;> rfl
  | purge =>
    simp only [ownerTakes, ownPurge]
    split <;> cases b <;> simp [ownerTouches] at hb <;> rfl
  | setNotices =>
    simp only [ownerTakes, ownSetNotices]
    split <;> cases b <;> simp [ownerTouches] at hb <;> rfl
  | fetchNotices =>
    simp only [ownerTakes, ownFetchNotices]
    split <;> cases b <;> simp [ownerTouches] at hb <;> rfl
  | setLines =>
    simp only [ownerTakes, ownSetLines]
    split <;> cases b <;> simp [ownerTouches] at hb <;> simp [State.sameAt]
  | saveSettings | restart => cases b <;> simp [ownerTouches] at hb <;> rfl
  | loadDefaults => exact s.loadDefaults_frame hb

/-- No owner moves the Link Controller to another state: what follows the answer does. -/
theorem ownerTakes_linkState (k : RequestKind) (body : List Byte) (s : State) : (ownerTakes k body s).2.link.state = s.link.state := by
  by_cases h : Block.link ∈ ownerTouches k
  · cases k <;> simp [ownerTouches] at h
    rfl
  · have hlink : (ownerTakes k body s).2.link = s.link := ownerTakes_frame k body s h
    rw [hlink]

/-! ### The rows of the Link Controller -/

/-- A property that holds along everything a row of the Link Controller does: time passing, a receiving controller's own moves, the purge
marks cleared at dispatch, an owner taking its request, and the start of a reset. -/
structure KeptByLink (P : State → Prop) : Prop where
  reach : ∀ s t, P s → P (s.reach t)
  link : ∀ s l, P s → s.link.state ≠ .off → P { s with link := l }
  marks : ∀ s : State, P s → P { s with store := s.store.clearMarks }
  owner : ∀ k body s, P s → s.link.state ≠ .off → lengthRefusal k body = none → P (ownerTakes k body s).2
  reset : ∀ s c, P s → P (s.beginReset c)

namespace KeptByLink

variable {P : State → Prop} (hP : KeptByLink P) {s : State}

include hP

theorem countRequest (kind : Byte) (h : P s) (hon : s.link.state ≠ .off) : P (s.countRequest kind) := by
  have hcount : P { s with link := { s.link with requests := satInc16 s.link.requests } } := hP.link _ _ h hon
  unfold State.countRequest
  split
  · exact hP.marks _ hcount
  · split
    · exact hcount
    · exact hP.marks _ hcount

omit hP in
theorem countRequest_linkState (s : State) (kind : Byte) : (s.countRequest kind).link.state = s.link.state := by
  unfold State.countRequest
  dsimp only
  (repeat' split) <;> rfl

/-- The common checks refuse and leave the state, or the owner takes the request. -/
theorem answerRequest (kind : Byte) (body : List Byte) (h : P s) (hon : s.link.state ≠ .off) :
    P (answerRequest kind body s).2 ∧ (Machine.answerRequest kind body s).2.link.state = s.link.state := by
  unfold Machine.answerRequest
  (repeat' split)
  · exact ⟨h, rfl⟩
  · exact ⟨h, rfl⟩
  · exact ⟨h, rfl⟩
  · exact ⟨hP.owner _ _ _ h hon ‹_›, ownerTakes_linkState _ _ _⟩

theorem dispatch (t : Nat) (broadcast : Bool) (tag kind : Byte) (body : List Byte) (h : P s) (hon : s.link.state ≠ .off) :
    P (s.dispatch t broadcast tag kind body) := by
  have hcounted := hP.countRequest kind h hon
  rw [← countRequest_linkState s kind] at hon
  obtain ⟨hanswered, hstate⟩ := hP.answerRequest kind body hcounted hon
  rw [← hstate] at hon
  unfold State.dispatch State.afterBroadcast
  dsimp only
  (repeat' split)
  · exact hP.reset _ _ hanswered
  · exact hP.link _ _ hanswered hon
  · exact hP.link _ _ hanswered hon

theorem cancelReply (next : LinkState) (h : P s) (hon : s.link.state ≠ .off) : P (s.cancelReply next) := by
  have hlink := hP.link s { s.link with state := next, cancels := satInc16 s.link.cancels } h hon
  unfold State.cancelReply
  dsimp only
  split
  · exact hP.reset _ _ hlink
  · exact hlink

theorem checkFrame (t : Nat) (broadcast : Bool) (got : List Byte) (h : P s) (hon : s.link.state ≠ .off) :
    P (s.checkFrame t broadcast got) := by
  unfold State.checkFrame
  dsimp only
  split
  · exact hP.dispatch _ _ _ _ _ h hon
  · exact hP.link _ _ h hon

theorem placeCharacter (t : Nat) (got : List Byte) (cls : AddrClass) (h : P s) (hon : s.link.state ≠ .off) :
    P (s.placeCharacter t got cls) := by
  unfold State.placeCharacter
  split
  · exact hP.link _ _ h hon
  · split
    · cases cls with
      | own => exact hP.checkFrame _ _ _ h hon
      | broadcast => exact hP.checkFrame _ _ _ h hon
      | foreign | unknown => exact hP.link _ _ h hon
    · exact hP.link _ _ h hon

theorem lapse (t : Nat) (h : P s) : P (s.lapse t) := by
  unfold State.lapse
  split
  case h_1 hstate =>
    split
    · exact hP.link _ _ h (by simp [hstate])
    · exact h
  all_goals exact h

theorem takeCharacter (t : Nat) (value : Byte) (stopError : Bool) (h : P s) : P (s.takeCharacter t value stopError) := by
  unfold State.takeCharacter
  split
  case h_1 | h_2 => exact h
  case h_3 hstate =>
    split
    · exact hP.link _ _ h (by simp [hstate])
    · exact h
  case h_4 hstate =>
    split
    · exact hP.cancelReply _ h (by simp [hstate])
    · exact h
  case h_5 hstate =>
    split
    · exact hP.link _ _ h (by simp [hstate])
    · exact hP.placeCharacter _ _ _ h (by simp [hstate])

theorem characterAt (t : Nat) (value : Byte) (stopError : Bool) (h : P s) : P (s.characterAt t value stopError) :=
  hP.takeCharacter _ _ _ (hP.lapse _ (hP.reach _ _ h))

theorem meetFrame (kind : Byte) (f : Frame) (h : P s) (hon : s.link.state ≠ .off) : P (s.meetFrame kind f) := by
  unfold State.meetFrame
  split
  · exact hP.link _ _ h hon
  · exact hP.dispatch _ _ _ _ _ h hon

theorem takeRest (kind : Byte) (f : Frame) (first : Nat) (h : P s) : P (s.takeRest kind f first) :=
  State.takeRest_keeps P (fun _ _ _ h => hP.characterAt _ _ _ h) s kind f first h

/-- A whole frame leaves what its characters leave. -/
theorem receiveFrame (kind : Byte) (f : Frame) (h : P s) : P (s.receiveFrame kind f) := by
  unfold State.receiveFrame
  dsimp only
  split
  case h_1 | h_2 => exact hP.reach _ _ h
  case h_3 hstate =>
    split
    · exact hP.meetFrame _ _ (hP.reach _ _ h) (by simp [hstate])
    · exact hP.takeRest _ _ _ h
  case h_4 hstate =>
    split
    · exact hP.meetFrame _ _ (hP.reach _ _ h) (by simp [hstate])
    · exact hP.takeRest _ _ _ h
  case h_5 hstate =>
    split
    · split
      · exact hP.cancelReply _ (hP.reach _ _ h) (by simp [hstate])
      case isFalse hquiet =>
        refine hP.meetFrame _ _ (hP.cancelReply _ (hP.reach _ _ h) (by simp [hstate])) ?_
        simp [State.cancelReply, hquiet]
    · exact hP.takeRest _ _ _ h

end KeptByLink

/-! ### Commands -/

/-- The rows that the Link Controller takes from the line: characters, its timers, and whole frames. -/
def takenByLink : Instr → Bool
  | .character .. | .interByteTimeout | .replyBegin _ | .replyEnd | .undefinedKind .. | .identify _ | .readStatus _ | .clearCounters _
  | .setSync _ | .readSync _ | .setWindow _ | .setProfile _ | .readProfile _ | .enable _ | .disable _ | .readResult _ | .clearGap _
  | .capture _ | .readRecord _ | .readWave _ | .retain _ | .release _ | .retainMap _ | .markFirst _ | .markLast _ | .purge _
  | .setNotices _ | .fetchNotices _ | .setLines _ | .readLines _ | .saveSettings _ | .loadDefaults _ | .restart _ => true
  | _ => false

/-- What the Link Controller's rows keep. -/
theorem KeptByLink.exec {P : State → Prop} (hP : KeptByLink P) {c : Instr} (hc : takenByLink c = true) {s t : State} (h : P s)
    (hexec : exec c s = .next t) : P t := by
  cases c with
  | character time value stopError =>
    cases hexec
    exact hP.characterAt _ _ _ h
  | interByteTimeout =>
    simp only [Machine.exec, execInterByteTimeout] at hexec
    split at hexec <;> cases hexec
    case h_1 hstate => exact hP.link _ _ (hP.reach _ _ h) (by simp [hstate])
    all_goals exact h
  | replyBegin time =>
    simp only [Machine.exec, execReplyBegin] at hexec
    split at hexec
    case h_1 hstate =>
      split at hexec <;> cases hexec
      · exact hP.link _ _ (hP.reach _ _ h) (by simp [hstate])
      · exact h
    all_goals cases hexec; exact h
  | replyEnd =>
    simp only [Machine.exec, execReplyEnd] at hexec
    split at hexec
    case h_1 hstate =>
      split at hexec <;> cases hexec
      · exact hP.reset _ _ (hP.reach _ _ h)
      · exact hP.link _ _ (hP.reach _ _ h) (by simp [hstate])
    all_goals cases hexec; exact h
  | undefinedKind | identify | readStatus | clearCounters | setSync | readSync | setWindow | setProfile | readProfile | enable | disable
  | readResult | clearGap | capture | readRecord | readWave | retain | release | retainMap | markFirst | markLast | purge | setNotices
  | fetchNotices | setLines | readLines | saveSettings | loadDefaults | restart =>
    cases hexec
    exact hP.receiveFrame _ _ h
  | _ => cases hc

/-- The blocks that a command may change; the rows of the Link Controller and the starts of resets, which may change any, are left out. -/
def rowTouches : Instr → List Block
  | .acceptedTransition => [.qualifier]
  | .edge => [.qualifier, .tracker, .front, .gap, .transit]
  | .lateZoneClose | .searchTimerExpiry => [.now, .qualifier, .tracker, .front, .gap, .transit]
  | .cycleStart => [.now, .tracker, .front, .gap, .transit]
  | .sampleSet _ => [.now, .front, .engine, .gap]
  | .windowStart => [.engine, .table, .transit]
  | .cycleEnd | .windowAbort | .disableMessage => [.engine, .transit]
  | .windowEndNaming => [.table, .transit]
  | .windowReport _ | .abortReport _ | .verdictOrder _ => [.verdicts, .transit]
  | .gapExamination _ | .detectorClearingEvent _ => [.gap, .transit]
  | .copyRequest _ => [.transit]
  | .filing _ => [.store, .transit]
  | .noticeRaise _ => [.notices, .transit]
  | .indicationChange _ => [.lines, .transit]
  | .pulseTimerExpiry _ => [.now, .lines]
  | .saveCompletion .. => [.now, .settings, .transit]
  | .resetEnd .. => [.now, .phase, .supplyGood, .sync, .engine, .table, .notices, .lines, .link, .settings]
  | .endOfStartUp _ => [.now, .phase, .qualifier, .tracker, .front, .gap, .table, .lines, .link, .notices, .transit]
  | .qualifierSample .. => [.now, .comparators, .sampled, .qualifier]
  | .instant _ => [.now, .front, .tracker]
  | _ => []

/-- The rows of the other blocks: neither the Link Controller takes them nor do they begin resets. -/
def ofOtherBlocks : Instr → Bool
  | .powerReset .. | .pinReset .. => false
  | c => !takenByLink c

/-- Subjects started one after the other change at most: table, transit. -/
@[simp] theorem State.foldl_startSubject_keeps (s : State) (names : List Subject) :
    (names.foldl State.startSubject s).pending = s.pending ∧ (names.foldl State.startSubject s).now = s.now ∧
    (names.foldl State.startSubject s).phase = s.phase ∧ (names.foldl State.startSubject s).comparators = s.comparators ∧
    (names.foldl State.startSubject s).sampled = s.sampled ∧ (names.foldl State.startSubject s).supplyGood = s.supplyGood ∧
    (names.foldl State.startSubject s).qualifier = s.qualifier ∧ (names.foldl State.startSubject s).sync = s.sync ∧
    (names.foldl State.startSubject s).tracker = s.tracker ∧ (names.foldl State.startSubject s).front = s.front ∧
    (names.foldl State.startSubject s).engine = s.engine ∧ (names.foldl State.startSubject s).verdicts = s.verdicts ∧
    (names.foldl State.startSubject s).gap = s.gap ∧ (names.foldl State.startSubject s).store = s.store ∧
    (names.foldl State.startSubject s).notices = s.notices ∧ (names.foldl State.startSubject s).lines = s.lines ∧
    (names.foldl State.startSubject s).link = s.link ∧ (names.foldl State.startSubject s).settings = s.settings ∧
    (names.foldl State.startSubject s).freeIndex = s.freeIndex := by
  induction names generalizing s with
  | nil => simp
  | cons i rest ih => simpa using ih (s.startSubject i)

/-- The end of start-up leaves the blocks that it does not touch. -/
theorem State.endStartUp_frame (s : State) (t : Nat) {b : Block} (hb : b ∉ rowTouches (.endOfStartUp t)) :
    s.sameAt (s.endStartUp t) b := by
  cases b <;> simp [rowTouches] at hb <;> simp [State.sameAt, State.endStartUp]

/-- Namings taken one after the other change only the Subject Table and what is in flight. -/
theorem State.foldl_nameOne_frame (s : State) (names : List Subject) {b : Block} (hb : b ∉ [Block.table, .transit]) :
    s.sameAt (names.foldl State.nameOne s) b := by
  have hkeeps := State.foldl_nameOne_keeps s names
  cases b <;> simp at hb <;> simp [State.sameAt, hkeeps]

section Frames

variable {s t : State} {b : Block}

theorem execEdge_frame (h : execEdge s = .next t) (hb : b ∉ rowTouches .edge) : s.sameAt t b := by
  simp only [execEdge] at h
  (repeat' split at h) <;> cases h <;> cases b <;> simp [rowTouches] at hb <;> simp [State.sameAt]

theorem execLateZoneClose_frame (h : execLateZoneClose s = .next t) (hb : b ∉ rowTouches .lateZoneClose) : s.sameAt t b := by
  simp only [execLateZoneClose] at h
  (repeat' split at h) <;> cases h <;> cases b <;> simp [rowTouches] at hb <;> simp [State.sameAt]

theorem execSearchTimerExpiry_frame (h : execSearchTimerExpiry s = .next t)
    (hb : b ∉ rowTouches .searchTimerExpiry) : s.sameAt t b := by
  simp only [execSearchTimerExpiry] at h
  (repeat' split at h) <;> cases h <;> cases b <;> simp [rowTouches] at hb <;> simp [State.sameAt]

theorem execCycleStart_frame (h : execCycleStart s = .next t) (hb : b ∉ rowTouches .cycleStart) : s.sameAt t b := by
  simp only [execCycleStart] at h
  (repeat' split at h) <;> cases h <;> cases b <;> simp [rowTouches] at hb <;> simp [State.sameAt]

theorem execSampleSet_frame (time : Nat) (h : execSampleSet time s = .next t)
    (hb : b ∉ rowTouches (.sampleSet time)) : s.sameAt t b := by
  simp only [execSampleSet] at h
  (repeat' split at h) <;> cases h <;> cases b <;> simp [rowTouches] at hb <;> simp [State.sameAt]

theorem execWindowStart_frame (h : execWindowStart s = .next t) (hb : b ∉ rowTouches .windowStart) : s.sameAt t b := by
  simp only [execWindowStart] at h
  split at h <;> cases h <;> cases b <;> simp [rowTouches] at hb <;> simp [State.sameAt]

theorem execCycleEnd_frame (h : execCycleEnd s = .next t) (hb : b ∉ rowTouches .cycleEnd) : s.sameAt t b := by
  simp only [execCycleEnd] at h
  split at h <;> cases h <;> cases b <;> simp [rowTouches] at hb <;> simp [State.sameAt]

theorem execWindowAbort_frame (h : execWindowAbort s = .next t) (hb : b ∉ rowTouches .windowAbort) : s.sameAt t b := by
  simp only [execWindowAbort] at h
  split at h <;> cases h <;> cases b <;> simp [rowTouches] at hb <;> simp [State.sameAt]

theorem execDisableMessage_frame (h : execDisableMessage s = .next t) (hb : b ∉ rowTouches .disableMessage) : s.sameAt t b := by
  simp only [execDisableMessage] at h
  split at h <;> cases h <;> cases b <;> simp [rowTouches] at hb <;> rfl

theorem execWindowEndNaming_frame (h : execWindowEndNaming s = .next t)
    (hb : b ∉ rowTouches .windowEndNaming) : s.sameAt t b := by
  simp only [execWindowEndNaming] at h
  split at h <;> cases h
  · cases b <;> rfl
  · rename_i names rest _
    have hfold := State.foldl_nameOne_frame { s with transit := { s.transit with namings := rest } } names hb
    cases b <;> simp [rowTouches] at hb <;> exact hfold

theorem execWindowReport_frame (i : Subject) (h : execWindowReport i s = .next t)
    (hb : b ∉ rowTouches (.windowReport i)) : s.sameAt t b := by
  simp only [execWindowReport] at h
  split at h <;> cases h <;> cases b <;> simp [rowTouches] at hb <;> simp [State.sameAt]

theorem execAbortReport_frame (i : Subject) (h : execAbortReport i s = .next t)
    (hb : b ∉ rowTouches (.abortReport i)) : s.sameAt t b := by
  simp only [execAbortReport] at h
  (repeat' split at h) <;> cases h <;> cases b <;> simp [rowTouches] at hb <;> rfl

theorem execVerdictOrder_frame (i : Subject) (h : execVerdictOrder i s = .next t)
    (hb : b ∉ rowTouches (.verdictOrder i)) : s.sameAt t b := by
  simp only [execVerdictOrder] at h
  split at h <;> cases h <;> cases b <;> simp [rowTouches] at hb <;> simp [State.sameAt]

theorem execGapExamination_frame (g : Group) (h : execGapExamination g s = .next t)
    (hb : b ∉ rowTouches (.gapExamination g)) : s.sameAt t b := by
  simp only [execGapExamination] at h
  (repeat' split at h) <;> cases h <;> cases b <;> simp [rowTouches] at hb <;> simp [State.sameAt]

theorem execCopyRequest_frame (n : Nat) (h : execCopyRequest n s = .next t)
    (hb : b ∉ rowTouches (.copyRequest n)) : s.sameAt t b := by
  simp only [execCopyRequest] at h
  split at h <;> cases h <;> cases b <;> simp [rowTouches] at hb <;> rfl

theorem execFiling_frame (n : Nat) (h : execFiling n s = .next t) (hb : b ∉ rowTouches (.filing n)) : s.sameAt t b := by
  simp only [execFiling] at h
  split at h <;> cases h <;> cases b <;> simp [rowTouches] at hb <;> simp [State.sameAt]

theorem execNoticeRaise_frame (c : NoticeClass) (h : execNoticeRaise c s = .next t)
    (hb : b ∉ rowTouches (.noticeRaise c)) : s.sameAt t b := by
  simp only [execNoticeRaise] at h
  split at h <;> cases h <;> cases b <;> simp [rowTouches] at hb <;> rfl

theorem execIndicationChange_frame (x : Item) (h : execIndicationChange x s = .next t)
    (hb : b ∉ rowTouches (.indicationChange x)) : s.sameAt t b := by
  simp only [execIndicationChange] at h
  split at h <;> cases h <;> cases b <;> simp [rowTouches] at hb <;> rfl

theorem execPulseTimerExpiry_frame (l : LineId) (h : execPulseTimerExpiry l s = .next t)
    (hb : b ∉ rowTouches (.pulseTimerExpiry l)) : s.sameAt t b := by
  simp only [execPulseTimerExpiry] at h
  split at h <;> cases h <;> cases b <;> simp [rowTouches] at hb <;> rfl

theorem execSaveCompletion_frame (time : Nat) (contents : WorkingSettings) (check : Word16)
    (h : execSaveCompletion time contents check s = .next t)
    (hb : b ∉ rowTouches (.saveCompletion time contents check)) : s.sameAt t b := by
  simp only [execSaveCompletion] at h
  (repeat' split at h) <;> cases h <;> cases b <;> simp [rowTouches] at hb <;> rfl

theorem execResetEnd_frame (time : Nat) (straps : Straps) (h : execResetEnd time straps s = .next t)
    (hb : b ∉ rowTouches (.resetEnd time straps)) : s.sameAt t b := by
  simp only [execResetEnd] at h
  (repeat' split at h) <;> cases h <;> cases b <;> simp [rowTouches] at hb <;> rfl

theorem execEndOfStartUp_frame (time : Nat) (h : execEndOfStartUp time s = .next t)
    (hb : b ∉ rowTouches (.endOfStartUp time)) : s.sameAt t b := by
  simp only [execEndOfStartUp] at h
  (repeat' split at h) <;> cases h
  · have hframe := (s.reach time).endStartUp_frame time hb
    cases b <;> simp [rowTouches] at hb <;> exact hframe
  all_goals cases b <;> rfl

theorem execQualifierSample_frame (time : Nat) (inputs : PerSource (List Int)) (h : execQualifierSample time inputs s = .next t)
    (hb : b ∉ rowTouches (.qualifierSample time inputs)) : s.sameAt t b := by
  simp only [execQualifierSample] at h
  split at h <;> cases h <;> cases b <;> simp [rowTouches] at hb <;> rfl

theorem execInstant_frame (inputs : PerChannel Int) (h : execInstant inputs s = .next t)
    (hb : b ∉ rowTouches (.instant inputs)) : s.sameAt t b := by
  simp only [execInstant] at h
  (repeat' split at h) <;> cases h <;> cases b <;> simp [rowTouches] at hb <;> rfl

theorem execDetectorClearingEvent_frame (g : Group) (h : execDetectorClearingEvent g s = .next t)
    (hb : b ∉ rowTouches (.detectorClearingEvent g)) : s.sameAt t b := by
  simp only [execDetectorClearingEvent] at h
  split at h <;> cases h <;> cases b <;> simp [rowTouches] at hb <;> simp [State.sameAt]

/-- A command leaves the blocks that it does not touch. -/
theorem exec_frame {c : Instr} (hc : ofOtherBlocks c = true) (h : exec c s = .next t) (hb : b ∉ rowTouches c) : s.sameAt t b := by
  cases c with
  | acceptedTransition =>
    cases h
    cases b <;> simp [rowTouches] at hb <;> rfl
  | edge => exact execEdge_frame h hb
  | lateZoneClose => exact execLateZoneClose_frame h hb
  | searchTimerExpiry => exact execSearchTimerExpiry_frame h hb
  | cycleStart => exact execCycleStart_frame h hb
  | sampleSet time => exact execSampleSet_frame time h hb
  | windowStart => exact execWindowStart_frame h hb
  | cycleEnd => exact execCycleEnd_frame h hb
  | windowAbort => exact execWindowAbort_frame h hb
  | disableMessage => exact execDisableMessage_frame h hb
  | windowEndNaming => exact execWindowEndNaming_frame h hb
  | windowReport i => exact execWindowReport_frame i h hb
  | abortReport i => exact execAbortReport_frame i h hb
  | verdictOrder i => exact execVerdictOrder_frame i h hb
  | gapExamination g => exact execGapExamination_frame g h hb
  | copyRequest n => exact execCopyRequest_frame n h hb
  | filing n => exact execFiling_frame n h hb
  | noticeRaise c => exact execNoticeRaise_frame c h hb
  | indicationChange x => exact execIndicationChange_frame x h hb
  | pulseTimerExpiry l => exact execPulseTimerExpiry_frame l h hb
  | saveCompletion time contents check => exact execSaveCompletion_frame time contents check h hb
  | resetEnd time straps => exact execResetEnd_frame time straps h hb
  | endOfStartUp time => exact execEndOfStartUp_frame time h hb
  | qualifierSample time inputs => exact execQualifierSample_frame time inputs h hb
  | instant inputs => exact execInstant_frame inputs h hb
  | detectorClearingEvent g => exact execDetectorClearingEvent_frame g h hb
  | _ => cases hc

end Frames

/-! ### One step -/

section Step

variable {P : State → Prop} {bs : List Block}

/-- A supply or RSTN event begins a reset, or changes no more than the timebase and the supply. -/
theorem KeptByLink.exec_reset (hP : KeptByLink P) (hsupply : Block.supplyGood ∉ bs)
    (hsame : ∀ s t : State, P s → (∀ b ∈ bs, s.sameAt t b) → P t) {c : Instr} (hlink : takenByLink c = false)
    (hother : ofOtherBlocks c = false) {s t : State} (h : P s) (hexec : Machine.exec c s = .next t) : P t := by
  cases c with
  | powerReset time millivolts =>
    simp only [Machine.exec, execPowerReset] at hexec
    split at hexec <;> cases hexec
    · exact hP.reset _ _ (hP.reach _ _ h)
    · refine hsame _ _ (hP.reach s time h) fun b hb => ?_
      cases b with
      | supplyGood => exact absurd hb hsupply
      | _ => simp [State.sameAt]
  | pinReset time low =>
    simp only [Machine.exec, execPinReset] at hexec
    split at hexec <;> cases hexec
    · exact hP.reset _ _ (hP.reach _ _ h)
    · exact hP.reach _ _ h
  | _ => simp [ofOtherBlocks, hlink] at hother

/-- A law about the blocks `bs` is kept by every step when the rows of the Link Controller keep it, and so does every other row that
touches one of the blocks. -/
theorem step_keeps (hqueue : Block.pending ∉ bs) (hsupply : Block.supplyGood ∉ bs)
    (hsame : ∀ s t : State, P s → (∀ b ∈ bs, s.sameAt t b) → P t) (hlink : KeptByLink P)
    (hrows : ∀ (c : Instr) (s t : State), (∃ b ∈ bs, b ∈ rowTouches c) → P s → exec c s = .next t → P t) (s t : State) (h : P s)
    (hstep : step s = .next t) : P t := by
  unfold step at hstep
  split at hstep
  · cases hstep
    exact h
  · rename_i c rest _
    have hrest : P { s with pending := rest } := hsame s _ h fun b hb => by
      cases b with
      | pending => exact absurd hb hqueue
      | _ => rfl
    cases hc : takenByLink c with
    | true => exact hlink.exec hc hrest hstep
    | false =>
      cases hother : ofOtherBlocks c with
      | false => exact hlink.exec_reset hsupply hsame hc hother hrest hstep
      | true =>
        by_cases htouch : ∃ b ∈ bs, b ∈ rowTouches c
        · exact hrows c _ t htouch hrest hstep
        · exact hsame _ t hrest fun b hb => exec_frame hother hstep fun hrow => htouch ⟨b, hb, hrow⟩

end Step

end Sys2Proof.Machine
end

