-- ==== Sys2Proof/Proofs/StoreLaw.lean ====
section
/-! PROOFS. The Capture Store's laws (chapter 7, R124, R128, R148): what filing, reading, retention, the marks, a purge and a reset do to
them, and that every step keeps them. -/

namespace Sys2Proof.Machine

/-! ### The laws of the store, part by part -/

/-- The laws of `StoreLaw`, said of the store alone and each with a name. -/
structure CaptureStore.Lawful (st : CaptureStore) : Prop where
  fits : st.entries.length ≤ 48
  ascending : (st.entries.map fun e => e.record.number).Pairwise (· < ·)
  numbered : ∀ e ∈ st.entries, 1 ≤ e.record.number ∧ e.record.number < st.counter
  counter_pos : 1 ≤ st.counter
  counter_le : st.counter ≤ 4294967295
  cursor_lt : st.cursor < st.counter
  marks : ∀ last, st.lastMark = some last → ∃ first, st.firstMark = some first ∧ first ≤ last

theorem storeLaw_iff {s : State} : StoreLaw s ↔ s.store.Lawful :=
  ⟨fun ⟨h1, h2, h3, h4, h5, h6, h7⟩ => ⟨h1, h2, h3, h4, h5, h6, h7⟩,
    fun ⟨h1, h2, h3, h4, h5, h6, h7⟩ => ⟨h1, h2, h3, h4, h5, h6, h7⟩⟩

namespace CaptureStore.Lawful

variable {st : CaptureStore} (h : st.Lawful)

include h

/-- A store that gives up entries stays lawful. -/
theorem sublist {kept : List StoreEntry} (hkept : kept.Sublist st.entries) : ({ st with entries := kept } : CaptureStore).Lawful :=
  { h with
    fits := hkept.length_le.trans h.fits
    ascending := h.ascending.sublist (hkept.map _)
    numbered := fun e he => h.numbered e (hkept.subset he) }

/-- New retained flags leave the numbers, and with them the laws. -/
theorem setRetained (n : Nat) (flag : Bool) :
    ({ st with entries := Machine.setRetained n flag st.entries } : CaptureStore).Lawful := by
  have hnumber (e : StoreEntry) : (if e.record.number = n then { e with retained := flag } else e).record = e.record := by
    split <;> rfl
  refine { h with fits := ?_, ascending := ?_, numbered := ?_ }
  · simpa [Machine.setRetained] using h.fits
  · have hsame : (Machine.setRetained n flag st.entries).map (fun e => e.record.number) = st.entries.map fun e => e.record.number := by
      simp [Machine.setRetained, hnumber]
    exact hsame ▸ h.ascending
  · intro e he
    obtain ⟨e', he', rfl⟩ := List.mem_map.1 he
    simpa [hnumber] using h.numbered e' he'

theorem setMarks {first last : Option Nat} (hmarks : ∀ b, last = some b → ∃ a, first = some a ∧ a ≤ b) :
    ({ st with firstMark := first, lastMark := last } : CaptureStore).Lawful :=
  { h with marks := hmarks }

theorem clearMarks : st.clearMarks.Lawful := h.setMarks (by simp)

/-- The cursor moves to a record of the store, and so stays below the counter. -/
theorem setCursor {e : StoreEntry} (he : e ∈ st.entries) : ({ st with cursor := e.record.number } : CaptureStore).Lawful :=
  { h with cursor_lt := (h.numbered e he).2 }

theorem keepReset : st.keepReset.Lawful :=
  { h with cursor_lt := h.counter_pos, marks := by simp [CaptureStore.keepReset] }

/-- A store that has room for a record keeps fewer than 48 entries beside it, and has a number to give. -/
theorem of_room {kept : List StoreEntry} (hroom : st.room = some kept) :
    kept.Sublist st.entries ∧ kept.length < 48 ∧ st.counter < 4294967295 := by
  unfold CaptureStore.room Config.lastNumber Config.storeCapacity at hroom
  split at hroom
  · cases hroom
  · rename_i hcounter
    split at hroom
    · rename_i hlength
      cases hroom
      exact ⟨List.Sublist.refl _, hlength, Nat.lt_of_not_le hcounter⟩
    · split at hroom
      · cases hroom
      · rename_i htaken
        cases hroom
        obtain ⟨hsub, hlength⟩ := takeFirst_sublist htaken
        have hfits := h.fits
        exact ⟨hsub, by omega, Nat.lt_of_not_le hcounter⟩

/-- A new record takes the counter's number, which is above every number in the store. -/
theorem add {kept : List StoreEntry} (hroom : st.room = some kept) {mk : Nat → Record} (hmk : ∀ n, (mk n).number = n) :
    (st.add kept mk).Lawful := by
  obtain ⟨hsub, hlength, hcounter⟩ := h.of_room hroom
  have hkept := h.sublist hsub
  refine
    { fits := ?_, ascending := ?_, numbered := ?_, counter_pos := Nat.le_add_left _ _, counter_le := hcounter,
      cursor_lt := Nat.lt_succ_of_lt h.cursor_lt, marks := h.marks }
  · simpa [CaptureStore.add] using hlength
  · have hbelow : ∀ e ∈ kept, e.record.number < st.counter := fun e he => (hkept.numbered e he).2
    simpa [CaptureStore.add, List.pairwise_append, hmk] using ⟨hkept.ascending, hbelow⟩
  · intro e he
    have hpos := h.counter_pos
    rcases List.mem_append.1 he with he | he
    · have hnumbered := hkept.numbered e he
      exact ⟨hnumbered.1, Nat.lt_succ_of_lt hnumbered.2⟩
    · obtain rfl := List.mem_singleton.1 he
      simpa [CaptureStore.add, hmk] using hpos

/-- A filing stores the record or counts a drop. -/
theorem file {mk : Nat → Record} (hmk : ∀ n, (mk n).number = n) : (st.file mk).1.Lawful := by
  unfold CaptureStore.file
  split
  · rename_i hroom
    exact h.add hroom hmk
  · exact { h with }

end CaptureStore.Lawful

theorem CaptureStore.powerReset_lawful : CaptureStore.powerReset.Lawful := by
  constructor <;> simp [CaptureStore.powerReset]

/-! ### The operations that reach the store -/

theorem State.fileRecord_store (s : State) (mk : Nat → Record) : (s.fileRecord mk).1.store = (s.store.file mk).1 := by
  unfold State.fileRecord
  dsimp only
  split <;> rfl

theorem State.captureSubject_store (s : State) (i : Subject) (wanted : Bool) :
    (s.captureSubject i wanted).2.store = (s.store.file (s.manualRecord i wanted)).1 := by
  rw [← State.fileRecord_store]
  unfold State.captureSubject
  dsimp only
  split <;> simp [*]

theorem Filing.record_number (f : Filing) (s : State) (n : Nat) : (f.record s n).number = n := by
  cases f <;> rfl

/-- What a selector selects stands in the store. -/
theorem CaptureStore.mem_of_select {st : CaptureStore} {selector n : Nat} {e : StoreEntry}
    (h : st.select selector n = some (some e)) : e ∈ st.entries := by
  unfold CaptureStore.select at h
  split at h
  · split at h <;> cases h
    exact List.mem_of_find?_eq_some ‹_›
  · exact List.mem_of_head? (Option.some.inj h)
  · exact List.mem_of_find?_eq_some (Option.some.inj h)

theorem StoreLaw.of_store {s t : State} (h : StoreLaw s) (hstore : t.store = s.store) : StoreLaw t := by
  rw [storeLaw_iff] at h ⊢
  exact hstore ▸ h

/-- The owners that change the store keep its laws. -/
theorem StoreLaw.ownerTakes {s : State} (h : StoreLaw s) (k : RequestKind) (body : List Byte) : StoreLaw (ownerTakes k body s).2 := by
  have hst := storeLaw_iff.1 h
  cases k with
  | clearCounters => exact storeLaw_iff.2 { hst with }
  | capture =>
    have hcapture (i : Subject) (wanted : Bool) : StoreLaw (s.captureSubject i wanted).2 := by
      rw [storeLaw_iff, State.captureSubject_store]
      exact hst.file fun _ => rfl
    simp only [Machine.ownerTakes, ownCapture]
    (repeat' split)
    · exact h
    · exact hcapture _ false
    · exact hcapture _ true
    · exact h
  | readRecord =>
    simp only [Machine.ownerTakes, ownReadRecord]
    (repeat' split)
    · exact h
    · exact h
    · exact h
    · rename_i hselect
      exact storeLaw_iff.2 (hst.setCursor (CaptureStore.mem_of_select hselect))
  | retain | release =>
    simp only [Machine.ownerTakes, ownRetain, ownRelease, State.retainRecord]
    split
    · exact h
    · exact storeLaw_iff.2 (hst.setRetained _ _)
  | markFirst => exact storeLaw_iff.2 (hst.setMarks (by simp))
  | markLast =>
    simp only [Machine.ownerTakes, ownMarkLast]
    (repeat' split)
    · exact storeLaw_iff.2 (hst.setMarks (by simp))
    · rename_i hle
      exact storeLaw_iff.2 (hst.setMarks (by simpa using hle))
    · exact storeLaw_iff.2 (hst.setMarks (by simp))
  | purge =>
    simp only [Machine.ownerTakes, ownPurge]
    split
    · exact storeLaw_iff.2 ((hst.sublist List.filter_sublist).setMarks (by simp))
    · exact storeLaw_iff.2 (hst.setMarks (by simp))
  | _ => exact h.of_store (ownerTakes_frame _ body s (b := .store) (by decide))

theorem StoreLaw.beginReset {s : State} (h : StoreLaw s) (c : Cause) : StoreLaw (s.beginReset c) := by
  rw [storeLaw_iff] at h ⊢
  cases c with
  | power => exact CaptureStore.powerReset_lawful
  | pin | request => exact h.keepReset

theorem storeLaw_keptByLink : KeptByLink StoreLaw where
  reach _ _ h := h.of_store rfl
  link _ _ h _ := h.of_store rfl
  marks _ h := storeLaw_iff.2 (storeLaw_iff.1 h).clearMarks
  owner k body _ h _ _ := h.ownerTakes k body
  reset _ c h := h.beginReset c

/-- Settles O53: a filing, the owners of the store's requests and a reset keep the laws; nothing else touches the store. -/
theorem stepKeepsTheStoreLaw : Obligations.StepKeepsTheStoreLaw := by
  refine step_keeps (bs := [.store]) (by simp) (by simp) (fun s t h hsame => h.of_store (hsame .store (by simp)))
    storeLaw_keptByLink fun c s t htouch h hexec => ?_
  cases c with
  | filing n =>
    simp only [exec, execFiling] at hexec
    split at hexec <;> cases hexec
    · exact h
    · rw [storeLaw_iff, State.fileRecord_store]
      exact (storeLaw_iff.1 h).file (Filing.record_number _ _)
  | _ => simp [rowTouches] at htouch

end Sys2Proof.Machine
end

