-- ==== Sys2Proof/Proofs/VerdictLaw.lean ====
section
/-! PROOFS. The laws of the verdict counters, the conditions and the notice counts (chapters 5 and 8, R88, R97, R98, R105, R169): what a
report, an order, a raise and a fetch do to them, and that every step keeps them. -/

namespace Sys2Proof.Machine

/-! ### One subject's entry and one class's latch -/

/-- The laws of one verdict entry (R88, R105). -/
structure VerdictEntry.Lawful (e : VerdictEntry) : Prop where
  counter_le : e.counter ≤ 15
  healthy_iff : e.condition = .healthy ↔ e.counter = 0
  cleared : e.enabled = false → e.counter = 0 ∧ e.results = none ∧ e.last = .none

/-- The laws of one notice latch (R169). -/
structure NoticeLatch.Lawful (x : NoticeLatch) : Prop where
  clear : x.latch = false → x.count = 0
  raised : x.latch = true → 1 ≤ x.count ∧ x.count ≤ 255

theorem verdictAndNoticeLaw_iff {s : State} :
    VerdictAndNoticeLaw s ↔ (∀ i, (s.verdicts.get i).Lawful) ∧ ∀ c, (s.notices.latches.get c).Lawful :=
  ⟨fun ⟨hv, hn⟩ => ⟨fun i => ⟨(hv i).1, (hv i).2.1, (hv i).2.2⟩, fun c => ⟨(hn c).1, (hn c).2⟩⟩,
    fun ⟨hv, hn⟩ => ⟨fun i => ⟨(hv i).counter_le, (hv i).healthy_iff, (hv i).cleared⟩, fun c => ⟨(hn c).clear, (hn c).raised⟩⟩⟩

theorem VerdictAndNoticeLaw.of_same {s t : State} (h : VerdictAndNoticeLaw s) (hverdicts : t.verdicts = s.verdicts)
    (hlatches : t.notices.latches = s.notices.latches) : VerdictAndNoticeLaw t := by
  rw [verdictAndNoticeLaw_iff] at h ⊢
  rwa [hverdicts, hlatches]

theorem VerdictEntry.reset_lawful : VerdictEntry.reset.Lawful := by
  constructor <;> simp [VerdictEntry.reset]

theorem NoticeLatch.clear_lawful : NoticeLatch.clear.Lawful := by
  constructor <;> simp [NoticeLatch.clear]

/-- A raise counts from 1 up to 255, whatever was before. -/
theorem NoticeLatch.raised_lawful (x : NoticeLatch) : x.raised.Lawful := by
  constructor <;> simp [NoticeLatch.raised]

namespace VerdictEntry.Lawful

variable {e : VerdictEntry} (h : e.Lawful)

include h

/-- A judged window moves counter and condition together, and judges enabled subjects only. -/
theorem judge (henabled : e.enabled = true) (r : WindowReport) (threshold : Nat) : (e.judge r threshold).Lawful where
  counter_le := counterAfter_le _ _ _ h.counter_le
  healthy_iff := conditionAfter_healthy _ _ _ _ _ h.healthy_iff
  cleared hdisabled := absurd hdisabled (by simp [VerdictEntry.judge, henabled])

theorem obey (o : VerdictOrder) : (e.obey o).Lawful := by
  cases o with
  | enable | startUp => exact { h with cleared := by simp [VerdictEntry.obey] }
  | disable activated => cases activated <;> constructor <;> simp [VerdictEntry.obey]
  | activation | loadDefaults => constructor <;> simp [VerdictEntry.obey]

theorem aborted (henabled : e.enabled = true) : ({ e with last := .aborted } : VerdictEntry).Lawful :=
  { h with cleared := fun hdisabled => by simp [henabled] at hdisabled }

end VerdictEntry.Lawful

/-! ### The operations on verdicts and latches -/

theorem State.setVerdict_verdicts (s : State) (i : Subject) (e : VerdictEntry) : (s.setVerdict i e).verdicts = s.verdicts.set i e := by
  unfold State.setVerdict
  dsimp only
  split <;> rfl

/-- A report of an enabled subject is judged; any other is dropped (R90). -/
theorem State.takeReport_verdicts (s : State) (r : WindowReport) :
    (s.takeReport r).verdicts =
      if (s.verdicts.get r.subject).enabled then
        s.verdicts.set r.subject ((s.verdicts.get r.subject).judge r (s.table.get r.subject).active.threshold)
      else s.verdicts := by
  unfold State.takeReport
  dsimp only
  (repeat' split) <;> simp [State.setVerdict_verdicts]

theorem VerdictAndNoticeLaw.set {s t : State} (h : VerdictAndNoticeLaw s) {i : Subject} {e : VerdictEntry} (he : e.Lawful)
    (hverdicts : t.verdicts = s.verdicts.set i e) (hlatches : t.notices.latches = s.notices.latches) : VerdictAndNoticeLaw t := by
  rw [verdictAndNoticeLaw_iff] at h ⊢
  rw [hverdicts, hlatches]
  refine ⟨fun j => ?_, h.2⟩
  rw [PerSubject.get_set]
  split
  · exact he
  · exact h.1 j

/-- The laws of the notices, kept beside the verdicts as they were. -/
theorem VerdictAndNoticeLaw.notices {s t : State} (h : VerdictAndNoticeLaw s) (hverdicts : t.verdicts = s.verdicts)
    (hlatches : ∀ c, (t.notices.latches.get c).Lawful) : VerdictAndNoticeLaw t := by
  rw [verdictAndNoticeLaw_iff] at h ⊢
  exact ⟨hverdicts ▸ h.1, hlatches⟩

theorem NoticeUnit.take_lawful {n : NoticeUnit} (h : ∀ c, (n.latches.get c).Lawful) (c d : NoticeClass) :
    ((n.take c).latches.get d).Lawful := by
  simp only [NoticeUnit.take, NoticeUnit.evaluate, PerClass.get_set]
  split
  · exact NoticeLatch.raised_lawful _
  · exact h d

theorem NoticeUnit.clearReturned_lawful {n : NoticeUnit} (h : ∀ c, (n.latches.get c).Lawful) (c : NoticeClass) :
    (n.clearReturned.latches.get c).Lawful := by
  simp only [NoticeUnit.clearReturned, NoticeUnit.evaluate, PerClass.get_ofFn]
  split
  · exact NoticeLatch.clear_lawful
  · exact h c

theorem NoticeUnit.reset_lawful (x : NoticeSettings) (c : NoticeClass) : ((NoticeUnit.reset x).latches.get c).Lawful := by
  simpa [NoticeUnit.reset] using NoticeLatch.clear_lawful

/-! ### Every step -/

theorem VerdictAndNoticeLaw.ownerTakes {s : State} (h : VerdictAndNoticeLaw s) (k : RequestKind) (body : List Byte) :
    VerdictAndNoticeLaw (ownerTakes k body s).2 := by
  cases k with
  | setNotices =>
    simp only [Machine.ownerTakes, ownSetNotices]
    split <;> exact h.of_same rfl rfl
  | fetchNotices =>
    simp only [Machine.ownerTakes, ownFetchNotices]
    split
    · exact h.notices rfl (NoticeUnit.clearReturned_lawful (verdictAndNoticeLaw_iff.1 h).2)
    · exact h
    · exact h
  | loadDefaults =>
    refine h.of_same (ownerTakes_frame .loadDefaults body s (b := .verdicts) (by decide)) ?_
    simp [Machine.ownerTakes, ownLoadDefaults, State.loadDefaults, NoticeUnit.replace, NoticeUnit.evaluate]
  | _ =>
    exact h.of_same (ownerTakes_frame _ body s (b := .verdicts) (by decide))
      (congrArg NoticeUnit.latches (ownerTakes_frame _ body s (b := .notices) (by decide)))

theorem VerdictAndNoticeLaw.beginReset {s : State} (c : Cause) : VerdictAndNoticeLaw (s.beginReset c) := by
  rw [verdictAndNoticeLaw_iff]
  exact ⟨fun i => by cases i <;> exact VerdictEntry.reset_lawful, NoticeUnit.reset_lawful _⟩

theorem verdictAndNoticeLaw_keptByLink : KeptByLink VerdictAndNoticeLaw where
  reach _ _ h := h.of_same rfl rfl
  link _ _ h _ := h.of_same rfl rfl
  marks _ h := h.of_same rfl rfl
  owner k body _ h _ _ := h.ownerTakes k body
  reset _ c _ := VerdictAndNoticeLaw.beginReset c

/-- Settles O54: reports, orders and abort reports keep the law of the entry they replace; raises and fetches that of the latches. -/
theorem stepKeepsTheVerdictAndNoticeLaw : Obligations.StepKeepsTheVerdictAndNoticeLaw := by
  refine step_keeps (bs := [.verdicts, .notices]) (by simp) (by simp)
    (fun s t h hsame => h.of_same (hsame .verdicts (by simp)) (congrArg NoticeUnit.latches (hsame .notices (by simp))))
    verdictAndNoticeLaw_keptByLink fun c s t htouch h hexec => ?_
  obtain ⟨hverdicts, hlatches⟩ := verdictAndNoticeLaw_iff.1 h
  cases c with
  | windowReport i =>
    simp only [exec, execWindowReport] at hexec
    split at hexec <;> cases hexec
    · exact h
    · rename_i r rest _
      have htaken := State.takeReport_verdicts { s with transit := { s.transit with reports := rest } } r
      split at htaken
      case isTrue henabled => exact h.set ((hverdicts r.subject).judge henabled r _) htaken (by simp)
      case isFalse => exact h.of_same htaken (by simp)
  | abortReport i =>
    simp only [exec, execAbortReport] at hexec
    (repeat' split at hexec) <;> cases hexec
    · exact h
    case h_2.isTrue henabled => exact h.set ((hverdicts i).aborted henabled) rfl rfl
    · exact h.of_same rfl rfl
  | verdictOrder i =>
    simp only [exec, execVerdictOrder] at hexec
    split at hexec <;> cases hexec
    · exact h
    · exact h.set ((hverdicts i).obey _) (State.setVerdict_verdicts _ _ _) (by simp)
  | noticeRaise c =>
    simp only [exec, execNoticeRaise] at hexec
    split at hexec <;> cases hexec
    · exact h
    · exact h.notices rfl (NoticeUnit.take_lawful hlatches c)
  | resetEnd time straps =>
    simp only [exec, execResetEnd] at hexec
    (repeat' split at hexec) <;> cases hexec
    · exact h.notices rfl (NoticeUnit.reset_lawful _)
    all_goals exact h
  | endOfStartUp time =>
    simp only [exec, execEndOfStartUp] at hexec
    (repeat' split at hexec) <;> cases hexec
    · refine h.notices (by simp [State.endStartUp]) fun c => ?_
      simpa [State.endStartUp] using NoticeUnit.take_lawful hlatches .restart c
    all_goals exact h
  | _ => simp [rowTouches] at htouch

end Sys2Proof.Machine
end

