-- ==== Sys2Proof/Proofs/GridLaw.lean ====
section
/-! PROOFS. The laws of the grid and of the cycle being sampled (chapters 1, 2 and 6, R5, R9, R13, R17, R29, R30, R108): what an entry into
SEARCH, a match, a miss, an instant, a sample set and a cycle start do to them, and that every step keeps them. -/

namespace Sys2Proof.Machine

/-! ### What the laws read -/

/-- All that the laws of the grid read of a state. -/
def State.gridView (s : State) :=
  (s.tracker.state, s.tracker.misses, s.tracker.grid, s.tracker.cycle, s.front.conversion, s.front.assembly, s.gap.inHand)

theorem GridLaw.of_view {s t : State} (h : GridLaw s) (hview : t.gridView = s.gridView) : GridLaw t := by
  simp only [State.gridView, Prod.mk.injEq] at hview
  obtain ⟨hstate, hmisses, hgrid, hcycle, hconversion, hassembly, hhand⟩ := hview
  unfold GridLaw at h ⊢
  rwa [hstate, hmisses, hgrid, hcycle, hconversion, hassembly, hhand]

/-- The periods of a grid lie in the tracking range (R9). -/
def Grid.InRange (g : Grid) : Prop := 153847 ≤ g.period ∧ g.period ≤ 250000 ∧ 153847 ≤ g.nextPeriod ∧ g.nextPeriod ≤ 250000

section

variable {s : State} {g : Grid}

theorem GridLaw.inRange (h : GridLaw s) (hg : s.tracker.grid = some g) : g.InRange := by
  obtain ⟨h1, h2, h3, h4, _⟩ := h.2.2.2 g hg
  exact ⟨h1, h2, h3, h4⟩

theorem GridLaw.state_ne_search (h : GridLaw s) (hg : s.tracker.grid = some g) : s.tracker.state ≠ .search := fun hsearch => by
  rw [h.1.2 hsearch] at hg
  cases hg

/-- A state without a grid and with nothing of a cycle. -/
theorem gridLaw_of_search (hgrid : s.tracker.grid = none) (hstate : s.tracker.state = .search) (hmisses : s.tracker.misses ≤ 2)
    (hconversion : s.front.conversion = none) (hassembly : s.front.assembly = ⟨none, []⟩) (hhand : s.gap.inHand = ⟨none, []⟩) :
    GridLaw s :=
  ⟨⟨fun _ => hstate, fun _ => hgrid⟩, hmisses, fun _ => ⟨hconversion, hassembly, hhand⟩, fun g hg => by rw [hgrid] at hg; cases hg⟩

/-! ### Moves of the tracker -/

theorem State.moveTo_tracker (s : State) (st : TrackerState) : (s.moveTo st).tracker = { s.tracker with state := st } := by
  unfold State.moveTo
  dsimp only
  split <;> rfl

/-- A move between the states that have a grid. -/
theorem GridLaw.moveTo (h : GridLaw s) (hstate : s.tracker.state ≠ .search) {st : TrackerState} (hst : st ≠ .search) :
    GridLaw (s.moveTo st) := by
  obtain ⟨hiff, hmisses, hnone, hsome⟩ := h
  unfold GridLaw
  simp only [State.moveTo_tracker, State.moveTo_keeps]
  exact ⟨by simpa [hst, hstate] using hiff, hmisses, hnone, hsome⟩

/-- The grid replaced by one of the same cycle, with periods in range. -/
theorem GridLaw.regrid (h : GridLaw s) (hg : s.tracker.grid = some g) {g' : Grid} (hrange : g'.InRange)
    (hnext : g'.nextInstant = g.nextInstant) : GridLaw { s with tracker := { s.tracker with grid := some g' } } := by
  have hstate := h.state_ne_search hg
  obtain ⟨hiff, hmisses, hnone, hsome⟩ := h
  obtain ⟨-, -, -, -, hcycle⟩ := hsome g hg
  obtain ⟨h1, h2, h3, h4⟩ := hrange
  refine ⟨by simp [hstate], hmisses, by simp, fun g'' hg'' => ?_⟩
  cases hg''
  rw [hnext]
  exact ⟨h1, h2, h3, h4, hcycle⟩

theorem GridLaw.setMisses (h : GridLaw s) {n : Nat} (hn : n ≤ 2) : GridLaw { s with tracker := { s.tracker with misses := n } } := by
  obtain ⟨hiff, _, hnone, hsome⟩ := h
  exact ⟨hiff, hn, hnone, hsome⟩

theorem State.enterSearch_tracker (s : State) (n : Nat) : (s.enterSearch n).tracker = s.tracker.searching n s.now := by
  have hkeeps := State.moveTo_keeps s.stopGrid .search
  unfold State.enterSearch
  dsimp only
  split <;> simp only [State.moveTo_tracker] <;> unfold State.stopGrid Tracker.searching <;> cases hg : s.tracker.grid <;> simp_all

/-- An entry into SEARCH leaves no grid and nothing of a cycle (R6, R30, R108). -/
theorem GridLaw.enterSearch (h : GridLaw s) (n : Nat) : GridLaw (s.enterSearch n) := by
  obtain ⟨hfront, hgap⟩ := s.enterSearch_drops n
  have htracker := s.enterSearch_tracker n
  obtain ⟨-, -, hnone, -⟩ := h
  cases hg : s.tracker.grid with
  | none =>
    obtain ⟨hconversion, hassembly, hhand⟩ := hnone hg
    apply gridLaw_of_search <;> simp [htracker, hfront, hgap, hg, hconversion, hassembly, hhand, Tracker.searching]
  | some g =>
    apply gridLaw_of_search <;> simp [htracker, hfront, hgap, hg, Tracker.searching, FrontEnd.stopped, GapDetector.stopped]

theorem GridLaw.restartTracker (h : GridLaw s) (y : SyncSettings) (c : AbortCause) : GridLaw (s.restartTracker y c) := by
  refine GridLaw.enterSearch ?_ 1
  exact h.of_view rfl

/-! ### Edges -/

/-- The state rules of a match keep the grid, and never lead into SEARCH (R15 to R17). -/
theorem GridLaw.matchRules (h : GridLaw s) (e : Int) (pc : Nat) : GridLaw (s.matchRules e pc) := by
  unfold State.matchRules
  split
  case h_1 hstate =>
    dsimp only
    (repeat' split)
    · have hcounted : GridLaw { s with tracker := { s.tracker with warmUp := s.tracker.warmUp + 1 } } := h.of_view rfl
      exact GridLaw.of_view (hcounted.moveTo (st := .locked) (by simp [hstate]) (by decide)) rfl
    · exact h.of_view rfl
    · exact h.of_view rfl
  case h_2 hstate => exact (h.setMisses (n := 0) (by decide)).moveTo (by simp [hstate]) (by decide)
  all_goals exact h

/-- A matched edge records itself and corrects the next period within the range (R13). -/
theorem GridLaw.matchedEdge (h : GridLaw s) (hg : s.tracker.grid = some g) {g' : Grid} (hperiod : g'.period = g.period)
    (hnext : g'.nextInstant = g.nextInstant) (m e : Int) (pc : Nat) : GridLaw (s.matchedEdge g' m e pc) := by
  obtain ⟨hmin, hmax, -⟩ := h.inRange hg
  have hrange : Grid.InRange { g' with nextPeriod := correctedPeriod m e } :=
    ⟨hperiod ▸ hmin, hperiod ▸ hmax, (correctedPeriod_range m e).1, (correctedPeriod_range m e).2⟩
  exact (h.regrid hg hrange hnext).matchRules e pc

theorem GridLaw.matchStart (h : GridLaw s) (hg : s.tracker.grid = some g) (t : Nat) (e : Int) (pc : Nat) :
    GridLaw (s.matchStart g t e pc) := by
  unfold State.matchStart
  split
  · exact h.of_view rfl
  · apply h.matchedEdge hg <;> rfl

theorem GridLaw.matchEnd (h : GridLaw s) (hg : s.tracker.grid = some g) (t : Nat) (e : Int) : GridLaw (s.matchEnd g t e) := by
  unfold State.matchEnd
  split
  · exact h.of_view rfl
  · apply h.matchedEdge hg <;> rfl

theorem GridLaw.gridEdge (h : GridLaw s) (hg : s.tracker.grid = some g) (t : Nat) : GridLaw (s.gridEdge g t) := by
  unfold State.gridEdge
  dsimp only
  (repeat' split)
  · exact h.matchStart hg _ _ _
  · exact h.matchEnd hg _ _
  · exact h.of_view rfl
  · exact h.of_view rfl
  · exact h.matchStart hg _ _ _
  · exact h.of_view rfl

/-- A grid starts with an empty cycle of its own (R7). -/
theorem gridLaw_startGrid (hconversion : s.front.conversion = none) (t : Nat) {m : Nat}
    (hmin : 153847 ≤ m) (hmax : m ≤ 250000) : GridLaw (s.startGrid t m) := by
  unfold State.startGrid GridLaw
  simp only [State.moveTo_tracker, State.moveTo_keeps]
  refine ⟨by simp [State.beginCycle], by simp [State.beginCycle], by simp [State.beginCycle], fun g hg => ?_⟩
  cases hg
  simp [State.beginCycle, hconversion, hmin, hmax]

/-- In SEARCH an edge is remembered, or starts a grid at a period in range. -/
theorem GridLaw.searchEdge (h : GridLaw s) (hg : s.tracker.grid = none) (t : Nat) : GridLaw (s.searchEdge t) := by
  obtain ⟨hconversion, -⟩ := h.2.2.1 hg
  unfold State.searchEdge
  split
  · exact h.of_view rfl
  · split
    case isTrue hinterval => exact gridLaw_startGrid hconversion t hinterval.1 hinterval.2
    case isFalse => exact h.of_view rfl

/-! ### Misses -/

theorem GridLaw.syncLoss (h : GridLaw s) : GridLaw s.syncLoss := by
  refine GridLaw.enterSearch ?_ _
  exact h.of_view rfl

/-- A miss counts up to two in a row; a miss in WARMUP and the third miss end the grid (R15 to R18). -/
theorem GridLaw.missBoundary (h : GridLaw s) (hg : s.tracker.grid = some g) : GridLaw (s.missBoundary g) := by
  unfold State.missBoundary
  dsimp only
  have hrange := h.inRange hg
  split
  · refine GridLaw.enterSearch ?_ _
    exact h.of_view rfl
  case h_2 hstate =>
    have hlocked : GridLaw { s with tracker := { s.tracker with misses := 1, missed := satInc16 s.tracker.missed } } :=
      GridLaw.of_view (h.setMisses (n := 1) (by decide)) rfl
    exact (hlocked.regrid (g' := { g with holdMark := true }) hg hrange rfl).moveTo (by simp [hstate]) (by decide)
  case h_3 =>
    split
    · refine GridLaw.syncLoss ?_
      exact h.of_view rfl
    case isFalse hfew => exact GridLaw.of_view (h.setMisses (n := s.tracker.misses + 1) (by omega)) rfl
  · exact h.of_view rfl

/-! ### The cycle -/

/-- A complete cycle has issued its 96 instants and has no conversion in progress. -/
theorem GridLaw.of_complete (h : GridLaw s) (hg : s.tracker.grid = some g) (hrows : s.front.assembly.rows.length = 96) :
    s.front.conversion = none := by
  obtain ⟨-, -, -, -, hissued, -, -, hcount, -⟩ := h.2.2.2 g hg
  cases hconversion : s.front.conversion with
  | none => rfl
  | some c =>
    rw [hrows, hconversion, Option.isSome_some, if_pos rfl] at hcount
    omega

/-- The next cycle of the same grid begins empty, with the next period and the next number (R9). -/
theorem GridLaw.nextCycle {t : State} (h : GridLaw s) (hg : s.tracker.grid = some g) (mark : Bool)
    (hcomplete : s.front.assembly.rows.length = 96)
    (htracker : t.tracker = { s.tracker with cycle := s.tracker.cycle + 1, grid := some (g.next mark) })
    (hconversion : t.front.conversion = s.front.conversion) (hassembly : t.front.assembly = ⟨some (s.tracker.cycle + 1), []⟩)
    (hhand : t.gap.inHand = ⟨some (s.tracker.cycle + 1), []⟩) : GridLaw t := by
  have hstate := h.state_ne_search hg
  obtain ⟨-, -, hmin, hmax⟩ := h.inRange hg
  have hnone := h.of_complete hg hcomplete
  unfold GridLaw
  rw [htracker, hconversion, hassembly, hhand, hnone]
  refine ⟨by simp [hstate], h.2.1, by simp, fun g' hg' => ?_⟩
  cases hg'
  exact ⟨hmin, hmax, hmin, hmax, Nat.zero_le _, rfl, rfl, rfl, rfl⟩

/-- An instant holds the inputs of the next set (R25). -/
theorem GridLaw.instant (h : GridLaw s) (hg : s.tracker.grid = some g) (hnext : g.nextInstant < 96) (hidle : s.front.conversion = none)
    (c : Conversion) :
    GridLaw { s with
      front := { s.front with conversion := some c }
      tracker := { s.tracker with grid := some { g with nextInstant := g.nextInstant + 1 } } } := by
  have hstate := h.state_ne_search hg
  obtain ⟨h1, h2, h3, h4, -, hassembly, hhand, hcount, hrows⟩ := h.2.2.2 g hg
  refine ⟨by simp [hstate], h.2.1, by simp, fun g' hg' => ?_⟩
  cases hg'
  refine ⟨h1, h2, h3, h4, hnext, hassembly, hhand, ?_, hrows⟩
  simpa [hidle] using hcount

/-- A delivered set takes the place of the conversion (R29, R108). -/
theorem GridLaw.deliver (h : GridLaw s) {c : Conversion} (hc : s.front.conversion = some c) (x : SampleSet) : GridLaw (s.deliver x) := by
  obtain ⟨hiff, hmisses, hnone, hsome⟩ := h
  refine ⟨hiff, hmisses, fun hgrid => ?_, fun g hg => ?_⟩
  · obtain ⟨hidle, -⟩ := hnone hgrid
    rw [hidle] at hc
    cases hc
  · obtain ⟨h1, h2, h3, h4, hissued, hassembly, hhand, hcount, hrows⟩ := hsome g hg
    refine ⟨h1, h2, h3, h4, hissued, hassembly, hhand, ?_, ?_⟩
    · simpa [State.deliver, hc] using hcount
    · simpa [State.deliver] using hrows

/-! ### Every step -/

theorem State.setGapGroup_inHand (s : State) (g : Group) (x : GapGroup) : (s.setGapGroup g x).gap.inHand = s.gap.inHand := by
  unfold State.setGapGroup
  dsimp only
  split <;> rfl

theorem State.examine_inHand (s : State) (g : Group) (p : GapPart) : (s.examine g p).gap.inHand = s.gap.inHand := by
  unfold State.examine
  dsimp only
  split <;> simp [State.setGapGroup_inHand]

theorem GridLaw.of_same {t : State} (h : GridLaw s) (htracker : t.tracker = s.tracker) (hfront : t.front = s.front)
    (hhand : t.gap.inHand = s.gap.inHand) : GridLaw t :=
  h.of_view (by simp [State.gridView, htracker, hfront, hhand])

theorem GridLaw.loadDefaults (h : GridLaw s) : GridLaw s.loadDefaults := by
  have hrestarted : GridLaw (({ s.abortForDefaults with freeIndex := s.freeIndex + 1 } : State).restartTracker .default .loadDefaults) :=
    GridLaw.restartTracker (h.of_same (by simp) (by simp) (by simp)) _ _
  exact hrestarted.of_same (by simp [State.loadDefaults]) (by simp [State.loadDefaults]) (by simp [State.loadDefaults])

theorem GridLaw.ownerTakes (h : GridLaw s) (k : RequestKind) (body : List Byte) : GridLaw (ownerTakes k body s).2 := by
  cases k with
  | clearCounters => exact h.of_view rfl
  | setSync =>
    simp only [Machine.ownerTakes, ownSetSync]
    split
    · exact h
    · exact h.restartTracker _ _
  | clearGap =>
    simp only [Machine.ownerTakes, ownClearGap]
    split
    · exact h
    · exact h.of_same (by simp) (by simp) (State.setGapGroup_inHand _ _ _)
  | loadDefaults => exact h.loadDefaults
  | _ =>
    exact h.of_same (ownerTakes_frame _ body s (b := .tracker) (by decide)) (ownerTakes_frame _ body s (b := .front) (by decide))
      (congrArg GapDetector.inHand (ownerTakes_frame _ body s (b := .gap) (by decide)))

theorem gridLaw_beginReset (s : State) (c : Cause) : GridLaw (s.beginReset c) :=
  gridLaw_of_search rfl rfl (Nat.zero_le _) rfl rfl rfl

theorem gridLaw_keptByLink : KeptByLink GridLaw where
  reach _ _ h := h.of_view rfl
  link _ _ h _ := h.of_view rfl
  marks _ h := h.of_view rfl
  owner k body _ h _ _ := h.ownerTakes k body
  reset s c _ := gridLaw_beginReset s c

end

/-- Settles O55: edges, misses, instants, sets and cycle starts keep the grid and the cycle in step; entries into SEARCH drop both. -/
theorem stepKeepsTheGridLaw : Obligations.StepKeepsTheGridLaw := by
  refine step_keeps (bs := [.tracker, .front, .gap]) (by simp) (by simp)
    (fun s t h hsame => h.of_same (hsame .tracker (by simp)) (hsame .front (by simp))
      (congrArg GapDetector.inHand (hsame .gap (by simp))))
    gridLaw_keptByLink fun c s t htouch h hexec => ?_
  cases c with
  | edge =>
    simp only [exec, execEdge] at hexec
    split at hexec
    · cases hexec
      exact h
    · rename_i t rest _
      have htaken : GridLaw (s.withEdges rest) := h.of_view rfl
      (repeat' split at hexec) <;> cases hexec
      · exact htaken.searchEdge ‹_› t
      · exact h
      · exact htaken.gridEdge ‹_› t
  | lateZoneClose =>
    simp only [exec, execLateZoneClose] at hexec
    split at hexec
    · cases hexec
      exact h
    · rename_i g hg
      have hreached : GridLaw (s.reach (g.start + g.period / 8)) := h.of_view rfl
      have hrange := h.inRange hg
      have hclosed := hreached.regrid (g' := { g with boundary := { g.boundary with closed := true } }) hg hrange rfl
      (repeat' split at hexec) <;> cases hexec
      · exact h
      · exact hclosed
      · exact hclosed.missBoundary rfl
  | searchTimerExpiry =>
    simp only [exec, execSearchTimerExpiry] at hexec
    (repeat' split at hexec) <;> cases hexec
    · exact h
    · refine GridLaw.enterSearch ?_ _
      exact h.of_view rfl
    · exact h.of_view rfl
  | cycleStart =>
    simp only [exec, execCycleStart] at hexec
    split at hexec
    · cases hexec
      exact h
    · rename_i g hg
      split at hexec <;> cases hexec
      · rename_i hcomplete
        simp only [State.cycleComplete, Bool.and_eq_true, decide_eq_true_eq] at hcomplete
        obtain ⟨⟨hrows, -⟩, -⟩ := hcomplete
        exact h.nextCycle hg _ hrows rfl rfl rfl rfl
      · exact h
  | sampleSet time =>
    simp only [exec, execSampleSet] at hexec
    (repeat' split at hexec) <;> cases hexec
    · exact h
    · have hreached : GridLaw (s.reach time) := h.of_view rfl
      exact hreached.deliver ‹_› _
    · exact h
  | gapExamination g =>
    have htracker := exec_frame rfl hexec (b := .tracker) (by simp [rowTouches])
    have hfront := exec_frame rfl hexec (b := .front) (by simp [rowTouches])
    simp only [exec, execGapExamination] at hexec
    (repeat' split at hexec) <;> cases hexec
    · exact h
    · exact h
    · exact h.of_view rfl
    · exact h.of_same htracker hfront (State.examine_inHand _ _ _)
  | detectorClearingEvent g =>
    have htracker := exec_frame rfl hexec (b := .tracker) (by simp [rowTouches])
    have hfront := exec_frame rfl hexec (b := .front) (by simp [rowTouches])
    simp only [exec, execDetectorClearingEvent] at hexec
    split at hexec <;> cases hexec
    · exact h
    · exact h.of_same htracker hfront (State.setGapGroup_inHand _ _ _)
  | endOfStartUp time =>
    simp only [exec, execEndOfStartUp] at hexec
    (repeat' split at hexec) <;> cases hexec
    · have hsearching : GridLaw ((s.reach time).enterSearch 1) := by
        refine GridLaw.enterSearch ?_ 1
        exact h.of_view rfl
      exact hsearching.of_same (by simp [State.endStartUp]) (by simp [State.endStartUp]) (by simp [State.endStartUp])
    all_goals exact h
  | instant inputs =>
    simp only [exec, execInstant] at hexec
    split at hexec
    · cases hexec
      exact h
    · rename_i g hg
      have hreached : GridLaw (s.reach (g.start + g.nextInstant * g.period / 96)) := h.of_view rfl
      split at hexec <;> cases hexec
      · rename_i hdue
        exact hreached.instant hg hdue.1 hdue.2 _
      · exact h
  | _ => simp [rowTouches] at htouch

end Sys2Proof.Machine
end

