-- ==== Sys2Proof/Proofs/WalkedBodies.lean ====
section
/-! PROOFS. The walks of SET-SYNC and SET-PROFILE (chapters 1, 4 and 9, R21, R75, R76, R189, R223). Each step of a walk reads a value
exactly when the value is legal and its bytes stand at the offset; bytes that stand one after the other stand as one run, so a whole body
is accepted exactly when it is the bytes of legal settings. -/

namespace Sys2Proof.Machine

/-! ### Bytes at an offset -/

/-- The bytes stand in the body from an offset on. -/
def standAt (body : List Byte) (off : Nat) (bytes : List Byte) : Prop := bytes <+: body.drop off

@[simp] theorem standAt_nil (body : List Byte) (off : Nat) : standAt body off [] := List.nil_prefix

/-- Two runs stand as one when the second stands after the first. -/
theorem standAt_append {body xs ys : List Byte} {off : Nat} :
    standAt body off (xs ++ ys) ↔ standAt body off xs ∧ standAt body (off + xs.length) ys := by
  simp only [standAt, ← List.drop_drop]
  constructor
  · rintro ⟨rest, hrest⟩
    rw [← hrest]
    exact ⟨⟨ys ++ rest, by simp⟩, ⟨rest, by simp⟩⟩
  · rintro ⟨⟨rest, hrest⟩, htail⟩
    rw [← hrest] at htail ⊢
    rw [List.drop_left] at htail
    exact (List.prefix_append_right_inj xs).2 htail

theorem standAt_cons {body bytes : List Byte} {off : Nat} {b : Byte} :
    standAt body off (b :: bytes) ↔ body[off]? = some b ∧ standAt body (off + 1) bytes := by
  have hone : standAt body off [b] ↔ body[off]? = some b := by
    rw [standAt, List.singleton_prefix_iff_head?_eq_some, List.head?_drop]
  rw [← hone, ← List.singleton_append, standAt_append, List.length_singleton]

/-- Bytes that stand at the start, with nothing behind them, are the body. -/
theorem eq_iff_standAt {body bytes : List Byte} : body = bytes ↔ standAt body 0 bytes ∧ body.length ≤ bytes.length := by
  constructor
  · rintro rfl
    exact ⟨List.prefix_rfl, le_rfl⟩
  · rintro ⟨hstand, hlength⟩
    exact (List.IsPrefix.eq_of_length_le hstand hlength).symm

/-! ### Steps of a walk -/

/-- A walk goes on with what its first step read. -/
theorem walk_bind_ok {α β : Type} {x : Walk α} {f : α → Walk β} {r : β} : (x >>= f) = .ok r ↔ ∃ a, x = .ok a ∧ f a = .ok r := by
  cases x <;> simp [bind, Except.bind]

theorem walk_pure_ok {α : Type} {a r : α} : (pure a : Walk α) = .ok r ↔ a = r := by simp [pure, Except.pure]

theorem b8_eq_iff {b : Byte} {n : Nat} (hn : n ≤ 255) : b = b8 n ↔ b.toNat = n := by
  constructor
  · rintro rfl
    exact toNat_b8 n (by omega)
  · rintro rfl
    exact (b8_toNat b).symm

/-- A byte is read when it stands at the offset within its range. -/
theorem byteIn_ok_iff {body : List Byte} {off lo hi n : Nat} (hhi : hi ≤ 255) :
    byteIn body off lo hi = .ok n ↔ (lo ≤ n ∧ n ≤ hi) ∧ standAt body off [b8 n] := by
  simp only [byteIn_ok, standAt_cons, standAt_nil, and_true]
  constructor
  · rintro ⟨b, hb, rfl, hlo, hle⟩
    exact ⟨⟨hlo, hle⟩, by rw [b8_toNat, hb]⟩
  · rintro ⟨⟨hlo, hle⟩, hb⟩
    exact ⟨b8 n, hb, toNat_b8 n (by omega), hlo, hle⟩

theorem needByte_ok_iff {body : List Byte} {off n : Nat} : needByte body off = .ok n ↔ n ≤ 255 ∧ standAt body off [b8 n] := by
  simp only [needByte_ok, standAt_cons, standAt_nil, and_true]
  constructor
  · rintro ⟨b, hb, rfl⟩
    exact ⟨by omega, by rw [b8_toNat, hb]⟩
  · rintro ⟨hle, hb⟩
    exact ⟨b8 n, hb, toNat_b8 n (by omega)⟩

theorem flagAt_ok_iff {body : List Byte} {off : Nat} {flag : Bool} : flagAt body off = .ok flag ↔ standAt body off [flagByte flag] := by
  simp only [flagAt, walk_bind_ok, walk_pure_ok, byteIn_ok_iff (show 1 ≤ 255 by decide)]
  constructor
  · rintro ⟨n, ⟨⟨-, hn⟩, hb⟩, rfl⟩
    interval_cases n <;> exact hb
  · intro hb
    cases flag
    · exact ⟨0, ⟨by decide, hb⟩, rfl⟩
    · exact ⟨1, ⟨by decide, hb⟩, rfl⟩

/-- A two-byte field is read when its two bytes stand at the offset and its value is within its range. -/
theorem wordIn_ok_iff {body : List Byte} {off lo hi n : Nat} (hhi : hi ≤ 65535) :
    wordIn body off lo hi = .ok n ↔ (lo ≤ n ∧ n ≤ hi) ∧ standAt body off (le16 n) := by
  have hneed (m : Nat) : need16 body off = .ok m ↔ m ≤ 65535 ∧ standAt body off (le16 m) := by
    unfold need16
    constructor
    · intro h
      split at h
      case h_1 low high hlow hhigh =>
        cases h
        have h0 := low.isLt
        have h1 := high.isLt
        exact ⟨by omega, by rw [le16_of_bytes, standAt_cons, standAt_cons]; exact ⟨hlow, hhigh, standAt_nil _ _⟩⟩
      case h_2 => cases h
    · rintro ⟨hm, hstand⟩
      simp only [le16, standAt_cons, standAt_nil, and_true] at hstand
      obtain ⟨hlow, hhigh⟩ := hstand
      simp only [hlow, hhigh, b8, BitVec.toNat_ofNat]
      congr 1
      omega
  simp only [wordIn, walk_bind_ok, walk_pure_ok, hneed, demand_ok, Bool.and_eq_true, decide_eq_true_eq]
  constructor
  · rintro ⟨m, ⟨-, hstand⟩, -, hrange, rfl⟩
    exact ⟨hrange, hstand⟩
  · rintro ⟨hrange, hstand⟩
    exact ⟨n, ⟨hrange.2.trans hhi, hstand⟩, (), hrange, rfl⟩

/-- The end of a walk finds no surplus byte. -/
theorem endAt_ok_iff {body : List Byte} {off : Nat} {u : Unit} : endAt body off = .ok u ↔ body.length ≤ off := endAt_ok body off u

/-! ### SET-SYNC (R21) -/

theorem Source.ofNumber_eq_some_iff {n : Nat} {x : Source} : Source.ofNumber? n = some x ↔ n = x.code.toNat := by
  constructor
  · intro h
    unfold Source.ofNumber? at h
    split at h <;> cases h <;> rfl
  · rintro rfl
    cases x <;> rfl

theorem polarity_code_iff {n : Nat} (hn : n ≤ 1) {p : Polarity} : (if n = 0 then Polarity.rising else .falling) = p ↔ b8 n = p.code := by
  interval_cases n <;> cases p <;> decide

/-- Sources are read when they are all different, none seen before, and their codes stand one after the other. -/
theorem walkSources_ok_iff {body : List Byte} {n off : Nat} {seen list : List Source} :
    walkSources body n off seen = .ok list ↔
      (list.length = n ∧ list.Nodup ∧ ∀ x ∈ list, x ∉ seen) ∧ standAt body off (list.map Source.code) := by
  induction n generalizing off seen list with
  | zero =>
    simp only [walkSources, Except.ok.injEq, List.length_eq_zero_iff]
    constructor
    · rintro rfl
      simp
    · rintro ⟨⟨rfl, -⟩, -⟩
      rfl
  | succ n ih =>
    simp only [walkSources, walk_bind_ok, needByte_ok_iff]
    constructor
    · rintro ⟨x, ⟨hx, hb⟩, hwalk⟩
      split at hwalk
      · cases hwalk
      · rename_i src hsrc
        simp only [walk_bind_ok, demand_ok, ih, walk_pure_ok] at hwalk
        obtain ⟨-, hseen, rest, ⟨⟨hlength, hnodup, hdiffer⟩, hrest⟩, rfl⟩ := hwalk
        obtain rfl := Source.ofNumber_eq_some_iff.1 hsrc
        rw [b8_toNat] at hb
        refine ⟨⟨by simpa using hlength, ?_, ?_⟩, ?_⟩
        · exact List.nodup_cons.2 ⟨fun hmem => hdiffer src hmem (by simp), hnodup⟩
        · simp only [List.mem_cons, forall_eq_or_imp]
          exact ⟨by simpa using hseen, fun y hy hys => hdiffer y hy (List.mem_cons_of_mem _ hys)⟩
        · exact standAt_append.2 ⟨hb, hrest⟩
    · rintro ⟨⟨hlength, hnodup, hseen⟩, hstand⟩
      match list, hlength with
      | src :: rest, hlength =>
        rw [List.map_cons, standAt_cons] at hstand
        obtain ⟨hb, hrest⟩ := hstand
        obtain ⟨hnew, hnodup⟩ := List.nodup_cons.1 hnodup
        refine ⟨src.code.toNat, ⟨by omega, by simp [standAt_cons, hb]⟩, ?_⟩
        simp only [Source.ofNumber_eq_some_iff.2 rfl, walk_bind_ok, demand_ok, ih, walk_pure_ok]
        refine ⟨(), by simpa using hseen src (by simp), rest, ⟨⟨by simpa using hlength, hnodup, fun x hx hmem => ?_⟩, hrest⟩, rfl⟩
        rcases List.mem_cons.1 hmem with rfl | hmem
        · exact hnew hx
        · exact hseen x (List.mem_cons_of_mem _ hx) hmem

theorem powerLength_le {n : Nat} (h : powerLength n = true) : n ≤ 255 := by
  simp only [powerLength, Bool.or_eq_true, beq_iff_eq] at h
  omega

/-- The READ-SYNC bytes, as runs one after the other. -/
theorem syncBytes_runs (y : SyncSettings) :
    syncBytes y = [b8 y.list.length] ++ y.list.map Source.code ++ [b8 y.offsets.sya] ++ [b8 y.offsets.syb] ++ [b8 y.offsets.syc]
      ++ [y.polarity.code] ++ [b8 y.depth] ++ [b8 y.warmUpTarget] := by
  simp [syncBytes]

/-- Settles O59: the walk reads run after run, and nothing may follow the last. -/
theorem syncBodiesAreExactlyLegalSettings : Obligations.SyncBodiesAreExactlyLegalSettings := by
  intro body y
  rw [eq_iff_standAt, syncBytes_runs]
  simp only [standAt_append, walkSync, walk_bind_ok, walk_pure_ok, byteIn_ok_iff (show 3 ≤ 255 by decide),
    byteIn_ok_iff (show 95 ≤ 255 by decide), byteIn_ok_iff (show 1 ≤ 255 by decide), byteIn_ok_iff (show 64 ≤ 255 by decide),
    needByte_ok_iff, walkSources_ok_iff, demand_ok, endAt_ok_iff, syncOk, Bool.and_eq_true, decide_eq_true_eq, List.length_append,
    List.length_cons, List.length_nil, List.length_map]
  constructor
  · rintro ⟨n, ⟨⟨hmin, hmax⟩, hn⟩, list, ⟨⟨rfl, hnodup, -⟩, hlist⟩, a, ⟨⟨-, ha⟩, hsa⟩, b, ⟨⟨-, hb⟩, hsb⟩, c, ⟨⟨-, hc⟩, hsc⟩,
      p, ⟨⟨-, hp⟩, hsp⟩, q, ⟨-, hsq⟩, -, hq, w, ⟨⟨hw1, hw2⟩, hsw⟩, -, hend, rfl⟩
    rw [(polarity_code_iff hp).1 rfl] at hsp
    refine ⟨⟨⟨⟨⟨⟨⟨⟨⟨hmin, hmax⟩, hnodup⟩, ha⟩, hb⟩, hc⟩, hq⟩, hw1⟩, hw2⟩, ?_⟩
    simp only [Nat.zero_add, Nat.add_comm 1] at *
    exact ⟨⟨⟨⟨⟨⟨⟨⟨hn, hlist⟩, hsa⟩, hsb⟩, hsc⟩, hsp⟩, hsq⟩, hsw⟩, hend⟩
  · rintro ⟨⟨⟨⟨⟨⟨⟨⟨⟨hmin, hmax⟩, hnodup⟩, ha⟩, hb⟩, hc⟩, hq⟩, hw1⟩, hw2⟩, ⟨⟨⟨⟨⟨⟨⟨hn, hlist⟩, hsa⟩, hsb⟩, hsc⟩, hsp⟩, hsq⟩, hsw⟩, hend⟩
    have hp : ∃ p, (p ≤ 1) ∧ (if p = 0 then Polarity.rising else .falling) = y.polarity := by
      cases y.polarity
      · exact ⟨0, by decide, rfl⟩
      · exact ⟨1, by decide, rfl⟩
    obtain ⟨p, hp, hpol⟩ := hp
    rw [← (polarity_code_iff hp).1 hpol] at hsp
    simp only [Nat.zero_add, Nat.add_comm 1] at *
    exact ⟨_, ⟨⟨hmin, hmax⟩, hn⟩, _, ⟨⟨rfl, hnodup, by simp⟩, hlist⟩, _, ⟨⟨Nat.zero_le _, ha⟩, hsa⟩, _, ⟨⟨Nat.zero_le _, hb⟩, hsb⟩,
      _, ⟨⟨Nat.zero_le _, hc⟩, hsc⟩, p, ⟨⟨Nat.zero_le _, hp⟩, hsp⟩, _, ⟨powerLength_le hq, hsq⟩, (), hq, _, ⟨⟨hw1, hw2⟩, hsw⟩, (), hend,
      by rw [hpol]⟩

end Sys2Proof.Machine
end

