-- ==== Sys2Proof/Proofs/ProfileBodies.lean ====
section
/-! PROOFS. The walk of SET-PROFILE (chapter 4, R72, R73, R75, R76, R81, R223), part by part: order lists, views, the gap part, limit
entries, and the whole body. -/

namespace Sys2Proof.Machine

/-! ### Order lists and views -/

/-- Orders are read when they rise from the one before, within 1 to 47, and their bytes stand one after the other. -/
theorem walkOrders_ok_iff {body : List Byte} {n off before : Nat} {orders : List Nat} :
    walkOrders body n off before = .ok orders ↔
      (orders.length = n ∧ ordersOk before orders = true) ∧ standAt body off (orders.map b8) := by
  induction n generalizing off before orders with
  | zero =>
    simp only [walkOrders, Except.ok.injEq, List.length_eq_zero_iff]
    constructor
    · rintro rfl
      simp [ordersOk]
    · rintro ⟨⟨rfl, -⟩, -⟩
      rfl
  | succ n ih =>
    simp only [walkOrders, walk_bind_ok, byteIn_ok_iff (show 47 ≤ 255 by decide), demand_ok, decide_eq_true_eq, ih, walk_pure_ok]
    constructor
    · rintro ⟨h, ⟨⟨hmin, hmax⟩, hb⟩, -, hbefore, rest, ⟨⟨hlength, hrest⟩, hstand⟩, rfl⟩
      refine ⟨⟨by simpa using hlength, ?_⟩, standAt_append.2 ⟨hb, hstand⟩⟩
      simp [ordersOk, hbefore, hmin, hmax, hrest]
    · rintro ⟨⟨hlength, hok⟩, hstand⟩
      match orders, hlength with
      | h :: rest, hlength =>
        simp only [ordersOk, Bool.and_eq_true, decide_eq_true_eq] at hok
        obtain ⟨⟨⟨hbefore, hmin⟩, hmax⟩, hrest⟩ := hok
        obtain ⟨hb, hstand⟩ := standAt_append (xs := [b8 h]).1 hstand
        exact ⟨h, ⟨⟨hmin, hmax⟩, hb⟩, (), hbefore, rest, ⟨⟨by simpa using hlength, hrest⟩, hstand⟩, rfl⟩

theorem viewBytes_length (v : ViewSettings) : (viewBytes v).length = 3 + v.orders.length := by
  simp [viewBytes, le16]
  omega

/-- The bytes of a view, as runs one after the other. -/
theorem viewBytes_runs (v : ViewSettings) : viewBytes v = le16 v.reference ++ [b8 v.orders.length] ++ v.orders.map b8 := by
  simp [viewBytes]

/-- A view is read when it is legal and its bytes stand at the offset; the walk goes on after them. -/
theorem walkView_ok_iff {body : List Byte} {off next : Nat} {v : ViewSettings} :
    walkView body off = .ok (v, next) ↔ viewOk v = true ∧ standAt body off (viewBytes v) ∧ next = off + (viewBytes v).length := by
  rw [viewBytes_length, viewBytes_runs]
  simp only [walkView, walk_bind_ok, wordIn_ok_iff (show 32767 ≤ 65535 by decide), byteIn_ok_iff (show 12 ≤ 255 by decide),
    walkOrders_ok_iff, walk_pure_ok, Prod.mk.injEq, standAt_append, viewOk, Bool.and_eq_true, decide_eq_true_eq]
  constructor
  · rintro ⟨r, ⟨⟨hmin, hmax⟩, hr⟩, n, ⟨⟨-, hn⟩, hcount⟩, orders, ⟨⟨rfl, hok⟩, hstand⟩, rfl, rfl⟩
    exact ⟨⟨⟨⟨hmin, hmax⟩, hn⟩, hok⟩, ⟨⟨hr, hcount⟩, hstand⟩, by dsimp only; omega⟩
  · rintro ⟨⟨⟨⟨hmin, hmax⟩, hn⟩, hok⟩, ⟨⟨hr, hcount⟩, hstand⟩, rfl⟩
    exact ⟨_, ⟨⟨hmin, hmax⟩, hr⟩, _, ⟨⟨Nat.zero_le _, hn⟩, hcount⟩, _, ⟨⟨rfl, hok⟩, hstand⟩, rfl, by omega⟩

/-! ### The gap part -/

theorem gapBytes_runs (g : GapPart) :
    gapBytes g = [flagByte g.enable] ++ [b8 g.offsets.a] ++ [b8 g.offsets.b] ++ [b8 g.percent] ++ [b8 g.cycles] ++ le16 g.floor := by
  simp [gapBytes]

/-- A gap part is read when it is legal and its bytes stand at the offset. -/
theorem walkGap_ok_iff {body : List Byte} {off : Nat} {g : GapPart} :
    walkGap body off = .ok g ↔ gapOk g = true ∧ standAt body off (gapBytes g) := by
  rw [gapBytes_runs]
  simp only [walkGap, walk_bind_ok, flagAt_ok_iff, byteIn_ok_iff (show 95 ≤ 255 by decide), byteIn_ok_iff (show 90 ≤ 255 by decide),
    byteIn_ok_iff (show 15 ≤ 255 by decide), wordIn_ok_iff (show 32767 ≤ 65535 by decide), walk_pure_ok, standAt_append, gapOk,
    Bool.and_eq_true, decide_eq_true_eq]
  constructor
  · rintro ⟨e, he, a, ⟨⟨-, ha⟩, hsa⟩, b, ⟨⟨-, hb⟩, hsb⟩, p, ⟨⟨hp1, hp2⟩, hsp⟩, c, ⟨⟨hc1, hc2⟩, hsc⟩, f, ⟨⟨-, hf⟩, hsf⟩, rfl⟩
    exact ⟨⟨⟨⟨⟨⟨⟨ha, hb⟩, hp1⟩, hp2⟩, hc1⟩, hc2⟩, hf⟩, ⟨⟨⟨⟨⟨he, hsa⟩, hsb⟩, hsp⟩, hsc⟩, hsf⟩⟩
  · rintro ⟨⟨⟨⟨⟨⟨⟨ha, hb⟩, hp1⟩, hp2⟩, hc1⟩, hc2⟩, hf⟩, ⟨⟨⟨⟨⟨he, hsa⟩, hsb⟩, hsp⟩, hsc⟩, hsf⟩⟩
    exact ⟨_, he, _, ⟨⟨Nat.zero_le _, ha⟩, hsa⟩, _, ⟨⟨Nat.zero_le _, hb⟩, hsb⟩, _, ⟨⟨hp1, hp2⟩, hsp⟩, _, ⟨⟨hc1, hc2⟩, hsc⟩,
      _, ⟨⟨Nat.zero_le _, hf⟩, hsf⟩, rfl⟩

/-! ### Limit entries -/

theorem View.ofNumber_eq_some_iff {n : Nat} {vw : View} : View.ofNumber? n = some vw ↔ n = vw.code.toNat := by
  constructor
  · intro h
    unfold View.ofNumber? at h
    split at h <;> cases h <;> rfl
  · rintro rfl
    cases vw <;> rfl

/-- An order of a limit entry lies within 1 to 47 (R72). -/
def quantityInRange : Quantity → Prop
  | .ripple => True
  | .order h => 1 ≤ h ∧ h ≤ 47

theorem Quantity.ofNumber_eq_some_iff {n : Nat} {q : Quantity} :
    Quantity.ofNumber? n = some q ↔ quantityInRange q ∧ n = q.code.toNat := by
  have hbyte {h : Nat} (hh : h ≤ 47) : (Quantity.code (.order h)).toNat = h := toNat_b8 h (by omega)
  unfold Quantity.ofNumber?
  constructor
  · intro h
    split at h
    · rename_i hrange
      cases h
      exact ⟨hrange, (hbyte hrange.2).symm⟩
    · split at h <;> cases h
      exact ⟨trivial, ‹_›⟩
  · rintro ⟨hrange, rfl⟩
    cases q with
    | ripple => rfl
    | order h => rw [hbyte hrange.2, if_pos (show 1 ≤ h ∧ h ≤ 47 from hrange)]

theorem limitsOk_cons {views : List (View × ViewSettings)} {earlier rest : List LimitEntry} {e : LimitEntry} :
    limitsOk views earlier (e :: rest) = true ↔
      (∃ vs, findView views e.view = some vs ∧ quantityListed vs e.quantity = true) ∧ quantityInRange e.quantity
        ∧ earlier.any (sameEntry e.view e.quantity) = false ∧ (1 ≤ e.limit ∧ e.limit ≤ 65535) ∧ (1 ≤ e.step ∧ e.step ≤ 3)
        ∧ limitsOk views (earlier ++ [e]) rest = true := by
  obtain ⟨vw, q, limit, step⟩ := e
  rw [limitsOk]
  cases findView views vw <;> cases q <;> simp [quantityInRange, and_assoc]

theorem limitBytes_runs (e : LimitEntry) : limitBytes e = [e.view.code] ++ [e.quantity.code] ++ le16 e.limit ++ [b8 e.step] := rfl

/-- Limit entries are read when they are legal beside the earlier ones and their bytes stand one after the other. -/
theorem walkLimits_ok_iff {body : List Byte} {views : List (View × ViewSettings)} {n off : Nat} {earlier limits : List LimitEntry} :
    walkLimits body views n off earlier = .ok limits ↔
      (limits.length = n ∧ limitsOk views earlier limits = true) ∧ standAt body off (limits.flatMap limitBytes) := by
  induction n generalizing off earlier limits with
  | zero =>
    simp only [walkLimits, Except.ok.injEq, List.length_eq_zero_iff]
    constructor
    · rintro rfl
      simp [limitsOk]
    · rintro ⟨⟨rfl, -⟩, -⟩
      rfl
  | succ n ih =>
    simp only [walkLimits, walk_bind_ok, needByte_ok_iff]
    constructor
    · rintro ⟨vb, ⟨hvb, hsv⟩, hwalk⟩
      split at hwalk
      · cases hwalk
      · rename_i vw vs hview
        simp only [Option.bind_eq_some_iff, Option.map_eq_some_iff, Prod.mk.injEq, View.ofNumber_eq_some_iff] at hview
        obtain ⟨_, rfl, _, hfind, rfl, rfl⟩ := hview
        simp only [walk_bind_ok, needByte_ok_iff] at hwalk
        obtain ⟨qb, ⟨hqb, hsq⟩, hwalk⟩ := hwalk
        split at hwalk
        · cases hwalk
        · rename_i q hq
          obtain ⟨hrange, rfl⟩ := Quantity.ofNumber_eq_some_iff.1 hq
          simp only [walk_bind_ok, demand_ok, wordIn_ok_iff (show 65535 ≤ 65535 by decide), byteIn_ok_iff (show 3 ≤ 255 by decide), ih,
            walk_pure_ok, Bool.and_eq_true, Bool.not_eq_true'] at hwalk
          obtain ⟨-, ⟨hlisted, hnew⟩, limit, ⟨hlimit, hsl⟩, step, ⟨hstep, hss⟩, rest, ⟨⟨hlength, hok⟩, hstand⟩, rfl⟩ := hwalk
          rw [b8_toNat] at hsv hsq
          refine ⟨⟨by simpa using hlength, limitsOk_cons.2 ⟨⟨_, hfind, hlisted⟩, hrange, hnew, hlimit, hstep, hok⟩⟩, ?_⟩
          rw [List.flatMap_cons, limitBytes_runs]
          simp only [standAt_append]
          exact ⟨⟨⟨⟨hsv, hsq⟩, hsl⟩, hss⟩, hstand⟩
    · rintro ⟨⟨hlength, hok⟩, hstand⟩
      match limits, hlength with
      | e :: rest, hlength =>
        obtain ⟨⟨vs, hfind, hlisted⟩, hrange, hnew, hlimit, hstep, hok⟩ := limitsOk_cons.1 hok
        rw [List.flatMap_cons, limitBytes_runs] at hstand
        simp only [standAt_append] at hstand
        obtain ⟨⟨⟨⟨hsv, hsq⟩, hsl⟩, hss⟩, hstand⟩ := hstand
        have hview : (View.ofNumber? e.view.code.toNat).bind (fun vw => (findView views vw).map fun vs => (vw, vs)) = some (e.view, vs) := by
          simp [View.ofNumber_eq_some_iff.2 rfl, hfind]
        refine ⟨e.view.code.toNat, ⟨by omega, by rwa [b8_toNat]⟩, ?_⟩
        simp only [hview, walk_bind_ok, needByte_ok_iff]
        refine ⟨e.quantity.code.toNat, ⟨by omega, by rwa [b8_toNat]⟩, ?_⟩
        simp only [Quantity.ofNumber_eq_some_iff.2 ⟨hrange, rfl⟩, walk_bind_ok, demand_ok, wordIn_ok_iff (show 65535 ≤ 65535 by decide),
          byteIn_ok_iff (show 3 ≤ 255 by decide), ih, walk_pure_ok, Bool.and_eq_true, Bool.not_eq_true']
        exact ⟨(), ⟨hlisted, hnew⟩, _, ⟨hlimit, hsl⟩, _, ⟨hstep, hss⟩, rest, ⟨⟨by simpa using hlength, hok⟩, hstand⟩, rfl⟩

/-! ### The whole body -/

/-- The views and the gap part are read when they are those of the subject, legal, and stand behind the first six bytes. -/
theorem walkBody_ok_iff {body : List Byte} {i : Subject} {pb : ProfileBody} {next : Nat} :
    walkBody body i = .ok (pb, next) ↔
      bodyOk i pb = true ∧ standAt body 6 (profileBodyBytes pb) ∧ next = 6 + (profileBodyBytes pb).length := by
  have hgap (g : GapPart) : (gapBytes g).length = 7 := rfl
  unfold walkBody
  split
  · rename_i hbus
    simp only [walk_bind_ok, Prod.exists, walkView_ok_iff, walk_pure_ok, Prod.mk.injEq]
    constructor
    · rintro ⟨v, off, ⟨hv, hstand, rfl⟩, rfl, rfl⟩
      exact ⟨by simp [bodyOk, hbus, hv], hstand, rfl⟩
    · rintro ⟨hok, hstand, rfl⟩
      cases pb with
      | group a b s g => simp [bodyOk, hbus] at hok
      | bus v => exact ⟨v, _, ⟨by simpa [bodyOk, hbus] using hok, hstand, rfl⟩, rfl, rfl⟩
  · rename_i hgroup
    simp only [walk_bind_ok, Prod.exists, walkView_ok_iff, walkGap_ok_iff, walk_pure_ok, Prod.mk.injEq]
    constructor
    · rintro ⟨a, _, ⟨ha, hsa, rfl⟩, b, _, ⟨hb, hsb, rfl⟩, s, _, ⟨hs, hss, rfl⟩, g, ⟨hg, hsg⟩, rfl, rfl⟩
      refine ⟨by simp [bodyOk, hgroup, ha, hb, hs, hg], ?_, ?_⟩
      · simp only [profileBodyBytes, standAt_append, List.length_append, ← Nat.add_assoc]
        exact ⟨⟨⟨hsa, hsb⟩, hss⟩, hsg⟩
      · simp only [profileBodyBytes, List.length_append, hgap]
        omega
    · rintro ⟨hok, hstand, rfl⟩
      cases pb with
      | bus v => simp [bodyOk, hgroup] at hok
      | group a b s g =>
        simp only [bodyOk, Bool.and_eq_true] at hok
        obtain ⟨⟨⟨⟨-, ha⟩, hb⟩, hs⟩, hg⟩ := hok
        simp only [profileBodyBytes, standAt_append, List.length_append, ← Nat.add_assoc] at hstand
        obtain ⟨⟨⟨hsa, hsb⟩, hss⟩, hsg⟩ := hstand
        refine ⟨a, _, ⟨ha, hsa, rfl⟩, b, _, ⟨hb, hsb, rfl⟩, s, _, ⟨hs, hss, rfl⟩, g, ⟨hg, hsg⟩, rfl, ?_⟩
        simp only [profileBodyBytes, List.length_append, hgap]
        omega

theorem Subject.ofNumber_eq_some_iff {n : Nat} {i : Subject} : Subject.ofNumber? n = some i ↔ n = i.number := by
  constructor
  · intro h
    unfold Subject.ofNumber? at h
    split at h <;> cases h <;> rfl
  · rintro rfl
    cases i <;> rfl

/-- The bytes of a SET-PROFILE body, as runs one after the other. -/
theorem profileBody_runs (i : Subject) (p : Profile) :
    b8 i.number :: profileBytes p = [b8 i.number] ++ [flagByte p.enabledAtStart] ++ [flagByte p.waveOnExceed] ++ [b8 p.threshold]
      ++ le16 p.floor ++ profileBodyBytes p.body ++ [b8 p.limits.length] ++ p.limits.flatMap limitBytes := by
  simp [profileBytes]

theorem limits_length (limits : List LimitEntry) : (limits.flatMap limitBytes).length = 5 * limits.length := by
  induction limits with
  | nil => rfl
  | cons e rest ih =>
    rw [List.flatMap_cons, List.length_append, ih, List.length_cons]
    have hentry : (limitBytes e).length = 5 := rfl
    omega

/-- Settles O60: the walk reads run after run, and nothing may follow the last limit entry. -/
theorem profileBodiesAreExactlyLegalProfiles : Obligations.ProfileBodiesAreExactlyLegalProfiles := by
  intro body i p
  have hnumber : i.number ≤ 255 := by cases i <;> decide
  rw [eq_iff_standAt, profileBody_runs]
  simp only [standAt_append, List.length_append, List.length_singleton, limits_length, walkProfile, walk_bind_ok, needByte_ok_iff, profileOk,
    Bool.and_eq_true, decide_eq_true_eq]
  constructor
  · rintro ⟨n, ⟨-, hn⟩, hwalk⟩
    split at hwalk
    · cases hwalk
    · rename_i j hj
      obtain rfl := Subject.ofNumber_eq_some_iff.1 hj
      simp only [walk_bind_ok, walk_pure_ok, flagAt_ok_iff, byteIn_ok_iff (show 15 ≤ 255 by decide), Prod.exists, walkBody_ok_iff,
        wordIn_ok_iff (show 32767 ≤ 65535 by decide), byteIn_ok_iff (show 16 ≤ 255 by decide), walkLimits_ok_iff, endAt_ok_iff,
        Prod.mk.injEq] at hwalk
      obtain ⟨e, he, w, hw, t, ⟨⟨ht1, ht2⟩, hst⟩, f, ⟨⟨-, hf⟩, hsf⟩, pb, _, ⟨hpb, hspb, rfl⟩, k, ⟨⟨-, hk⟩, hsk⟩, limits,
        ⟨⟨rfl, hlimits⟩, hsl⟩, -, hend, rfl, rfl⟩ := hwalk
      have hfloor : (le16 f).length = 2 := rfl
      refine ⟨⟨⟨⟨⟨⟨ht1, ht2⟩, hf⟩, hpb⟩, hk⟩, hlimits⟩, ?_, ?_⟩
      · simp only [hfloor, Nat.zero_add, Nat.reduceAdd]
        exact ⟨⟨⟨⟨⟨⟨⟨hn, he⟩, hw⟩, hst⟩, hsf⟩, hspb⟩, hsk⟩, hsl⟩
      · simp only [hfloor]
        omega
  · rintro ⟨⟨⟨⟨⟨⟨ht1, ht2⟩, hf⟩, hpb⟩, hk⟩, hlimits⟩, ⟨⟨⟨⟨⟨⟨⟨hn, he⟩, hw⟩, hst⟩, hsf⟩, hspb⟩, hsk⟩, hsl⟩, hend⟩
    have hfloor : (le16 p.floor).length = 2 := rfl
    refine ⟨i.number, ⟨hnumber, hn⟩, ?_⟩
    simp only [Subject.ofNumber_eq_some_iff.2 rfl, walk_bind_ok, walk_pure_ok, flagAt_ok_iff, byteIn_ok_iff (show 15 ≤ 255 by decide),
      Prod.exists, walkBody_ok_iff, wordIn_ok_iff (show 32767 ≤ 65535 by decide), byteIn_ok_iff (show 16 ≤ 255 by decide),
      walkLimits_ok_iff, endAt_ok_iff, Prod.mk.injEq]
    simp only [hfloor, Nat.zero_add, Nat.reduceAdd] at he hw hst hsf hspb hsk hsl hend
    exact ⟨_, he, _, hw, _, ⟨⟨ht1, ht2⟩, hst⟩, _, ⟨⟨Nat.zero_le _, hf⟩, hsf⟩, _, _, ⟨hpb, hspb, rfl⟩, _, ⟨⟨Nat.zero_le _, hk⟩, hsk⟩, _,
      ⟨⟨rfl, hlimits⟩, hsl⟩, (), by omega, trivial, rfl⟩

end Sys2Proof.Machine
end

