-- ==== Sys2Proof/Proofs/EdgeLaw.lean ====
section
/-! PROOFS. The laws of the qualifier's edges (chapter 1, R2, R3, R4): what a sample, an acceptance and a reset of the qualifier do to the
order of the edges and of the run in progress, and that every step keeps it. -/

namespace Sys2Proof.Machine

/-! ### The qualifier against the sample clock -/

/-- The laws of the qualifier's edges and run, against the tick of the last sample. -/
structure Qualifier.Ordered (q : Qualifier) (sampled : Option Nat) : Prop where
  rising : q.edges.Pairwise (· < ·)
  before_first : sampled = none → q.edges = [] ∧ q.runCount = 0
  after : ∀ last, sampled = some last →
    (∀ t ∈ q.edges, t ≤ last) ∧ (0 < q.runCount → q.runStart ≤ last ∧ ∀ t ∈ q.edges, t < q.runStart)

theorem edgeLaw_iff {s : State} : EdgeLaw s ↔ 0 < s.sync.depth ∧ s.qualifier.Ordered s.sampled :=
  ⟨fun ⟨hdepth, h1, h2, h3⟩ => ⟨hdepth, h1, h2, h3⟩, fun ⟨hdepth, h1, h2, h3⟩ => ⟨hdepth, h1, h2, h3⟩⟩

theorem Qualifier.reset_ordered (sampled : Option Nat) : Qualifier.reset.Ordered sampled := by
  constructor <;> simp [Qualifier.reset]

namespace Qualifier.Ordered

variable {q : Qualifier} {sampled : Option Nat} (h : q.Ordered sampled)

include h

/-- The edges that are left after the oldest is taken. -/
theorem taken {t : Nat} {rest : List Nat} (hedges : q.edges = t :: rest) : ({ q with edges := rest } : Qualifier).Ordered sampled := by
  have hsub : ∀ x ∈ rest, x ∈ q.edges := fun x hx => hedges ▸ List.mem_cons_of_mem t hx
  refine ⟨?_, fun hnone => ?_, fun last hlast => ?_⟩
  · have hrising := h.rising
    rw [hedges] at hrising
    exact hrising.of_cons
  · have hempty := (h.before_first hnone).1
    rw [hedges] at hempty
    cases hempty
  · obtain ⟨hle, hrun⟩ := h.after last hlast
    exact ⟨fun x hx => hle x (hsub x hx), fun hpos => ⟨(hrun hpos).1, fun x hx => (hrun hpos).2 x (hsub x hx)⟩⟩

/-- A run of at least one sample that is accepted is dated to its start, after every edge before. -/
theorem accept {y : SyncSettings} (hdepth : 0 < y.depth) : (q.accept y).Ordered sampled := by
  unfold Qualifier.accept
  split
  · exact h
  · rename_i high _
    split
    · exact h
    · rename_i hrun
      have hpos : 0 < q.runCount := by omega
      refine ⟨?_, fun hnone => ?_, fun last hlast => ?_⟩
      · cases hs : sampled with
        | none =>
          have hzero := (h.before_first hs).2
          omega
        | some last =>
          have hbefore := ((h.after last hs).2 hpos).2
          dsimp only
          split
          · simpa [List.pairwise_append] using ⟨h.rising, hbefore⟩
          · exact h.rising
      · have hzero := (h.before_first hnone).2
        omega
      · obtain ⟨hle, hstart⟩ := h.after last hlast
        refine ⟨fun t ht => ?_, by simp⟩
        dsimp only at ht
        split at ht
        · rcases List.mem_append.1 ht with ht | ht
          · exact hle t ht
          · obtain rfl := List.mem_singleton.1 ht
            exact (hstart hpos).1
        · exact hle t ht

/-- A later sample ends the run, begins one at its own tick, or lengthens the one in progress. -/
theorem sampleStep {t : Nat} (hlater : ∀ last, sampled = some last → last < t) {level : Option Bool} {count start : Nat}
    (hrun : count = 0 ∨ (count = 1 ∧ start = t) ∨ (0 < q.runCount ∧ start = q.runStart)) :
    ({ level := level, runCount := count, runStart := start, edges := q.edges } : Qualifier).Ordered (some t) := by
  have hedges : ∀ x ∈ q.edges, x < t := fun x hx => by
    cases hs : sampled with
    | none =>
      rw [(h.before_first hs).1] at hx
      cases hx
    | some last => exact ((h.after last hs).1 x hx).trans_lt (hlater last hs)
  refine ⟨h.rising, by simp, fun last hlast => ?_⟩
  cases hlast
  refine ⟨fun x hx => (hedges x hx).le, fun hpos => ?_⟩
  rcases hrun with rfl | ⟨-, rfl⟩ | ⟨hrunning, rfl⟩
  · cases hpos
  · exact ⟨le_rfl, hedges⟩
  · cases hs : sampled with
    | none =>
      have hzero := (h.before_first hs).2
      omega
    | some last =>
      obtain ⟨hstart, hbefore⟩ := (h.after last hs).2 hrunning
      exact ⟨(hstart.trans_lt (hlater last hs)).le, hbefore⟩

theorem sample {y : SyncSettings} (hdepth : 0 < y.depth) {t : Nat} (hlater : ∀ last, sampled = some last → last < t) (high : Bool) :
    (q.sample y t high).Ordered (some t) := by
  have haccepted := h.accept hdepth
  unfold Qualifier.sample
  dsimp only
  (repeat' split)
  · exact haccepted.sampleStep hlater (.inl rfl)
  · exact haccepted.sampleStep hlater (.inl rfl)
  · exact haccepted.sampleStep hlater (.inr (.inl ⟨rfl, rfl⟩))
  · exact haccepted.sampleStep hlater (.inr (.inr ⟨by omega, rfl⟩))

end Qualifier.Ordered

/-! ### The tracker's resets of the qualifier (R4) -/

theorem State.enterSearch_qualifier (s : State) (n : Nat) :
    (s.enterSearch n).qualifier = s.qualifier ∨ (s.enterSearch n).qualifier = .reset := by
  unfold State.enterSearch
  dsimp only
  split
  · exact .inl (by simp)
  · exact .inr rfl

theorem State.syncLoss_qualifier (s : State) : s.syncLoss.qualifier = s.qualifier ∨ s.syncLoss.qualifier = .reset :=
  State.enterSearch_qualifier _ _

theorem State.missBoundary_qualifier (s : State) (g : Grid) :
    (s.missBoundary g).qualifier = s.qualifier ∨ (s.missBoundary g).qualifier = .reset := by
  unfold State.missBoundary
  dsimp only
  (repeat' split)
  · exact State.enterSearch_qualifier _ _
  · exact .inl (by simp)
  · exact State.syncLoss_qualifier _
  · exact .inl rfl
  · exact .inl rfl

section

variable {s t : State}

theorem EdgeLaw.of_same (h : EdgeLaw s) (hsync : t.sync = s.sync) (hqualifier : t.qualifier = s.qualifier)
    (hsampled : t.sampled = s.sampled) : EdgeLaw t := by
  rw [edgeLaw_iff] at h ⊢
  rwa [hsync, hqualifier, hsampled]

/-- A qualifier that was left or reset keeps the laws. -/
theorem EdgeLaw.of_reset (h : EdgeLaw s) (hsync : t.sync = s.sync) (hqualifier : t.qualifier = s.qualifier ∨ t.qualifier = .reset)
    (hsampled : t.sampled = s.sampled) : EdgeLaw t := by
  rcases hqualifier with hsame | hreset
  · exact h.of_same hsync hsame hsampled
  · rw [edgeLaw_iff] at h ⊢
    rw [hsync, hreset]
    exact ⟨h.1, Qualifier.reset_ordered _⟩

theorem syncOk_depth_pos {y : SyncSettings} (h : syncOk y = true) : 0 < y.depth := by
  simp only [syncOk, powerLength, Bool.and_eq_true, Bool.or_eq_true, beq_iff_eq] at h
  omega

/-- New settings reset the qualifier, which may then be reset again by the entry into SEARCH. -/
theorem State.restartTracker_qualifier (s : State) (y : SyncSettings) (c : AbortCause) : (s.restartTracker y c).qualifier = .reset := by
  unfold State.restartTracker
  rcases State.enterSearch_qualifier
    ((({ s with sync := y, qualifier := .reset } : State).tellEngine (.abort c)).raise .sync) 1 with h | h <;> exact h

theorem State.restartTracker_sync (s : State) (y : SyncSettings) (c : AbortCause) : (s.restartTracker y c).sync = y := by
  unfold State.restartTracker
  simp

theorem edgeLaw_of_qualifier_reset (hdepth : 0 < s.sync.depth) (hqualifier : s.qualifier = .reset) : EdgeLaw s := by
  rw [edgeLaw_iff, hqualifier]
  exact ⟨hdepth, Qualifier.reset_ordered _⟩

/-- The settings that a start-up loads pass the checks of SET-SYNC: the image's were checked, and the defaults pass. -/
theorem Image.loaded_syncOk (m : Image) : syncOk m.loaded.sync = true := by
  unfold Image.loaded
  split
  · rename_i hpasses
    simp only [Image.passes, contentsOk, Bool.and_eq_true] at hpasses
    exact hpasses.2.1.1.1.1
  · decide

theorem EdgeLaw.ownerTakes (h : EdgeLaw s) (k : RequestKind) (body : List Byte) : EdgeLaw (ownerTakes k body s).2 := by
  cases k with
  | setSync =>
    simp only [Machine.ownerTakes, ownSetSync]
    split
    · exact h
    · rename_i y hwalk
      refine edgeLaw_of_qualifier_reset ?_ (State.restartTracker_qualifier _ _ _)
      rw [State.restartTracker_sync]
      exact syncOk_depth_pos ((syncBodiesAreExactlyLegalSettings _ _).1 hwalk).1
  | loadDefaults =>
    refine edgeLaw_of_qualifier_reset ?_ ?_
    · simp [Machine.ownerTakes, ownLoadDefaults, State.loadDefaults, State.restartTracker_sync, SyncSettings.default]
    · simp [Machine.ownerTakes, ownLoadDefaults, State.loadDefaults, State.restartTracker_qualifier]
  | _ =>
    exact h.of_same (ownerTakes_frame _ body s (b := .sync) (by decide)) (ownerTakes_frame _ body s (b := .qualifier) (by decide))
      (ownerTakes_frame _ body s (b := .sampled) (by decide))

end

theorem edgeLaw_keptByLink : KeptByLink EdgeLaw where
  reach _ _ h := h.of_same rfl rfl rfl
  link _ _ h _ := h.of_same rfl rfl rfl
  marks _ h := h.of_same rfl rfl rfl
  owner k body _ h _ _ := h.ownerTakes k body
  reset _ _ _ := edgeLaw_of_qualifier_reset (Nat.zero_lt_succ 3) rfl

/-- Settles O58: a sample comes after the sample before, an accepted run after every edge, and every other row leaves the qualifier, takes
its oldest edge or resets it. -/
theorem stepKeepsTheEdgeLaw : Obligations.StepKeepsTheEdgeLaw := by
  refine step_keeps (bs := [.sync, .qualifier, .sampled]) (by simp) (by simp)
    (fun s t h hsame => h.of_same (hsame .sync (by simp)) (hsame .qualifier (by simp)) (hsame .sampled (by simp)))
    edgeLaw_keptByLink fun c s t htouch h hexec => ?_
  obtain ⟨hdepth, hordered⟩ := edgeLaw_iff.1 h
  cases c with
  | acceptedTransition =>
    cases hexec
    exact edgeLaw_iff.2 ⟨hdepth, hordered.accept hdepth⟩
  | edge =>
    simp only [exec, execEdge] at hexec
    split at hexec
    · cases hexec
      exact h
    · rename_i t rest hedges
      have htaken : EdgeLaw (s.withEdges rest) := edgeLaw_iff.2 ⟨hdepth, hordered.taken hedges⟩
      (repeat' split at hexec) <;> cases hexec
      · exact htaken.of_same (by simp) (by simp) (by simp)
      · exact h
      · exact htaken.of_same (by simp) (by simp) (by simp)
  | lateZoneClose =>
    have hsync := exec_frame rfl hexec (b := .sync) (by simp [rowTouches])
    have hsampled := exec_frame rfl hexec (b := .sampled) (by simp [rowTouches])
    simp only [exec, execLateZoneClose] at hexec
    (repeat' split at hexec) <;> cases hexec
    · exact h
    · exact h
    · exact h.of_same rfl rfl rfl
    · exact h.of_reset hsync (State.missBoundary_qualifier _ _) hsampled
  | searchTimerExpiry =>
    have hsync := exec_frame rfl hexec (b := .sync) (by simp [rowTouches])
    have hsampled := exec_frame rfl hexec (b := .sampled) (by simp [rowTouches])
    simp only [exec, execSearchTimerExpiry] at hexec
    (repeat' split at hexec) <;> cases hexec
    · exact h
    · exact h.of_reset hsync (State.enterSearch_qualifier _ _) hsampled
    · exact h.of_same rfl rfl rfl
  | resetEnd time straps =>
    simp only [exec, execResetEnd] at hexec
    (repeat' split at hexec) <;> cases hexec
    · exact edgeLaw_iff.2 ⟨syncOk_depth_pos (Image.loaded_syncOk _), hordered⟩
    all_goals exact h
  | endOfStartUp time =>
    simp only [exec, execEndOfStartUp] at hexec
    (repeat' split at hexec) <;> cases hexec
    · exact edgeLaw_of_qualifier_reset (by simpa [State.endStartUp] using hdepth) (by simp [State.endStartUp])
    all_goals exact h
  | qualifierSample time inputs =>
    simp only [exec, execQualifierSample] at hexec
    split at hexec <;> cases hexec
    · rename_i hdue
      refine edgeLaw_iff.2 ⟨hdepth, hordered.sample hdepth (fun last hlast => ?_) _⟩
      have hclock := hdue.2
      simp only [State.sampleClockAt, hlast, decide_eq_true_eq] at hclock
      omega
    · exact h
  | _ => simp [rowTouches] at htouch

end Sys2Proof.Machine
end

