-- ==== Sys2Proof/Proofs/FieldRanges.lean ====
section
/-! PROOFS. The field checks of SET-LINES and SET-NOTICES (chapter 8, R163, R164, R175, R176): the first byte outside its range is found,
and none is found exactly when every byte lies in its range; settings read from such a body are legal. -/

namespace Sys2Proof.Machine

/-! ### The first bad field -/

/-- The byte at an offset lies in the range given. -/
def inRangeAt (body : List Byte) (r : Nat × Nat) (k : Nat) : Prop := r.1 ≤ u8At body k ∧ u8At body k ≤ r.2

theorem inRangeAt_succ {b : Byte} {body : List Byte} {r : Nat × Nat} {k : Nat} :
    inRangeAt (b :: body) r (k + 1) ↔ inRangeAt body r k := by
  simp [inRangeAt, u8At]

/-- No field is bad when every byte lies in its range. -/
theorem firstBad_eq_none_iff {ranges : List (Nat × Nat)} {body : List Byte} {off : Nat} (hlength : body.length = ranges.length) :
    firstBad ranges body off = none ↔ ∀ k r, ranges[k]? = some r → inRangeAt body r k := by
  induction ranges generalizing body off with
  | nil => cases body <;> simp [firstBad]
  | cons r rs ih =>
    match body, hlength with
    | b :: bs, hlength =>
      rw [firstBad]
      split
      · rename_i hgood
        rw [ih (by simpa using hlength)]
        constructor
        · intro hall k r' hk
          cases k with
          | zero =>
            obtain rfl : r = r' := by simpa using hk
            exact hgood
          | succ k => exact inRangeAt_succ.2 (hall k r' (by simpa using hk))
        · exact fun hall k r' hk => inRangeAt_succ.1 (hall (k + 1) r' (by simpa using hk))
      · rename_i hbad
        simp only [reduceCtorEq, false_iff]
        exact fun hall => hbad (hall 0 r rfl)

/-- The first bad field is the one outside its range before which every byte is in range. -/
theorem firstBad_eq_some {ranges : List (Nat × Nat)} {body : List Byte} {off k : Nat} {r : Nat × Nat}
    (hlength : body.length = ranges.length) (hr : ranges[k]? = some r) (hbad : ¬inRangeAt body r k)
    (hgood : ∀ j r, j < k → ranges[j]? = some r → inRangeAt body r j) : firstBad ranges body off = some (off + k) := by
  induction ranges generalizing body off k with
  | nil => simp at hr
  | cons r' rs ih =>
    match body, hlength with
    | b :: bs, hlength =>
      rw [firstBad]
      cases k with
      | zero =>
        obtain rfl : r' = r := by simpa using hr
        exact if_neg hbad
      | succ k =>
        have hfirst : r'.1 ≤ b.toNat ∧ b.toNat ≤ r'.2 := hgood 0 r' (Nat.succ_pos k) rfl
        rw [if_pos hfirst,
          ih (by simpa using hlength) (by simpa using hr) (fun h => hbad (inRangeAt_succ.2 h))
            fun j r'' hj hr'' => inRangeAt_succ.1 (hgood (j + 1) r'' (by omega) (by simpa using hr''))]
        congr 1
        omega

/-! ### Legal settings from checked bodies -/

/-- The ranges of the SET-NOTICES body, by offset: an enable and a level for each class, then the floor and the master enable (R175). -/
theorem noticeRanges_eq : noticeRanges = (List.range 26).map fun k => (0, if k = 25 ∨ (k < 24 ∧ k % 2 = 0) then 1 else 3) := by decide

/-- The ranges of the SET-LINES body, by offset within a line's eleven bytes (R163). -/
theorem linesRanges_eq :
    linesRanges = (List.range 44).map fun k =>
      (if 9 ≤ k % 11 then 1 else 0, if k % 11 < 5 then 2 else if k % 11 = 5 then 15 else if k % 11 < 9 then 1 else 255) := by
  decide

theorem noticesOf_legal {body : List Byte} (hlength : body.length = 26) (h : firstBad noticeRanges body 0 = none) :
    noticesLegal (noticesOf body) := by
  rw [firstBad_eq_none_iff (by simpa [noticeRanges_eq] using hlength), noticeRanges_eq] at h
  refine ⟨fun c => ?_, ?_⟩
  · have hlevel := h (2 * c.number + 1) (0, 3) (by cases c <;> rfl)
    simpa [noticesOf] using hlevel.2
  · exact (h 24 (0, 3) rfl).2

theorem linesOf_legal {body : List Byte} (hlength : body.length = 44) (h : firstBad linesRanges body 0 = none) :
    linesLegal (linesOf body) := by
  rw [firstBad_eq_none_iff (by simpa [linesRanges_eq] using hlength), linesRanges_eq] at h
  intro l
  cases l with
  | alm0 => exact ⟨(h 9 (1, 255) rfl).1, (h 9 (1, 255) rfl).2, (h 10 (1, 255) rfl).1, (h 10 (1, 255) rfl).2⟩
  | alm1 => exact ⟨(h 20 (1, 255) rfl).1, (h 20 (1, 255) rfl).2, (h 21 (1, 255) rfl).1, (h 21 (1, 255) rfl).2⟩
  | alm2 => exact ⟨(h 31 (1, 255) rfl).1, (h 31 (1, 255) rfl).2, (h 32 (1, 255) rfl).1, (h 32 (1, 255) rfl).2⟩
  | alm3 => exact ⟨(h 42 (1, 255) rfl).1, (h 42 (1, 255) rfl).2, (h 43 (1, 255) rfl).1, (h 43 (1, 255) rfl).2⟩

end Sys2Proof.Machine
end

