-- ==== Sys2Proof/Proofs/SettingsLaw.lean ====
section
/-! PROOFS. The working settings' laws (chapters 1, 3, 4, 8 and 10, R1, R35, R49, R65, R76, R163, R170, R203, R213): what the window
schedule, the Subject Table and the owners of requests do to them, and that every step keeps them. -/

namespace Sys2Proof.Machine

/-! ### The laws, part by part -/

/-- W and a pending W are window lengths, and a W is pending only while a window runs (R35, R49). -/
structure Engine.Lawful (e : Engine) : Prop where
  length : e.w ∈ [2, 4, 8, 16]
  pending : ∀ w, e.pendingW = some w → w ∈ [2, 4, 8, 16] ∧ e.running = true

/-- The profiles of a subject are legal, and one is pending only while the subject is MEASURING (R76, R77). -/
structure SubjectEntry.Lawful (i : Subject) (e : SubjectEntry) : Prop where
  active : profileOk i e.active = true
  pending : ∀ p, e.pendingProfile = some p → profileOk i p = true ∧ e.state = .measuring

/-- Every subject's entry is lawful. -/
def TableLaw (table : PerSubject SubjectEntry) : Prop := ∀ i, (table.get i).Lawful i

/-- The laws of `SettingsLaw`, block by block. -/
structure SettingsParts (s : State) : Prop where
  sync : syncOk s.sync = true
  notices : noticesLegal s.notices.settings
  lines : linesLegal s.lines.settings
  engine : s.engine.Lawful
  table : TableLaw s.table
  idle : s.phase ≠ .running → s.link.state = .off ∧ ∀ i, (s.table.get i).state = .disabled

theorem settingsLaw_iff {s : State} : SettingsLaw s ↔ SettingsParts s := by
  constructor
  · rintro ⟨hsync, hnotices, hlines, hw, hpending, hsubject⟩
    refine ⟨hsync, hnotices, hlines, ⟨hw, hpending⟩, fun i => ⟨(hsubject i).1, (hsubject i).2.1⟩, fun hphase => ?_⟩
    exact ⟨((hsubject .g0).2.2 hphase).1, fun i => ((hsubject i).2.2 hphase).2⟩
  · rintro ⟨hsync, hnotices, hlines, ⟨hw, hpending⟩, htable, hidle⟩
    exact ⟨hsync, hnotices, hlines, hw, hpending,
      fun i => ⟨(htable i).active, (htable i).pending, fun hphase => ⟨(hidle hphase).1, (hidle hphase).2 i⟩⟩⟩

/-- With its Link Controller awake the block is running. -/
theorem SettingsParts.running_of_awake {s : State} (h : SettingsParts s) (hon : s.link.state ≠ .off) : s.phase = .running :=
  Classical.byContradiction fun hphase => hon (h.idle hphase).1

/-! ### The Engine -/

namespace Engine.Lawful

variable {e : Engine} (h : e.Lawful)

include h

theorem of_same {e' : Engine} (hw : e'.w = e.w) (hpending : e'.pendingW = e.pendingW) (hrunning : e'.running = e.running) :
    e'.Lawful :=
  ⟨hw ▸ h.length, fun w hw => hrunning ▸ h.pending w (hpending ▸ hw)⟩

/-- The end of a window puts a pending W to use (R42, R45). -/
theorem closed (ended : Bool) : (e.closed ended).Lawful where
  length := by
    cases hp : e.pendingW with
    | none => simpa [Engine.closed, hp] using h.length
    | some w => simpa [Engine.closed, hp] using (h.pending w hp).1
  pending := by simp [Engine.closed]

theorem take (x : SampleSet) : (e.take x).Lawful := by
  unfold Engine.take
  split <;> exact h.of_same rfl rfl rfl

end Engine.Lawful

theorem Engine.reset_lawful {w : Nat} (hw : w ∈ [2, 4, 8, 16]) : (Engine.reset w).Lawful := ⟨hw, by simp [Engine.reset]⟩

theorem Engine.toDefault_lawful (e : Engine) : e.toDefault.Lawful :=
  ⟨by simp [Engine.toDefault, defaultWindow], by simp [Engine.toDefault]⟩

theorem powerLength_iff {w : Nat} : powerLength w = true ↔ w ∈ [2, 4, 8, 16] := by simp [powerLength, or_assoc]

theorem State.abortWindow_engine (s : State) :
    s.abortWindow.engine = if s.engine.running then s.engine.closed false else s.engine := by
  unfold State.abortWindow
  dsimp only
  split <;> simp

theorem State.abortWindow_lawful {s : State} (h : s.engine.Lawful) : s.abortWindow.engine.Lawful := by
  rw [State.abortWindow_engine]
  split
  · exact h.closed false
  · exact h

theorem State.endWindow_engine (s : State) (last : Word32) :
    (s.endWindow last).engine = { s.engine.closed true with windowNumber := s.engine.windowNumber + 1 } := by
  simp [State.endWindow]

theorem State.takeCycleEnd_lawful {s : State} (h : s.engine.Lawful) (n : Word32) (mark : Bool) :
    (s.takeCycleEnd n mark).engine.Lawful := by
  unfold State.takeCycleEnd
  split
  · have hcounted : ({ s.engine with
        completed := s.engine.completed + 1, holdover := s.engine.holdover || mark, justEnded := false } : Engine).Lawful :=
      h.of_same rfl rfl rfl
    dsimp only
    (repeat' split)
    · rw [State.endWindow_engine]
      exact (hcounted.closed true).of_same rfl rfl rfl
    · exact State.abortWindow_lawful hcounted
    · exact hcounted
  · exact h.of_same rfl rfl rfl

/-- A window starts only when none runs, so that no W is pending then. -/
theorem State.takeCycleStart_lawful {s : State} (h : s.engine.Lawful) (n : Word32) : (s.takeCycleStart n).engine.Lawful := by
  unfold State.takeCycleStart
  split
  · exact h.of_same rfl rfl rfl
  · split
    · exact ⟨h.length, fun w hw => ⟨(h.pending w hw).1, rfl⟩⟩
    · exact h.of_same rfl rfl rfl

theorem State.stageWindow_lawful {s : State} (h : s.engine.Lawful) {w : Nat} (hw : w ∈ [2, 4, 8, 16]) :
    (s.stageWindow w).engine.Lawful := by
  unfold State.stageWindow
  split
  · rename_i hrunning
    refine ⟨h.length, fun w' hw' => ?_⟩
    cases hw'
    exact ⟨hw, hrunning⟩
  · exact ⟨hw, h.pending⟩

/-! ### The Subject Table -/

/-- The entry after an activation (R80). -/
theorem State.activate_table (s : State) (i : Subject) (p : Profile) :
    (s.activate i p).table = s.table.set i { s.table.get i with active := p, pendingProfile := none } := by
  simp [State.activate]

/-- A subject's entry after its naming (R71, R78): a MEASURING subject waits, with its pending profile active. -/
def SubjectEntry.named (e : SubjectEntry) : SubjectEntry :=
  if e.state = .measuring then { state := .waiting, active := e.pendingProfile.getD e.active, pendingProfile := none } else e

theorem State.nameOne_get (s : State) (i j : Subject) :
    (s.nameOne i).table.get j = if j = i then (s.table.get i).named else s.table.get j := by
  unfold State.nameOne SubjectEntry.named
  dsimp only
  split
  case h_1 hstate =>
    split
    case h_1 hpending => simp [hstate, hpending]
    case h_2 hpending =>
      rw [State.activate_table]
      by_cases hji : j = i <;> simp [hstate, hpending, hji]
  all_goals
    simp only [*, reduceCtorEq, if_false]
    split <;> simp [*]

namespace SubjectEntry.Lawful

variable {i : Subject} {e : SubjectEntry} (h : e.Lawful i)

include h

theorem no_pending (hstate : e.state ≠ .measuring) : e.pendingProfile = none :=
  Option.eq_none_iff_forall_ne_some.2 fun p hp => hstate (h.pending p hp).2

theorem named : e.named.Lawful i := by
  unfold SubjectEntry.named
  split
  · refine ⟨?_, by simp⟩
    cases hp : e.pendingProfile with
    | none => exact h.active
    | some p => exact (h.pending p hp).1
  · exact h

/-- A subject that has no pending profile may take any state. -/
theorem withState (hstate : e.state ≠ .measuring) (st : SubjectState) : ({ e with state := st } : SubjectEntry).Lawful i :=
  ⟨h.active, fun p hp => by simp [h.no_pending hstate] at hp⟩

theorem disabled : ({ e with state := .disabled, active := e.pendingProfile.getD e.active, pendingProfile := none } :
    SubjectEntry).Lawful i := by
  refine ⟨?_, by simp⟩
  cases hp : e.pendingProfile with
  | none => exact h.active
  | some p => exact (h.pending p hp).1

end SubjectEntry.Lawful

theorem SubjectEntry.lawful_of_active {i : Subject} {e : SubjectEntry} (hactive : profileOk i e.active = true)
    (hpending : e.pendingProfile = none) : e.Lawful i :=
  ⟨hactive, by simp [hpending]⟩

theorem TableLaw.set {table : PerSubject SubjectEntry} (h : TableLaw table) {i : Subject} {e : SubjectEntry} (he : e.Lawful i) :
    TableLaw (table.set i e) := fun j => by
  rw [PerSubject.get_set]
  split
  case isTrue hji => exact hji ▸ he
  case isFalse => exact h j

theorem tableReset_law {ps : PerSubject Profile} (h : ∀ i, profileOk i (ps.get i) = true) : TableLaw (tableReset ps) := fun i => by
  rw [tableReset, PerSubject.get_ofFn]
  exact SubjectEntry.lawful_of_active (h i) rfl

theorem tableReset_disabled (ps : PerSubject Profile) (i : Subject) : ((tableReset ps).get i).state = .disabled := by
  rw [tableReset, PerSubject.get_ofFn]
  rfl

theorem defaultProfiles_ok (i : Subject) : profileOk i (defaultProfiles.get i) = true := by cases i <;> decide

theorem TableLaw.foldl_nameOne {s : State} (h : TableLaw s.table) (names : List Subject) :
    TableLaw (names.foldl State.nameOne s).table := by
  induction names generalizing s with
  | nil => exact h
  | cons i rest ih =>
    refine ih fun j => ?_
    rw [State.nameOne_get]
    split
    case isTrue hji => exact hji ▸ (h i).named
    case isFalse => exact h j

/-- A naming leaves a DISABLED subject DISABLED. -/
theorem State.foldl_nameOne_disabled {s : State} (h : ∀ i, (s.table.get i).state = .disabled) (names : List Subject) (i : Subject) :
    ((names.foldl State.nameOne s).table.get i).state = .disabled := by
  induction names generalizing s with
  | nil => exact h i
  | cons k rest ih =>
    refine ih fun j => ?_
    rw [State.nameOne_get]
    split <;> simp [SubjectEntry.named, h]

theorem TableLaw.startMeasuring {table : PerSubject SubjectEntry} (h : TableLaw table) : TableLaw (startMeasuring table) := fun i => by
  rw [Machine.startMeasuring, PerSubject.get_ofFn]
  dsimp only
  split
  case isTrue hwaiting => exact (h i).withState (by simp [hwaiting]) .measuring
  case isFalse => exact h i

theorem startMeasuring_disabled {table : PerSubject SubjectEntry} (h : ∀ i, (table.get i).state = .disabled) (i : Subject) :
    ((startMeasuring table).get i).state = .disabled := by
  simp [startMeasuring, h]

theorem State.takeCycleStart_table (s : State) (n : Word32) :
    (s.takeCycleStart n).table = s.table ∨ (s.takeCycleStart n).table = startMeasuring s.table := by
  unfold State.takeCycleStart
  (repeat' split)
  · exact .inl rfl
  · exact .inr rfl
  · exact .inl rfl

theorem TableLaw.enableSubject {s : State} (h : TableLaw s.table) (i : Subject) : TableLaw (s.enableSubject i).table := by
  unfold State.enableSubject
  dsimp only
  split
  case h_1 hstate => simpa using h.set ((h i).withState (by simp [hstate]) .waiting)
  all_goals exact h

theorem TableLaw.disableSubject {s : State} (h : TableLaw s.table) (i : Subject) : TableLaw (s.disableSubject i).table := by
  unfold State.disableSubject
  dsimp only
  split
  · exact h
  case h_2 hstate => simpa using h.set ((h i).withState (by simp [hstate]) .disabled)
  case h_3 =>
    have hdisabled := (h i).disabled
    split
    case h_1 hpending => simpa using h.set (SubjectEntry.lawful_of_active (e := { s.table.get i with state := .disabled }) (h i).active hpending)
    case h_2 hpending =>
      rw [hpending] at hdisabled
      simpa using h.set hdisabled

theorem TableLaw.stageProfile {s : State} (h : TableLaw s.table) {i : Subject} {p : Profile} (hp : profileOk i p = true) :
    TableLaw (s.stageProfile i p).1.table := by
  have hactivated : TableLaw (s.activate i p).table := by
    rw [State.activate_table]
    exact h.set (SubjectEntry.lawful_of_active hp rfl)
  unfold State.stageProfile
  dsimp only
  split
  case h_1 hstate =>
    refine h.set ⟨(h i).active, fun p' hp' => ?_⟩
    cases hp'
    exact ⟨hp, hstate⟩
  all_goals exact hactivated

/-- At the end of start-up every subject is DISABLED and may begin to wait. -/
theorem TableLaw.foldl_startSubject {s : State} (h : TableLaw s.table) (hidle : ∀ i, (s.table.get i).state ≠ .measuring)
    (names : List Subject) : TableLaw (names.foldl State.startSubject s).table := by
  induction names generalizing s with
  | nil => exact h
  | cons i rest ih =>
    have hstep : (s.startSubject i).table = s.table ∨
        (s.startSubject i).table = s.table.set i { s.table.get i with state := .waiting } := by
      unfold State.startSubject
      dsimp only
      split
      · exact .inr rfl
      · exact .inl rfl
    rcases hstep with hstep | hstep
    · exact ih (hstep ▸ h) (hstep ▸ hidle)
    · refine ih (hstep ▸ h.set ((h i).withState (hidle i) .waiting)) fun j => ?_
      rw [hstep, PerSubject.get_set]
      split
      · simp
      · exact hidle j

/-! ### The parts of a state that changes -/

namespace SettingsParts

variable {s t : State} (h : SettingsParts s)

include h

/-- What the laws read is unchanged. -/
theorem of_same (hsync : t.sync = s.sync) (hnotices : t.notices.settings = s.notices.settings)
    (hlines : t.lines.settings = s.lines.settings) (hengine : t.engine = s.engine) (htable : t.table = s.table) (hphase : t.phase = s.phase)
    (hlink : t.link = s.link) : SettingsParts t :=
  ⟨hsync ▸ h.sync, hnotices ▸ h.notices, hlines ▸ h.lines, hengine ▸ h.engine, htable ▸ h.table,
    by rw [hphase, hlink, htable]; exact h.idle⟩

/-- Outside the Engine what the laws read is unchanged. -/
theorem setEngine (hengine : t.engine.Lawful) (hsync : t.sync = s.sync) (hnotices : t.notices.settings = s.notices.settings)
    (hlines : t.lines.settings = s.lines.settings) (htable : t.table = s.table) (hphase : t.phase = s.phase) (hlink : t.link = s.link) :
    SettingsParts t :=
  ⟨hsync ▸ h.sync, hnotices ▸ h.notices, hlines ▸ h.lines, hengine, htable ▸ h.table, by rw [hphase, hlink, htable]; exact h.idle⟩

/-- Outside the Subject Table what the laws read is unchanged, and the table keeps DISABLED subjects DISABLED. -/
theorem setTable (htable : TableLaw t.table)
    (hdisabled : (∀ i, (s.table.get i).state = .disabled) → ∀ i, (t.table.get i).state = .disabled) (hengine : t.engine.Lawful)
    (hsync : t.sync = s.sync) (hnotices : t.notices = s.notices) (hlines : t.lines = s.lines) (hphase : t.phase = s.phase)
    (hlink : t.link = s.link) : SettingsParts t :=
  ⟨hsync ▸ h.sync, hnotices ▸ h.notices, hlines ▸ h.lines, hengine, htable, fun hp => by
    rw [hphase] at hp
    exact ⟨hlink ▸ (h.idle hp).1, hdisabled (h.idle hp).2⟩⟩

omit h in
/-- In running the laws ask nothing of the Link Controller and the subjects' states. -/
theorem of_running (hphase : t.phase = .running) (hsync : syncOk t.sync = true) (hnotices : noticesLegal t.notices.settings)
    (hlines : linesLegal t.lines.settings) (hengine : t.engine.Lawful) (htable : TableLaw t.table) : SettingsParts t :=
  ⟨hsync, hnotices, hlines, hengine, htable, fun hp => absurd hphase hp⟩

end SettingsParts

theorem noticeDefault_legal : noticesLegal NoticeSettings.default := by
  rw [← noticesOk_iff]
  decide

theorem defaultLines_legal : linesLegal defaultLines := by
  rw [← linesOk_iff]
  decide

/-- The settings that a start-up loads are legal: the image's were checked, and the defaults pass (R214). -/
theorem Image.loaded_legal (m : Image) : contentsLegal m.loaded := by
  rw [← contentsOk_iff]
  unfold Image.loaded
  split
  · rename_i hpasses
    simp only [Image.passes, Bool.and_eq_true] at hpasses
    exact hpasses.2
  · decide

/-- A request is taken in running only, and its owner keeps every setting legal. -/
theorem SettingsParts.ownerTakes {s : State} (h : SettingsParts s) (hon : s.link.state ≠ .off) (k : RequestKind) (body : List Byte)
    (hlength : lengthRefusal k body = none) : SettingsParts (ownerTakes k body s).2 := by
  have hrunning := h.running_of_awake hon
  have hbody {n : Nat} (hfixed : k.fixedLength = some n) : body.length = n := by
    by_contra hne
    rw [lengthRefusal_of_length_ne hfixed hne] at hlength
    cases hlength
  cases k with
  | setSync =>
    simp only [Machine.ownerTakes, ownSetSync]
    split
    · exact h
    · rename_i y hwalk
      refine SettingsParts.of_running (by simpa using hrunning) ?_ (by simpa using h.notices) (by simpa using h.lines) (by simpa using h.engine)
        (by simpa using h.table)
      rw [State.restartTracker_sync]
      exact ((syncBodiesAreExactlyLegalSettings _ _).1 hwalk).1
  | setWindow =>
    simp only [Machine.ownerTakes, ownSetWindow]
    split
    · rename_i hw
      exact h.setEngine (State.stageWindow_lawful h.engine (powerLength_iff.1 hw)) (by simp) (by simp) (by simp) (by simp) (by simp) (by simp)
    · exact h
  | setProfile =>
    simp only [Machine.ownerTakes, ownSetProfile]
    split
    · exact h
    · rename_i i p hwalk
      have hp := ((profileBodiesAreExactlyLegalProfiles _ _ _).1 hwalk).1
      exact SettingsParts.of_running (by simpa using hrunning) (by simpa using h.sync) (by simpa using h.notices) (by simpa using h.lines)
        (by simpa using h.engine) (h.table.stageProfile hp)
  | enable =>
    simp only [Machine.ownerTakes, ownEnable]
    split
    · exact h
    · exact SettingsParts.of_running (by simpa using hrunning) (by simpa using h.sync) (by simpa using h.notices) (by simpa using h.lines)
        (by simpa using h.engine) (h.table.enableSubject _)
  | disable =>
    simp only [Machine.ownerTakes, ownDisable]
    split
    · exact h
    · exact SettingsParts.of_running (by simpa using hrunning) (by simpa using h.sync) (by simpa using h.notices) (by simpa using h.lines)
        (by simpa using h.engine) (h.table.disableSubject _)
  | setNotices =>
    simp only [Machine.ownerTakes, ownSetNotices]
    split
    · exact h
    · rename_i hgood
      exact SettingsParts.of_running hrunning h.sync (noticesOf_legal (hbody rfl) hgood) h.lines h.engine h.table
  | fetchNotices =>
    simp only [Machine.ownerTakes, ownFetchNotices]
    split <;> exact h.of_same rfl rfl rfl rfl rfl rfl rfl
  | setLines =>
    simp only [Machine.ownerTakes, ownSetLines]
    split
    · exact h
    · rename_i hgood
      exact SettingsParts.of_running hrunning h.sync h.notices (linesOf_legal (hbody rfl) hgood) h.engine h.table
  | loadDefaults =>
    simp only [Machine.ownerTakes, ownLoadDefaults, State.loadDefaults]
    refine SettingsParts.of_running (by simpa using hrunning) ?_ noticeDefault_legal defaultLines_legal ?_ ?_
    · simpa [State.restartTracker_sync] using show syncOk .default = true by decide
    · have hengine : s.abortForDefaults.engine = s.abortWindow.engine.toDefault := by
        unfold State.abortForDefaults
        split <;> simp [State.defaultEngine]
      simpa [hengine] using Engine.toDefault_lawful _
    · simpa using tableReset_law defaultProfiles_ok
  | clearCounters => exact SettingsParts.of_running hrunning h.sync h.notices h.lines h.engine h.table
  | _ =>
    exact h.of_same (ownerTakes_frame _ body s (b := .sync) (by decide))
      (congrArg NoticeUnit.settings (ownerTakes_frame _ body s (b := .notices) (by decide)))
      (congrArg AlarmDriver.settings (ownerTakes_frame _ body s (b := .lines) (by decide)))
      (ownerTakes_frame _ body s (b := .engine) (by decide)) (ownerTakes_frame _ body s (b := .table) (by decide))
      (ownerTakes_frame _ body s (b := .phase) (by decide)) (ownerTakes_frame _ body s (b := .link) (by decide))

theorem settingsParts_beginReset (s : State) (c : Cause) : SettingsParts (s.beginReset c) where
  sync := show syncOk .default = true by decide
  notices := noticeDefault_legal
  lines := defaultLines_legal
  engine := Engine.reset_lawful (by decide)
  table := tableReset_law defaultProfiles_ok
  idle _ := ⟨rfl, tableReset_disabled _⟩

theorem settingsParts_keptByLink : KeptByLink SettingsParts where
  reach _ _ h := h.of_same rfl rfl rfl rfl rfl rfl rfl
  link _ _ h hon := SettingsParts.of_running (h.running_of_awake hon) h.sync h.notices h.lines h.engine h.table
  marks _ h := h.of_same rfl rfl rfl rfl rfl rfl rfl
  owner k body _ h hon hlength := h.ownerTakes hon k body hlength
  reset s c _ := settingsParts_beginReset s c

/-- Start-up takes legal settings, with the Link Controller OFF and every subject DISABLED. -/
theorem settingsParts_beginStartUp (s : State) (t : Nat) (straps : Straps) : SettingsParts (s.beginStartUp t straps) := by
  obtain ⟨hsync, hwindow, hprofiles, hnotices, hlines⟩ := s.settings.image.loaded_legal
  exact ⟨hsync, hnotices, hlines, Engine.reset_lawful hwindow, tableReset_law hprofiles, fun _ => ⟨rfl, tableReset_disabled _⟩⟩

/-- The rows that touch what the laws read keep them. -/
theorem SettingsParts.rows {c : Instr} {s t : State}
    (htouch : ∃ b ∈ [Block.sync, .notices, .lines, .engine, .table, .phase, .link], b ∈ rowTouches c) (h : SettingsParts s)
    (hexec : exec c s = .next t) : SettingsParts t := by
  cases c with
  | sampleSet time =>
    simp only [exec, execSampleSet] at hexec
    (repeat' split at hexec) <;> cases hexec
    · exact h
    · exact h.setEngine (h.engine.take _) rfl rfl rfl rfl rfl rfl
    · exact h
  | windowStart =>
    simp only [exec, execWindowStart] at hexec
    split at hexec <;> cases hexec
    · rename_i n rest _ _ _
      have htable := State.takeCycleStart_table { s with transit := { s.transit with engine := rest } } n
      refine h.setTable ?_ (fun hdisabled => ?_) (State.takeCycleStart_lawful ?_ n) (by simp) (by simp) (by simp) (by simp) (by simp)
      · rcases htable with htable | htable
        · rw [htable]
          exact h.table
        · rw [htable]
          exact h.table.startMeasuring
      · rcases htable with htable | htable
        · rw [htable]
          exact hdisabled
        · rw [htable]
          exact startMeasuring_disabled hdisabled
      · exact h.engine
    · exact h
  | cycleEnd =>
    simp only [exec, execCycleEnd] at hexec
    split at hexec <;> cases hexec
    · refine h.setEngine (State.takeCycleEnd_lawful ?_ _ _) (by simp) (by simp) (by simp) (by simp) (by simp) (by simp)
      exact h.engine
    · exact h
  | windowAbort =>
    simp only [exec, execWindowAbort] at hexec
    split at hexec <;> cases hexec
    · refine h.setEngine (State.abortWindow_lawful ?_) (by simp) (by simp) (by simp) (by simp) (by simp) (by simp)
      exact h.engine
    · refine h.setEngine (State.abortWindow_lawful ?_) (by simp) (by simp) (by simp) (by simp) (by simp) (by simp)
      exact h.engine
    · exact h
  | disableMessage =>
    simp only [exec, execDisableMessage] at hexec
    split at hexec <;> cases hexec
    · exact h
    · exact h.setEngine (h.engine.of_same rfl rfl rfl) rfl rfl rfl rfl rfl rfl
  | windowEndNaming =>
    simp only [exec, execWindowEndNaming] at hexec
    split at hexec <;> cases hexec
    · exact h
    · rename_i names rest _
      have hkeeps := State.foldl_nameOne_keeps { s with transit := { s.transit with namings := rest } } names
      refine h.setTable (TableLaw.foldl_nameOne ?_ _) (fun hdisabled => State.foldl_nameOne_disabled ?_ _) ?_ ?_ ?_ ?_ ?_ ?_
      · exact h.table
      · exact hdisabled
      · simpa [hkeeps] using h.engine
      all_goals simp [hkeeps]
  | noticeRaise c =>
    simp only [exec, execNoticeRaise] at hexec
    split at hexec <;> cases hexec <;> exact h.of_same rfl rfl rfl rfl rfl rfl rfl
  | indicationChange x =>
    simp only [exec, execIndicationChange] at hexec
    split at hexec <;> cases hexec <;> exact h.of_same rfl rfl rfl rfl rfl rfl rfl
  | pulseTimerExpiry l =>
    simp only [exec, execPulseTimerExpiry] at hexec
    split at hexec <;> cases hexec <;> exact h.of_same rfl rfl rfl rfl rfl rfl rfl
  | resetEnd time straps =>
    simp only [exec, execResetEnd] at hexec
    (repeat' split at hexec) <;> cases hexec
    · exact settingsParts_beginStartUp _ _ _
    all_goals exact h
  | endOfStartUp time =>
    simp only [exec, execEndOfStartUp] at hexec
    split at hexec
    case h_1 hphase =>
      split at hexec <;> cases hexec
      · have hdisabled := (h.idle (by simp [hphase])).2
        refine SettingsParts.of_running rfl ?_ ?_ ?_ ?_ ?_
        · simpa [State.endStartUp] using h.sync
        · simpa [State.endStartUp, NoticeUnit.take, NoticeUnit.evaluate] using h.notices
        · simpa [State.endStartUp, State.setLines, AlarmDriver.restart] using h.lines
        · simpa [State.endStartUp] using h.engine
        · have hstarted := TableLaw.foldl_startSubject (s := { (s.reach time).enterSearch 1 with qualifier := .reset })
            (by simpa using h.table) (by simp [hdisabled]) Subject.all
          simpa [State.endStartUp] using hstarted
      · exact h
    all_goals cases hexec; exact h
  | _ => simp [rowTouches] at htouch

/-- Settles O56: the Engine, the Subject Table and the owners keep their settings legal, and start-up loads legal ones. -/
theorem stepKeepsTheSettingsLaw : Obligations.StepKeepsTheSettingsLaw := by
  intro s t h hstep
  rw [settingsLaw_iff] at h ⊢
  refine step_keeps (bs := [.sync, .notices, .lines, .engine, .table, .phase, .link]) (by simp) (by simp) (fun s t h hsame => ?_)
    settingsParts_keptByLink (fun c s t htouch h hexec => h.rows htouch hexec) s t h hstep
  exact h.of_same (hsame .sync (by simp)) (congrArg NoticeUnit.settings (hsame .notices (by simp)))
    (congrArg AlarmDriver.settings (hsame .lines (by simp))) (hsame .engine (by simp)) (hsame .table (by simp)) (hsame .phase (by simp))
    (hsame .link (by simp))

end Sys2Proof.Machine
end

