-- ==== Sys2Proof/Proofs/QuietLaw.lean ====
section
/-! PROOFS. What a reset and start-up hold still (chapters 8, 9 and 10, R167, R178, R203, R207, R209, R211 to R213): outside running every
row of a block but the end of the reset and of start-up changes nothing, and the saving flag goes with the snapshot. -/

namespace Sys2Proof.Machine

/-! ### Standing still -/

/-- The part of `QuietLaw` that holds outside running, each claim with a name. -/
structure Still (s : State) : Prop where
  transit : s.transit = ⟨[], [], [], [], [], [], [], [], [], [], [], []⟩
  link : s.link.state = .off
  level : s.qualifier.level = none
  edges : s.qualifier.edges = []
  searchStart : s.tracker.searchStart = none
  grid : s.tracker.grid = none
  conversion : s.front.conversion = none
  window : s.engine.running = false
  snapshot : s.settings.snapshot = none
  lines : ∀ l, (s.lines.run.get l).pin = .highZ ∧ (s.lines.run.get l).timer = none
  attn : s.notices.attn = false

theorem quietLaw_iff {s : State} :
    QuietLaw s ↔ (s.settings.saving = true ↔ s.settings.snapshot.isSome = true) ∧ (s.phase ≠ .running → Still s) :=
  ⟨fun ⟨hsaving, hstill⟩ => ⟨hsaving, fun hp =>
      have ⟨h1, h2, h3, h4, h5, h6, h7, h8, h9, h10, h11⟩ := hstill hp
      ⟨h1, h2, h3, h4, h5, h6, h7, h8, h9, h10, h11⟩⟩,
    fun ⟨hsaving, hstill⟩ => ⟨hsaving, fun hp =>
      have ⟨h1, h2, h3, h4, h5, h6, h7, h8, h9, h10, h11⟩ := hstill hp
      ⟨h1, h2, h3, h4, h5, h6, h7, h8, h9, h10, h11⟩⟩⟩

section

variable {s t : State}

/-- With its Link Controller awake the block is running. -/
theorem QuietLaw.running_of_awake (h : QuietLaw s) (hon : s.link.state ≠ .off) : s.phase = .running :=
  Classical.byContradiction fun hphase => hon ((quietLaw_iff.1 h).2 hphase).link

/-- In running only the saving flag and the snapshot are bound. -/
theorem quietLaw_of_running (hphase : t.phase = .running) (hsaving : t.settings.saving = true ↔ t.settings.snapshot.isSome = true) :
    QuietLaw t :=
  quietLaw_iff.2 ⟨hsaving, fun hp => absurd hphase hp⟩

theorem QuietLaw.of_still (h : QuietLaw s) (hsaving : t.settings.saving = s.settings.saving)
    (hsnapshot : t.settings.snapshot = s.settings.snapshot) (hstill : Still t) : QuietLaw t :=
  quietLaw_iff.2 ⟨by rw [hsaving, hsnapshot]; exact (quietLaw_iff.1 h).1, fun _ => hstill⟩

theorem QuietLaw.of_same (h : QuietLaw s) (hsettings : t.settings = s.settings) (hphase : t.phase = s.phase)
    (htransit : t.transit = s.transit) (hlink : t.link = s.link) (hqualifier : t.qualifier = s.qualifier) (htracker : t.tracker = s.tracker)
    (hfront : t.front = s.front) (hengine : t.engine = s.engine) (hlines : t.lines = s.lines) (hnotices : t.notices = s.notices) :
    QuietLaw t := by
  unfold QuietLaw at h ⊢
  rwa [hsettings, hphase, htransit, hlink, hqualifier, htracker, hfront, hengine, hlines, hnotices]

/-! ### Rows outside running -/

/-- A row of a block that finds everything still changes nothing; only the end of a reset and the end of start-up do. -/
theorem Still.exec_eq (h : Still s) (hphase : s.phase ≠ .running) {c : Instr} (hc : ofOtherBlocks c = true)
    (hresetEnd : ∀ time straps, c ≠ .resetEnd time straps) (hstartUp : ∀ time, c ≠ .endOfStartUp time) : exec c s = .next s := by
  cases c with
  | acceptedTransition => simp [exec, execAcceptedTransition, Qualifier.accept, h.level]
  | edge => simp [exec, execEdge, h.edges]
  | lateZoneClose => simp [exec, execLateZoneClose, h.grid]
  | searchTimerExpiry => simp [exec, execSearchTimerExpiry, h.searchStart]
  | cycleStart => simp [exec, execCycleStart, h.grid]
  | sampleSet time => simp [exec, execSampleSet, h.conversion]
  | windowStart => simp [exec, execWindowStart, h.transit]
  | cycleEnd => simp [exec, execCycleEnd, h.transit]
  | windowAbort => simp [exec, execWindowAbort, h.transit]
  | disableMessage => simp [exec, execDisableMessage, h.transit]
  | windowEndNaming => simp [exec, execWindowEndNaming, h.transit]
  | windowReport i => simp [exec, execWindowReport, h.transit, takeFirst]
  | abortReport i => simp [exec, execAbortReport, h.transit, takeFirst]
  | verdictOrder i => simp [exec, execVerdictOrder, h.transit, takeFirst]
  | gapExamination g => simp [exec, execGapExamination, h.transit, takeFirst]
  | copyRequest n => simp [exec, execCopyRequest, h.transit]
  | filing n => simp [exec, execFiling, h.transit]
  | noticeRaise c => simp [exec, execNoticeRaise, h.transit, takeFirst]
  | indicationChange x => simp [exec, execIndicationChange, h.transit, takeFirst]
  | pulseTimerExpiry l => simp [exec, execPulseTimerExpiry, h.lines]
  | saveCompletion time contents check => simp [exec, execSaveCompletion, h.snapshot]
  | qualifierSample time inputs => simp [exec, execQualifierSample, hphase]
  | instant inputs => simp [exec, execInstant, h.grid]
  | detectorClearingEvent g => simp [exec, execDetectorClearingEvent, h.transit, takeFirst]
  | resetEnd time straps => exact absurd rfl (hresetEnd time straps)
  | endOfStartUp time => exact absurd rfl (hstartUp time)
  | _ => cases hc

/-- Start-up begins as still as the reset was (R213). -/
theorem Still.beginStartUp (h : Still s) (time : Nat) (straps : Straps) : Still (s.beginStartUp time straps) :=
  { h with
    link := rfl
    window := rfl
    lines := fun l => by cases l <;> exact ⟨rfl, rfl⟩
    attn := rfl }

theorem still_beginReset (s : State) (c : Cause) : Still (s.beginReset c) := by
  constructor
  case lines => exact fun l => by cases l <;> exact ⟨rfl, rfl⟩
  all_goals rfl

/-! ### Every step -/

theorem phase_not_touched (k : RequestKind) : Block.phase ∉ ownerTouches k := by cases k <;> decide

theorem QuietLaw.ownerTakes (h : QuietLaw s) (hon : s.link.state ≠ .off) (k : RequestKind) (body : List Byte) :
    QuietLaw (ownerTakes k body s).2 := by
  have hphase : (Machine.ownerTakes k body s).2.phase = s.phase := ownerTakes_frame k body s (phase_not_touched k)
  rw [h.running_of_awake hon] at hphase
  have hsaving := (quietLaw_iff.1 h).1
  have hsettings (hk : Block.settings ∉ ownerTouches k) : (Machine.ownerTakes k body s).2.settings = s.settings :=
    ownerTakes_frame k body s hk
  cases k with
  | saveSettings => exact quietLaw_of_running hphase ⟨fun _ => rfl, fun _ => rfl⟩
  | restart => exact quietLaw_of_running hphase hsaving
  | loadDefaults =>
    refine quietLaw_of_running hphase ?_
    simpa [Machine.ownerTakes, ownLoadDefaults, State.loadDefaults] using hsaving
  | _ =>
    refine quietLaw_of_running hphase ?_
    rwa [hsettings (by decide)]

theorem quietLaw_keptByLink : KeptByLink QuietLaw where
  reach _ _ h := h.of_same rfl rfl rfl rfl rfl rfl rfl rfl rfl rfl
  link _ _ h hon := quietLaw_of_running (h.running_of_awake hon) (quietLaw_iff.1 h).1
  marks _ h := h.of_same rfl rfl rfl rfl rfl rfl rfl rfl rfl rfl
  owner k body _ h hon _ := h.ownerTakes hon k body
  reset s c _ := quietLaw_iff.2 ⟨by simp [State.beginReset], fun _ => still_beginReset s c⟩

/-- In running a row of a block keeps the phase, and the saving flag with its snapshot. -/
theorem QuietLaw.rows_running (h : QuietLaw s) (hphase : s.phase = .running) {c : Instr} (hc : ofOtherBlocks c = true)
    (hexec : exec c s = .next t) : QuietLaw t := by
  have hsaving := (quietLaw_iff.1 h).1
  cases c with
  | saveCompletion time contents check =>
    simp only [exec, execSaveCompletion] at hexec
    (repeat' split at hexec) <;> cases hexec
    · exact h
    · exact quietLaw_of_running hphase (by simp [SettingsStore.complete])
    · exact h
  | resetEnd time straps =>
    simp only [exec, execResetEnd, hphase] at hexec
    cases hexec
    exact h
  | endOfStartUp time =>
    simp only [exec, execEndOfStartUp, hphase] at hexec
    cases hexec
    exact h
  | _ =>
    have hphase' := exec_frame hc hexec (b := .phase) (by simp [rowTouches])
    have hsettings := exec_frame hc hexec (b := .settings) (by simp [rowTouches])
    simp only [State.sameAt] at hphase' hsettings
    exact quietLaw_of_running (hphase'.trans hphase) (by rwa [hsettings])

/-- Outside running only the end of a reset and the end of start-up do anything. -/
theorem QuietLaw.rows_still (h : QuietLaw s) (hphase : s.phase ≠ .running) {c : Instr} (hc : ofOtherBlocks c = true)
    (hexec : exec c s = .next t) : QuietLaw t := by
  have hstill := (quietLaw_iff.1 h).2 hphase
  cases c with
  | resetEnd time straps =>
    simp only [exec, execResetEnd] at hexec
    (repeat' split at hexec) <;> cases hexec
    · refine h.of_still rfl rfl (Still.beginStartUp ?_ time straps)
      exact { hstill with }
    all_goals exact h
  | endOfStartUp time =>
    simp only [exec, execEndOfStartUp] at hexec
    (repeat' split at hexec) <;> cases hexec
    · exact quietLaw_of_running rfl (by simpa [State.endStartUp] using (quietLaw_iff.1 h).1)
    all_goals exact h
  | _ =>
    rw [hstill.exec_eq hphase hc (by simp) (by simp)] at hexec
    cases hexec
    exact h

end

/-- A row that has blocks of its own is one of the other blocks' rows. -/
theorem ofOtherBlocks_of_touches {c : Instr} {b : Block} (h : b ∈ rowTouches c) : ofOtherBlocks c = true := by
  cases c <;> simp [rowTouches] at h <;> rfl

/-- Settles O57: outside running the rows find nothing to do, and in running only the saving flag and the snapshot are bound. -/
theorem stepKeepsTheQuietLaw : Obligations.StepKeepsTheQuietLaw := by
  refine step_keeps (bs := [.settings, .phase, .transit, .link, .qualifier, .tracker, .front, .engine, .lines, .notices]) (by simp) (by simp)
    (fun s t h hsame => ?_) quietLaw_keptByLink fun c s t htouch h hexec => ?_
  · exact h.of_same (hsame .settings (by simp)) (hsame .phase (by simp)) (hsame .transit (by simp)) (hsame .link (by simp))
      (hsame .qualifier (by simp)) (hsame .tracker (by simp)) (hsame .front (by simp)) (hsame .engine (by simp)) (hsame .lines (by simp))
      (hsame .notices (by simp))
  · obtain ⟨b, -, hb⟩ := htouch
    have hc := ofOtherBlocks_of_touches hb
    by_cases hphase : s.phase = .running
    · exact h.rows_running hphase hc hexec
    · exact h.rows_still hphase hc hexec

end Sys2Proof.Machine
end

