-- ==== Sys2Proof/Proofs/QueueAndReset.lean ====
section
/-! PROOFS. The queue and the timebase (00, "Blocks and paths", "Conventions"): every command answers a next state and keeps both in order;
and the state right after reset, with its values and the laws that hold of it. -/

namespace Sys2Proof.Machine

/-! ### The queue and the timebase -/

/-- Settles O1: a step is the front command's meaning, and nothing on an empty queue. -/
theorem stepTakesTheFrontCommand : Obligations.StepTakesTheFrontCommand :=
  ⟨fun _ _ _ => rfl, fun s hempty => by simp only [step, hempty]⟩

/-- No row stops the block: every meaning ends in a next state. -/
theorem exec_answers (c : Instr) (s : State) : ∃ t, exec c s = .next t := by
  cases c with
  | edge => simp only [exec, execEdge]; (repeat' split) <;> exact ⟨_, rfl⟩
  | lateZoneClose => simp only [exec, execLateZoneClose]; (repeat' split) <;> exact ⟨_, rfl⟩
  | searchTimerExpiry => simp only [exec, execSearchTimerExpiry]; (repeat' split) <;> exact ⟨_, rfl⟩
  | cycleStart => simp only [exec, execCycleStart]; (repeat' split) <;> exact ⟨_, rfl⟩
  | sampleSet time => simp only [exec, execSampleSet]; (repeat' split) <;> exact ⟨_, rfl⟩
  | windowStart => simp only [exec, execWindowStart]; split <;> exact ⟨_, rfl⟩
  | cycleEnd => simp only [exec, execCycleEnd]; split <;> exact ⟨_, rfl⟩
  | windowAbort => simp only [exec, execWindowAbort]; split <;> exact ⟨_, rfl⟩
  | disableMessage => simp only [exec, execDisableMessage]; split <;> exact ⟨_, rfl⟩
  | windowEndNaming => simp only [exec, execWindowEndNaming]; split <;> exact ⟨_, rfl⟩
  | windowReport i => simp only [exec, execWindowReport]; split <;> exact ⟨_, rfl⟩
  | abortReport i => simp only [exec, execAbortReport]; (repeat' split) <;> exact ⟨_, rfl⟩
  | verdictOrder i => simp only [exec, execVerdictOrder]; split <;> exact ⟨_, rfl⟩
  | gapExamination g => simp only [exec, execGapExamination]; (repeat' split) <;> exact ⟨_, rfl⟩
  | copyRequest n => simp only [exec, execCopyRequest]; split <;> exact ⟨_, rfl⟩
  | filing n => simp only [exec, execFiling]; split <;> exact ⟨_, rfl⟩
  | noticeRaise c => simp only [exec, execNoticeRaise]; split <;> exact ⟨_, rfl⟩
  | indicationChange x => simp only [exec, execIndicationChange]; split <;> exact ⟨_, rfl⟩
  | pulseTimerExpiry l => simp only [exec, execPulseTimerExpiry]; split <;> exact ⟨_, rfl⟩
  | interByteTimeout => simp only [exec, execInterByteTimeout]; split <;> exact ⟨_, rfl⟩
  | replyBegin time => simp only [exec, execReplyBegin]; (repeat' split) <;> exact ⟨_, rfl⟩
  | replyEnd => simp only [exec, execReplyEnd]; (repeat' split) <;> exact ⟨_, rfl⟩
  | saveCompletion time contents check => simp only [exec, execSaveCompletion]; (repeat' split) <;> exact ⟨_, rfl⟩
  | powerReset time millivolts => simp only [exec, execPowerReset]; split <;> exact ⟨_, rfl⟩
  | pinReset time low => simp only [exec, execPinReset]; split <;> exact ⟨_, rfl⟩
  | resetEnd time straps => simp only [exec, execResetEnd]; (repeat' split) <;> exact ⟨_, rfl⟩
  | endOfStartUp time => simp only [exec, execEndOfStartUp]; (repeat' split) <;> exact ⟨_, rfl⟩
  | qualifierSample time inputs => simp only [exec, execQualifierSample]; split <;> exact ⟨_, rfl⟩
  | instant inputs => simp only [exec, execInstant]; (repeat' split) <;> exact ⟨_, rfl⟩
  | detectorClearingEvent g => simp only [exec, execDetectorClearingEvent]; split <;> exact ⟨_, rfl⟩
  | acceptedTransition | character | undefinedKind | identify | readStatus | clearCounters | setSync | readSync | setWindow | setProfile
  | readProfile | enable | disable | readResult | clearGap | capture | readRecord | readWave | retain | release | retainMap | markFirst
  | markLast | purge | setNotices | fetchNotices | setLines | readLines | saveSettings | loadDefaults | restart => exact ⟨_, rfl⟩

/-- The queue is `queue`, and the timebase has reached `n`. -/
def GoesOn (queue : List Instr) (n : Nat) (s : State) : Prop := s.pending = queue ∧ n ≤ s.now

theorem goesOn_keptByLink (queue : List Instr) (n : Nat) : KeptByLink (GoesOn queue n) where
  reach _ _ h := ⟨h.1, le_max_of_le_left h.2⟩
  link _ _ h _ := h
  marks _ h := h
  owner k body s h _ _ := by
    have hpending : (ownerTakes k body s).2.pending = s.pending := ownerTakes_frame k body s (b := .pending) (by cases k <;> decide)
    have hnow : (ownerTakes k body s).2.now = s.now := ownerTakes_frame k body s (b := .now) (by cases k <;> decide)
    exact ⟨hpending.trans h.1, hnow ▸ h.2⟩
  reset _ _ h := h

/-- A block's own row leaves the timebase or moves it on. -/
theorem exec_now_le {c : Instr} (hc : ofOtherBlocks c = true) {s t : State} (h : exec c s = .next t) : s.now ≤ t.now := by
  by_cases hnow : Block.now ∈ rowTouches c
  · cases c with
    | lateZoneClose =>
      simp only [exec, execLateZoneClose] at h
      (repeat' split at h) <;> cases h <;> simp
    | searchTimerExpiry =>
      simp only [exec, execSearchTimerExpiry] at h
      (repeat' split at h) <;> cases h <;> simp
    | cycleStart =>
      simp only [exec, execCycleStart] at h
      (repeat' split at h) <;> cases h <;> simp
    | sampleSet time =>
      simp only [exec, execSampleSet] at h
      (repeat' split at h) <;> cases h <;> simp
    | pulseTimerExpiry l =>
      simp only [exec, execPulseTimerExpiry] at h
      split at h <;> cases h <;> simp
    | saveCompletion time contents check =>
      simp only [exec, execSaveCompletion] at h
      (repeat' split at h) <;> cases h <;> simp
    | resetEnd time straps =>
      simp only [exec, execResetEnd] at h
      (repeat' split at h) <;> cases h <;> simp [State.beginStartUp]
    | endOfStartUp time =>
      simp only [exec, execEndOfStartUp] at h
      (repeat' split at h) <;> cases h <;> simp [State.endStartUp]
    | qualifierSample time inputs =>
      simp only [exec, execQualifierSample] at h
      split at h <;> cases h <;> simp
    | instant inputs =>
      simp only [exec, execInstant] at h
      (repeat' split at h) <;> cases h <;> simp
    | _ => simp [rowTouches] at hnow
  · have hsame : t.now = s.now := exec_frame hc h hnow
    exact hsame.ge

/-- Settles O2: the rows of the Link Controller and the starts of resets keep queue and timebase in order, and so do the other rows. -/
theorem everyCommandGoesOn : Obligations.EveryCommandGoesOn := by
  intro c s
  obtain ⟨t, ht⟩ := exec_answers c s
  refine ⟨t, ht, ?_⟩
  have hs : GoesOn s.pending s.now s := ⟨rfl, le_rfl⟩
  cases hlink : takenByLink c with
  | true => exact (goesOn_keptByLink _ _).exec hlink hs ht
  | false =>
    cases hother : ofOtherBlocks c with
    | false =>
      refine (goesOn_keptByLink _ _).exec_reset (bs := [.pending, .now]) (by simp) (fun s t h hsame => ?_) hlink hother hs ht
      have hpending : t.pending = s.pending := hsame .pending (by simp)
      have hnow : t.now = s.now := hsame .now (by simp)
      exact ⟨hpending.trans h.1, hnow ▸ h.2⟩
    | true =>
      have hpending : t.pending = s.pending :=
        exec_frame hother ht (b := .pending) (by cases c <;> simp [rowTouches])
      exact ⟨hpending, exec_now_le hother ht⟩

/-! ### The state right after reset -/

/-- Settles O3: each block holds the values of its chapter's POWER reset. -/
theorem resetValues : Obligations.ResetValues := by
  refine ⟨rfl, rfl, rfl, rfl, rfl, rfl, rfl, rfl, ⟨rfl, fun row hrow ch => ?_⟩, rfl, rfl, rfl, rfl, fun i => ?_, fun i => ?_,
    fun g d j => ?_, rfl, rfl, fun c => ?_, rfl, fun l => ?_, rfl, rfl, rfl, rfl, rfl, rfl, rfl, rfl, rfl, rfl, rfl⟩
  · rw [List.eq_of_mem_replicate hrow]
    cases ch with
    | vb => rfl
    | bridge g d => cases g <;> cases d <;> rfl
  · cases i <;> exact ⟨rfl, rfl⟩
  · cases i <;> rfl
  · cases g <;> cases d <;> fin_cases j <;> exact ⟨rfl, rfl⟩
  · cases c <;> rfl
  · cases l <;> rfl

/-- Settles O52: the reset state has nothing in its blocks that the laws bind but the defaults, which are legal. -/
theorem lawsHoldAtReset : Obligations.LawsHoldAtReset := by
  refine ⟨storeLaw_iff.2 CaptureStore.powerReset_lawful, verdictAndNoticeLaw_iff.2 ⟨fun i => ?_, NoticeUnit.reset_lawful _⟩,
    gridLaw_of_search rfl rfl (Nat.zero_le _) rfl rfl rfl, settingsLaw_iff.2 ?_, quietLaw_iff.2 ⟨by decide, fun _ => ?_⟩,
    edgeLaw_of_qualifier_reset (by decide) rfl⟩
  · cases i <;> exact VerdictEntry.reset_lawful
  · exact ⟨by decide, noticeDefault_legal, defaultLines_legal, Engine.reset_lawful (by decide), tableReset_law defaultProfiles_ok,
      fun _ => ⟨rfl, tableReset_disabled _⟩⟩
  · constructor
    case lines => exact fun l => by cases l <;> exact ⟨rfl, rfl⟩
    all_goals rfl

end Sys2Proof.Machine
end

