-- ==== Sys2Proof/Proofs/SyncTracker.lean ====
section
/-! PROOFS. The Sync Tracker (chapter 1): the qualifier's samples and acceptances (R2 to R4), edges in SEARCH and on the grid (R7, R11,
R13, R15 to R17, R20), the close of the late zone with its misses (R12, R18), the search timer (R8) and the cycle start (R9, R10). -/

namespace Sys2Proof.Machine

/-! ### The qualifier (R2 to R4) -/

theorem State.sampleClockAt_iff (s : State) (t : Nat) : s.sampleClockAt t = true ↔ s.sampleDue t := by
  unfold State.sampleClockAt State.sampleDue
  cases s.sampled <;> simp

theorem Polarity.matchesLevel_iff (p : Polarity) (level : Bool) :
    Polarity.matchesLevel p (!level) = true ↔ (p = .rising ∧ level = false) ∨ (p = .falling ∧ level = true) := by
  cases p <;> cases level <;> decide

theorem Qualifier.accept_of_unknown {q : Qualifier} {y : SyncSettings} (h : q.level = none) : q.accept y = q := by
  simp only [Qualifier.accept, h]

theorem Qualifier.accept_of_short {q : Qualifier} {y : SyncSettings} (h : q.runCount < y.depth) : q.accept y = q := by
  unfold Qualifier.accept
  split
  · rfl
  · rw [if_pos h]

theorem Qualifier.accept_of_reached {q : Qualifier} {y : SyncSettings} {level : Bool} (hlevel : q.level = some level)
    (h : y.depth ≤ q.runCount) :
    q.accept y =
      { level := some (!level), runCount := 0, runStart := q.runStart
        edges :=
          if (y.polarity = .rising ∧ level = false) ∨ (y.polarity = .falling ∧ level = true) then q.edges ++ [q.runStart] else q.edges } := by
  simp only [Qualifier.accept, hlevel, if_neg (Nat.not_lt.2 h), Polarity.matchesLevel_iff]

/-- An acceptance leaves no run, so that a second one finds nothing to accept. -/
theorem Qualifier.accept_accept {q : Qualifier} {y : SyncSettings} (h : 0 < y.depth) : (q.accept y).accept y = q.accept y := by
  cases hlevel : q.level with
  | none => rw [accept_of_unknown hlevel, accept_of_unknown hlevel]
  | some level =>
    rcases Nat.lt_or_ge q.runCount y.depth with hrun | hrun
    · rw [accept_of_short hrun, accept_of_short hrun]
    · refine accept_of_short ?_
      rw [accept_of_reached hlevel hrun]
      exact h

/-- A sample that is due. -/
theorem exec_qualifierSample {s : State} {time : Nat} (inputs : PerSource (List Int)) (hphase : s.phase = .running)
    (hdue : s.sampleDue time) :
    exec (.qualifierSample time inputs) s =
      .next { s with
        now := max s.now time
        comparators := followInputs s.comparators inputs
        sampled := some time
        qualifier := s.qualifier.sample s.sync time ((followInputs s.comparators inputs).get s.sourceInEffect) } := by
  simp only [exec, execQualifierSample]
  rw [if_pos ⟨hphase, (s.sampleClockAt_iff time).2 hdue⟩]
  rfl

theorem PerSource.ext_get {α : Type} {p q : PerSource α} (h : ∀ src, p.get src = q.get src) : p = q := by
  have ha := h .sya
  have hb := h .syb
  have hc := h .syc
  cases p
  cases q
  simp only [PerSource.get] at ha hb hc
  rw [ha, hb, hc]

/-- The comparators follow the voltages of their own inputs. -/
theorem followInputs_get (now : PerSource Bool) (inputs : PerSource (List Int)) (src : Source) :
    (followInputs now inputs).get src = (inputs.get src).foldl comparatorStep (now.get src) := by
  cases src <;> rfl

theorem qualifierSample : Says.QualifierSample := by
  intro s time inputs levels high hlevels hhigh
  obtain rfl : levels = followInputs s.comparators inputs :=
    PerSource.ext_get fun src => (hlevels src).trans (followInputs_get _ _ src).symm
  have hsource : high = (followInputs s.comparators inputs).get s.sourceInEffect := hhigh
  refine ⟨fun hnot => ?_, fun hphase hdue hlevel => ?_, fun hphase hdue hlevel hrun => ?_, fun hphase hdue hlevel hrun hdepth => ?_,
    fun hphase hdue hlevel hpos hrun => ?_, fun accepted hphase hdue hdepth haccepted => ?_⟩
  · rw [← s.sampleClockAt_iff] at hnot
    simp only [exec, execQualifierSample]
    exact if_neg fun h => hnot.elim (fun hp => hp h.1) fun hd => hd h.2
  · rw [exec_qualifierSample inputs hphase hdue, ← hsource]
    simp only [Qualifier.sample, Qualifier.accept_of_unknown hlevel, hlevel]
  · rw [exec_qualifierSample inputs hphase hdue, ← hsource]
    simp only [Qualifier.sample, Qualifier.accept_of_short hrun, hlevel, if_true]
  · rw [exec_qualifierSample inputs hphase hdue, ← hsource]
    simp [Qualifier.sample, Qualifier.accept_of_short (hrun.trans_lt hdepth), hlevel, hrun]
  · rw [exec_qualifierSample inputs hphase hdue, ← hsource]
    simp [Qualifier.sample, Qualifier.accept_of_short hrun, hlevel, Nat.pos_iff_ne_zero.1 hpos]
  · cases haccepted
    rw [exec_qualifierSample inputs hphase hdue, exec_qualifierSample (s := { s with qualifier := s.qualifier.accept s.sync }) inputs hphase hdue]
    simp only [Qualifier.sample, Qualifier.accept_accept hdepth]
    rfl

theorem acceptedTransition : Says.AcceptedTransition := by
  intro s level
  refine ⟨fun hlevel hrun => ?_, fun _ hrun => ?_, fun hlevel => ?_⟩
  · simp only [exec, execAcceptedTransition, Qualifier.accept_of_reached hlevel hrun]
  · simp only [exec, execAcceptedTransition, Qualifier.accept_of_short hrun]
  · simp only [exec, execAcceptedTransition, Qualifier.accept_of_unknown hlevel]

/-- Settles O4: a sample goes into the qualifier after an acceptance that is due, and acceptances are idempotent. -/
theorem qualifierSamplesAndAccepts : Obligations.QualifierSamplesAndAccepts := ⟨qualifierSample, acceptedTransition⟩

/-! ### Moves between the states (R5, R6) -/

section Moves

variable {s : State}

/-- A move that leaves sync-absent as it is. -/
theorem State.moveTo_of_same {st : TrackerState} (h : st.syncAbsent = s.tracker.state.syncAbsent) :
    s.moveTo st = { s with tracker := { s.tracker with state := st } } := by
  simp only [State.moveTo, h, if_true]

/-- A move that changes sync-absent tells the Alarm Line Driver. -/
theorem State.moveTo_of_change {st : TrackerState} (h : st.syncAbsent ≠ s.tracker.state.syncAbsent) :
    s.moveTo st =
      { s with
        tracker := { s.tracker with state := st }
        transit := { s.transit with changes := s.transit.changes ++ [.syncAbsent st.syncAbsent] } } := by
  simp only [State.moveTo, h, if_false]
  rfl

/-- The qualifier after an entry into SEARCH at a position (R4, R6): reset when the source becomes a different input. -/
def State.qualifierAt (s : State) (n : Nat) : Qualifier :=
  if s.sync.sourceAt n = s.sourceInEffect then s.qualifier else .reset

theorem State.qualifierAt_of_other {n : Nat} (h : s.sync.sourceAt n ≠ s.sourceInEffect) : s.qualifierAt n = .reset := if_neg h

theorem State.resetUnless_eq (c : Prop) [Decidable c] (s : State) :
    (if c then s else { s with qualifier := .reset }) = { s with qualifier := if c then s.qualifier else .reset } := by
  split <;> rfl

/-- An entry into SEARCH from SEARCH (R6). -/
theorem State.enterSearch_of_search (hstate : s.tracker.state = .search) (hgrid : s.tracker.grid = none) (n : Nat) :
    s.enterSearch n = { s with qualifier := s.qualifierAt n, tracker := s.tracker.searching n s.now } := by
  have hstop : s.stopGrid = s := by simp only [State.stopGrid, hgrid]
  have hmove : s.moveTo .search = { s with tracker := { s.tracker with state := .search } } := State.moveTo_of_same (by rw [hstate])
  unfold State.enterSearch
  rw [hstop, hmove]
  refine (State.resetUnless_eq _ _).trans ?_
  rw [Tracker.searching, ← hgrid]
  rfl

/-- The changes that an entry into SEARCH hands on: sync-absent becomes true when it was false. -/
def State.searchChanges (s : State) : List Change := if s.tracker.state.syncAbsent then [] else [.syncAbsent true]

theorem State.moveTo_search (s : State) :
    s.moveTo .search =
      { s with
        tracker := { s.tracker with state := .search }
        transit := { s.transit with changes := s.transit.changes ++ s.searchChanges } } := by
  by_cases habsent : s.tracker.state.syncAbsent = true
  · rw [State.moveTo_of_same (by rw [habsent]; rfl), State.searchChanges, if_pos habsent, List.append_nil]
  · rw [State.moveTo_of_change fun h => habsent (by rw [← h]; rfl), State.searchChanges, if_neg habsent]
    rfl

/-- An entry into SEARCH from a running grid (R6): the grid stop is handed on and the cycle in progress dropped. -/
theorem State.enterSearch_of_grid {g : Grid} (hgrid : s.tracker.grid = some g) (n : Nat) :
    s.enterSearch n =
      { s with
        qualifier := s.qualifierAt n
        tracker := s.tracker.searching n s.now
        front := s.front.stopped
        gap := s.gap.stopped
        transit :=
          { s.transit with
            engine := s.transit.engine ++ [.gridStop]
            changes := s.transit.changes ++ s.searchChanges } } := by
  have hstop : s.stopGrid =
      { s with
        tracker := { s.tracker with grid := none }
        front := s.front.stopped
        gap := s.gap.stopped
        transit := { s.transit with engine := s.transit.engine ++ [.gridStop] } } := by
    simp only [State.stopGrid, hgrid]
    rfl
  unfold State.enterSearch
  rw [hstop, State.moveTo_search]
  exact State.resetUnless_eq _ _

end Moves

/-! ### Edges (R7, R11, R13, R15 to R17, R20) -/

section Edges

variable {s : State} {t : Nat} {rest : List Nat}

theorem exec_edge_of_search (hedges : s.qualifier.edges = t :: rest) (hgrid : s.tracker.grid = none) :
    exec .edge s = .next ((s.withEdges rest).searchEdge t) := by
  simp only [exec, execEdge, hedges, hgrid]

/-- Settles O5: an edge in SEARCH is compared with the remembered one. -/
theorem edgeInSearch : Obligations.EdgeInSearch := by
  intro s t rest hedges hstate hgrid
  rw [exec_edge_of_search hedges hgrid]
  refine ⟨fun hnone => ?_, fun t0 ht0 hout => ?_, fun t0 ht0 hmin hmax => ?_⟩
  · simp only [State.searchEdge, State.withEdges_fields, hnone]
    rfl
  · have hinterval : ¬(153847 ≤ t - t0 ∧ t - t0 ≤ 250000) := by omega
    simp only [State.searchEdge, State.withEdges_fields, ht0, Config.minPeriod, Config.maxPeriod, if_neg hinterval]
    rfl
  · have hinterval : 153847 ≤ t - t0 ∧ t - t0 ≤ 250000 := by omega
    simp only [State.searchEdge, State.withEdges_fields, ht0, Config.minPeriod, Config.maxPeriod, if_pos hinterval, State.startGrid]
    rw [State.moveTo_of_same (by simp only [State.beginCycle, State.tellEngine_fields, hstate]; rfl)]
    rfl

/-- An edge that matches a boundary is recorded, and the state rules of a match follow. -/
theorem exec_edge_of_match {g g' : Grid} {e m : Int} {pc : Nat} (hedges : s.qualifier.edges = t :: rest) (hgrid : s.tracker.grid = some g)
    (hmatch : matchesBoundary g t e m pc g') :
    exec .edge s =
      .next (({ s with qualifier := s.qualifier.taken rest, tracker := { s.tracker with grid := some g' } } : State).matchRules e pc) :=
  (execEdge_of_lt s t rest g hedges hgrid (matchesBoundary_lt hmatch)).trans
    (congrArg _ (State.gridEdge_of_match (s.withEdges rest) t g g' e m pc hmatch))

theorem matchCorrectsThePeriod : Says.MatchCorrectsThePeriod := by
  intro s t rest g g' e m pc
  refine ⟨fun hedges => ?_, fun hedges hgrid hmatch hstate => ?_, fun hedges hgrid hmatch hstate => ?_⟩
  · simp only [exec, execEdge, hedges]
  · rw [exec_edge_of_match hedges hgrid hmatch]
    simp only [State.matchRules, hstate]
  · rw [exec_edge_of_match hedges hgrid hmatch]
    simp only [State.matchRules, hstate]
    rw [State.moveTo_of_same (by rfl)]

theorem isTight_iff (e : Int) (pc : Nat) : isTight e pc = true ↔ |e| ≤ ((pc / 64 : Nat) : Int) := by
  rw [isTight, decide_eq_true_iff, Int.abs_eq_natAbs, Int.ofNat_le]

theorem matchInWarmUp : Says.MatchInWarmUp := by
  intro s t rest g g' e m pc hedges hgrid hmatch hstate
  rw [exec_edge_of_match hedges hgrid hmatch]
  refine ⟨fun hloose => ?_, fun htight hfew => ?_, fun htight henough => ?_⟩
  · have hnot : ¬isTight e pc = true := by rw [isTight_iff, Int.not_le]; exact hloose
    simp only [State.matchRules, hstate, if_neg hnot]
  · simp only [State.matchRules, hstate, if_pos ((isTight_iff e pc).2 htight), if_neg (Nat.not_le.2 hfew)]
  · simp only [State.matchRules, hstate, if_pos ((isTight_iff e pc).2 htight), if_pos henough]
    rw [State.moveTo_of_change (by simp [TrackerState.syncAbsent])]
    rfl

/-- A spurious edge raises the count and nothing else (R11). -/
theorem State.gridEdge_of_spurious {g : Grid} (hprev : ∀ p, g.prev = some p → g.start = p.start + p.period) (h : isSpurious g t) :
    s.gridEdge g t = s.spuriousEdge := by
  have hstart (e : Int) (pc : Nat) (hheld : g.boundary.matched.isSome = true ∨ g.boundary.closed = true) :
      s.matchStart g t e pc = s.spuriousEdge := by
    rw [State.matchStart, if_pos (by simpa using hheld)]
  rcases h with ⟨h1, h2⟩ | ⟨h1, h2, -, hheld⟩ | ⟨h1, h2, h3, hearly⟩ | ⟨p, hp, h1, h2⟩ | ⟨p, hp, h1, h2, hheld⟩
  · simp only [State.gridEdge]
    rw [if_pos (by omega), if_neg (by omega), if_neg (by omega)]
  · simp only [State.gridEdge]
    rw [if_pos h1, if_pos (by omega), hstart _ _ hheld]
  · simp only [State.gridEdge]
    rw [if_pos (by omega), if_neg (by omega), if_pos (by omega), State.matchEnd, if_pos hearly]
  · simp only [State.gridEdge]
    rw [if_neg (by omega)]
    simp only [hp]
    rw [if_neg (by omega)]
  · have hbefore := hprev p hp
    simp only [State.gridEdge]
    rw [if_neg (by omega)]
    simp only [hp]
    rw [if_pos (by omega), hstart _ _ hheld]

/-- A spurious edge lies before the end of the cycle in progress. -/
theorem isSpurious_lt {g : Grid} (h : isSpurious g t) : t < g.start + g.period := by
  rcases h with h | h | h | ⟨p, h⟩ | ⟨p, h⟩ <;> omega

theorem spuriousEdge : Says.SpuriousEdge := by
  intro s t rest g hedges hgrid hprev hspurious
  have hedge : exec .edge s = _ := execEdge_of_lt s t rest g hedges hgrid (isSpurious_lt hspurious)
  rw [hedge, State.gridEdge_of_spurious hprev hspurious, State.spuriousEdge]
  simp only [satInc16_eq, countUp16, State.withEdges_fields]
  congr 2
  split <;> simp [*]

theorem edgeOfTheNextCycle : Says.EdgeOfTheNextCycle := by
  intro s t rest g hedges hgrid hlater
  simp only [exec, execEdge, hedges, hgrid, if_pos hlater]

/-- Settles O6: matches in the three states that have a grid, spurious edges, and edges of the next cycle. -/
theorem edgeWhileTheGridRuns : Obligations.EdgeWhileTheGridRuns :=
  ⟨matchCorrectsThePeriod, matchInWarmUp, spuriousEdge, edgeOfTheNextCycle⟩

end Edges

/-! ### The close of the late zone (R12, R15 to R18) -/

section LateZone

variable {s : State} {g : Grid}

/-- The close of an unmatched boundary's late zone is a miss. -/
theorem exec_lateZoneClose_of_missed (hgrid : s.tracker.grid = some g) (hboundary : g.boundary = ⟨none, false⟩) :
    exec .lateZoneClose s =
      .next (({ s with
          now := max s.now (g.start + g.period / 8)
          tracker := { s.tracker with grid := some { g with boundary := ⟨none, true⟩ } } } : State).missBoundary
        { g with boundary := ⟨none, true⟩ }) := by
  simp only [exec, execLateZoneClose, hgrid, hboundary]
  rfl

/-- Settles O7: a matched boundary only closes, an unmatched one is missed. -/
theorem lateZoneCloses : Obligations.LateZoneCloses := by
  intro s g hgrid
  refine ⟨fun hclosed => ?_, fun hopen hmatched => ?_, fun hboundary hstate => ?_, fun hboundary hstate hfew => ?_⟩
  · simp only [exec, execLateZoneClose, hgrid, hclosed, if_true]
  · simp only [exec, execLateZoneClose, hgrid, hopen, hmatched, if_true, Bool.false_eq_true, if_false]
    rfl
  · rw [exec_lateZoneClose_of_missed hgrid hboundary]
    simp only [State.missBoundary, hstate]
    rw [State.moveTo_of_same (by rfl)]
    rfl
  · rw [exec_lateZoneClose_of_missed hgrid hboundary]
    simp only [State.missBoundary, hstate, if_neg (Nat.not_le.2 hfew)]
    rfl

/-- Settles O8: a miss in WARMUP and the third miss in HOLDOVER enter SEARCH from a running grid. -/
theorem missedBoundaryEndsTheGrid : Obligations.MissedBoundaryEndsTheGrid := by
  rintro s g at_ hgrid hboundary rfl
  rw [exec_lateZoneClose_of_missed hgrid hboundary]
  refine ⟨fun hstate => ?_, fun hstate hthird => ?_⟩
  · simp only [State.missBoundary, hstate]
    rw [State.enterSearch_of_grid (g := { g with boundary := ⟨none, true⟩ }) rfl]
    simp only [State.qualifierAt, State.searchChanges, State.sourceInEffect, TrackerState.syncAbsent, if_true, List.append_nil]
    rfl
  · simp only [State.missBoundary, hstate, if_pos hthird, State.syncLoss]
    rw [State.enterSearch_of_grid (g := { g with boundary := ⟨none, true⟩ }) (by rfl)]
    simp only [State.qualifierAt, State.searchChanges, State.tellEngine, State.raise, State.askFiling, TrackerState.syncAbsent,
      Bool.false_eq_true, if_false, List.append_assoc, List.singleton_append]
    rfl

end LateZone

/-! ### The search timer (R8) -/

/-- The source at a position of the list. -/
theorem SyncSettings.sourceAt_eq_getElem {y : SyncSettings} {n : Nat} (hn : 1 ≤ n) (hlength : n ≤ y.list.length) :
    y.sourceAt n = y.list[n - 1] := by
  simp [SyncSettings.sourceAt, List.getD_eq_getElem?_getD, show n - 1 < y.list.length by omega]

/-- In a list of different sources the next position is another input. -/
theorem State.sourceAt_positionAfter_ne {s : State} (hlist : 1 < s.sync.list.length) (hnodup : s.sync.list.Nodup)
    (hpos : 1 ≤ s.tracker.position) (hle : s.tracker.position ≤ s.sync.list.length) :
    s.sync.sourceAt s.positionAfter ≠ s.sourceInEffect := by
  have hafter : 1 ≤ s.positionAfter ∧ s.positionAfter ≤ s.sync.list.length ∧ s.positionAfter ≠ s.tracker.position := by
    unfold State.positionAfter
    split <;> omega
  obtain ⟨h1, h2, h3⟩ := hafter
  rw [State.sourceInEffect, SyncSettings.sourceAt_eq_getElem h1 h2, SyncSettings.sourceAt_eq_getElem hpos hle]
  intro heq
  have hindex := hnodup.getElem_inj_iff.1 heq
  omega

/-- Settles O9: the timer of a list of more than one source rotates it, and that of a list of one restarts. -/
theorem searchTimerExpires : Obligations.SearchTimerExpires := by
  intro s
  refine ⟨fun hstopped => ?_, fun start hstart hone => ?_, fun start hstart hlist hstate hgrid hnodup hpos hle => ?_⟩
  · simp only [exec, execSearchTimerExpiry, hstopped]
  · simp only [exec, execSearchTimerExpiry, hstart, State.reach_fields, if_neg (Nat.not_lt.2 hone), Config.searchLimit]
  · simp only [exec, execSearchTimerExpiry, hstart, State.reach_fields, if_pos hlist, Config.searchLimit, satInc16_eq]
    rw [State.enterSearch_of_search (by simpa using hstate) (by simpa using hgrid),
      State.qualifierAt_of_other (by exact State.sourceAt_positionAfter_ne hlist hnodup hpos hle)]
    rfl

/-! ### The cycle start (R9, R10, R29, R31, R108) -/

theorem State.cycleComplete_iff (s : State) (g : Grid) :
    s.cycleComplete g = true ↔ s.front.assembly.rows.length = 96 ∧ g.boundary.closed = true ∧ s.transit.engine = [] ∧ s.transit.exams = []
      ∧ s.transit.copies = [] ∧ s.transit.reports = [] := by
  simp [State.cycleComplete, Transit.boundaryClear, and_assoc]

/-- Settles O10: a complete cycle ends at the three blocks and the next begins; an incomplete one waits. -/
theorem cycleStart : Obligations.CycleStart := by
  intro s
  refine ⟨fun hnone => ?_, fun g hgrid => ⟨fun hwaits => ?_, fun h1 h2 h3 h4 h5 h6 => ?_⟩⟩
  · simp only [exec, execCycleStart, hnone]
  · have hnot : ¬s.cycleComplete g = true := by
      rw [State.cycleComplete_iff]
      rintro ⟨h1, h2, h3, h4, h5, h6⟩
      simp [h1, h2, h3, h4, h5, h6] at hwaits
    simp only [exec, execCycleStart, hgrid, if_neg hnot]
  · have hcomplete := (s.cycleComplete_iff g).2 ⟨h1, h2, h3, h4, h5, h6⟩
    have hmark : (s.tracker.state == TrackerState.holdover) = decide (s.tracker.state = .holdover) := by cases s.tracker.state <;> rfl
    simp only [exec, execCycleStart, hgrid, if_pos hcomplete, State.beginCycle, State.endCycle, State.tellEngine, State.reach, Grid.next,
      Group.all, h3, List.nil_append, hmark]
    rfl

end Sys2Proof.Machine
end

