-- ==== Sys2Proof/Proofs/SampleSets.lean ====
section
/-! PROOFS. The Sampling Front End (chapter 2): instants (R25), sample sets and their way into the windows (R24, R27 to R29, R40, R54 to
R56), and copies of a cycle (R32, R104, R118, R127). -/

namespace Sys2Proof.Machine

/-- Settles O11: the next instant of the cycle holds the inputs, unless none is left or a conversion is in progress. -/
theorem instantHoldsTheInputs : Obligations.InstantHoldsTheInputs := by
  intro s inputs
  refine ⟨fun hnone => ?_, fun g hgrid => ⟨fun hwaits => ?_, fun hleft hidle => ?_⟩⟩
  · simp only [exec, execInstant, hnone]
  · have hnot : ¬(g.nextInstant < 96 ∧ s.front.conversion = none) := fun h => hwaits.elim (Nat.not_le.2 h.1) fun hbusy => hbusy h.2
    simp only [exec, execInstant, hgrid]
    rw [if_neg hnot]
  · simp only [exec, execInstant, hgrid]
    rw [if_pos ⟨hleft, hidle⟩]
    rfl

/-! ### Sample sets (R24, R27, R40, R54 to R56) -/

/-- A code beyond the span is full scale with its clip mark (R24). -/
theorem convert_eq (x : Int) :
    convert x =
      if 32767 < x then { code := 32767, clip := true }
      else if x < -32767 then { code := -32767, clip := true }
      else { code := x, clip := false } := rfl

theorem Participant.take_eq (p : Participant) (k : Nat) (c : Conversion) :
    p.take k c.sampleSet = { p with views := p.views.map fun a => a.after k (viewSample c.sampleSet.row p.subject a.view) } := by
  simp only [Participant.take, Conversion.sample_eq, ViewAcc.take_eq]

/-- A sample set goes into every participant's accumulators while a window runs (R40). -/
theorem Engine.take_eq (e : Engine) (c : Conversion) :
    e.take c.sampleSet =
      if e.running then
        { e with
          sampleCount := e.sampleCount + 1
          participants := e.participants.map fun p =>
            { p with views := p.views.map fun a => a.after e.sampleCount (viewSample c.sampleSet.row p.subject a.view) } }
      else e := by
  simp only [Engine.take, Participant.take_eq]

theorem State.canDeliver_iff (s : State) (c : Conversion) (t : Nat) :
    s.canDeliver c t = true ↔ c.held ≤ t ∧ t ≤ c.held + 1200 ∧ s.transit.engine = [] := by
  simp [State.canDeliver, and_assoc]

theorem sampleSet : Says.SampleSet := by
  intro s time
  refine ⟨fun hnone => ?_, fun c hconversion => ⟨fun hout => ?_, fun hheld hlate hclear => ⟨c.sampleSet.row, fun ch => ?_, ?_⟩⟩⟩
  · simp only [exec, execSampleSet, hnone]
  · have hnot : ¬s.canDeliver c time = true := by
      rw [s.canDeliver_iff]
      rintro ⟨h1, h2, h3⟩
      rcases hout with h | h | h
      · omega
      · omega
      · exact h h3
    simp only [exec, execSampleSet, hconversion, if_neg hnot]
  · simp only [Conversion.sampleSet, PerChannel.get_ofFn, convert_eq]
  · simp only [exec, execSampleSet, hconversion, if_pos ((s.canDeliver_iff c time).2 ⟨hheld, hlate, hclear⟩), State.deliver, State.reach,
      Engine.take_eq]

theorem tables : Says.Tables := by
  refine ⟨by decide, ?_, ?_, ?_, ?_⟩ <;> decide

/-- Settles O12: what a delivered sample set changes, and the tables it is accumulated by. -/
theorem sampleSetDelivered : Obligations.SampleSetDelivered := ⟨sampleSet, tables⟩

/-! ### Copies (R32) -/

/-- The copy of a cycle comes from the store that holds it (R32). -/
theorem FrontEnd.copyOf_eq {f : FrontEnd} {n : Word32} {rows : List Row}
    (h : (f.assembly.cycle = some n ∧ f.assembly.rows.length = 96 ∧ rows = f.assembly.rows)
      ∨ (f.assembly.cycle ≠ some n ∧ f.buffer.valid = true ∧ f.buffer.cycle = n ∧ rows = f.buffer.rows)) (channels : List Channel) :
    f.copyOf n channels = some (copyCycle n rows channels) := by
  rcases h with ⟨hcycle, hfull, rfl⟩ | ⟨hother, hvalid, hcycle, rfl⟩
  · rw [FrontEnd.copyOf, if_pos ⟨hcycle, hfull⟩]
  · rw [FrontEnd.copyOf, if_neg fun h => hother h.1, if_pos ⟨hvalid, hcycle⟩]

/-- Settles O13: a copy request is answered from the store that holds its cycle. -/
theorem copyComesFromTheStoreThatHoldsTheCycle : Obligations.CopyComesFromTheStoreThatHoldsTheCycle := by
  intro s n
  refine ⟨fun hnone => ?_, fun r rows hcopy hstore => ?_⟩
  · simp only [exec, execCopyRequest, hnone]
  · simp only [exec, execCopyRequest, hcopy, FrontEnd.copyOf_eq hstore, Filing.withWave_eq, State.askFiling]

end Sys2Proof.Machine
end

