-- ==== Sys2Proof/Proofs/RequestRows.lean ====
section
/-! PROOFS. A request row in terms of its kind's owner (R189 to R194), for bodies of a known shape. -/

namespace Sys2Proof.Machine

/-- A heard request whose body passes the common checks leaves what its owner leaves, with the owner's answer. -/
theorem exec_row_answers (k : RequestKind) {f : Frame} {s t : State} {a : Answer} {body : List Byte} (hhears : s.hears f)
    (hbody : f.body = body) (howner : ownerTakes k body (s.counted k f) = (a, t))
    (hlength : ∀ n, k.fixedLength = some n → body.length = n := by rintro n ⟨⟩ <;> rfl)
    (hbusy : k.inBusySet = true → s.settings.saving = false := by exact fun h => absurd h (by decide))
    (haddress : t.link.address = s.link.address := by rfl)
    (hpending : t.settings.restartPending = s.settings.restartPending := by rfl) :
    exec (k.row f) s = .next (t.answered k f a) := by
  obtain ⟨-, -, hquiet, -⟩ := id hhears
  refine exec_row_of_owner k f s t a hhears (by rw [hbody]; exact hlength) hbusy (by rw [hbody]; exact howner) haddress ?_
  rw [hpending, hquiet]

end Sys2Proof.Machine
end

