-- ==== Sys2Proof/Proofs/Windows.lean ====
section
/-! PROOFS. The Harmonic Engine's windows (chapter 3): cycle ends (R41, R42, R58 to R60, R63), window starts (R37 to R39, R43, R53),
aborts and disabled participants (R44, R45, R47), SET-WINDOW (R49, R50). -/

namespace Sys2Proof.Machine

/-! ### What ends a window hands on (R42, R45, R63, R64) -/

section Endings

variable (s : State)

theorem State.raiseIfPendingW_eq :
    s.raiseIfPendingW = { s with transit := { s.transit with raises := s.transit.raises ++ s.engine.profileNotice } } := by
  cases hpending : s.engine.pendingW <;> simp [State.raiseIfPendingW, Engine.profileNotice, State.raise, hpending]

theorem State.nameParticipants_eq :
    s.nameParticipants = { s with transit := { s.transit with namings := s.transit.namings ++ s.engine.namingOf } } := by
  cases hparticipants : s.engine.participants <;> simp [State.nameParticipants, Engine.namingOf, hparticipants]

theorem Engine.closed_eq (e : Engine) (ended : Bool) : e.closed ended = e.idleWith (e.pendingW.getD e.w) e.windowNumber ended := rfl

variable {s}

theorem State.abortWindow_of_idle (h : s.engine.running = false) : s.abortWindow = s := by
  simp [State.abortWindow, h]

/-- An abort of a running window (R45, R64). -/
theorem State.abortWindow_of_running (h : s.engine.running = true) :
    s.abortWindow =
      { s with
        engine := s.engine.idleWith (s.engine.pendingW.getD s.engine.w) s.engine.windowNumber false
        transit :=
          { s.transit with
            raises := s.transit.raises ++ s.engine.profileNotice
            namings := s.transit.namings ++ s.engine.namingOf
            aborts := s.transit.aborts ++ s.engine.participants.map (·.subject) } } := by
  simp only [State.abortWindow, h, if_true, State.raiseIfPendingW_eq, State.nameParticipants_eq, Engine.closed_eq]

theorem Participant.report_eq (p : Participant) (e : Engine) (number last : Word32) :
    p.report e number last =
      { subject := p.subject, number := number, w := e.w, firstCycle := e.firstCycle, lastCycle := last, holdover := e.holdover
        views := p.views.map fun a => a.yields (96 * e.w)
        floor := p.floor, limits := p.limits, waveOnExceed := p.waveOnExceed } := by
  simp only [Participant.report, ViewAcc.report_eq]

/-- The end of a window (R42, R63). -/
theorem State.endWindow_eq (s : State) (last : Word32) :
    s.endWindow last =
      { s with
        engine := s.engine.idleWith (s.engine.pendingW.getD s.engine.w) (s.engine.windowNumber + 1) true
        transit :=
          { s.transit with
            raises := s.transit.raises ++ s.engine.profileNotice
            namings := s.transit.namings ++ s.engine.namingOf
            reports := s.transit.reports ++ s.engine.participants.map fun p =>
              { subject := p.subject, number := s.engine.windowNumber + 1, w := s.engine.w
                firstCycle := s.engine.firstCycle, lastCycle := last, holdover := s.engine.holdover
                views := p.views.map fun a => a.yields (96 * s.engine.w)
                floor := p.floor, limits := p.limits, waveOnExceed := p.waveOnExceed } } } := by
  simp only [State.endWindow, State.raiseIfPendingW_eq, State.nameParticipants_eq, Participant.report_eq]
  rfl

end Endings

/-! ### Cycle ends (R41, R42) -/

section CycleEnds

variable {s : State} {n : Word32} {mark : Bool} {rest : List EngineMsg}

theorem exec_cycleEnd (h : s.transit.engine = .cycleEnd n mark :: rest) :
    exec .cycleEnd s = .next (({ s with transit := { s.transit with engine := rest } } : State).takeCycleEnd n mark) := by
  simp only [exec, execCycleEnd, h]

theorem exec_cycleEnd_of_other (h : ∀ n mark rest, s.transit.engine ≠ .cycleEnd n mark :: rest) : exec .cycleEnd s = .next s := by
  show execCycleEnd s = .next s
  unfold execCycleEnd
  split
  next heq => exact absurd heq (h _ _ _)
  next => rfl

theorem cycleEndCounts : Says.CycleEndCounts := by
  intro s
  refine ⟨exec_cycleEnd_of_other, fun n mark rest hfirst => ⟨fun hidle => ?_, fun hrunning hbefore => ?_⟩⟩
  · rw [exec_cycleEnd hfirst]
    simp [State.takeCycleEnd, hidle]
  · rw [exec_cycleEnd hfirst]
    simp [State.takeCycleEnd, hrunning, Nat.not_le.2 hbefore]

theorem windowEndReports : Says.WindowEndReports := by
  intro s n mark rest hfirst hrunning hlast
  refine ⟨fun hsets => ?_, fun hsets => ?_⟩
  · rw [exec_cycleEnd hfirst]
    simp only [State.takeCycleEnd, hrunning, if_true, hlast, le_refl, hsets, State.endWindow_eq]
    rfl
  · rw [exec_cycleEnd hfirst]
    simp only [State.takeCycleEnd, hrunning, if_true, hlast, le_refl, if_neg hsets]
    rw [State.abortWindow_of_running (by rfl)]
    rfl

/-- Settles O14: a cycle end counts within a window, and the last one ends it. -/
theorem cycleEnd : Obligations.CycleEnd := ⟨cycleEndCounts, windowEndReports⟩

end CycleEnds

/-! ### Window starts (R37 to R39, R43) -/

theorem exec_windowStart {s : State} {n : Word32} {rest : List EngineMsg} (hfirst : s.transit.engine = .cycleStart n :: rest)
    (hnamings : s.transit.namings = []) (hdisables : s.transit.disables = []) :
    exec .windowStart s = .next (({ s with transit := { s.transit with engine := rest } } : State).takeCycleStart n) := by
  simp only [exec, execWindowStart, hfirst, hnamings, hdisables]

theorem exec_windowStart_of_waits {s : State}
    (h : (∀ n rest, s.transit.engine ≠ .cycleStart n :: rest) ∨ s.transit.namings ≠ [] ∨ s.transit.disables ≠ []) :
    exec .windowStart s = .next s := by
  simp only [exec, execWindowStart]
  split
  next hfirst hnamings hdisables =>
    rcases h with h | h | h
    · exact absurd hfirst (h _ _)
    · exact absurd hnamings h
    · exact absurd hdisables h
  next => rfl

/-- Settles O15: which cycle starts begin a window, and who takes part. -/
theorem windowStart : Obligations.WindowStart := by
  intro s
  refine ⟨exec_windowStart_of_waits, fun n rest hfirst hnamings hdisables => ⟨fun hno => ?_, fun hidle hmay => ?_⟩⟩
  · rw [exec_windowStart hfirst hnamings hdisables]
    by_cases hrunning : s.engine.running = true
    · simp only [State.takeCycleStart, hrunning, if_true]
    · have hmay := hno.resolve_left hrunning
      simp only [State.takeCycleStart, if_neg hrunning, if_neg hmay]
  · refine ⟨startMeasuring s.table, fun i => by simp only [startMeasuring, PerSubject.get_ofFn], ?_⟩
    rw [exec_windowStart hfirst hnamings hdisables]
    simp only [State.takeCycleStart, hidle, Bool.false_eq_true, if_false, if_pos hmay]
    rfl

/-! ### Aborts and disabled participants (R44, R45, R47) -/

/-- What the Engine takes as an abort: a grid stop or an abort cause. -/
def EngineMsg.stops : EngineMsg → Bool
  | .gridStop => true
  | .abort _ => true
  | .cycleStart _ => false
  | .cycleEnd _ _ => false

theorem EngineMsg.stops_of_cause {m : EngineMsg}
    (h : m = .gridStop ∨ m = .abort .syncLoss ∨ m = .abort .setSync ∨ m = .abort .loadDefaults) : m.stops = true := by
  rcases h with rfl | rfl | rfl | rfl <;> rfl

theorem exec_windowAbort {s : State} {m : EngineMsg} {rest : List EngineMsg} (hfirst : s.transit.engine = m :: rest)
    (hstops : m.stops = true) :
    exec .windowAbort s = .next (({ s with transit := { s.transit with engine := rest } } : State).abortWindow) := by
  cases m <;> simp_all [exec, execWindowAbort, EngineMsg.stops]

theorem windowAbort : Says.WindowAbort := by
  intro s
  refine ⟨fun ⟨hgrid, hcause⟩ => ?_, fun m rest hfirst => ⟨fun hstops hidle => ?_, fun hstops hrunning => ?_⟩⟩
  · show execWindowAbort s = .next s
    unfold execWindowAbort
    split
    next heq => exact absurd heq (hgrid _)
    next heq => exact absurd heq (hcause _ _)
    next => rfl
  · rw [exec_windowAbort hfirst (EngineMsg.stops_of_cause hstops), State.abortWindow_of_idle (by exact hidle)]
  · rw [exec_windowAbort hfirst (EngineMsg.stops_of_cause hstops), State.abortWindow_of_running (by exact hrunning)]

theorem disableMessage : Says.DisableMessage := by
  intro s
  refine ⟨fun hnone => ?_, fun i rest hfirst => ?_⟩
  · simp only [exec, execDisableMessage, hnone]
  · simp only [exec, execDisableMessage, hfirst, decide_not, bne]
    rfl

/-- Settles O16: what ends a window early, and what takes one participant out of it. -/
theorem windowAbortAndDisableMessage : Obligations.WindowAbortAndDisableMessage := ⟨windowAbort, disableMessage⟩

/-! ### SET-WINDOW (R49, R50) -/

section SetWindow

variable {s : State} {b : Byte}

theorem ownSetWindow_of_legal (h : b.toNat ∈ [2, 4, 8, 16]) :
    ownSetWindow [b] s = (.accept [b8 (s.stageWindow b.toNat).engine.w, (s.stageWindow b.toNat).engine.pendingByte], s.stageWindow b.toNat) :=
  if_pos (powerLength_iff.2 h)

theorem ownSetWindow_of_illegal (h : b.toNat ∉ [2, 4, 8, 16]) : ownSetWindow [b] s = (.refuse .argument 0, s) :=
  if_neg fun hpower => h (powerLength_iff.1 hpower)

/-- Settles O17: an illegal length is refused, a legal one is staged or in use at once. -/
theorem setWindow : Obligations.SetWindow := by
  intro s f b hhears hsaving hbody
  have hbusy (_ : RequestKind.inBusySet .setWindow = true) : s.settings.saving = false := hsaving
  refine ⟨fun hillegal => ?_, fun hlegal hrunning => ?_, fun hlegal hidle => ?_⟩
  · exact exec_row_answers .setWindow hhears hbody (ownSetWindow_of_illegal hillegal) (hbusy := hbusy)
  · refine exec_row_answers .setWindow hhears hbody ((ownSetWindow_of_legal hlegal).trans ?_) (hbusy := hbusy)
    rw [State.stageWindow, if_pos (by exact hrunning)]
    simp only [Engine.pendingByte, b8_toNat]
    rfl
  · refine exec_row_answers .setWindow hhears hbody ((ownSetWindow_of_legal hlegal).trans ?_) (hbusy := hbusy)
    rw [State.stageWindow, if_neg (by rw [Bool.not_eq_true]; exact hidle)]
    simp only [State.raise, b8_toNat]
    rfl

end SetWindow

end Sys2Proof.Machine
end

