-- ==== Sys2Proof/Proofs/SubjectTable.lean ====
section
/-! PROOFS. The Subject Table (chapter 4): the namings at a window's end (R71, R78, R80), ENABLE and DISABLE (R67 to R70). -/

namespace Sys2Proof.Machine

/-! ### Activations (R80) -/

/-- A naming activates the entry's pending profile. -/
def SubjectEntry.activates (e : SubjectEntry) : Bool := decide (e.state = .measuring) && e.pendingProfile.isSome

/-- The clearing that a subject's event hands to its group's Gap Detector. -/
def clearingOf (c : Clearing) (i : Subject) : Option (Group × Clearing) := i.group?.map fun g => (g, c)

theorem State.clearingFor_eq (s : State) (i : Subject) (c : Clearing) :
    s.clearingFor i c =
      { s with transit := { s.transit with clearings := s.transit.clearings ++ (clearingOf c i).toList } } := by
  cases i <;> simp [State.clearingFor, clearingOf, Subject.group?, State.orderClearing]

/-- What the activation of the pending profiles of some subjects hands on (R80). -/
def Transit.withActivations (x : Transit) (activated : List Subject) : Transit :=
  { x with
    orders := x.orders ++ activated.map fun i => (i, .activation)
    clearings := x.clearings ++ activated.filterMap (clearingOf .activation)
    raises := x.raises ++ activated.map fun _ => .profile }

@[simp] theorem Transit.withActivations_nil (x : Transit) : x.withActivations [] = x := by simp [Transit.withActivations]

theorem Transit.withActivations_append (x : Transit) (l m : List Subject) :
    x.withActivations (l ++ m) = (x.withActivations l).withActivations m := by
  simp [Transit.withActivations, List.append_assoc]

theorem State.activate_eq (s : State) (i : Subject) (p : Profile) :
    s.activate i p =
      { s with
        table := s.table.set i { s.table.get i with active := p, pendingProfile := none }
        transit := s.transit.withActivations [i] } := by
  simp only [State.activate, State.clearingFor_eq, State.setEntry, State.order, State.raise, Transit.withActivations, List.map_cons,
    List.map_nil, List.filterMap_cons, List.filterMap_nil]
  cases clearingOf .activation i <;> rfl

theorem PerSubject.set_set {α : Type} (p : PerSubject α) (i : Subject) (x y : α) : (p.set i x).set i y = p.set i y :=
  PerSubject.ext_get fun j => by
    simp only [PerSubject.get_set]
    split <;> rfl

theorem PerSubject.set_get {α : Type} (p : PerSubject α) (i : Subject) : p.set i (p.get i) = p :=
  PerSubject.ext_get fun j => by
    rw [PerSubject.get_set]
    split
    case isTrue hji => rw [hji]
    case isFalse => rfl

/-! ### Namings (R71, R78) -/

/-- A naming of one participant (R71, R78, R80). -/
theorem State.nameOne_eq (s : State) (i : Subject) :
    s.nameOne i =
      { s with
        table := s.table.set i (s.table.get i).named
        transit := s.transit.withActivations (if (s.table.get i).activates then [i] else []) } := by
  unfold State.nameOne SubjectEntry.named SubjectEntry.activates
  dsimp only
  split
  case h_1 hstate =>
    split
    case h_1 hpending => simp [hstate, hpending, State.setEntry]
    case h_2 p hpending => simp [hstate, hpending, State.setEntry, State.activate_eq, PerSubject.set_set]
  all_goals simp [*, PerSubject.set_get]

/-- The Subject Table after a naming. -/
def namedTable (names : List Subject) (table : PerSubject SubjectEntry) : PerSubject SubjectEntry :=
  .ofFn fun i => if i ∈ names then (table.get i).named else table.get i

theorem namedTable_get (names : List Subject) (table : PerSubject SubjectEntry) (i : Subject) :
    (namedTable names table).get i = if i ∈ names then (table.get i).named else table.get i := by
  rw [namedTable, PerSubject.get_ofFn]

/-- The naming of different participants (R71, R78, R80). -/
theorem State.foldl_nameOne_eq (s : State) {names : List Subject} (h : names.Nodup) :
    names.foldl State.nameOne s =
      { s with
        table := namedTable names s.table
        transit := s.transit.withActivations (names.filter fun i => (s.table.get i).activates) } := by
  induction names generalizing s with
  | nil =>
    have htable : namedTable [] s.table = s.table := PerSubject.ext_get fun i => by simp [namedTable_get]
    rw [htable, List.filter_nil, Transit.withActivations_nil]
    rfl
  | cons i rest ih =>
    obtain ⟨hnew, hrest⟩ := List.nodup_cons.1 h
    have hother {j : Subject} (hj : j ∈ rest) : (s.table.set i (s.table.get i).named).get j = s.table.get j := by
      rw [PerSubject.get_set, if_neg]
      rintro rfl
      exact hnew hj
    have htable : namedTable rest (s.table.set i (s.table.get i).named) = namedTable (i :: rest) s.table :=
      PerSubject.ext_get fun j => by
        simp only [namedTable_get, List.mem_cons]
        by_cases hj : j ∈ rest
        · rw [if_pos hj, if_pos (.inr hj), hother hj]
        · by_cases hji : j = i <;> simp [hj, hji, hnew]
    have hfilter : rest.filter (fun j => ((s.table.set i (s.table.get i).named).get j).activates) =
        rest.filter fun j => (s.table.get j).activates :=
      List.filter_congr fun j hj => by rw [hother hj]
    have hactivated : (i :: rest).filter (fun j => (s.table.get j).activates) =
        (if (s.table.get i).activates then [i] else []) ++ rest.filter fun j => (s.table.get j).activates := by
      rw [List.filter_cons]
      split <;> rfl
    rw [List.foldl_cons, State.nameOne_eq, ih _ hrest]
    simp only [htable, hfilter, hactivated, Transit.withActivations_append]

/-- Settles O18: the table takes the oldest naming. -/
theorem windowEndNaming : Obligations.WindowEndNaming := by
  intro s
  refine ⟨fun hnone => ?_, fun names activated rest hnames hnodup hactivated => ⟨namedTable names s.table, fun i => ?_, ?_⟩⟩
  · simp only [exec, execWindowEndNaming, hnone]
  · rw [namedTable_get, SubjectEntry.named]
    by_cases hi : i ∈ names <;> simp [hi]
  · simp only [exec, execWindowEndNaming, hnames, State.foldl_nameOne_eq _ hnodup]
    rw [hactivated]
    rfl

/-! ### ENABLE and DISABLE (R67 to R70) -/

section Requests

variable {s : State} {b : Byte} {i : Subject}

theorem b8_number (h : b.toNat = i.number) : b8 i.number = b := by rw [← h, b8_toNat]

theorem State.enableSubject_of_disabled (h : (s.table.get i).state = .disabled) :
    s.enableSubject i =
      { s with
        table := s.table.set i { s.table.get i with state := .waiting }
        transit := { s.transit with orders := s.transit.orders ++ [(i, .enable)] } } := by
  simp only [State.enableSubject, h]
  rfl

theorem State.enableSubject_of_enabled (h : (s.table.get i).state ≠ .disabled) : s.enableSubject i = s := by
  cases hstate : (s.table.get i).state <;> simp_all [State.enableSubject]

theorem ownEnable_of_above (h : 4 < b.toNat) : ownEnable [b] s = (.refuse .argument 0, s) := by
  simp only [ownEnable, show u8At [b] 0 = b.toNat from rfl, Subject.ofNumber_above b h]

theorem ownEnable_of_number (h : b.toNat = i.number) : ownEnable [b] s = (.accept [b, (s.table.get i).state.code], s.enableSubject i) := by
  simp only [ownEnable, show u8At [b] 0 = b.toNat from rfl, Subject.ofNumber_number b i h, b8_number h]

theorem enable : Says.Enable := by
  intro s f b hhears hbody
  refine ⟨fun habove => ?_, fun i hi => ⟨fun henabled => ?_, fun hdisabled => ?_⟩⟩
  · exact exec_row_answers .enable hhears hbody (ownEnable_of_above habove)
  · refine exec_row_answers .enable hhears hbody ((ownEnable_of_number hi).trans ?_)
    rw [State.enableSubject_of_enabled (by exact henabled)]
    rfl
  · refine exec_row_answers .enable hhears hbody ((ownEnable_of_number hi).trans ?_)
    rw [State.enableSubject_of_disabled (by exact hdisabled)]
    rfl

theorem State.disableSubject_of_disabled (h : (s.table.get i).state = .disabled) : s.disableSubject i = s := by
  simp only [State.disableSubject, h]

theorem State.disableSubject_of_waiting (h : (s.table.get i).state = .waiting) :
    s.disableSubject i =
      { s with
        table := s.table.set i { s.table.get i with state := .disabled }
        transit :=
          { s.transit with
            orders := s.transit.orders ++ [(i, .disable false)]
            clearings := s.transit.clearings ++ (clearingOf .disable i).toList } } := by
  simp only [State.disableSubject, h, State.clearingFor_eq]
  rfl

theorem State.disableSubject_of_measuring (h : (s.table.get i).state = .measuring) :
    s.disableSubject i =
      { s with
        table := s.table.set i
          { state := .disabled, active := (s.table.get i).pendingProfile.getD (s.table.get i).active, pendingProfile := none }
        transit :=
          { s.transit with
            disables := s.transit.disables ++ [i]
            orders := s.transit.orders ++ [(i, .disable (s.table.get i).pendingProfile.isSome)]
            clearings := s.transit.clearings ++ (clearingOf .disable i).toList
            raises := s.transit.raises ++ if (s.table.get i).pendingProfile.isSome then [.profile] else [] } } := by
  cases hpending : (s.table.get i).pendingProfile with
  | none => simp [State.disableSubject, h, hpending, State.clearingFor_eq, State.tellDisabled, State.setEntry, State.order]
  | some p => simp [State.disableSubject, h, hpending, State.clearingFor_eq, State.tellDisabled, State.setEntry, State.order, State.raise]

theorem ownDisable_of_above (h : 4 < b.toNat) : ownDisable [b] s = (.refuse .argument 0, s) := by
  simp only [ownDisable, show u8At [b] 0 = b.toNat from rfl, Subject.ofNumber_above b h]

theorem ownDisable_of_number (h : b.toNat = i.number) {state : SubjectState} (hstate : (s.table.get i).state = state) :
    ownDisable [b] s = (.accept [b, state.code], s.disableSubject i) := by
  simp only [ownDisable, show u8At [b] 0 = b.toNat from rfl, Subject.ofNumber_number b i h, b8_number h, hstate]

theorem disable : Says.Disable := by
  intro s f b hhears hbody
  refine ⟨fun habove => ?_, fun i hi => ⟨fun hdisabled => ?_, fun hwaiting => ?_, fun hmeasuring => ?_⟩⟩
  · exact exec_row_answers .disable hhears hbody (ownDisable_of_above habove)
  · refine exec_row_answers .disable hhears hbody ((ownDisable_of_number (s := s.counted .disable f) hi hdisabled).trans ?_)
    rw [State.disableSubject_of_disabled (by exact hdisabled)]
    rfl
  · refine exec_row_answers .disable hhears hbody ((ownDisable_of_number (s := s.counted .disable f) hi hwaiting).trans ?_)
    rw [State.disableSubject_of_waiting (by exact hwaiting)]
    rfl
  · refine exec_row_answers .disable hhears hbody ((ownDisable_of_number (s := s.counted .disable f) hi hmeasuring).trans ?_)
    rw [State.disableSubject_of_measuring (by exact hmeasuring)]
    rfl

/-- Settles O19: ENABLE and DISABLE in each state of the subject. -/
theorem enableAndDisable : Obligations.EnableAndDisable := ⟨enable, disable⟩

end Requests

end Sys2Proof.Machine
end

