-- ==== Sys2Proof/Proofs/FirstFailures.lean ====
section
/-! PROOFS. The refusals of a walked body (R21, R75, R76, R189): a walk checks its fields one after the other, refuses at the first that
does not pass, and goes on when all pass. -/

namespace Sys2Proof.Machine

/-! ### Walks that check fields -/

/-- What a field that does not pass gives: LENGTH when it lies beyond the end, else ARGUMENT, at its offset. -/
def BodyField.fault (x : BodyField) (body : List Byte) : RefusalCode × Nat :=
  if body.length < x.off + x.size then (.length, x.off) else (.argument, x.off)

theorem BodyField.fault_of_in {x : BodyField} {body : List Byte} (h : x.off + x.size ≤ body.length) : x.fault body = (.argument, x.off) :=
  if_neg (Nat.not_lt.2 h)

theorem BodyField.fault_of_out {x : BodyField} {body : List Byte} (h : body.length < x.off + x.size) : x.fault body = (.length, x.off) :=
  if_pos h

theorem BodyField.refusal_eq (x : BodyField) (body : List Byte) : x.refusal body = .refuse (x.fault body).1 (x.fault body).2 := by
  unfold BodyField.refusal BodyField.fault
  split <;> rfl

/-- The walk `w` checks the fields in order and is the walk `rest` once all pass. -/
structure ChecksThen {α : Type} (body : List Byte) (fields : List BodyField) (w rest : Walk α) : Prop where
  fails : ∀ x, isFirstFailure fields body x → w = .error (x.fault body)
  goes_on : (∀ x ∈ fields, x.passes body) → w = rest

theorem isFirstFailure_append {xs ys : List BodyField} {body : List Byte} {x : BodyField} (h : isFirstFailure (xs ++ ys) body x) :
    isFirstFailure xs body x ∨ ((∀ y ∈ xs, y.passes body) ∧ isFirstFailure ys body x) := by
  obtain ⟨before, after, hfields, hbefore, hx⟩ := h
  rcases List.append_eq_append_iff.1 hfields with ⟨l, rfl, rfl⟩ | ⟨l, rfl, hl⟩
  · exact .inr ⟨fun y hy => hbefore y (List.mem_append_left _ hy), l, after, rfl, fun y hy => hbefore y (List.mem_append_right _ hy), hx⟩
  · cases l with
    | nil => exact .inr ⟨fun y hy => hbefore y (by simpa using hy), [], after, by simpa using hl.symm, by simp, hx⟩
    | cons z l =>
      obtain ⟨rfl, -⟩ := List.cons.inj hl
      exact .inl ⟨before, l, rfl, hbefore, hx⟩

namespace ChecksThen

variable {α : Type} {body : List Byte} {xs ys : List BodyField} {x : BodyField} {w v rest : Walk α}

theorem nil : ChecksThen body [] w w where
  fails := by rintro x ⟨before, after, h, -⟩; simp at h
  goes_on _ := rfl

theorem append (hx : ChecksThen body xs w v) (hy : (∀ x ∈ xs, x.passes body) → ChecksThen body ys v rest) :
    ChecksThen body (xs ++ ys) w rest where
  fails x h := by
    rcases isFirstFailure_append h with h | ⟨hpass, h⟩
    · exact hx.fails x h
    · rw [hx.goes_on hpass, (hy hpass).fails x h]
  goes_on h := by
    have hpass : ∀ x ∈ xs, x.passes body := fun x hx => h x (List.mem_append_left _ hx)
    rw [hx.goes_on hpass, (hy hpass).goes_on fun y hy => h y (List.mem_append_right _ hy)]

theorem single (hfail : ¬x.passes body → w = .error (x.fault body)) (hpass : x.passes body → w = rest) : ChecksThen body [x] w rest where
  fails y h := by
    obtain ⟨before, after, hfields, -, hy⟩ := h
    obtain ⟨rfl, rfl, -⟩ : before = [] ∧ y = x ∧ after = [] := by
      cases before <;> simp_all
    exact hfail hy
  goes_on h := hpass (h x (List.mem_singleton_self x))

theorem cons (hx : ChecksThen body [x] w v) (hy : x.passes body → ChecksThen body ys v rest) : ChecksThen body (x :: ys) w rest :=
  hx.append fun hpass => hy (hpass x (List.mem_singleton_self x))

end ChecksThen

/-! ### The steps of a walk -/

section Steps

variable {α : Type} {body : List Byte} {off lo hi : Nat} {k : Nat → Walk α} {rest : Walk α}

theorem needByte_of_lt (h : off < body.length) : needByte body off = .ok (u8At body off) := by
  simp [needByte, u8At, List.getElem?_eq_getElem h, List.getD_eq_getElem?_getD]

theorem needByte_of_le (h : body.length ≤ off) : needByte body off = .error (.length, off) := by
  simp [needByte, List.getElem?_eq_none h]

/-- A byte with the values it may have. -/
theorem needByte_checks {P : Nat → Prop} (hfail : ¬P (u8At body off) → k (u8At body off) = .error (.argument, off))
    (hpass : P (u8At body off) → k (u8At body off) = rest) : ChecksThen body [⟨off, 1, P⟩] (needByte body off >>= k) rest := by
  rcases Nat.lt_or_ge off body.length with hin | hout
  · rw [needByte_of_lt hin]
    refine ChecksThen.single (fun hnot => ?_) fun h => hpass h.2
    have hP : ¬P (u8At body off) := fun hP => hnot ⟨hin, hP⟩
    rw [BodyField.fault_of_in (by exact hin)]
    exact hfail hP
  · rw [needByte_of_le hout]
    refine ChecksThen.single (fun _ => ?_) fun h => absurd h.1 (by dsimp only; omega)
    rw [BodyField.fault_of_out (by dsimp only; omega)]
    rfl

theorem demand_of {p : Bool} (h : p = true) : demand p off = .ok () := if_pos h

theorem demand_of_not {p : Bool} (h : p = false) : demand p off = .error (.argument, off) := by
  rw [demand, h]
  rfl

theorem within_iff {n : Nat} : (decide (lo ≤ n) && decide (n ≤ hi)) = true ↔ lo ≤ n ∧ n ≤ hi := by simp

/-- A byte in a range. -/
theorem byteIn_checks : ChecksThen body [byteField off lo hi] (byteIn body off lo hi >>= k) (k (u8At body off)) := by
  simp only [byteIn, bind_assoc, pure_bind]
  refine needByte_checks (fun hout => ?_) fun hin => ?_
  · rw [demand_of_not (by rwa [← Bool.not_eq_true, within_iff])]
    rfl
  · rw [demand_of (within_iff.2 hin)]
    rfl

theorem need16_of_lt (h : off + 1 < body.length) : need16 body off = .ok (u8At body off + 256 * u8At body (off + 1)) := by
  have h0 : off < body.length := by omega
  simp [need16, u8At, List.getElem?_eq_getElem h, List.getElem?_eq_getElem h0, List.getD_eq_getElem?_getD]

theorem need16_of_le (h : body.length ≤ off + 1) : need16 body off = .error (.length, off) := by
  simp [need16, List.getElem?_eq_none h]

/-- A two-byte field in a range. -/
theorem wordIn_checks :
    ChecksThen body [wordField off lo hi] (wordIn body off lo hi >>= k) (k (u8At body off + 256 * u8At body (off + 1))) := by
  simp only [wordIn, bind_assoc, pure_bind]
  rcases Nat.lt_or_ge (off + 1) body.length with hin | hout
  · rw [need16_of_lt hin]
    refine ChecksThen.single (fun hnot => ?_) fun h => ?_
    · rw [BodyField.fault_of_in (by exact hin)]
      show demand _ off >>= _ = _
      rw [demand_of_not]
      · rfl
      · rw [← Bool.not_eq_true, within_iff]
        exact fun hrange => hnot (wordField_passes.2 ⟨hin, hrange⟩)
    · obtain ⟨-, hrange⟩ := wordField_passes.1 h
      show demand _ off >>= _ = _
      rw [demand_of (within_iff.2 hrange)]
      rfl
  · rw [need16_of_le hout]
    refine ChecksThen.single (fun _ => ?_) fun h => absurd (wordField_passes.1 h).1 (by omega)
    rw [BodyField.fault_of_out (show body.length < off + 2 by omega)]
    rfl

/-- A flag. -/
theorem flagAt_checks {k : Bool → Walk α} :
    ChecksThen body [byteField off 0 1] (flagAt body off >>= k) (k (u8At body off == 1)) := by
  simp only [flagAt, bind_assoc, pure_bind]
  exact byteIn_checks

theorem endAt_of_lt {k : Unit → Walk α} (h : off < body.length) : (endAt body off >>= k) = .error (.length, off) := by
  rw [endAt, if_pos h]
  rfl

end Steps

/-! ### The fields of SET-SYNC (R21) -/

section SyncFields

variable {α : Type} {body : List Byte}

/-- The field of the source at a place of the list: 0 to 2, and not one that stands before. -/
def sourceField (body : List Byte) (m : Nat) : BodyField := ⟨m + 1, 1, fun v => v ≤ 2 ∧ ∀ j, j < m → u8At body (j + 1) ≠ v⟩

/-- The source at a place of the list. -/
def sourceIn (body : List Byte) (m : Nat) : Source := (Source.ofNumber? (u8At body (m + 1))).getD .sya

/-- A byte up to 2 is the code of one source. -/
theorem sourceIn_iff {m : Nat} (h : u8At body (m + 1) ≤ 2) (src : Source) :
    src = sourceIn body m ↔ u8At body (m + 1) = (Source.code src).toNat := by
  rw [sourceIn]
  interval_cases u8At body (m + 1) <;> cases src <;> decide

/-- The step of a walk that reads one source. -/
def sourceStep (seen : List Source) (off : Nat) (next : Source → Walk α) (x : Nat) : Walk α :=
  match Source.ofNumber? x with
  | none => .error (.argument, off)
  | some src => demand (!seen.contains src) off >>= fun _ => next src

theorem sourceStep_of_some {seen : List Source} {off x : Nat} {next : Source → Walk α} {src : Source} (h : Source.ofNumber? x = some src) :
    sourceStep seen off next x = demand (!seen.contains src) off >>= fun _ => next src := by
  rw [sourceStep, h]

theorem sourceStep_of_none {seen : List Source} {off x : Nat} {next : Source → Walk α} (h : Source.ofNumber? x = none) :
    sourceStep seen off next x = .error (.argument, off) := by
  rw [sourceStep, h]

theorem walkSources_succ {n off : Nat} {seen : List Source} {k : List Source → Walk α} :
    (walkSources body (n + 1) off seen >>= k) =
      needByte body off >>= sourceStep seen off fun src => walkSources body n (off + 1) (src :: seen) >>= fun rest => k (src :: rest) := by
  rw [walkSources, bind_assoc]
  congr 1
  funext x
  unfold sourceStep
  cases Source.ofNumber? x
  · rfl
  · simp only [bind_assoc, pure_bind]

theorem sourceStep_checks {m : Nat} {seen : List Source} {next : Source → Walk α}
    (hseen : ∀ src, src ∈ seen ↔ ∃ j, j < m ∧ u8At body (j + 1) = (Source.code src).toNat) :
    ChecksThen body [sourceField body m] (needByte body (m + 1) >>= sourceStep seen (m + 1) next) (next (sourceIn body m)) := by
  have hstep : u8At body (m + 1) ≤ 2 → sourceStep seen (m + 1) next (u8At body (m + 1)) =
      demand (!seen.contains (sourceIn body m)) (m + 1) >>= fun _ => next (sourceIn body m) := fun h =>
    sourceStep_of_some (Source.ofNumber_eq_some_iff.2 ((sourceIn_iff h _).1 rfl))
  have hmem : u8At body (m + 1) ≤ 2 → (sourceIn body m ∈ seen ↔ ∃ j, j < m ∧ u8At body (j + 1) = u8At body (m + 1)) := fun h => by
    rw [hseen, ← (sourceIn_iff h _).1 rfl]
  refine needByte_checks (fun hnot => ?_) fun ⟨hrange, hnew⟩ => ?_
  · by_cases hrange : u8At body (m + 1) ≤ 2
    · have hold : sourceIn body m ∈ seen := (hmem hrange).2 (by simpa [hrange] using hnot)
      rw [hstep hrange, demand_of_not (by simpa using hold)]
      rfl
    · refine sourceStep_of_none (Option.eq_none_iff_forall_ne_some.2 fun src hsrc => hrange ?_)
      rw [Source.ofNumber_eq_some_iff.1 hsrc]
      cases src <;> decide
  · have hnotSeen : sourceIn body m ∉ seen := fun h => by
      obtain ⟨j, hj, heq⟩ := (hmem hrange).1 h
      exact hnew j hj heq
    rw [hstep hrange, demand_of (by simpa using hnotSeen)]
    rfl

theorem walkSources_checks {n m : Nat} {seen : List Source} {k : List Source → Walk α}
    (hseen : ∀ src, src ∈ seen ↔ ∃ j, j < m ∧ u8At body (j + 1) = (Source.code src).toNat) :
    ChecksThen body ((List.range' m n).map (sourceField body)) (walkSources body n (m + 1) seen >>= k)
      (k ((List.range' m n).map (sourceIn body))) := by
  induction n generalizing m seen k with
  | zero => exact ChecksThen.nil
  | succ n ih =>
    rw [List.range'_succ, List.map_cons, List.map_cons, walkSources_succ]
    refine ChecksThen.cons (sourceStep_checks hseen) fun hpass => ih fun src => ?_
    obtain ⟨-, hrange, -⟩ := hpass
    rw [List.mem_cons, sourceIn_iff hrange, hseen]
    constructor
    · rintro (h | ⟨j, hj, h⟩)
      · exact ⟨m, Nat.lt_succ_self m, h⟩
      · exact ⟨j, Nat.lt_succ_of_lt hj, h⟩
    · rintro ⟨j, hj, h⟩
      rcases Nat.lt_succ_iff_lt_or_eq.1 hj with hj | rfl
      · exact .inr ⟨j, hj, h⟩
      · exact .inl h

/-- A depth is a power of two from 2 to 16. -/
theorem powerLength_checks {off : Nat} {k : Nat → Walk α} :
    ChecksThen body [⟨off, 1, fun v => v ∈ [2, 4, 8, 16]⟩]
      (needByte body off >>= fun q => demand (powerLength q) off >>= fun _ => k q) (k (u8At body off)) := by
  refine needByte_checks (fun hnot => ?_) fun hpower => ?_
  · rw [demand_of_not (by rw [← Bool.not_eq_true, powerLength_iff]; exact hnot)]
    rfl
  · rw [demand_of (powerLength_iff.2 hpower)]
    rfl

/-- The settings that a body's fields give. -/
def syncIn (body : List Byte) : SyncSettings :=
  let n := u8At body 0
  { list := (List.range' 0 n).map (sourceIn body), offsets := ⟨u8At body (n + 1), u8At body (n + 2), u8At body (n + 3)⟩
    polarity := if u8At body (n + 4) = 0 then .rising else .falling, depth := u8At body (n + 5), warmUpTarget := u8At body (n + 6) }

/-- The walk of SET-SYNC checks its fields in order, and then that nothing follows (R21, R189). -/
theorem walkSync_checks (body : List Byte) :
    ChecksThen body (syncFields body) (walkSync body) (endAt body (u8At body 0 + 7) >>= fun _ => pure (syncIn body)) := by
  refine ChecksThen.cons byteIn_checks fun _ => ?_
  refine ChecksThen.append (by
    rw [List.range_eq_range']
    exact walkSources_checks (m := 0) (by simp)) fun _ => ?_
  exact ChecksThen.cons byteIn_checks fun _ => ChecksThen.cons byteIn_checks fun _ => ChecksThen.cons byteIn_checks fun _ =>
    ChecksThen.cons byteIn_checks fun _ => ChecksThen.cons powerLength_checks fun _ => byteIn_checks

end SyncFields

end Sys2Proof.Machine
end

