-- ==== Sys2Proof/Proofs/ProfileRequests.lean ====
section
/-! PROOFS. SET-PROFILE (chapter 4, R75 to R77, R80, R223): the fields of the walked body and the staging of an accepted profile. -/

namespace Sys2Proof.Machine

/-! ### The fields of a view and of the gap part -/

section Fields

variable {α : Type} {body : List Byte} {off : Nat}

/-- The field of the order at a place of an order list: 1 to 47, and above the one before. -/
def orderField (body : List Byte) (off m : Nat) : BodyField :=
  ⟨off + m, 1, fun v => 1 ≤ v ∧ v ≤ 47 ∧ (0 < m → u8At body (off + (m - 1)) < v)⟩

/-- An order that is read after the order `before`. -/
theorem order_checks {m before : Nat} {k : Nat → Walk α} (hfirst : m = 0 → before = 0)
    (hlater : 0 < m → before = u8At body (off + (m - 1))) :
    ChecksThen body [orderField body off m]
      (byteIn body (off + m) 1 47 >>= fun h => demand (decide (before < h)) (off + m) >>= fun _ => k h) (k (u8At body (off + m))) := by
  have hbefore : 1 ≤ u8At body (off + m) → (before < u8At body (off + m) ↔ (0 < m → u8At body (off + (m - 1)) < u8At body (off + m))) := by
    intro hmin
    rcases Nat.eq_zero_or_pos m with hzero | hpos
    · simp [hfirst hzero, hzero] at hmin ⊢
      omega
    · simp [hlater hpos, hpos]
  simp only [byteIn, bind_assoc, pure_bind]
  refine needByte_checks (fun hnot => ?_) fun ⟨hmin, hmax, habove⟩ => ?_
  · by_cases hrange : 1 ≤ u8At body (off + m) ∧ u8At body (off + m) ≤ 47
    · have hlow : ¬before < u8At body (off + m) := fun h => hnot ⟨hrange.1, hrange.2, (hbefore hrange.1).1 h⟩
      rw [demand_of (within_iff.2 hrange)]
      show demand _ (off + m) >>= _ = _
      rw [demand_of_not (by simpa using hlow)]
      rfl
    · rw [demand_of_not (by rwa [← Bool.not_eq_true, within_iff])]
      rfl
  · rw [demand_of (within_iff.2 ⟨hmin, hmax⟩)]
    show demand _ (off + m) >>= _ = _
    rw [demand_of (by simpa using (hbefore hmin).2 habove)]
    rfl

theorem walkOrders_checks {n m before : Nat} {k : List Nat → Walk α} (hfirst : m = 0 → before = 0)
    (hlater : 0 < m → before = u8At body (off + (m - 1))) :
    ChecksThen body ((List.range' m n).map (orderField body off)) (walkOrders body n (off + m) before >>= k)
      (k ((List.range' m n).map fun j => u8At body (off + j))) := by
  induction n generalizing m before k with
  | zero => exact ChecksThen.nil
  | succ n ih =>
    simp only [List.range'_succ, List.map_cons, walkOrders, bind_assoc, pure_bind]
    exact ChecksThen.cons (order_checks hfirst hlater) fun _ => ih (by simp) fun _ => rfl

/-- The settings of the view whose reference is at an offset. -/
def viewIn (body : List Byte) (off : Nat) : ViewSettings :=
  { reference := u8At body off + 256 * u8At body (off + 1), orders := ordersAt body (off + 3) (u8At body (off + 2)) }

theorem viewIn_orders {count first : Nat} (hcount : off + 2 = count) (hfirst : off + 3 = first) :
    (viewIn body off).orders = ordersAt body first (u8At body count) := by
  rw [← hcount, ← hfirst]
  rfl

theorem walkView_checks {k : ViewSettings × Nat → Walk α} :
    ChecksThen body (viewFields body off) (walkView body off >>= k) (k (viewIn body off, off + 3 + u8At body (off + 2))) := by
  simp only [walkView, bind_assoc, pure_bind]
  refine ChecksThen.cons wordIn_checks fun _ => ChecksThen.cons byteIn_checks fun _ => ?_
  rw [viewIn, ordersAt, List.range_eq_range']
  exact walkOrders_checks (m := 0) (fun _ => rfl) (by simp)

theorem walkView_checks_to {count next : Nat} {k : ViewSettings × Nat → Walk α} (hcount : off + 2 = count)
    (hnext : off + 3 + u8At body count = next) :
    ChecksThen body (viewFields body off) (walkView body off >>= k) (k (viewIn body off, next)) := by
  subst hcount
  subst hnext
  exact walkView_checks

/-- The gap part at an offset. -/
def gapIn (body : List Byte) (off : Nat) : GapPart :=
  { enable := u8At body off == 1, offsets := ⟨u8At body (off + 1), u8At body (off + 2)⟩, percent := u8At body (off + 3)
    cycles := u8At body (off + 4), floor := u8At body (off + 5) + 256 * u8At body (off + 5 + 1) }

theorem walkGap_checks {k : GapPart → Walk α} : ChecksThen body (gapFields off) (walkGap body off >>= k) (k (gapIn body off)) := by
  simp only [walkGap, bind_assoc, pure_bind]
  exact ChecksThen.cons flagAt_checks fun _ => ChecksThen.cons byteIn_checks fun _ => ChecksThen.cons byteIn_checks fun _ =>
    ChecksThen.cons byteIn_checks fun _ => ChecksThen.cons byteIn_checks fun _ => wordIn_checks

end Fields

/-! ### The fields of the limit entries -/

section Limits

variable {α : Type} {body : List Byte} {views : List (View × ViewSettings)} {orders : Nat → Option (List Nat)} {off : Nat}

/-- The order list of the view with a number, among a subject's views. -/
def ordersOf (views : List (View × ViewSettings)) (v : Nat) : Option (List Nat) :=
  ((View.ofNumber? v).bind (findView views)).map (·.orders)

/-- The step of a walk that reads the view of a limit entry. -/
def limitViewStep (views : List (View × ViewSettings)) (off : Nat) (next : View → ViewSettings → Walk α) (vb : Nat) : Walk α :=
  match (View.ofNumber? vb).bind (fun vw => (findView views vw).map fun vs => (vw, vs)) with
  | none => .error (.argument, off)
  | some (vw, vs) => next vw vs

/-- The step of a walk that reads the quantity of a limit entry. -/
def limitQuantityStep (vs : ViewSettings) (vw : View) (earlier : List LimitEntry) (off : Nat) (next : Quantity → Walk α) (qb : Nat) :
    Walk α :=
  match Quantity.ofNumber? qb with
  | none => .error (.argument, off)
  | some q => demand (quantityListed vs q && !earlier.any (sameEntry vw q)) off >>= fun _ => next q

theorem walkLimits_succ {n : Nat} {earlier : List LimitEntry} {k : List LimitEntry → Walk α} :
    (walkLimits body views (n + 1) off earlier >>= k) =
      needByte body off >>= limitViewStep views off fun vw vs =>
        needByte body (off + 1) >>= limitQuantityStep vs vw earlier (off + 1) fun q =>
          wordIn body (off + 2) 1 65535 >>= fun limit =>
            byteIn body (off + 4) 1 3 >>= fun step =>
              walkLimits body views n (off + 5) (earlier ++ [{ view := vw, quantity := q, limit := limit, step := step }]) >>=
                fun rest => k ({ view := vw, quantity := q, limit := limit, step := step } :: rest) := by
  rw [walkLimits, bind_assoc]
  congr 1
  funext vb
  unfold limitViewStep
  generalize (View.ofNumber? vb).bind (fun vw => (findView views vw).map fun vs => (vw, vs)) = found
  obtain _ | ⟨vw, vs⟩ := found
  · rfl
  · simp only [bind_assoc]
    congr 1
    funext qb
    unfold limitQuantityStep
    cases Quantity.ofNumber? qb
    · rfl
    · simp only [bind_assoc, pure_bind]

/-- The entry whose five bytes begin at an offset. -/
def limitIn (body : List Byte) (o : Nat) : LimitEntry :=
  { view := (View.ofNumber? (u8At body o)).getD .a, quantity := (Quantity.ofNumber? (u8At body (o + 1))).getD .ripple
    limit := u8At body (o + 2) + 256 * u8At body (o + 2 + 1), step := u8At body (o + 4) }

/-- A view's number names one of the subject's views. -/
theorem ordersOf_isSome {v : Nat} (h : (ordersOf views v).isSome = true) :
    ∃ vw vs, View.ofNumber? v = some vw ∧ findView views vw = some vs ∧ ordersOf views v = some vs.orders := by
  unfold ordersOf at h ⊢
  cases hvw : View.ofNumber? v with
  | none => simp [hvw] at h
  | some vw =>
    cases hvs : findView views vw with
    | none => simp [hvw, hvs] at h
    | some vs => exact ⟨vw, vs, rfl, hvs, by simp [hvs]⟩

theorem limitViewStep_of_named {next : View → ViewSettings → Walk α} {v : Nat} {vw : View} {vs : ViewSettings}
    (hvw : View.ofNumber? v = some vw) (hvs : findView views vw = some vs) : limitViewStep views off next v = next vw vs := by
  simp [limitViewStep, hvw, hvs]

theorem limitViewStep_of_other {next : View → ViewSettings → Walk α} {v : Nat} (h : ¬(ordersOf views v).isSome = true) :
    limitViewStep views off next v = .error (.argument, off) := by
  unfold limitViewStep
  cases hvw : View.ofNumber? v with
  | none => rfl
  | some vw =>
    cases hvs : findView views vw with
    | none => simp [hvs]
    | some vs => simp [ordersOf, hvw, hvs] at h

/-- A quantity's number names RIPPLE or an order of the view's list. -/
theorem quantityListed_iff {vs : ViewSettings} {n : Nat} :
    (n = 255 ∨ (1 ≤ n ∧ n ≤ 47 ∧ n ∈ vs.orders)) ↔ ∃ q, Quantity.ofNumber? n = some q ∧ quantityListed vs q = true := by
  unfold Quantity.ofNumber?
  constructor
  · rintro (rfl | ⟨hmin, hmax, hmem⟩)
    · exact ⟨.ripple, rfl, rfl⟩
    · exact ⟨.order n, if_pos ⟨hmin, hmax⟩, by simpa [quantityListed] using hmem⟩
  · rintro ⟨q, hq, hlisted⟩
    split at hq
    · rename_i hrange
      cases hq
      exact .inr ⟨hrange.1, hrange.2, by simpa [quantityListed] using hlisted⟩
    · split at hq
      · exact .inl ‹_›
      · cases hq

/-- The entries before place `m` of a limit list are known by their view and quantity bytes. -/
def knownEarlier (body : List Byte) (off m : Nat) (earlier : List LimitEntry) : Prop :=
  ∀ vw q, earlier.any (sameEntry vw q) = true ↔
    ∃ d, d < m ∧ View.ofNumber? (u8At body (off + 1 + 5 * d)) = some vw ∧ Quantity.ofNumber? (u8At body (off + 1 + 5 * d + 1)) = some q

theorem limitQuantityStep_of_legal {vs : ViewSettings} {vw : View} {q : Quantity} {earlier : List LimitEntry} {next : Quantity → Walk α}
    {n : Nat} (hq : Quantity.ofNumber? n = some q) (hlisted : quantityListed vs q = true) (hnew : ¬earlier.any (sameEntry vw q) = true) :
    limitQuantityStep vs vw earlier off next n = next q := by
  rw [limitQuantityStep, hq]
  show demand _ off >>= _ = _
  rw [demand_of (by simp only [hlisted, Bool.true_and, Bool.not_eq_true']; simpa using hnew)]
  rfl

theorem limitQuantityStep_of_illegal {vs : ViewSettings} {vw : View} {earlier : List LimitEntry} {next : Quantity → Walk α} {n : Nat}
    (h : ∀ q, Quantity.ofNumber? n = some q → quantityListed vs q = true → earlier.any (sameEntry vw q) = true) :
    limitQuantityStep vs vw earlier off next n = .error (.argument, off) := by
  unfold limitQuantityStep
  cases hq : Quantity.ofNumber? n with
  | none => rfl
  | some q =>
    show demand _ off >>= _ = _
    rw [demand_of_not]
    · rfl
    · cases hlisted : quantityListed vs q with
      | false => rfl
      | true => rw [h q hq hlisted]; rfl

/-- The bytes of two entries agree when they name the same view and quantity. -/
theorem eq_of_view_named {m n : Nat} {vw : View} (hm : View.ofNumber? m = some vw) (hn : View.ofNumber? n = some vw) : m = n :=
  (View.ofNumber_eq_some_iff.1 hm).trans (View.ofNumber_eq_some_iff.1 hn).symm

theorem eq_of_quantity_named {m n : Nat} {q : Quantity} (hm : Quantity.ofNumber? m = some q) (hn : Quantity.ofNumber? n = some q) : m = n :=
  (Quantity.ofNumber_eq_some_iff.1 hm).2.trans (Quantity.ofNumber_eq_some_iff.1 hn).2.symm

/-- The quantity of an entry of a known view: listed, and not named by an entry before with the same view. -/
theorem quantity_checks {m o : Nat} {earlier : List LimitEntry} {vw : View} {vs : ViewSettings} {next : Quantity → Walk α}
    (hearlier : knownEarlier body off m earlier) (hvw : View.ofNumber? (u8At body o) = some vw)
    (hlist : orders (u8At body o) = some vs.orders) :
    ChecksThen body
      [⟨o + 1, 1, fun v => (v = 255 ∨ (1 ≤ v ∧ v ≤ 47 ∧ ∀ xs, orders (u8At body o) = some xs → v ∈ xs))
        ∧ ∀ d, d < m → ¬(u8At body (off + 1 + 5 * d) = u8At body o ∧ u8At body (off + 1 + 5 * d + 1) = v)⟩]
      (needByte body (o + 1) >>= limitQuantityStep vs vw earlier (o + 1) next)
      (next ((Quantity.ofNumber? (u8At body (o + 1))).getD .ripple)) := by
  have hold {q : Quantity} (hq : Quantity.ofNumber? (u8At body (o + 1)) = some q) : earlier.any (sameEntry vw q) = true ↔
      ∃ d, d < m ∧ u8At body (off + 1 + 5 * d) = u8At body o ∧ u8At body (off + 1 + 5 * d + 1) = u8At body (o + 1) := by
    rw [hearlier]
    constructor
    · rintro ⟨d, hd, h1, h2⟩
      exact ⟨d, hd, eq_of_view_named h1 hvw, eq_of_quantity_named h2 hq⟩
    · rintro ⟨d, hd, h1, h2⟩
      exact ⟨d, hd, by rw [h1, hvw], by rw [h2, hq]⟩
  have hlisted : (u8At body (o + 1) = 255 ∨ (1 ≤ u8At body (o + 1) ∧ u8At body (o + 1) ≤ 47
      ∧ ∀ xs, orders (u8At body o) = some xs → u8At body (o + 1) ∈ xs)) ↔
        ∃ q, Quantity.ofNumber? (u8At body (o + 1)) = some q ∧ quantityListed vs q = true := by
    rw [← quantityListed_iff]
    simp [hlist]
  refine needByte_checks (fun hnot => limitQuantityStep_of_illegal fun q hq hin => (hold hq).2 ?_) fun ⟨hin, hnew⟩ => ?_
  · by_contra hnew
    exact hnot ⟨hlisted.2 ⟨q, hq, hin⟩, fun d hd h => hnew ⟨d, hd, h.1, h.2⟩⟩
  · obtain ⟨q, hq, hin⟩ := hlisted.1 hin
    rw [limitQuantityStep_of_legal hq hin fun h => ?_, hq]
    · rfl
    · obtain ⟨d, hd, h1, h2⟩ := (hold hq).1 h
      exact hnew d hd ⟨h1, h2⟩

/-- One limit entry. -/
theorem limit_checks {m n : Nat} {earlier : List LimitEntry} {k : List LimitEntry → Walk α} (horders : ∀ v, orders v = ordersOf views v)
    (hearlier : knownEarlier body off m earlier) :
    ChecksThen body (limitFields body orders off m) (walkLimits body views (n + 1) (off + 1 + 5 * m) earlier >>= k)
      (walkLimits body views n (off + 1 + 5 * m + 5) (earlier ++ [limitIn body (off + 1 + 5 * m)]) >>= fun rest =>
        k (limitIn body (off + 1 + 5 * m) :: rest)) := by
  rw [walkLimits_succ]
  by_cases hview : (ordersOf views (u8At body (off + 1 + 5 * m))).isSome = true
  · obtain ⟨vw, vs, hvw, hvs, hlist⟩ := ordersOf_isSome hview
    rw [limitIn, hvw]
    exact ChecksThen.cons (needByte_checks (fun hnot => absurd (by rw [horders]; exact hview) hnot) fun _ =>
      limitViewStep_of_named hvw hvs) fun _ => ChecksThen.cons (quantity_checks hearlier hvw (by rw [horders, hlist])) fun _ =>
        ChecksThen.cons wordIn_checks fun _ => byteIn_checks
  · have hnot : ¬(orders (u8At body (off + 1 + 5 * m))).isSome = true := by rwa [horders]
    exact ChecksThen.cons (v := .error (.argument, 0)) (needByte_checks (fun _ => limitViewStep_of_other hview) fun h => absurd h hnot)
      fun h => absurd h.2 hnot

/-- An entry that passed is known with the ones before it. -/
theorem knownEarlier_succ {m : Nat} {earlier : List LimitEntry} (horders : ∀ v, orders v = ordersOf views v)
    (hearlier : knownEarlier body off m earlier) (hpass : ∀ x ∈ limitFields body orders off m, x.passes body) :
    knownEarlier body off (m + 1) (earlier ++ [limitIn body (off + 1 + 5 * m)]) := by
  obtain ⟨-, hview⟩ := hpass _ (List.mem_cons_self)
  obtain ⟨-, hquantity, -⟩ := hpass _ (List.mem_cons_of_mem _ List.mem_cons_self)
  obtain ⟨vw, vs, hvw, -, hlist⟩ := ordersOf_isSome (views := views) (by rw [← horders]; exact hview)
  obtain ⟨q, hq, -⟩ := (quantityListed_iff (vs := vs)).1 (hquantity.imp_right fun ⟨h1, h2, h3⟩ => ⟨h1, h2, h3 _ (by rw [horders]; exact hlist)⟩)
  intro vw' q'
  have hlast : sameEntry vw' q' (limitIn body (off + 1 + 5 * m)) = true ↔
      View.ofNumber? (u8At body (off + 1 + 5 * m)) = some vw' ∧ Quantity.ofNumber? (u8At body (off + 1 + 5 * m + 1)) = some q' := by
    have hq' : Quantity.ofNumber? (u8At body (off + 1 + 5 * m + 1)) = some q := hq
    have hvw' : View.ofNumber? (u8At body (off + 1 + 5 * m)) = some vw := hvw
    simp [sameEntry, limitIn, hvw', hq']
  rw [List.any_append, Bool.or_eq_true, hearlier, List.any_cons, List.any_nil, Bool.or_false, hlast]
  constructor
  · rintro (⟨d, hd, h⟩ | h)
    · exact ⟨d, Nat.lt_succ_of_lt hd, h⟩
    · exact ⟨m, Nat.lt_succ_self m, h⟩
  · rintro ⟨d, hd, h⟩
    rcases Nat.lt_succ_iff_lt_or_eq.1 hd with hd | rfl
    · exact .inl ⟨d, hd, h⟩
    · exact .inr h

theorem walkLimits_checks {n m : Nat} {earlier : List LimitEntry} {k : List LimitEntry → Walk α}
    (horders : ∀ v, orders v = ordersOf views v) (hearlier : knownEarlier body off m earlier) :
    ChecksThen body ((List.range' m n).flatMap (limitFields body orders off)) (walkLimits body views n (off + 1 + 5 * m) earlier >>= k)
      (k ((List.range' m n).map fun j => limitIn body (off + 1 + 5 * j))) := by
  induction n generalizing m earlier k with
  | zero => exact ChecksThen.nil
  | succ n ih =>
    rw [List.range'_succ, List.flatMap_cons, List.map_cons]
    exact ChecksThen.append (limit_checks horders hearlier) fun hpass => ih (knownEarlier_succ horders hearlier hpass)

end Limits

/-! ### The whole body (R223) -/

section Body

variable {α : Type} {body : List Byte}

/-- The views and the gap part that a body's fields give. -/
def profileBodyIn (body : List Byte) : ProfileBody :=
  let a := u8At body 8
  let b := u8At body (11 + a)
  if u8At body 0 = 4 then .bus (viewIn body 6)
  else .group (viewIn body 6) (viewIn body (9 + a)) (viewIn body (12 + a + b)) (gapIn body (limitCountAt body - 7))

theorem Subject.group_eq_none_iff (i : Subject) : i.group? = none ↔ i = .bus := by cases i <;> decide

theorem Subject.number_ne_four {i : Subject} (h : i ≠ .bus) : i.number ≠ 4 := by
  revert h
  cases i <;> decide

theorem walkBody_checks {i : Subject} {k : ProfileBody × Nat → Walk α} (hi : u8At body 0 = i.number) :
    ChecksThen body
      (if u8At body 0 = 4 then viewFields body 6
        else viewFields body 6 ++ viewFields body (9 + u8At body 8) ++ viewFields body (12 + u8At body 8 + u8At body (11 + u8At body 8))
          ++ gapFields (limitCountAt body - 7))
      (walkBody body i >>= k) (k (profileBodyIn body, limitCountAt body)) := by
  unfold profileBodyIn limitCountAt
  cases hgroup : i.group? with
  | none =>
    have hbus : u8At body 0 = 4 := by rw [hi, (Subject.group_eq_none_iff i).1 hgroup]; rfl
    simp only [walkBody, hgroup, hbus, if_true, bind_assoc, pure_bind]
    exact walkView_checks_to (count := 8) rfl (by omega)
  | some g =>
    have hnotBus : ¬u8At body 0 = 4 := by
      rw [hi]
      exact Subject.number_ne_four fun hbus => by simp [(Subject.group_eq_none_iff i).2 hbus] at hgroup
    simp only [walkBody, hgroup, if_neg hnotBus, bind_assoc, pure_bind, List.append_assoc]
    generalize ha : u8At body 8 = a
    generalize hb : u8At body (11 + a) = b
    generalize hc : u8At body (14 + a + b) = c
    refine ChecksThen.append (walkView_checks_to (count := 8) (next := 9 + a) rfl (by omega)) fun _ => ?_
    refine ChecksThen.append (walkView_checks_to (count := 11 + a) (next := 12 + a + b) (by omega) (by omega)) fun _ => ?_
    refine ChecksThen.append (walkView_checks_to (count := 14 + a + b) (next := 22 + a + b + c - 7) (by omega) (by omega)) fun _ => ?_
    have hend : 22 + a + b + c = 22 + a + b + c - 7 + 7 := by omega
    rw [hend, Nat.add_sub_cancel]
    exact walkGap_checks

/-- The order lists of the views that the body's subject has. -/
theorem profileOrders_eq (v : Nat) (p : Profile) (hp : p.body = profileBodyIn body) : profileOrders body v = ordersOf p.views v := by
  unfold profileOrders ordersOf Profile.views
  rw [hp, profileBodyIn]
  by_cases hbus : u8At body 0 = 4
  · simp only [if_pos hbus]
    match v with
    | 0 | 1 | 2 | 3 => rfl
    | n + 4 => rfl
  · simp only [if_neg hbus]
    match v with
    | 0 | 3 => rfl
    | 1 => exact congrArg some (viewIn_orders (by omega) (by omega)).symm
    | 2 => exact congrArg some (viewIn_orders (by omega) (by omega)).symm
    | n + 4 => rfl

/-- The profile that a body's fields give. -/
def profileIn (body : List Byte) : Profile :=
  { enabledAtStart := u8At body 1 == 1, waveOnExceed := u8At body 2 == 1, threshold := u8At body 3
    floor := u8At body 4 + 256 * u8At body (4 + 1), body := profileBodyIn body
    limits := (List.range' 0 (u8At body (limitCountAt body))).map fun j => limitIn body (limitCountAt body + 1 + 5 * j) }

/-- The step of a walk that reads the subject. -/
def subjectStep (next : Subject → Walk α) (n : Nat) : Walk α :=
  match Subject.ofNumber? n with
  | none => .error (.argument, 0)
  | some i => next i

theorem subject_checks {next : Subject → Walk α} :
    ChecksThen body [byteField 0 0 4] (needByte body 0 >>= subjectStep next) (next ((Subject.ofNumber? (u8At body 0)).getD .bus)) := by
  refine needByte_checks (fun hout => ?_) fun ⟨_, hin⟩ => ?_
  · have hnone : Subject.ofNumber? (u8At body 0) = none := by
      refine Option.eq_none_iff_forall_ne_some.2 fun i hi => hout ?_
      rw [Subject.ofNumber_eq_some_iff.1 hi]
      cases i <;> decide
    rw [subjectStep, hnone]
  · unfold subjectStep
    interval_cases u8At body 0 <;> rfl

theorem subjectIn_number (h : u8At body 0 ≤ 4) : u8At body 0 = ((Subject.ofNumber? (u8At body 0)).getD .bus).number := by
  interval_cases u8At body 0 <;> rfl

/-- The walk of SET-PROFILE, step by step. -/
theorem walkProfile_eq (body : List Byte) :
    walkProfile body =
      needByte body 0 >>= subjectStep fun i =>
        flagAt body 1 >>= fun e => flagAt body 2 >>= fun w => byteIn body 3 1 15 >>= fun t => wordIn body 4 0 32767 >>= fun floor =>
          walkBody body i >>= fun x => byteIn body x.2 0 16 >>= fun n =>
            walkLimits body ({ enabledAtStart := e, waveOnExceed := w, threshold := t, floor := floor, body := x.1, limits := [] }
              : Profile).views n (x.2 + 1) [] >>= fun limits =>
                endAt body (x.2 + 1 + 5 * n) >>= fun _ =>
                  pure (i, { enabledAtStart := e, waveOnExceed := w, threshold := t, floor := floor, body := x.1, limits := limits }) := by
  rw [walkProfile]
  congr 1

/-- The walk of SET-PROFILE checks its fields in order, and then that nothing follows the last limit entry (R75, R76, R223). -/
theorem walkProfile_checks (body : List Byte) :
    ChecksThen body (profileFields body) (walkProfile body)
      (endAt body (profileEnd body) >>= fun _ => pure ((Subject.ofNumber? (u8At body 0)).getD .bus, profileIn body)) := by
  rw [walkProfile_eq, profileFields]
  rw [List.append_assoc]
  refine ChecksThen.cons subject_checks fun hsubject => ?_
  have hnumber : u8At body 0 = ((Subject.ofNumber? (u8At body 0)).getD .bus).number := subjectIn_number (byteField_passes.1 hsubject).2.2
  refine ChecksThen.cons flagAt_checks fun _ => ?_
  refine ChecksThen.cons flagAt_checks fun _ => ?_
  refine ChecksThen.cons byteIn_checks fun _ => ?_
  refine ChecksThen.cons wordIn_checks fun _ => ?_
  rw [List.append_eq, List.nil_append]
  refine ChecksThen.append (walkBody_checks hnumber) fun _ => ?_
  refine ChecksThen.cons byteIn_checks fun _ => ?_
  rw [List.range_eq_range']
  exact walkLimits_checks (m := 0) (fun v => profileOrders_eq v _ rfl) (by simp [knownEarlier])

end Body

/-! ### SET-PROFILE (R75 to R77, R80) -/

section SetProfile

variable {s : State} {body : List Byte} {i : Subject} {p : Profile}

theorem ownSetProfile_of_error {code : RefusalCode} {detail : Nat} (h : walkProfile body = .error (code, detail)) :
    ownSetProfile body s = (.refuse code detail, s) := by
  rw [ownSetProfile, h]

theorem ownSetProfile_of_ok (h : walkProfile body = .ok (i, p)) :
    ownSetProfile body s = (.accept [b8 i.number, flagByte (s.stageProfile i p).2], (s.stageProfile i p).1) := by
  rw [ownSetProfile, h]

theorem State.stageProfile_of_measuring (h : (s.table.get i).state = .measuring) :
    s.stageProfile i p = ({ s with table := s.table.set i { s.table.get i with pendingProfile := some p } }, true) := by
  simp only [State.stageProfile, h]
  rfl

theorem State.stageProfile_of_other (h : (s.table.get i).state ≠ .measuring) : s.stageProfile i p = (s.activate i p, false) := by
  cases hstate : (s.table.get i).state <;> simp_all [State.stageProfile]

/-- A refused SET-PROFILE leaves the subjects as they are. -/
theorem exec_setProfile_of_error {f : Frame} {code : RefusalCode} {detail : Nat} (hhears : s.hears f) (hsaving : s.settings.saving = false)
    (h : walkProfile f.body = .error (code, detail)) :
    exec (.setProfile f) s = .next ((s.counted .setProfile f).answered .setProfile f (.refuse code detail)) :=
  exec_row_answers .setProfile hhears rfl (ownSetProfile_of_error h) (hbusy := fun _ => hsaving)

theorem setProfileStaged : Says.SetProfileStaged := by
  intro s f hhears hsaving
  refine ⟨fun code detail herror => exec_setProfile_of_error hhears hsaving herror, fun i p hok =>
    ⟨fun hmeasuring => ?_, fun hother => ?_⟩⟩
  · refine exec_row_answers .setProfile hhears rfl ((ownSetProfile_of_ok (s := s.counted .setProfile f) hok).trans ?_)
      (hbusy := fun _ => hsaving)
    rw [State.stageProfile_of_measuring (by exact hmeasuring)]
    rfl
  · refine exec_row_answers .setProfile hhears rfl ((ownSetProfile_of_ok (s := s.counted .setProfile f) hok).trans ?_)
      (hbusy := fun _ => hsaving)
    rw [State.stageProfile_of_other (by exact hother), State.activate_eq]
    cases i <;> rfl

theorem setProfileRefused : Says.SetProfileRefused := by
  intro s f hhears hsaving
  refine ⟨fun x hfirst => ?_, fun hpass hsurplus => ?_⟩
  · rw [BodyField.refusal_eq]
    exact exec_setProfile_of_error hhears hsaving ((walkProfile_checks f.body).fails x hfirst)
  · exact exec_setProfile_of_error hhears hsaving (((walkProfile_checks f.body).goes_on hpass).trans (endAt_of_lt hsurplus))

/-- Settles O20: what SET-PROFILE is refused with, and how an accepted profile is staged. -/
theorem setProfile : Obligations.SetProfile := ⟨setProfileStaged, setProfileRefused⟩

end SetProfile

end Sys2Proof.Machine
end

