-- ==== Sys2Proof/Proofs/Verdicts.lean ====
section
/-! PROOFS. The Verdict Unit (chapter 5): window reports (R90, R93, R94, R97 to R101, R103, R104), abort reports (R91), orders (R105), and
the two reads of a subject (R81, R102). -/

namespace Sys2Proof.Machine

/-! ### A verdict that is replaced (R99) -/

theorem State.setVerdict_eq (s : State) (i : Subject) (e : VerdictEntry) :
    s.setVerdict i e =
      { s with
        verdicts := s.verdicts.set i e
        transit :=
          { s.transit with
            raises := s.transit.raises ++ condNotice i (s.verdicts.get i).condition e.condition
            changes := s.transit.changes ++ condChange i (s.verdicts.get i).condition e.condition } } := by
  unfold State.setVerdict condNotice condChange
  by_cases hsame : e.condition = (s.verdicts.get i).condition
  · simp [hsame]
  · simp [hsame, State.raise, State.tellChange, Subject.condClass_eq]

/-- The first report that waits for a subject, and the ones beside it. -/
theorem takeFirst_beq_append {α β : Type} [DecidableEq β] (key : α → β) (x : β) {before after : List α} {a : α}
    (hbefore : ∀ y ∈ before, key y ≠ x) (ha : key a = x) :
    takeFirst (fun y => key y == x) (before ++ a :: after) = some (a, before ++ after) :=
  takeFirst_append _ _ _ _ (fun y hy => beq_eq_false_iff_ne.2 (hbefore y hy)) (beq_iff_eq.2 ha)

theorem takeFirst_beq_none {α β : Type} [DecidableEq β] (key : α → β) (x : β) {l : List α} (h : ∀ y ∈ l, key y ≠ x) :
    takeFirst (fun y => key y == x) l = none :=
  takeFirst_none.2 fun y hy => beq_eq_false_iff_ne.2 (h y hy)

/-! ### Window reports (R90, R97 to R101, R103, R104) -/

theorem VerdictEntry.judge_eq (e : VerdictEntry) (r : WindowReport) (threshold : Nat) (henabled : e.enabled = true) :
    e.judge r threshold =
      { enabled := true, counter := counterByRule e.counter r.outcome r.step
        condition := conditionByRule e.condition r.outcome (counterByRule e.counter r.outcome r.step) threshold
        results := some
          { number := r.number, w := r.w, firstCycle := r.firstCycle, lastCycle := r.lastCycle
            outcome := r.outcome, holdover := r.holdover, views := r.views
            exceeded := if r.outcome = .exceed then r.exceededList else []
            counter := counterByRule e.counter r.outcome r.step
            condition := conditionByRule e.condition r.outcome (counterByRule e.counter r.outcome r.step) threshold }
        last := r.outcome
        judged := if r.outcome = .pass ∨ r.outcome = .exceed then countUp32 e.judged else e.judged
        exceeded := if r.outcome = .exceed then countUp32 e.exceeded else e.exceeded } := by
  simp only [VerdictEntry.judge, counterAfter_eq, conditionAfter_eq, satInc32_eq, henabled]

/-- The filing of an EXCEED record (R103, R104). -/
def exceedFiling (r : WindowReport) (counter : Nat) : Filing :=
  .exceed r.subject r.lastCycle counter (summaryOf r.number r.views) r.exceededList none

theorem State.fileExceed_eq (s : State) (r : WindowReport) (counter : Nat) :
    s.fileExceed r counter =
      { s with
        transit :=
          { s.transit with
            copies := s.transit.copies ++ if r.waveOnExceed = true then [⟨r.lastCycle, exceedFiling r counter⟩] else []
            filings := s.transit.filings ++ if r.waveOnExceed = false then [exceedFiling r counter] else [] } } := by
  unfold State.fileExceed exceedFiling
  cases r.waveOnExceed <;> simp [State.askCopy, State.askFiling]

/-- What a report of an enabled subject does, with the counter and the condition that follow. -/
theorem State.takeReport_of_enabled (s : State) (r : WindowReport) (henabled : (s.verdicts.get r.subject).enabled = true) :
    s.takeReport r =
      let e := s.verdicts.get r.subject
      let e' := e.judge r (s.table.get r.subject).active.threshold
      let alarms := e.condition ≠ .alarm ∧ e'.condition = .alarm
      { s with
        verdicts := s.verdicts.set r.subject e'
        transit :=
          { s.transit with
            raises := s.transit.raises ++ condNotice r.subject e.condition e'.condition ++ if r.outcome = .clipped then [.clip] else []
            changes := s.transit.changes ++ condChange r.subject e.condition e'.condition
            copies := s.transit.copies
              ++ if alarms ∧ r.waveOnExceed = true then [⟨r.lastCycle, exceedFiling r e'.counter⟩] else []
            filings := s.transit.filings ++ if alarms ∧ r.waveOnExceed = false then [exceedFiling r e'.counter] else [] } } := by
  unfold State.takeReport
  simp only [henabled, if_true, State.setVerdict_eq, State.fileExceed_eq]
  generalize (s.verdicts.get r.subject).judge r _ = e'
  by_cases hclip : r.outcome = .clipped <;>
    by_cases halarm : (s.verdicts.get r.subject).condition ≠ .alarm ∧ e'.condition = .alarm <;>
    simp [hclip, halarm, State.raise]

/-- Settles O22: what a window report does to its subject's verdict. -/
theorem windowReportTaken : Obligations.WindowReportTaken := by
  intro s sub
  refine ⟨fun hnone => ?_, fun r before after hreports hbefore hsub => ⟨fun hdisabled => ?_, ?_⟩⟩
  · simp only [exec, execWindowReport, takeFirst_beq_none (fun r : WindowReport => r.subject) sub hnone]
  · simp only [exec, execWindowReport, hreports, takeFirst_beq_append (fun r : WindowReport => r.subject) sub hbefore hsub]
    simp [State.takeReport, hsub, hdisabled]
  · rintro e counter condition filing rfl henabled rfl rfl rfl
    subst hsub
    simp only [exec, execWindowReport, hreports, takeFirst_beq_append (fun r : WindowReport => r.subject) r.subject hbefore rfl]
    rw [State.takeReport_of_enabled _ _ (by exact henabled)]
    dsimp only
    rw [VerdictEntry.judge_eq _ _ _ henabled]
    simp only [and_assoc]
    rfl

/-! ### Abort reports and orders (R91, R105) -/

theorem abortReport : Says.AbortReport := by
  intro s sub
  refine ⟨fun hnone => ?_, fun before after haborts hbefore => ?_⟩
  · simp only [exec, execAbortReport,
      takeFirst_beq_none (fun i : Subject => i) sub fun y hy h => hnone (h ▸ hy)]
  · have hfirst : takeFirst (fun i : Subject => i == sub) s.transit.aborts = some (sub, before ++ after) := by
      rw [haborts]
      exact takeFirst_beq_append (fun i : Subject => i) sub (fun y hy h => hbefore (h ▸ hy)) rfl
    refine ⟨fun hdisabled => ?_, fun henabled => ?_⟩
    · simp only [exec, execAbortReport, hfirst, hdisabled, Bool.false_eq_true, if_false]
    · simp only [exec, execAbortReport, hfirst, henabled, if_true]

theorem verdictOrderTaken : Says.VerdictOrderTaken := by
  intro s sub
  refine ⟨fun hnone => ?_, ?_⟩
  · simp only [exec, execVerdictOrder, takeFirst_beq_none (fun x : Subject × VerdictOrder => x.1) sub hnone]
  · rintro o before after e horders hbefore rfl
    simp only [exec, execVerdictOrder, horders, takeFirst_beq_append (fun x : Subject × VerdictOrder => x.1) sub (a := (sub, o)) hbefore rfl,
      State.setVerdict_eq, VerdictEntry.obey_eq]

/-- Settles O23: what an abort report and an order do to a subject's verdict. -/
theorem abortReportsAndOrders : Obligations.AbortReportsAndOrders := ⟨abortReport, verdictOrderTaken⟩

/-! ### READ-PROFILE and READ-RESULT (R81, R102) -/

section Reads

variable {s : State} {b sel : Byte} {i : Subject}

theorem ownReadProfile_of_above (h : 4 < b.toNat) : ownReadProfile [b, sel] s = (.refuse .argument 0, s) := by
  simp only [ownReadProfile, show u8At [b, sel] 0 = b.toNat from rfl, Subject.ofNumber_above b h]

theorem ownReadProfile_of_active (h : b.toNat = i.number) :
    ownReadProfile [b, 0] s =
      (.accept ([b, (s.table.get i).state.code, 0, 1] ++ profileByRule (s.table.get i).active), s) := by
  simp only [ownReadProfile, show u8At [b, 0] 0 = b.toNat from rfl, show u8At [b, 0] 1 = 0 from rfl, Subject.ofNumber_number b i h,
    b8_number h, optProfileBytes, profileBytes_eq]
  rfl

theorem ownReadProfile_of_pending (h : b.toNat = i.number) :
    ownReadProfile [b, 1] s =
      (.accept ([b, (s.table.get i).state.code, 1] ++ optProfileBytes (s.table.get i).pendingProfile), s) := by
  simp only [ownReadProfile, show u8At [b, 1] 0 = b.toNat from rfl, show u8At [b, 1] 1 = 1 from rfl, Subject.ofNumber_number b i h,
    b8_number h]

theorem ownReadProfile_of_other (h : b.toNat = i.number) (hsel : 1 < sel.toNat) :
    ownReadProfile [b, sel] s = (.refuse .argument 1, s) := by
  simp only [ownReadProfile, show u8At [b, sel] 0 = b.toNat from rfl, show u8At [b, sel] 1 = sel.toNat from rfl,
    Subject.ofNumber_number b i h]
  split
  · omega
  · omega
  · rfl

theorem readProfile : Says.ReadProfile := by
  intro s f b sel hhears hbody
  refine ⟨fun habove => ?_, fun i hi => ⟨fun hsel => ?_, ?_, ?_, ?_⟩⟩
  · exact exec_row_answers .readProfile hhears hbody (ownReadProfile_of_above habove)
  · exact exec_row_answers .readProfile hhears hbody (ownReadProfile_of_other hi hsel)
  · rintro rfl
    exact exec_row_answers .readProfile hhears hbody (ownReadProfile_of_active (s := s.counted .readProfile f) hi)
  · rintro p rfl hpending
    refine exec_row_answers .readProfile hhears hbody ((ownReadProfile_of_pending (s := s.counted .readProfile f) hi).trans ?_)
    rw [show ((s.counted .readProfile f).table.get i).pendingProfile = some p from hpending, optProfileBytes, profileBytes_eq]
    rfl
  · rintro rfl hpending
    refine exec_row_answers .readProfile hhears hbody ((ownReadProfile_of_pending (s := s.counted .readProfile f) hi).trans ?_)
    rw [show ((s.counted .readProfile f).table.get i).pendingProfile = none from hpending]
    rfl

theorem levelBytes_eq (levels : List (Nat × Nat)) : levelBytes levels = pairsByRule levels := by
  simp [levelBytes, pairsByRule, ← b8_eq, ← le16_eq]

theorem resultsBytes_eq (r : ResultsEntry) : resultsBytes r = resultsByRule r := by
  have hone : (fun n => [b8 n]) = bytesOf 1 := funext b8_eq
  have hflag (x : Bool) : [flagByte x] = bytesOf 1 (if x = true then 1 else 0) := by cases x <;> rfl
  have hviews : (fun x : ViewReport => flagByte x.clip :: meanBytes x.mean ++ le16 x.ripple ++ levelBytes x.levels) =
      fun v => bytesOf 1 (if v.clip then 1 else 0) ++ meanByRule v.mean ++ bytesOf 2 v.ripple ++ pairsByRule v.levels := by
    funext v
    rw [← hflag, meanBytes_eq, le16_eq, levelBytes_eq]
    rfl
  simp only [resultsBytes, resultsByRule, hviews, ← hflag, ← le32_eq, ← hone, List.map_eq_flatMap]
  simp only [List.append_assoc, List.cons_append, List.nil_append, List.append_cancel_left_eq, List.cons.injEq, true_and, and_true]
  exact ⟨by cases r.outcome <;> rfl, by cases r.condition <;> rfl⟩

theorem readResult : Says.ReadResult := by
  intro s f b hhears hbody
  refine ⟨fun habove => ?_, ?_⟩
  · refine exec_row_answers .readResult hhears hbody ?_
    simp only [ownerTakes, ownReadResult, show u8At [b] 0 = b.toNat from rfl, Subject.ofNumber_above b habove]
  · rintro i e hi rfl
    refine exec_row_answers .readResult hhears hbody ?_
    simp only [ownerTakes, ownReadResult, show u8At [b] 0 = b.toNat from rfl, Subject.ofNumber_number b i hi, b8_number hi]
    have hresults : optResultsBytes (s.verdicts.get i).results =
        match (s.verdicts.get i).results with
        | none => [0]
        | some r => 1 :: resultsByRule r := by
      cases (s.verdicts.get i).results
      · rfl
      · rw [optResultsBytes, resultsBytes_eq]
    exact congrArg (fun bytes => (Answer.accept (_ ++ bytes), _)) hresults

/-- Settles O24: the two reads of a subject. -/
theorem readProfileAndReadResult : Obligations.ReadProfileAndReadResult := ⟨readProfile, readResult⟩

end Reads

end Sys2Proof.Machine
end

