-- ==== Sys2Proof/Proofs/GapDetector.lean ====
section
/-! PROOFS. The Gap Detector (chapter 6): the examination of a group (R109, R111, R113 to R119), and what clears its counters and latches
(R120, R121). -/

namespace Sys2Proof.Machine

/-! ### A group that is replaced (R107, R119) -/

theorem State.setGapGroup_eq (s : State) (g : Group) (x : GapGroup) :
    s.setGapGroup g x =
      { s with
        gap := { s.gap with groups := s.gap.groups.set g x }
        transit :=
          { s.transit with
            changes := s.transit.changes ++ gapChange g (anyLatchSet (s.gap.groups.get g)) (anyLatchSet x) } } := by
  unfold State.setGapGroup gapChange
  simp only [GapGroup.gapAny_eq]
  by_cases hsame : anyLatchSet x = anyLatchSet (s.gap.groups.get g)
  · simp [hsame]
  · simp [hsame, State.tellChange]

/-! ### The examination of a bridge (R111 to R117) -/

theorem isJudged_iff (xs : List Reading) (floor : Nat) :
    isJudged xs floor = true ↔ (xs.all fun x => !x.clip) = true ∧ ((96 * floor : Nat) : Int) ≤ sumOfCycle xs := by
  rw [isJudged, Bool.and_eq_true, List.not_any_eq_all_not, decide_eq_true_iff]
  rfl

/-- A counter after an examination (R114 to R116). -/
theorem countersAfter_get (xs : List Reading) (o : Nat) (p : GapPart) (counters : PerSector Nat) (j : Fin 6) :
    (countersAfter xs o p counters).get j = counterAfterExam p xs o j (counters.get j) := by
  unfold countersAfter counterAfterExam
  by_cases hjudged : isJudged xs p.floor = true
  · rw [if_pos hjudged, if_pos ((isJudged_iff _ _).1 hjudged), PerSector.get_ofFn, countSector, isShort]
    simp only [decide_eq_true_eq]
    rfl
  · rw [if_neg hjudged, if_neg fun h => hjudged ((isJudged_iff _ _).2 h)]

/-- A latch after a declaration (R117): a counter at gap cycles sets it. -/
theorem latchDeclared_get (counters : PerSector Nat) (latches : PerSector Bool) (cycles : Nat) (j : Fin 6) :
    (latchDeclared latches (declaredMap counters latches cycles)).get j = (latches.get j || decide (counters.get j = cycles)) := by
  rw [latchDeclared, declaredMap, PerSector.get_ofFn, PerSector.get_ofFn]
  cases latches.get j <;> simp

/-- The sectors declared are those whose latch the declaration sets. -/
theorem sectorList_declaredMap (counters : PerSector Nat) (latches : PerSector Bool) (cycles : Nat) :
    sectorList (declaredMap counters latches cycles) = newlySet latches (latchDeclared latches (declaredMap counters latches cycles)) := by
  unfold sectorList newlySet
  congr 2
  funext j
  rw [latchDeclared_get, declaredMap, PerSector.get_ofFn]
  cases latches.get j <;> simp

theorem PerSector.toList_any (p : PerSector Bool) : p.toList.any id = !(sectorList p).isEmpty := by
  obtain ⟨a, b, c, d, e, f⟩ := p
  revert a b c d e f
  decide

/-! ### The examination of a group (R109, R118, R119) -/

/-- What an examination of a bridge of a group leaves. -/
def State.bridgeExam (s : State) (g : Group) (p : GapPart) (d : Side) : BridgeExam :=
  examineBridge (s.bridgeCycle g d) (sectorBase (p.offsets.get d) s.offsetInEffect) p ((s.gap.groups.get g).counters.get d)
    ((s.gap.groups.get g).latches.get d)

/-- The counters and latches of a group after its examination. -/
def State.examined (s : State) (g : Group) (p : GapPart) : GapGroup :=
  { counters := .ofFn fun d => (s.bridgeExam g p d).counters, latches := .ofFn fun d => (s.bridgeExam g p d).latches }

/-- A bridge's part of the GAP record, and whether the group declares a sector. -/
def State.gapSide (s : State) (g : Group) (p : GapPart) (d : Side) : GapSide :=
  { base := sectorBase (p.offsets.get d) s.offsetInEffect
    declared := newlySet ((s.gap.groups.get g).latches.get d) ((s.examined g p).latches.get d)
    latches := (s.examined g p).latches.get d }

theorem State.bridgeExam_part (s : State) (g : Group) (p : GapPart) (d : Side) : (s.bridgeExam g p d).part = s.gapSide g p d := by
  simp only [BridgeExam.part, State.gapSide, State.examined, PerSide.get_ofFn, State.bridgeExam, examineBridge, sectorList_declaredMap]

theorem State.examine_eq (s : State) (g : Group) (p : GapPart) {stamp : Word32} (hstamp : s.gap.ended.cycle = some stamp) :
    s.examine g p =
      let declares := ¬((s.gapSide g p .a).declared = [] ∧ (s.gapSide g p .b).declared = [])
      { s with
        gap := { s.gap with groups := s.gap.groups.set g (s.examined g p) }
        transit :=
          { s.transit with
            changes := s.transit.changes ++ gapChange g (anyLatchSet (s.gap.groups.get g)) (anyLatchSet (s.examined g p))
            copies := s.transit.copies
              ++ if declares then [⟨stamp, .gap g stamp ⟨s.gapSide g p .a, s.gapSide g p .b⟩ none⟩] else []
            raises := s.transit.raises ++ if declares then [.gap] else [] } } := by
  have hexamine : s.examine g p =
      if (s.bridgeExam g p .a).declared.toList.any id || (s.bridgeExam g p .b).declared.toList.any id then
        ((s.setGapGroup g (s.examined g p)).askCopy
          { cycle := stamp, filing := .gap g stamp ⟨(s.bridgeExam g p .a).part, (s.bridgeExam g p .b).part⟩ none }).raise .gap
      else s.setGapGroup g (s.examined g p) := by
    unfold State.examine
    rw [hstamp]
    rfl
  have hdeclared (d : Side) : (s.gapSide g p d).declared = sectorList (s.bridgeExam g p d).declared := by
    rw [← State.bridgeExam_part]
    rfl
  rw [hexamine, PerSector.toList_any, PerSector.toList_any, ← hdeclared, ← hdeclared, State.bridgeExam_part, State.bridgeExam_part,
    State.setGapGroup_eq]
  by_cases hnone : (s.gapSide g p .a).declared = [] ∧ (s.gapSide g p .b).declared = []
  · simp [hnone]
  · have hsome : (!(s.gapSide g p .a).declared.isEmpty || !(s.gapSide g p .b).declared.isEmpty) = true := by
      simpa [Classical.or_iff_not_imp_left] using hnone
    simp [hnone, hsome, State.askCopy, State.raise]

theorem State.examines_of_legal {s : State} {g : Group} {p : GapPart} (hp : (s.table.get g.subject).active.gap? = some p)
    (hstate : (s.table.get g.subject).state ≠ .disabled) (htracker : s.tracker.state = .locked ∨ s.tracker.state = .holdover)
    (henable : p.enable = true) : s.examines g = some p := by
  simp only [State.examines, hp]
  exact if_pos ⟨hstate, htracker, henable⟩

theorem State.examines_of_other {s : State} {g : Group} {p : GapPart} (hp : (s.table.get g.subject).active.gap? = some p)
    (h : (s.table.get g.subject).state = .disabled ∨ (s.tracker.state ≠ .locked ∧ s.tracker.state ≠ .holdover) ∨ p.enable = false) :
    s.examines g = none := by
  simp only [State.examines, hp]
  refine if_neg ?_
  rintro ⟨hstate, htracker, henable⟩
  rcases h with h | h | h
  · exact hstate h
  · exact htracker.elim h.1 h.2
  · exact Bool.false_ne_true (h.symm.trans henable)

theorem Transit.clears_iff (x : Transit) (g : Group) : x.clears g = true ↔ ∃ c ∈ x.clearings, c.1 = g := by simp [Transit.clears]

theorem exec_gapExamination {s : State} {g : Group} {before after : List Group} (hexams : s.transit.exams = before ++ g :: after)
    (hbefore : g ∉ before) (hclear : ∀ c ∈ s.transit.clearings, c.1 ≠ g) :
    exec (.gapExamination g) s =
      match s.examines g with
      | none => .next { s with transit := { s.transit with exams := before ++ after } }
      | some p => .next (({ s with transit := { s.transit with exams := before ++ after } } : State).examine g p) := by
  have hfirst : takeFirst (fun x : Group => x == g) s.transit.exams = some (g, before ++ after) := by
    rw [hexams]
    exact takeFirst_beq_append (fun x : Group => x) g (fun y hy h => hbefore (h ▸ hy)) rfl
  have hnot : ¬s.transit.clears g = true := by
    rw [Transit.clears_iff]
    exact fun ⟨c, hc, h⟩ => hclear c hc h
  simp only [exec, execGapExamination, hfirst, if_neg hnot]
  rfl

theorem exec_gapExamination_of_waits {s : State} {g : Group} (h : g ∉ s.transit.exams ∨ ∃ c ∈ s.transit.clearings, c.1 = g) :
    exec (.gapExamination g) s = .next s := by
  show execGapExamination g s = .next s
  unfold execGapExamination
  split
  case h_1 => rfl
  case h_2 hfirst =>
    have hwaits : s.transit.clears g = true := by
      rw [Transit.clears_iff]
      refine h.resolve_left fun hnone => ?_
      rw [takeFirst_beq_none (fun x : Group => x) g fun y hy hyg => hnone (hyg ▸ hy)] at hfirst
      cases hfirst
    rw [if_pos hwaits]

/-- Settles O25: which groups are examined, and what an examination changes. -/
theorem gapExamination : Obligations.GapExamination := by
  intro s g
  refine ⟨exec_gapExamination_of_waits, fun before after p stamp hexams hbefore hclear hp => ⟨fun hother => ?_,
    fun hstate htracker henable hstamp => ⟨s.examined g p, .ofFn fun d => sectorBase (p.offsets.get d) s.offsetInEffect,
      fun d => ?_, fun d j => ?_, fun d j => ?_, ?_⟩⟩⟩
  · rw [exec_gapExamination hexams hbefore hclear, State.examines_of_other hp hother]
  · rw [PerSide.get_ofFn]
    rfl
  · simp only [State.examined, PerSide.get_ofFn, State.bridgeExam, examineBridge, countersAfter_get]
  · simp only [State.examined, PerSide.get_ofFn, State.bridgeExam, examineBridge, latchDeclared_get]
  · rw [exec_gapExamination hexams hbefore hclear, State.examines_of_legal hp hstate htracker henable]
    exact congrArg Host.Outcome.next
      (State.examine_eq { s with transit := { s.transit with exams := before ++ after } } g p (stamp := stamp) hstamp)

/-! ### Clearing (R120, R121) -/

theorem GapGroup.reset_get (d : Side) (j : Fin 6) :
    (GapGroup.reset.counters.get d).get j = 0 ∧ (GapGroup.reset.latches.get d).get j = false := by
  revert j
  cases d <;> decide

theorem detectorClearing : Says.DetectorClearing := by
  intro s g
  refine ⟨fun hnone => ?_, fun c before after hclearings hbefore => ⟨(s.gap.groups.get g).cleared c, fun d j => ?_, fun d j => ?_, ?_⟩⟩
  · simp only [exec, execDetectorClearingEvent, takeFirst_beq_none (fun x : Group × Clearing => x.1) g hnone]
  · cases c <;> exact (GapGroup.reset_get d j).1
  · cases c with
    | loadDefaults => exact (GapGroup.reset_get d j).2
    | disable | activation => rfl
  · simp only [exec, execDetectorClearingEvent, hclearings,
      takeFirst_beq_append (fun x : Group × Clearing => x.1) g (a := (g, c)) hbefore rfl, State.setGapGroup_eq]

section ClearGap

variable {s : State} {b : Byte} {g : Group}

theorem ownClearGap_of_above (h : 3 < b.toNat) : ownClearGap [b] s = (.refuse .argument 0, s) := by
  simp only [ownClearGap, show u8At [b] 0 = b.toNat from rfl, Group.ofNumber_above b h]

theorem ownClearGap_of_number (h : b.toNat = g.number) :
    ownClearGap [b] s =
      (.accept (b :: bridgeBytes (s.gap.groups.get g) .a ++ bridgeBytes (s.gap.groups.get g) .b), s.setGapGroup g .reset) := by
  have hb : b8 g.number = b := by rw [← h, b8_toNat]
  simp only [ownClearGap, show u8At [b] 0 = b.toNat from rfl, Group.ofNumber_number b g h, hb]

theorem clearGap : Says.ClearGap := by
  intro s f b hhears hbody
  refine ⟨fun habove => exec_row_answers .clearGap hhears hbody (ownClearGap_of_above habove), ?_⟩
  rintro g old hg rfl
  refine ⟨.reset, GapGroup.reset_get, ?_⟩
  refine exec_row_answers .clearGap hhears hbody ((ownClearGap_of_number (s := s.counted .clearGap f) hg).trans ?_)
  rw [State.setGapGroup_eq]
  rfl

/-- Settles O26: the events of R120 and CLEAR-GAP. -/
theorem gapClearing : Obligations.GapClearing := ⟨detectorClearing, clearGap⟩

end ClearGap

end Sys2Proof.Machine
end

