-- ==== Sys2Proof/Proofs/Filings.lean ====
section
/-! PROOFS. The Capture Store's filings (chapter 7): room, overwriting and drops (R128 to R131), the filed records (R103, R117, R18), and
CAPTURE (R127, R132 to R134). -/

namespace Sys2Proof.Machine

/-! ### Filing a record (R128 to R131) -/

section FileRecord

variable {s : State} {mk : Nat → Record}

/-- With room the record is added under the counter's number. -/
theorem State.fileRecord_of_room {kept : List StoreEntry} (h : s.store.room = some kept) :
    s.fileRecord mk =
      ({ s with
          store :=
            { s.store with entries := kept ++ [⟨mk s.store.counter, false⟩], counter := s.store.counter + 1 } }, true) := by
  simp only [State.fileRecord, CaptureStore.file, h]
  rfl

/-- Without room the filing is dropped. -/
theorem State.fileRecord_of_no_room (h : s.store.room = none) :
    s.fileRecord mk =
      ({ s with
          store := { s.store with drops := countUp16 s.store.drops }
          transit := { s.transit with raises := s.transit.raises ++ [.store] } }, false) := by
  simp only [State.fileRecord, CaptureStore.file, h]
  rfl

end FileRecord

theorem exec_filing {s : State} {n : Nat} {f : Filing} (h : s.transit.filings[n]? = some f) :
    exec (.filing n) s =
      .next (({ s with transit := { s.transit with filings := s.transit.filings.eraseIdx n } } : State).fileRecord (f.record s)).1 := by
  simp only [exec, execFiling, h]
  cases f <;> rfl

theorem filingAddsOverwritesOrDrops : Says.FilingAddsOverwritesOrDrops := by
  intro s n
  refine ⟨fun hnone => ?_, ?_⟩
  · simp only [exec, execFiling, hnone]
  · rintro f x hf rfl
    refine ⟨fun hcounter hroom => ?_, fun kept rest old hcounter hfull hentries hkept hold => ?_, fun hno => ?_⟩
    · rw [exec_filing hf, State.fileRecord_of_room (by exact CaptureStore.room_below s.store hcounter hroom)]
    · rw [exec_filing hf,
        State.fileRecord_of_room (by exact CaptureStore.room_full s.store hcounter hfull kept rest old hentries hkept hold)]
    · rw [exec_filing hf, State.fileRecord_of_no_room (by exact CaptureStore.room_none s.store hno)]

theorem filedRecords : Says.FiledRecords := fun _ _ =>
  ⟨fun _ _ _ _ _ _ => rfl, fun _ _ _ _ => rfl, fun _ _ _ _ => rfl⟩

/-- Settles O27: what a filing does to the store, and what the filed record holds. -/
theorem filing : Obligations.Filing := ⟨filingAddsOverwritesOrDrops, filedRecords⟩

/-! ### CAPTURE (R132 to R134) -/

section Capture

variable {s : State} {b flag : Byte} {i : Subject}

theorem State.captureSubject_of_room {wanted : Bool} {kept : List StoreEntry} {r : Record} (h : s.store.room = some kept)
    (hr : s.manualRecord i wanted s.store.counter = r) :
    s.captureSubject i wanted =
      (.accept (le32 s.store.counter ++ [flagByte r.summary.isSome, flagByte r.wave.isSome]),
        { s with
          store := { s.store with entries := kept ++ [⟨r, false⟩], counter := s.store.counter + 1 } }) := by
  simp only [State.captureSubject, State.fileRecord_of_room h, hr]

theorem State.captureSubject_of_no_room {wanted : Bool} (h : s.store.room = none) :
    s.captureSubject i wanted =
      (.refuse .state 0,
        { s with
          store := { s.store with drops := countUp16 s.store.drops }
          transit := { s.transit with raises := s.transit.raises ++ [.store] } }) := by
  simp only [State.captureSubject, State.fileRecord_of_no_room h]

/-- The MANUAL record (R127, R133). -/
theorem State.manualRecord_eq (s : State) (i : Subject) (wanted : Bool) (n : Nat) :
    s.manualRecord i wanted n =
      { number := n, kind := .manual, subject := some i, stamp := s.tracker.cycle, source := s.sourceInEffect
        offset := s.sync.offsets.get s.sourceInEffect
        verdict := some ((s.verdicts.get i).counter, (s.verdicts.get i).condition)
        summary := (s.verdicts.get i).results.map fun x =>
          { number := x.number
            views := x.views.map fun v => { view := v.view, mean := v.mean, ripple := v.ripple, levels := v.levels } }
        exceeded := none, gap := none, sync := none
        wave :=
          if wanted = true ∧ s.front.buffer.valid = true then some (waveByRule i s.front.buffer.cycle s.front.buffer.rows) else none } := by
  have hsummary : (s.verdicts.get i).summary = (s.verdicts.get i).results.map fun x => summaryOf x.number x.views := by
    unfold VerdictEntry.summary
    cases (s.verdicts.get i).results <;> rfl
  have hwave : (if wanted then s.front.bufferCopy i.channels else none) =
      if wanted = true ∧ s.front.buffer.valid = true then some (waveByRule i s.front.buffer.cycle s.front.buffer.rows) else none := by
    cases wanted <;> simp [FrontEnd.bufferCopy, copyCycle_eq]
  unfold State.manualRecord
  dsimp only
  rw [hsummary, hwave]
  rfl

theorem ownCapture_of_above (h : 4 < b.toNat) : ownCapture [b, flag] s = (.refuse .argument 0, s) := by
  simp only [ownCapture, show u8At [b, flag] 0 = b.toNat from rfl, Subject.ofNumber_above b h]

theorem Subject.exists_number {n : Nat} (h : n ≤ 4) : ∃ i : Subject, n = i.number := by
  interval_cases n
  exacts [⟨.g0, rfl⟩, ⟨.g1, rfl⟩, ⟨.g2, rfl⟩, ⟨.g3, rfl⟩, ⟨.bus, rfl⟩]

theorem ownCapture_of_bad_flag (h : b.toNat = i.number) (hflag : 1 < flag.toNat) : ownCapture [b, flag] s = (.refuse .argument 1, s) := by
  simp only [ownCapture, show u8At [b, flag] 0 = b.toNat from rfl, show u8At [b, flag] 1 = flag.toNat from rfl,
    Subject.ofNumber_number b i h]
  split
  · omega
  · omega
  · rfl

theorem ownCapture_of_number (h : b.toNat = i.number) (hflag : flag.toNat ≤ 1) :
    ownCapture [b, flag] s = s.captureSubject i (decide (flag = 1)) := by
  have hcases : flag = 0 ∨ flag = 1 := by bv_omega
  simp only [ownCapture, show u8At [b, flag] 0 = b.toNat from rfl, Subject.ofNumber_number b i h]
  rcases hcases with rfl | rfl <;> rfl

/-- Settles O28: CAPTURE files a MANUAL record, or drops it and refuses. -/
theorem capture : Obligations.Capture := by
  intro s f b flag hhears hbody
  refine ⟨fun habove => ?_, fun hb hflag => ?_, ?_⟩
  · exact exec_row_answers .capture hhears hbody (ownCapture_of_above habove)
  · obtain ⟨i, hi⟩ := Subject.exists_number hb
    exact exec_row_answers .capture hhears hbody (ownCapture_of_bad_flag hi hflag)
  · rintro i r marked hi hflag rfl hr
    have howner : ownerTakes .capture [b, flag] (s.counted .capture f) = (s.counted .capture f).captureSubject i (decide (flag = 1)) :=
      ownCapture_of_number hi hflag
    have hrecord : (s.counted .capture f).manualRecord i (decide (flag = 1)) (s.counted .capture f).store.counter = r := by
      rw [hr, State.manualRecord_eq]
      simp only [decide_eq_true_eq]
      rfl
    refine ⟨fun hcounter hroom => ?_, fun kept rest old hcounter hfull hentries hkept hold => ?_, fun hno => ?_⟩
    · exact exec_row_answers .capture hhears hbody
        (howner.trans (State.captureSubject_of_room (CaptureStore.room_below _ hcounter hroom) hrecord))
    · exact exec_row_answers .capture hhears hbody
        (howner.trans (State.captureSubject_of_room (CaptureStore.room_full _ hcounter hfull kept rest old hentries hkept hold) hrecord))
    · exact exec_row_answers .capture hhears hbody (howner.trans (State.captureSubject_of_no_room (CaptureStore.room_none _ hno)))

end Capture

end Sys2Proof.Machine
end

