-- ==== Sys2Proof/Proofs/RecordRequests.lean ====
section
/-! PROOFS. The Capture Store's requests (chapter 7): READ-RECORD (R136 to R138, R224), READ-WAVE (R141, R142), RETAIN, RELEASE and
RETAIN-MAP (R143, R144, R146), MARK-FIRST and MARK-LAST (R147, R148). -/

namespace Sys2Proof.Machine

theorem CaptureStore.find_eq (st : CaptureStore) (n : Nat) : st.find n = st.entries.find? fun e => decide (e.record.number = n) := rfl

/-! ### READ-RECORD (R136 to R138, R224) -/

theorem sectorListByte_eq (xs : List Nat) : [sectorListByte xs] = bytesOf 1 ((xs.map fun j => 2 ^ j).sum) := b8_eq _

theorem summaryBytes_eq (x : Summary) :
    summaryBytes x =
      bytesOf 4 x.number.toNat ++ x.views.flatMap fun v => meanByRule v.mean ++ bytesOf 2 v.ripple ++ pairsByRule v.levels := by
  simp only [summaryBytes, le32_eq, meanBytes_eq, le16_eq, levelBytes_eq]

theorem exceededBytes_eq (xs : List Nat) : b8 xs.length :: xs.map b8 = bytesOf 1 xs.length ++ xs.flatMap (bytesOf 1) := by
  have hone : (fun n => [b8 n]) = bytesOf 1 := funext b8_eq
  rw [← b8_eq, ← hone, List.map_eq_flatMap]
  rfl

theorem gapSideBytes_eq (x : GapSide) :
    gapSideBytes x = bytesOf 1 x.base ++ bytesOf 1 ((x.declared.map fun j => 2 ^ j).sum) ++ sectorsByRule x.latches.get := by
  rw [← sectorListByte_eq, ← sectorByte_eq, ← b8_eq]
  rfl

theorem Source.code_byte (x : Source) : [Source.code x] = bytesOf 1 (match x with | .sya => 0 | .syb => 1 | .syc => 2) := by
  cases x <;> rfl

theorem syncPartBytes_eq (x : SyncPart) :
    syncPartBytes x =
      bytesOf 1 (match x.lost with | .sya => 0 | .syb => 1 | .syc => 2) ++ bytesOf 4 x.period ++ bytesOf 1 x.misses := by
  rw [← Source.code_byte, ← le32_eq, ← b8_eq]
  rfl

theorem waveBytes_eq (w : Waveform) :
    waveBytes w =
      bytesOf 4 w.cycle.toNat ++ bytesOf 1 w.channels.length
        ++ w.channels.flatMap fun c => bytesOf 1 (channelNumber c.channel) ++ bytesOf 1 c.clipped := by
  simp only [waveBytes, le32_eq, Channel.number_eq, ← b8_eq]
  simp

/-- A record is sent in the layout of R224. -/
theorem recordBytes_eq (r : Record) : recordBytes r = recordByRule r := by
  unfold recordBytes recordByRule
  congr 5
  · simp only [← b8_eq, ← le32_eq, List.append_assoc, List.cons_append, List.nil_append, List.append_cancel_left_eq, List.cons.injEq,
      true_and, and_true]
    refine ⟨by cases r.kind <;> rfl, ?_, by cases r.source <;> rfl, by cases r.verdict <;> rfl, ?_, rfl⟩
    · obtain _ | i := r.subject
      · rfl
      · cases i <;> rfl
    · obtain _ | ⟨counter, condition⟩ := r.verdict
      · rfl
      · cases condition <;> rfl
  · cases r.summary with
    | none => rfl
    | some x => exact summaryBytes_eq x
  · cases r.exceeded with
    | none => rfl
    | some xs => exact exceededBytes_eq xs
  · cases r.gap with
    | none => rfl
    | some x => simp [partBytes, gapSideBytes_eq]
  · cases r.sync with
    | none => rfl
    | some x => exact syncPartBytes_eq x
  · cases r.wave with
    | none => rfl
    | some w => exact waveBytes_eq w

section ReadRecord

variable {s : State} {sel b0 b1 b2 b3 : Byte}

theorem ownReadRecord_of_above (h : 2 < sel.toNat) : ownReadRecord [sel, b0, b1, b2, b3] s = (.refuse .argument 0, s) := if_pos h

theorem ownReadRecord_of_legal (h : sel.toNat ≤ 2) :
    ownReadRecord [sel, b0, b1, b2, b3] s =
      match s.store.select sel.toNat (numberOf b0 b1 b2 b3) with
      | none => (.refuse .notfound 0, s)
      | some none => (.accept [0, b8 s.store.entries.length], s)
      | some (some e) =>
        (.accept ([1, b8 s.store.entries.length] ++ le32 (skippedFigure s.store.cursor e.record.number)
            ++ flagByte e.retained :: recordBytes e.record),
          { s with store := { s.store with cursor := e.record.number } }) :=
  if_neg (Nat.not_lt.2 h)

theorem skippedFigure_eq (cursor returned : Nat) :
    skippedFigure cursor returned = if cursor ≠ 0 ∧ cursor < returned then returned - cursor - 1 else 0 := by
  unfold skippedFigure
  by_cases hzero : cursor = 0 <;> simp [hzero]

/-- The record that a selector chooses. -/
theorem CaptureStore.select_eq {st : CaptureStore} {chosen : Option StoreEntry} {n : Nat}
    (h : (sel = 0 ∧ chosen = st.entries.find? fun e => decide (e.record.number = n)) ∨ (sel = 1 ∧ chosen = st.entries.head?)
      ∨ (sel = 2 ∧ chosen = st.entries.find? fun e => decide (st.cursor < e.record.number))) :
    sel.toNat ≤ 2 ∧ st.select sel.toNat n = if sel = 0 ∧ chosen = none then none else some chosen := by
  rcases h with ⟨rfl, rfl⟩ | ⟨rfl, rfl⟩ | ⟨rfl, rfl⟩
  · refine ⟨by decide, ?_⟩
    show (match st.find n with | none => none | some e => some (some e)) = _
    rw [CaptureStore.find_eq]
    cases st.entries.find? fun e => decide (e.record.number = n) <;> rfl
  · exact ⟨by decide, rfl⟩
  · exact ⟨by decide, rfl⟩

/-- Settles O29: which record READ-RECORD returns, and what it sends of it. -/
theorem readRecord : Obligations.ReadRecord := by
  intro s f sel b0 b1 b2 b3 chosen hhears hbody
  refine ⟨fun habove => exec_row_answers .readRecord hhears hbody (ownReadRecord_of_above habove), fun hchosen => ?_⟩
  obtain ⟨hlegal, hselect⟩ := CaptureStore.select_eq (st := s.store) (n := numberOf b0 b1 b2 b3) hchosen
  have howner := ownReadRecord_of_legal (s := s.counted .readRecord f) (b0 := b0) (b1 := b1) (b2 := b2) (b3 := b3) hlegal
  refine ⟨fun hnone => ?_, fun e he => ?_⟩
  · refine exec_row_answers .readRecord hhears hbody (howner.trans ?_)
    rw [show (s.counted .readRecord f).store.select sel.toNat (numberOf b0 b1 b2 b3) = _ from hselect, hnone]
    by_cases hzero : sel = 0
    · rw [if_pos ⟨hzero, rfl⟩, if_pos hzero]
    · rw [if_neg fun h => hzero h.1, if_neg hzero]
      rfl
  · refine exec_row_answers .readRecord hhears hbody (howner.trans ?_)
    rw [show (s.counted .readRecord f).store.select sel.toNat (numberOf b0 b1 b2 b3) = _ from hselect, he]
    simp only [reduceCtorEq, and_false, if_false, recordBytes_eq, skippedFigure_eq]
    rfl

end ReadRecord

/-! ### READ-WAVE (R141, R142) -/

section ReadWave

variable {s : State} {b0 b1 b2 b3 channel start count : Byte}

theorem Channel.ofNumber_above (h : 8 < channel.toNat) : Channel.ofNumber? channel.toNat = none := by
  generalize channel.toNat = n at h
  match n, h with
  | n + 9, _ => rfl

theorem Channel.ofNumber_le (h : channel.toNat ≤ 8) : ∃ ch, Channel.ofNumber? channel.toNat = some ch := by
  generalize channel.toNat = n at h
  interval_cases n <;> exact ⟨_, rfl⟩

theorem ownReadWave_of_bad_channel (h : 8 < channel.toNat) :
    ownReadWave [b0, b1, b2, b3, channel, start, count] s = (.refuse .argument 4, s) := by
  simp only [ownReadWave, show u8At [b0, b1, b2, b3, channel, start, count] 4 = channel.toNat from rfl, Channel.ofNumber_above h]

theorem ownReadWave_of_channel {ch : Channel} (h : Channel.ofNumber? channel.toNat = some ch) :
    ownReadWave [b0, b1, b2, b3, channel, start, count] s =
      if 95 < start.toNat then (.refuse .argument 5, s)
      else if min 64 count.toNat = 0 then (.refuse .argument 6, s)
      else
        match s.store.find (numberOf b0 b1 b2 b3) with
        | none => (.refuse .notfound 0, s)
        | some e =>
          match e.record.channel? ch with
          | none => (.refuse .notfound 1, s)
          | some (cycle, c) =>
            (.accept (le32 (numberOf b0 b1 b2 b3) ++ [b8 ch.number, b8 start.toNat, b8 (min 64 count.toNat)] ++ le32 cycle.toNat
              ++ b8 c.clipped :: (waveCodes c.codes start.toNat (min 64 count.toNat)).flatMap codeBytes), s) := by
  simp only [ownReadWave, show u8At [b0, b1, b2, b3, channel, start, count] 4 = channel.toNat from rfl, h]
  rfl

theorem min_count_eq_zero_iff : min 64 count.toNat = 0 ↔ count = 0 := by bv_omega

theorem ownReadWave_of_range {ch : Channel} (h : Channel.ofNumber? channel.toNat = some ch) (hstart : start.toNat ≤ 95) (hcount : count ≠ 0) :
    ownReadWave [b0, b1, b2, b3, channel, start, count] s =
      match s.store.find (numberOf b0 b1 b2 b3) with
      | none => (.refuse .notfound 0, s)
      | some e =>
        match e.record.channel? ch with
        | none => (.refuse .notfound 1, s)
        | some (cycle, c) =>
          (.accept (le32 (numberOf b0 b1 b2 b3) ++ [b8 ch.number, b8 start.toNat, b8 (min 64 count.toNat)] ++ le32 cycle.toNat
            ++ b8 c.clipped :: (waveCodes c.codes start.toNat (min 64 count.toNat)).flatMap codeBytes), s) := by
  rw [ownReadWave_of_channel h, if_neg (Nat.not_lt.2 hstart), if_neg (fun hzero => hcount (min_count_eq_zero_iff.1 hzero))]

theorem Record.channel_eq_none {r : Record} {ch : Channel} (h : ∀ w, r.wave = some w → ∀ c ∈ w.channels, c.channel ≠ ch) :
    r.channel? ch = none := by
  unfold Record.channel?
  cases hwave : r.wave with
  | none => rfl
  | some w =>
    have hfind : w.channels.find? (fun c => c.channel == ch) = none :=
      List.find?_eq_none.2 fun c hc => by simpa using h w hwave c hc
    simp only [hfind, Option.map_none]

theorem Record.channel_eq_some {r : Record} {ch : Channel} {w : Waveform} {before after : List WaveChannel} {c : WaveChannel}
    (hwave : r.wave = some w) (hchannels : w.channels = before ++ c :: after) (hbefore : ∀ x ∈ before, x.channel ≠ ch)
    (hc : c.channel = ch) : r.channel? ch = some (w.cycle, c) := by
  have hfind : w.channels.find? (fun c => c.channel == ch) = some c := by
    rw [hchannels, List.find?_append, List.find?_eq_none.2 fun x hx => by simpa using hbefore x hx]
    simp [hc]
  simp only [Record.channel?, hwave, hfind, Option.map_some]

/-- Settles O30: what READ-WAVE is refused with, and the codes it sends. -/
theorem readWave : Obligations.ReadWave := by
  rintro s f b0 b1 b2 b3 channel start count n found hhears hbody rfl rfl
  refine ⟨fun habove => ?_, fun hchannel hstart => ?_, fun hchannel hstart hcount => ?_, fun hchannel hstart hcount hnone => ?_,
    fun ch e hch hstart hcount hfound => ?_⟩
  · exact exec_row_answers .readWave hhears hbody (ownReadWave_of_bad_channel habove)
  · obtain ⟨ch, hch⟩ := Channel.ofNumber_le hchannel
    exact exec_row_answers .readWave hhears hbody ((ownReadWave_of_channel hch).trans (if_pos hstart))
  · obtain ⟨ch, hch⟩ := Channel.ofNumber_le hchannel
    exact exec_row_answers .readWave hhears hbody ((ownReadWave_of_channel hch).trans
      ((if_neg (Nat.not_lt.2 hstart)).trans (if_pos (min_count_eq_zero_iff.2 hcount))))
  · obtain ⟨ch, hch⟩ := Channel.ofNumber_le hchannel
    refine exec_row_answers .readWave hhears hbody ((ownReadWave_of_range hch hstart hcount).trans ?_)
    rw [show (s.counted .readWave f).store.find (numberOf b0 b1 b2 b3) = none from hnone]
  · have howner := ownReadWave_of_range (s := s.counted .readWave f) (b0 := b0) (b1 := b1) (b2 := b2) (b3 := b3)
      (Channel.ofNumber_number channel ch hch) hstart hcount
    rw [show (s.counted .readWave f).store.find (numberOf b0 b1 b2 b3) = some e from hfound] at howner
    refine ⟨fun hno => ?_, fun w before after c hwave hchannels hbefore hc => ?_⟩
    · refine exec_row_answers .readWave hhears hbody (howner.trans ?_)
      simp only [Record.channel_eq_none hno]
    · refine exec_row_answers .readWave hhears hbody (howner.trans ?_)
      simp only [Record.channel_eq_some hwave hchannels hbefore hc, ← hch, b8_toNat, waveCodes, List.flatMap_map]

end ReadWave

/-! ### Retention (R143, R144, R146) -/

section Retention

variable {s : State} {b0 b1 b2 b3 : Byte}

theorem retainAndRelease : Says.RetainAndRelease := by
  rintro s f b0 b1 b2 b3 k found hhears hbody hk rfl
  have howner : ownerTakes k [b0, b1, b2, b3] (s.counted k f) =
      (s.counted k f).retainRecord (numberOf b0 b1 b2 b3) (decide (k = .retain)) := by
    rcases hk with rfl | rfl <;> rfl
  have hlength : ∀ n, k.fixedLength = some n → [b0, b1, b2, b3].length = n := by
    rcases hk with rfl | rfl <;> rintro n ⟨⟩ <;> rfl
  have hbusy : k.inBusySet = true → s.settings.saving = false := by
    rcases hk with rfl | rfl <;> exact fun h => absurd h (by decide)
  refine ⟨fun hnone => ?_, fun e he => ?_⟩
  · refine exec_row_answers k hhears hbody (howner.trans ?_) hlength hbusy
    rw [State.retainRecord, show (s.counted k f).store.find (numberOf b0 b1 b2 b3) = none by
      rcases hk with rfl | rfl <;> exact hnone]
  · refine exec_row_answers k hhears hbody (howner.trans ?_) hlength hbusy
    rw [State.retainRecord, show (s.counted k f).store.find (numberOf b0 b1 b2 b3) = some e by
      rcases hk with rfl | rfl <;> exact he]
    dsimp only
    rw [le32_numberOf]
    rcases hk with rfl | rfl <;> rfl

/-- Bit `j` of a byte that adds up the powers of two of a set. -/
theorem b8_sum_getLsbD (p : Nat → Bool) {j : Nat} (hj : j < 8) :
    (b8 (((List.range 8).map fun i => if p i then 2 ^ i else 0).sum)).getLsbD j = p j := by
  have hbits : ∀ (p0 p1 p2 p3 p4 p5 p6 p7 : Bool), ∀ j : Fin 8,
      (b8 (((if p0 then 2 ^ 0 else 0) + ((if p1 then 2 ^ 1 else 0) + ((if p2 then 2 ^ 2 else 0) + ((if p3 then 2 ^ 3 else 0)
        + ((if p4 then 2 ^ 4 else 0) + ((if p5 then 2 ^ 5 else 0) + ((if p6 then 2 ^ 6 else 0) + ((if p7 then 2 ^ 7 else 0)
        + 0)))))))))).getLsbD j.val = [p0, p1, p2, p3, p4, p5, p6, p7].get j := by decide
  have h := hbits (p 0) (p 1) (p 2) (p 3) (p 4) (p 5) (p 6) (p 7) ⟨j, hj⟩
  refine Eq.trans h ?_
  interval_cases j <;> rfl

theorem CaptureStore.isRetained_iff {st : CaptureStore} (h : (st.entries.map fun e => e.record.number).Nodup) (n : Nat) :
    st.isRetained n = true ↔ ∃ e ∈ st.entries, e.record.number = n ∧ e.retained = true := by
  unfold CaptureStore.isRetained
  rw [CaptureStore.find_eq]
  split
  case h_1 hnone =>
    simp only [Bool.false_eq_true, false_iff]
    rintro ⟨e, he, hn, -⟩
    simpa [hn] using List.find?_eq_none.1 hnone e he
  case h_2 e hsome =>
    have hn : e.record.number = n := by simpa using List.find?_some hsome
    have he : e ∈ st.entries := List.mem_of_find?_eq_some hsome
    constructor
    · exact fun hretained => ⟨e, he, hn, hretained⟩
    · rintro ⟨e', he', hn', hretained⟩
      rw [List.inj_on_of_nodup_map h he he' (hn.trans hn'.symm)]
      exact hretained

theorem CaptureStore.mapByte_bit (st : CaptureStore) (start k : Nat) {j : Nat} (hj : j < 8) :
    (st.mapByte start k).getLsbD j = st.isRetained (start + 8 * k + j) :=
  b8_sum_getLsbD (fun i => st.isRetained (start + 8 * k + i)) hj

theorem retainMap : Says.RetainMap := by
  intro s f b0 b1 b2 b3 hhears hbody hnodup
  refine ⟨s.store.mapByte (numberOf b0 b1 b2 b3) 0, s.store.mapByte (numberOf b0 b1 b2 b3) 1, s.store.mapByte (numberOf b0 b1 b2 b3) 2,
    s.store.mapByte (numberOf b0 b1 b2 b3) 3, ?_, fun i hi => ?_⟩
  · refine exec_row_answers .retainMap hhears hbody ?_
    show (Answer.accept (le32 (numberOf b0 b1 b2 b3) ++ _), _) = _
    rw [le32_numberOf]
    rfl
  · rw [← CaptureStore.isRetained_iff hnodup]
    have hmod : i % 8 < 8 := Nat.mod_lt _ (by decide)
    split
    · rw [CaptureStore.mapByte_bit _ _ _ hmod]
      congr! 2
      omega
    · split
      · rw [CaptureStore.mapByte_bit _ _ _ hmod]
        congr! 2
        omega
      · split
        · rw [CaptureStore.mapByte_bit _ _ _ hmod]
          congr! 2
          omega
        · rw [CaptureStore.mapByte_bit _ _ _ hmod]
          congr! 2
          omega

/-- Settles O31: RETAIN, RELEASE and RETAIN-MAP. -/
theorem retention : Obligations.Retention := ⟨retainAndRelease, retainMap⟩

end Retention

/-! ### The purge marks (R147, R148) -/

section MarkLast

variable {s : State} {b0 b1 b2 b3 : Byte}

theorem ownMarkLast_of_range {first : Nat} (hfirst : s.store.firstMark = some first) (hle : first ≤ numberOf b0 b1 b2 b3) :
    ownMarkLast [b0, b1, b2, b3] s =
      (.accept (le32 first ++ [b0, b1, b2, b3]),
        { s with store := { s.store with lastMark := some (numberOf b0 b1 b2 b3) } }) := by
  simp only [ownMarkLast, show u32At [b0, b1, b2, b3] 0 = numberOf b0 b1 b2 b3 from rfl, hfirst, if_pos hle, le32_numberOf, State.setMarks]

theorem ownMarkLast_of_no_range
    (h : s.store.firstMark = none ∨ ∃ first, s.store.firstMark = some first ∧ numberOf b0 b1 b2 b3 < first) :
    ownMarkLast [b0, b1, b2, b3] s = (.refuse .range 0, s.setMarks none none) := by
  rcases h with hnone | ⟨first, hfirst, hlt⟩
  · simp only [ownMarkLast, hnone]
  · simp only [ownMarkLast, show u32At [b0, b1, b2, b3] 0 = numberOf b0 b1 b2 b3 from rfl, hfirst, if_neg (Nat.not_le.2 hlt)]

end MarkLast

/-- Settles O32: MARK-FIRST and MARK-LAST, and their bodies of another length. -/
theorem purgeMarks : Obligations.PurgeMarks := by
  intro s f hhears
  refine ⟨fun hlength => ⟨?_, ?_, rfl, rfl⟩, fun b0 b1 b2 b3 hbody => ⟨?_, fun first hfirst hle => ?_, fun hno => ?_⟩⟩
  · exact exec_row_of_commonRefusal hhears (answerRequest_of_lengthRefusal (lengthRefusal_of_length_ne (k := .markFirst) rfl hlength))
  · exact exec_row_of_commonRefusal hhears (answerRequest_of_lengthRefusal (lengthRefusal_of_length_ne (k := .markLast) rfl hlength))
  · refine exec_row_answers .markFirst hhears hbody ?_
    show (Answer.accept (le32 (numberOf b0 b1 b2 b3)), _) = _
    rw [le32_numberOf]
    rfl
  · exact exec_row_answers .markLast hhears hbody (ownMarkLast_of_range (s := s.counted .markLast f) hfirst hle)
  · exact exec_row_answers .markLast hhears hbody (ownMarkLast_of_no_range (s := s.counted .markLast f) hno)

end Sys2Proof.Machine
end

