-- ==== Sys2Proof/Proofs/Notices.lean ====
section
/-! PROOFS. The Notice Unit (chapter 8): raises (R169, R171), SET-NOTICES (R175, R176), FETCH-NOTICES (R172 to R174). -/

namespace Sys2Proof.Machine

/-! ### Raises (R169, R171) -/

/-- Settles O34: a raise sets its class's latch and counts. -/
theorem noticeRaise : Obligations.NoticeRaise := by
  intro s c
  refine ⟨fun hnone => ?_, fun before after hraises hbefore =>
    ⟨s.notices.latches.set c (s.notices.latches.get c).raised, fun d => ?_, ?_⟩⟩
  · simp only [exec, execNoticeRaise, takeFirst_beq_none (fun x : NoticeClass => x) c fun y hy h => hnone (h ▸ hy)]
  · rw [PerClass.get_set]
    rfl
  · have hfirst : takeFirst (fun x : NoticeClass => x == c) s.transit.raises = some (c, before ++ after) := by
      rw [hraises]
      exact takeFirst_beq_append (fun x : NoticeClass => x) c (fun y hy h => hbefore (h ▸ hy)) rfl
    simp only [exec, execNoticeRaise, hfirst]
    rfl

/-! ### SET-NOTICES (R175, R176) -/

section SetNotices

variable {s : State} {body : List Byte}

/-- The greatest value of the byte at an offset of a SET-NOTICES body. -/
def noticeTop (k : Nat) : Nat := if k = 25 ∨ (k < 24 ∧ k % 2 = 0) then 1 else 3

theorem noticeRanges_getElem {k : Nat} (hk : k < 26) : noticeRanges[k]? = some (0, noticeTop k) := by
  rw [noticeRanges_eq, List.getElem?_map, List.getElem?_range hk]
  rfl

theorem noticeRanges_inRange {k : Nat} {r : Nat × Nat} (hr : noticeRanges[k]? = some r) :
    k < 26 ∧ (inRangeAt body r k ↔ u8At body k ≤ noticeTop k) := by
  have hk : k < 26 := (List.getElem?_eq_some_iff.1 hr).1
  obtain rfl : (0, noticeTop k) = r := Option.some.inj ((noticeRanges_getElem hk).symm.trans hr)
  exact ⟨hk, and_iff_right (Nat.zero_le _)⟩

theorem ownSetNotices_of_bad {k : Nat} (hlength : body.length = 26) (hk : k < 26) (hbad : noticeTop k < u8At body k)
    (hgood : ∀ j, j < k → u8At body j ≤ noticeTop j) : ownSetNotices body s = (.refuse .argument k, s) := by
  have hfirst : firstBad noticeRanges body 0 = some (0 + k) :=
    firstBad_eq_some (by rw [hlength]; rfl) (noticeRanges_getElem hk) (fun h => Nat.not_le.2 hbad h.2) fun j r hj hr =>
      (noticeRanges_inRange hr).2.2 (hgood j hj)
  simp only [ownSetNotices, hfirst, Nat.zero_add]

theorem ownSetNotices_of_good (hlength : body.length = 26) (hgood : ∀ k, k < 26 → u8At body k ≤ noticeTop k) :
    ownSetNotices body s =
      (.accept [flagByte (attnByRule s.notices.latches (noticesOf body))],
        { s with
          notices := { s.notices with settings := noticesOf body, attn := attnByRule s.notices.latches (noticesOf body) } }) := by
  have hfirst : firstBad noticeRanges body 0 = none :=
    (firstBad_eq_none_iff (by rw [hlength]; rfl)).2 fun k r hr =>
      (noticeRanges_inRange hr).2.2 (hgood k (noticeRanges_inRange (body := body) hr).1)
  simp only [ownSetNotices, hfirst]
  rfl

/-- Settles O35: the first field outside its values is refused, a legal body replaces the settings. -/
theorem setNotices : Obligations.SetNotices := by
  intro s f top hhears hsaving hlength htop
  obtain rfl : top = noticeTop := funext htop
  have hfixed : ∀ n, RequestKind.fixedLength .setNotices = some n → f.body.length = n := by
    rintro n ⟨⟩
    exact hlength
  refine ⟨fun k hk hbad hgood => ?_, fun hgood => ⟨noticesOf f.body, fun c => ?_, rfl, ?_, ?_⟩⟩
  · exact exec_row_answers .setNotices hhears rfl (ownSetNotices_of_bad hlength hk hbad hgood) hfixed (fun _ => hsaving)
  · simp only [noticesOf, PerClass.get_ofFn, beq_eq_decide, and_self]
  · simp only [noticesOf, beq_eq_decide]
  · exact exec_row_answers .setNotices hhears rfl (ownSetNotices_of_good hlength hgood) hfixed (fun _ => hsaving)

end SetNotices

/-! ### FETCH-NOTICES (R172 to R174) -/

section FetchNotices

variable {n : NoticeUnit}

/-- The order of a fetch's entries: by level from the highest, then by class number (R173). -/
def NoticeUnit.precedes (n : NoticeUnit) (c d : NoticeClass) : Prop :=
  n.settings.level.get d < n.settings.level.get c ∨ (n.settings.level.get c = n.settings.level.get d ∧ c.number < d.number)

theorem NoticeClass.mem_all (c : NoticeClass) : c ∈ NoticeClass.all := by cases c <;> decide

theorem NoticeClass.all_pairwise : NoticeClass.all.Pairwise fun c d => c.number < d.number := by decide

theorem NoticeUnit.mem_fetched (hlevels : ∀ c, n.settings.level.get c ≤ 3) (c : NoticeClass) :
    c ∈ n.fetched ↔ (n.latches.get c).latch = true ∧ n.settings.enable.get c = true := by
  have hlevel := hlevels c
  have hsome : n.settings.level.get c ∈ [3, 2, 1, 0] := by
    simp only [List.mem_cons, List.not_mem_nil, or_false]
    omega
  simp only [NoticeUnit.fetched, List.mem_flatMap, List.mem_filter, NoticeClass.mem_all, NoticeUnit.returned, Bool.and_eq_true,
    beq_iff_eq, true_and]
  constructor
  · rintro ⟨level, -, h, -⟩
    exact h
  · exact fun h => ⟨_, hsome, h, rfl⟩

theorem NoticeUnit.fetched_pairwise (n : NoticeUnit) : n.fetched.Pairwise n.precedes := by
  refine List.pairwise_flatMap.2 ⟨fun level _ => ?_, ?_⟩
  · refine (NoticeClass.all_pairwise.filter _).imp_of_mem fun hc hd hnumber => .inr ⟨?_, hnumber⟩
    simp only [List.mem_filter, Bool.and_eq_true, beq_iff_eq] at hc hd
    rw [hc.2.2, hd.2.2]
  · refine (by decide : [3, 2, 1, 0].Pairwise fun x y : Nat => y < x).imp fun {x y} hlt c hc d hd => .inl ?_
    simp only [List.mem_filter, Bool.and_eq_true, beq_iff_eq] at hc hd
    rw [hc.2.2, hd.2.2]
    exact hlt

theorem NoticeUnit.precedes_asymm {c d : NoticeClass} (h : n.precedes c d) : ¬n.precedes d c := by
  unfold NoticeUnit.precedes at *
  omega

theorem NoticeUnit.nodup_of_pairwise {l : List NoticeClass} (h : l.Pairwise n.precedes) : l.Nodup :=
  h.imp fun {c d} hcd (heq : c = d) => by
    subst heq
    exact NoticeUnit.precedes_asymm hcd hcd

/-- The entries of a fetch are the latched and enabled classes in their order. -/
theorem NoticeUnit.fetched_eq {classes : List NoticeClass} (hlevels : ∀ c, n.settings.level.get c ≤ 3)
    (hmem : ∀ c, c ∈ classes ↔ (n.latches.get c).latch = true ∧ n.settings.enable.get c = true) (hpairwise : classes.Pairwise n.precedes) :
    n.fetched = classes := by
  have hperm : n.fetched.Perm classes :=
    (List.perm_ext_iff_of_nodup (nodup_of_pairwise n.fetched_pairwise) (nodup_of_pairwise hpairwise)).2 fun c =>
      (mem_fetched hlevels c).trans (hmem c).symm
  exact hperm.eq_of_pairwise (fun c d _ _ hcd hdc => absurd hdc (precedes_asymm hcd)) n.fetched_pairwise hpairwise

theorem fetchBytes_eq {classes : List NoticeClass} {held : Nat} {after : NoticeUnit} (hclasses : n.fetched = classes)
    (hheld : held = NoticeClass.all.countP fun c => (n.latches.get c).latch && !n.settings.enable.get c) :
    fetchBytes n after = fetchByRule n classes held after.attn := by
  have hcount : n.held = held := by rw [hheld, List.countP_eq_length_filter]; rfl
  have hflag (x : Bool) : [flagByte x] = bytesOf 1 (if x = true then 1 else 0) := by cases x <;> rfl
  simp only [fetchBytes, fetchByRule, hclasses, hcount, ← hflag, ← b8_eq]
  simp

/-- Settles O36: what a fetch returns, clears and answers. -/
theorem fetchNotices : Obligations.FetchNotices := by
  intro s f flag held classes hhears hbody hlevels hheld hmem hpairwise
  have hbytes (after : NoticeUnit) : fetchBytes s.notices after = fetchByRule s.notices classes held after.attn :=
    fetchBytes_eq (NoticeUnit.fetched_eq hlevels hmem hpairwise) hheld
  refine ⟨fun habove => ?_, ?_, ?_⟩
  · refine exec_row_answers .fetchNotices hhears hbody ?_
    show ownFetchNotices [flag] (s.counted .fetchNotices f) = _
    unfold ownFetchNotices
    rw [show u8At [flag] 0 = flag.toNat from rfl]
    split
    · omega
    · omega
    · rfl
  · rintro rfl
    exact exec_row_answers .fetchNotices hhears hbody (congrArg (fun bytes => (Answer.accept bytes, _)) (hbytes s.notices))
  · rintro rfl
    refine ⟨_, s.notices.clearReturned, fun c => ?_, rfl, ?_⟩
    · simp only [PerClass.get_ofFn, NoticeUnit.returned, Bool.and_eq_true]
      rfl
    · exact exec_row_answers .fetchNotices hhears hbody (congrArg (fun bytes => (Answer.accept bytes, _)) (hbytes _))

end FetchNotices

end Sys2Proof.Machine
end

