-- ==== Sys2Proof/Proofs/AlarmLines.lean ====
section
/-! PROOFS. The Alarm Line Driver (chapter 8): changes of indications and the pulse timer (R157 to R160), SET-LINES (R163 to R165),
READ-LINES (R162, R166). -/

namespace Sys2Proof.Machine

/-! ### Indications and the pulse timer (R157 to R160) -/

theorem lineSource_of_not {l : LineSettings} {x : Indications} (h : ¬someItemTrue l x) : lineSource l x = false := by
  rw [← Bool.not_eq_true, lineSource_iff]
  exact h

/-- A line whose source stays runs on, a line whose source changes is put to its new source (R157). -/
theorem LineRun.follow_of_same {r : LineRun} {l : LineSettings} {source : Bool} {t : Nat} (h : source = r.source) :
    r.follow l source t = r := if_pos h

theorem LineRun.follow_of_change {r : LineRun} {l : LineSettings} {source : Bool} {t : Nat} (h : source ≠ r.source) :
    r.follow l source t = lineFrom l source t := (if_neg h).trans (LineRun.start_eq l source t)

theorem indicationChange : Says.IndicationChange := by
  intro s x
  refine ⟨fun hnone => ?_, fun c before after hchanges hbefore hc => ?_⟩
  · simp only [exec, execIndicationChange, takeFirst_beq_none (fun y : Change => y.item) x hnone]
  · generalize hseen : s.lines.seen.take c = seen
    have hrun (l : LineId) : (({ s.lines with seen := seen } : AlarmDriver).evaluate s.now).run.get l =
        (s.lines.run.get l).follow (s.lines.settings.get l) (lineSource (s.lines.settings.get l) seen) s.now := by
      simp only [AlarmDriver.evaluate, PerLine.get_ofFn]
    refine ⟨(({ s.lines with seen := seen } : AlarmDriver).evaluate s.now).run, seen, ?_, fun l hsame => ?_, fun l htrue hwas => ?_,
      fun l hfalse hwas => ?_, ?_⟩
    · rw [← hseen]
      cases c <;> rfl
    · rw [hrun, LineRun.follow_of_same (Bool.eq_iff_iff.2 ((lineSource_iff _ _).trans hsame))]
    · rw [hrun, (lineSource_iff _ _).2 htrue, LineRun.follow_of_change (by simp [hwas])]
    · rw [hrun, lineSource_of_not hfalse, LineRun.follow_of_change (by simp [hwas])]
    · simp only [exec, execIndicationChange, hchanges, takeFirst_beq_append (fun y : Change => y.item) x hbefore hc, hseen]
      rfl

theorem pulseTimerExpires : Says.PulseTimerExpires := by
  intro s l
  refine ⟨fun hstopped => ?_, ?_⟩
  · simp only [exec, execPulseTimerExpiry, hstopped]
  · rintro t at_ htimer rfl
    refine ⟨fun hphase => ?_, fun hphase => ?_⟩
    · simp only [exec, execPulseTimerExpiry, htimer, LineRun.expire, hphase, pulseTicks]
      rfl
    · simp only [exec, execPulseTimerExpiry, htimer, LineRun.expire, hphase, pulseTicks]
      rfl

/-- Settles O37: what moves an alarm line between requests. -/
theorem lineEvents : Obligations.LineEvents := ⟨indicationChange, pulseTimerExpires⟩

/-! ### SET-LINES (R163 to R165) -/

section SetLines

variable {s : State} {body : List Byte}

/-- The least and the greatest value of the byte at an offset of a SET-LINES body. -/
def lineLow (k : Nat) : Nat := if 9 ≤ k % 11 then 1 else 0
def lineHigh (k : Nat) : Nat := if k % 11 < 5 then 2 else if k % 11 = 5 then 15 else if k % 11 < 9 then 1 else 255

theorem linesRanges_getElem {k : Nat} (hk : k < 44) : linesRanges[k]? = some (lineLow k, lineHigh k) := by
  rw [linesRanges_eq, List.getElem?_map, List.getElem?_range hk]
  rfl

theorem linesRanges_inRange {k : Nat} {r : Nat × Nat} (hr : linesRanges[k]? = some r) : k < 44 ∧ r = (lineLow k, lineHigh k) := by
  have hk : k < 44 := (List.getElem?_eq_some_iff.1 hr).1
  exact ⟨hk, Option.some.inj (hr.symm.trans (linesRanges_getElem hk))⟩

/-- Every byte of a SET-LINES body lies within its values. -/
def linesInRange (body : List Byte) : Prop := ∀ k, k < 44 → lineLow k ≤ u8At body k ∧ u8At body k ≤ lineHigh k

theorem ownSetLines_of_bad {k : Nat} (hlength : body.length = 44) (hk : k < 44) (hbad : u8At body k < lineLow k ∨ lineHigh k < u8At body k)
    (hgood : ∀ j, j < k → lineLow j ≤ u8At body j ∧ u8At body j ≤ lineHigh j) : ownSetLines body s = (.refuse .argument k, s) := by
  have hfirst : firstBad linesRanges body 0 = some (0 + k) := by
    refine firstBad_eq_some (by rw [hlength]; rfl) (linesRanges_getElem hk) (fun h => ?_) fun j r hj hr => ?_
    · exact hbad.elim (Nat.not_lt.2 h.1) (Nat.not_lt.2 h.2)
    · obtain ⟨-, rfl⟩ := linesRanges_inRange hr
      exact hgood j hj
  simp only [ownSetLines, hfirst, Nat.zero_add]

theorem ownSetLines_of_good (hlength : body.length = 44) (hgood : linesInRange body) :
    ownSetLines body s =
      (.accept (LineId.all.map fun l => ((s.setLines (linesOf body)).lines.run.get l).pin.code), s.setLines (linesOf body)) := by
  have hfirst : firstBad linesRanges body 0 = none := by
    refine (firstBad_eq_none_iff (by rw [hlength]; rfl)).2 fun k r hr => ?_
    obtain ⟨hk, rfl⟩ := linesRanges_inRange hr
    exact hgood k hk
  simp only [ownSetLines, hfirst]

theorem Selection.code_ofNumber : ∀ b : Byte, b.toNat ≤ 2 → selectionCode (Selection.ofNumber b.toNat) = b := by decide

theorem flagOf_beq : ∀ b : Byte, b.toNat ≤ 1 → flagOf (b.toNat == 1) = b := by decide

theorem gapBits_eq : ∀ b : Byte, b.toNat ≤ 15 →
    BitVec.ofNat 8 ((if b.getLsbD 0 then 1 else 0) + (if b.getLsbD 1 then 2 else 0) + (if b.getLsbD 2 then 4 else 0)
      + (if b.getLsbD 3 then 8 else 0)) = b := by decide

/-- The settings of a line, read from eleven bytes within their values, are sent as those bytes. -/
theorem lineByRule_lineAt {o : Nat} (h : ∀ k, k < 11 → u8At body (o + k) ≤ lineHigh k) :
    lineByRule (lineAt body o) = (List.range 11).map fun k => body.getD (o + k) 0 := by
  have hbyte (n : Nat) : BitVec.ofNat 8 (u8At body n) = body.getD n 0 := b8_toNat _
  have hselection (k : Nat) (hk : k < 5) : selectionCode (Selection.ofNumber (u8At body (o + k))) = body.getD (o + k) 0 :=
    Selection.code_ofNumber _ (by have := h k (by omega); unfold lineHigh at this; rwa [if_pos (by omega)] at this)
  have hflag (k : Nat) (hk : 6 ≤ k ∧ k < 9) : flagOf (u8At body (o + k) == 1) = body.getD (o + k) 0 :=
    flagOf_beq _ (by
      have := h k (by omega)
      unfold lineHigh at this
      rwa [if_neg (by omega), if_neg (by omega), if_pos (by omega)] at this)
  have hgaps := gapBits_eq (body.getD (o + 5) 0) (h 5 (by decide))
  show lineByRule (lineAt body o) = [body.getD (o + 0) 0, body.getD (o + 1) 0, body.getD (o + 2) 0, body.getD (o + 3) 0,
    body.getD (o + 4) 0, body.getD (o + 5) 0, body.getD (o + 6) 0, body.getD (o + 7) 0, body.getD (o + 8) 0, body.getD (o + 9) 0,
    body.getD (o + 10) 0]
  unfold lineByRule lineAt
  dsimp only [PerSubject.get, PerGroup.get]
  rw [hselection 0 (by decide), hselection 1 (by decide), hselection 2 (by decide), hselection 3 (by decide), hselection 4 (by decide),
    hflag 6 (by decide), hflag 7 (by decide), hflag 8 (by decide), hbyte, hbyte]
  simp only [List.cons.injEq, true_and, and_true]
  exact hgaps

theorem linesInRange.line (hgood : linesInRange body) {n : Nat} (hn : n < 4) {k : Nat} (hk : k < 11) :
    u8At body (11 * n + k) ≤ lineHigh k := by
  have h := (hgood (11 * n + k) (by omega)).2
  unfold lineHigh at h ⊢
  rwa [Nat.mul_add_mod] at h

/-- The body of a SET-LINES, byte by byte. -/
theorem eq_map_getD {n : Nat} (hlength : body.length = n) : (List.range n).map (fun k => body.getD k 0) = body := by
  refine List.ext_getElem (by simp [hlength]) fun k _ hk => ?_
  simp [List.getD_eq_getElem?_getD, List.getElem?_eq_getElem hk]

/-- The offset of a line's eleven bytes. -/
theorem linesOf_get (body : List Byte) (n : Nat) (l : LineId)
    (h : (n, l) ∈ ([(0, .alm0), (1, .alm1), (2, .alm2), (3, .alm3)] : List (Nat × LineId))) :
    n < 4 ∧ (linesOf body).get l = lineAt body (11 * n) := by
  simp only [List.mem_cons, Prod.mk.injEq, List.not_mem_nil, or_false] at h
  rcases h with ⟨rfl, rfl⟩ | ⟨rfl, rfl⟩ | ⟨rfl, rfl⟩ | ⟨rfl, rfl⟩ <;> exact ⟨by decide, rfl⟩

theorem linesOf_bytes (hlength : body.length = 44) (hgood : linesInRange body) :
    (([.alm0, .alm1, .alm2, .alm3] : List LineId).flatMap fun l => lineByRule ((linesOf body).get l)) = body := by
  have hline (n : Nat) (l : LineId) (h : (n, l) ∈ ([(0, .alm0), (1, .alm1), (2, .alm2), (3, .alm3)] : List (Nat × LineId))) :
      lineByRule ((linesOf body).get l) = (List.range 11).map fun k => body.getD (11 * n + k) 0 := by
    obtain ⟨hn, hget⟩ := linesOf_get body n l h
    rw [hget, lineByRule_lineAt fun k hk => hgood.line hn hk]
  simp only [List.flatMap_cons, List.flatMap_nil, hline 0 .alm0 (by decide), hline 1 .alm1 (by decide), hline 2 .alm2 (by decide),
    hline 3 .alm3 (by decide)]
  exact eq_map_getD hlength

theorem State.setLines_run_of_true {settings : PerLine LineSettings} {l : LineId} (h : someItemTrue (settings.get l) s.lines.seen) :
    (s.setLines settings).lines.run.get l = lineFrom (settings.get l) true s.now := by
  simp only [State.setLines, AlarmDriver.restart, PerLine.get_ofFn, (lineSource_iff _ _).2 h, LineRun.start_eq]

theorem State.setLines_run_of_false {settings : PerLine LineSettings} {l : LineId} (h : ¬someItemTrue (settings.get l) s.lines.seen) :
    (s.setLines settings).lines.run.get l = lineFrom (settings.get l) false s.now := by
  simp only [State.setLines, AlarmDriver.restart, PerLine.get_ofFn, lineSource_of_not h, LineRun.start_eq]

theorem Pin.code_eq (p : Pin) : p.code = pinCode p := by cases p <;> rfl

/-- Settles O38: the first byte outside its values is refused, a legal body replaces the settings and sets every line afresh. -/
theorem setLines : Obligations.SetLines := by
  intro s f low high hhears hsaving hlength hlow hhigh
  obtain rfl : low = lineLow := funext hlow
  obtain rfl : high = lineHigh := funext hhigh
  have hfixed : ∀ n, RequestKind.fixedLength .setLines = some n → f.body.length = n := by
    rintro n ⟨⟩
    exact hlength
  refine ⟨fun k hk hbad hgood => ?_, fun hgood => ⟨linesOf f.body, ((s.counted .setLines f).setLines (linesOf f.body)).lines.run,
    fun n l hnl => ?_, linesOf_bytes hlength hgood, fun l => ?_, fun l => ?_, ?_⟩⟩
  · exact exec_row_answers .setLines hhears rfl (ownSetLines_of_bad hlength hk hbad hgood) hfixed (fun _ => hsaving)
  · obtain ⟨hn, hget⟩ := linesOf_get f.body n l hnl
    rw [hget]
    refine lineAt_isLineAt _ _ fun k hk => ?_
    have h := linesInRange.line hgood hn hk
    unfold lineHigh at h
    rwa [Nat.mod_eq_of_lt hk] at h
  · exact State.setLines_run_of_true (s := s.counted .setLines f)
  · exact State.setLines_run_of_false (s := s.counted .setLines f)
  · refine exec_row_answers .setLines hhears rfl ((ownSetLines_of_good hlength hgood).trans ?_) hfixed (fun _ => hsaving)
    simp only [Pin.code_eq]
    rfl

end SetLines

/-! ### READ-LINES (R162, R166) -/

theorem LinePhase.code_eq (x : LinePhase) : x.code = linePhaseCode x := by cases x <;> rfl

/-- The level of a pin by its polarity (R162). -/
theorem levelCode_pinLevel (activeHigh : Bool) (p : Pin) :
    levelCode (pinLevel activeHigh p) = flagOf ((p = .active ∧ activeHigh = true) ∨ (p = .inactive ∧ activeHigh = false)) := by
  cases p <;> cases activeHigh <;> rfl

/-- Settles O39: what READ-LINES reports of each line. -/
theorem readLines : Obligations.ReadLines := by
  intro s f hhears hbody
  refine exec_row_answers .readLines hhears hbody ?_
  have hreply (t : State) (l : LineId) : t.lineReply l =
      lineByRule (t.lines.settings.get l) ++ itemsByRule (t.lines.settings.get l) t.lines.seen
        ++ [flagOf (t.lines.run.get l).source, linePhaseCode (t.lines.run.get l).phase, pinCode (t.lines.run.get l).pin,
          flagOf (((t.lines.run.get l).pin = .active ∧ (t.lines.settings.get l).activeHigh = true)
            ∨ ((t.lines.run.get l).pin = .inactive ∧ (t.lines.settings.get l).activeHigh = false))] := by
    simp only [State.lineReply, State.almLevel, lineBytes_eq, lineItems_eq, flagByte_eq, LinePhase.code_eq, Pin.code_eq, levelCode_pinLevel]
  simp only [ownerTakes, ownReadLines, funext (hreply _)]
  rfl

end Sys2Proof.Machine
end

