-- ==== Sys2Proof/Proofs/Characters.lean ====
section
/-! PROOFS. Characters up to a frame's end (chapter 9, R181 to R184, R186), and the check value (R185). -/

namespace Sys2Proof.Machine

section Characters

variable {s : State} {t last : Nat} {v : Byte} {e : Bool} {got : List Byte} {cls : AddrClass}

theorem exec_character (s : State) (t : Nat) (v : Byte) (e : Bool) : exec (.character t v e) s = .next (s.characterAt t v e) := rfl

/-! ### A character outside RECEIVE -/

theorem State.characterAt_of_deaf (h : s.link.state = .off ∨ ∃ r b, s.link.state = .send r b) : s.characterAt t v e = s.reach t := by
  rcases h with h | ⟨r, b, h⟩
  · simp only [State.characterAt, State.lapse, State.takeCharacter, State.reach_fields, h]
  · simp only [State.characterAt, State.lapse, State.takeCharacter, State.reach_fields, h]

theorem State.characterAt_of_hunt (h : s.link.state = .hunt) :
    s.characterAt t v e = if v = 0xC5 ∧ e = false then (s.reach t).linkTo (.receive [] .unknown t) else s.reach t := by
  simp only [State.characterAt, State.lapse, State.takeCharacter, State.reach_fields, h]
  rfl

/-! ### A character in RECEIVE (R182 to R184) -/

/-- The inter-byte timer ran out before the character began (R183). -/
theorem State.characterAt_of_late (h : s.link.state = .receive got cls last) (ht : last + 20000 + s.link.characterTicks < t) :
    s.characterAt t v e =
      ({ s with link := { s.link with state := .hunt, framing := countUp16 s.link.framing } } : State).characterAt t v e := by
  have hlapse : (s.reach t).lapse t = (s.reach t).framingError := by
    simp only [State.lapse, State.reach_fields, h, Link.charTicks_one, if_pos ht]
  rw [State.characterAt, hlapse]
  rfl

theorem State.characterAt_of_receive (h : s.link.state = .receive got cls last) (ht : t ≤ last + 20000 + s.link.characterTicks) :
    s.characterAt t v e =
      if e then (s.reach t).framingError
      else (s.reach t).placeCharacter t (got ++ [v]) (if got = [] then s.link.addressClass v else cls) := by
  have hlapse : (s.reach t).lapse t = s.reach t := by
    simp only [State.lapse, State.reach_fields, h, Link.charTicks_one, if_neg (Nat.not_lt.2 ht)]
  rw [State.characterAt, hlapse]
  simp only [State.takeCharacter, State.reach_fields, h, List.isEmpty_iff, Link.classOf_eq]

theorem u8At_append_left {xs ys : List Byte} {k : Nat} (h : k < xs.length) : u8At (xs ++ ys) k = u8At xs k := by
  simp [u8At, List.getD_eq_getElem?_getD, List.getElem?_append_left h]

theorem u8At_append_length (xs : List Byte) (v : Byte) : u8At (xs ++ [v]) xs.length = v.toNat := by
  simp [u8At, List.getD_eq_getElem?_getD]

/-- A length byte above 240 is a framing error (R182). -/
theorem State.placeCharacter_of_bad_length (hlength : got.length = 3) (hv : 240 < v.toNat) :
    s.placeCharacter t (got ++ [v]) cls = s.framingError := by
  refine if_pos ⟨by simp [hlength], ?_⟩
  rw [← hlength, u8At_append_length]
  exact hv

/-- A character that does not end its frame is collected (R181). -/
theorem State.placeCharacter_of_incomplete
    (h : got.length < 3 ∨ (got.length = 3 ∧ v.toNat ≤ 240) ∨ (4 ≤ got.length ∧ got.length + 1 < 6 + u8At got 3)) :
    s.placeCharacter t (got ++ [v]) cls = s.linkTo (.receive (got ++ [v]) cls t) := by
  have hlength : (got ++ [v]).length = got.length + 1 := by simp
  unfold State.placeCharacter
  rw [if_neg, if_neg]
  · rw [hlength, frameLength]
    rintro ⟨hfour, hwhole⟩
    rcases h with h | ⟨h, -⟩ | ⟨h, hshort⟩
    · omega
    · omega
    · rw [u8At_append_left (by omega)] at hwhole
      omega
  · rw [hlength]
    rintro ⟨hfour, hlong⟩
    rcases h with h | ⟨h, hv⟩ | ⟨h, -⟩
    · omega
    · rw [← h, u8At_append_length] at hlong
      omega
    · omega

/-- A character that ends its frame has it checked, unless the frame is foreign (R184, R186). -/
theorem State.placeCharacter_of_complete (hwhole : got.length + 1 = 6 + u8At got 3) :
    s.placeCharacter t (got ++ [v]) cls =
      match cls with
      | .own => s.checkFrame t false (got ++ [v])
      | .broadcast => s.checkFrame t true (got ++ [v])
      | .foreign => s.linkTo .hunt
      | .unknown => s.linkTo .hunt := by
  have hlength : (got ++ [v]).length = got.length + 1 := by simp
  unfold State.placeCharacter
  refine (if_neg ?_).trans ((if_pos ?_).trans (by cases cls <;> rfl))
  · rw [hlength]
    omega
  · rw [hlength, frameLength, u8At_append_left (by omega)]
    omega

/-- The two check bytes of a whole frame make its check value, low byte first (R185). -/
theorem check_iff {lo hi : Byte} {value : Word16} : value.toNat = lo.toNat + 256 * hi.toNat ↔ [lo, hi] = le16 value.toNat := by
  constructor
  · intro h
    rw [h, le16_of_bytes]
  · intro h
    have hvalue := value.isLt
    simp only [le16, b8, List.cons.injEq, and_true] at h
    obtain ⟨rfl, rfl⟩ := h
    simp only [BitVec.toNat_ofNat]
    omega

/-- The parts of a whole frame: what the check value covers, and the two check bytes. -/
theorem whole_frame_parts {n : Nat} (h : got.length = 5 + n) :
    ∃ lo, got.drop (4 + n) = [lo] ∧ (got ++ [v]).take (4 + n) = got.take (4 + n)
      ∧ u8At (got ++ [v]) (4 + n) = lo.toNat ∧ u8At (got ++ [v]) (5 + n) = v.toNat := by
  have hlt : 4 + n < got.length := by omega
  refine ⟨got[4 + n], ?_, List.take_append_of_le_length (by omega), ?_, ?_⟩
  · rw [List.drop_eq_getElem_cons hlt, List.drop_of_length_le (by omega)]
  · rw [u8At_append_left hlt]
    simp [u8At, List.getD_eq_getElem?_getD, List.getElem?_eq_getElem hlt]
  · rw [← h, u8At_append_length]

/-- A frame with a bad check value is dropped and counted (R186). -/
theorem State.checkFrame_of_bad {broadcast : Bool} (hwhole : got.length + 1 = 6 + u8At got 3)
    (hbad : got.drop (4 + u8At got 3) ++ [v] ≠ le16 (crc16 (got.take (4 + u8At got 3))).toNat) :
    s.checkFrame t broadcast (got ++ [v]) = { s with link := { s.link with state := .hunt, checks := countUp16 s.link.checks } } := by
  have hn : u8At (got ++ [v]) 3 = u8At got 3 := u8At_append_left (by omega)
  generalize u8At got 3 = n at hwhole hbad hn
  obtain ⟨lo, hdrop, htake, hlo, hhi⟩ := whole_frame_parts (got := got) (v := v) (n := n) (by omega)
  simp only [State.checkFrame, hn, htake, hlo, hhi]
  rw [if_neg]
  · rfl
  · rw [check_iff]
    intro heq
    rw [hdrop] at hbad
    exact hbad heq

/-- Settles O40: every character up to a frame's end. -/
theorem charactersCollect : Obligations.CharactersCollect := by
  intro s t v e
  refine ⟨fun hdeaf => ?_, fun hhunt => ?_, fun hno => ?_, fun got cls last hreceive => ⟨?_, fun hlate => ?_, fun hintime =>
    ⟨fun herror => ?_, fun he hmore => ?_, fun he hfour hwhole hforeign => ?_, fun he hfour hwhole hours hbad => ?_⟩⟩⟩
  · rw [exec_character, State.characterAt_of_deaf hdeaf]
    rfl
  · rw [exec_character, State.characterAt_of_hunt hhunt]
    split <;> rfl
  · show execInterByteTimeout s = .next s
    unfold execInterByteTimeout
    split
    next h => exact absurd h (hno _ _ _)
    all_goals rfl
  · simp only [exec, execInterByteTimeout, hreceive]
    rfl
  · rw [exec_character, exec_character, State.characterAt_of_late hreceive hlate]
  · rw [exec_character, State.characterAt_of_receive hreceive hintime]
    by_cases he : e = true
    · rw [if_pos he]
      rfl
    · obtain ⟨hlength, hv⟩ := herror.resolve_left he
      rw [if_neg he, State.placeCharacter_of_bad_length hlength hv]
      rfl
  · rw [exec_character, State.characterAt_of_receive hreceive hintime, if_neg (by simp [he]), State.placeCharacter_of_incomplete hmore]
    rfl
  · have hsome : got ≠ [] := by rintro rfl; simp at hfour
    rw [exec_character, State.characterAt_of_receive hreceive hintime, if_neg (by simp [he]), if_neg hsome,
      State.placeCharacter_of_complete hwhole, hforeign]
    rfl
  · have hsome : got ≠ [] := by rintro rfl; simp at hfour
    rw [exec_character, State.characterAt_of_receive hreceive hintime, if_neg (by simp [he]), if_neg hsome,
      State.placeCharacter_of_complete hwhole]
    rcases hours with rfl | rfl
    · exact congrArg _ (State.checkFrame_of_bad hwhole hbad)
    · exact congrArg _ (State.checkFrame_of_bad hwhole hbad)

end Characters

/-! ### The check value (R185) -/

theorem crcByte_eq (r : Word16) (b : Byte) :
    (crcByte r b).toNat = ([7, 6, 5, 4, 3, 2, 1, 0].map fun i => b.getLsbD i).foldl checkBit r.toNat := by
  have hbits (is : List Nat) (r : Word16) : (is.foldl (fun r i => crcBit r (b.getLsbD i)) r).toNat =
      (is.map fun i => b.getLsbD i).foldl checkBit r.toNat := by
    induction is generalizing r with
    | nil => rfl
    | cons i is ih => rw [List.foldl_cons, ih, crcBit_eq, List.map_cons, List.foldl_cons]
  exact hbits _ r

theorem crc16_eq (bytes : List Byte) : (crc16 bytes).toNat = checkByRule bytes := by
  have hbytes (r : Word16) : (bytes.foldl crcByte r).toNat =
      (bytes.flatMap fun b => [7, 6, 5, 4, 3, 2, 1, 0].map fun i => b.getLsbD i).foldl checkBit r.toNat := by
    induction bytes generalizing r with
    | nil => rfl
    | cons b rest ih => rw [List.foldl_cons, ih, crcByte_eq, List.flatMap_cons, List.foldl_append]
  exact hbytes _

theorem checkValue : Says.CheckValue := ⟨crc16_eq, by decide +kernel, by decide +kernel⟩

end Sys2Proof.Machine
end

