-- ==== Sys2Proof/Proofs/OwnersAndTheLink.lean ====
section
/-! PROOFS. No owner of a request reads the state of the Link Controller (chapter 9): what a dispatched frame leaves is the same in
RECEIVE and in HUNT (R187, R192, R193). -/

namespace Sys2Proof.Machine

/-! ### An entry into SEARCH (R6), and the tracker's restart (R21, R23) -/

section Search

variable (s : State)

/-- An entry into SEARCH from any state, with or without a grid (R6). -/
theorem State.enterSearch_eq (n : Nat) :
    s.enterSearch n =
      { s with
        qualifier := s.qualifierAt n
        tracker := s.tracker.searching n s.now
        front := if s.tracker.grid.isSome then s.front.stopped else s.front
        gap := if s.tracker.grid.isSome then s.gap.stopped else s.gap
        transit :=
          { s.transit with
            engine := s.transit.engine ++ if s.tracker.grid.isSome then [.gridStop] else []
            changes := s.transit.changes ++ s.searchChanges } } := by
  cases hgrid : s.tracker.grid with
  | some g =>
    rw [State.enterSearch_of_grid hgrid]
    rfl
  | none =>
    have hstop : s.stopGrid = s := by simp only [State.stopGrid, hgrid]
    unfold State.enterSearch
    rw [hstop, State.moveTo_search]
    refine (State.resetUnless_eq _ _).trans ?_
    simp only [Option.isSome_none, Bool.false_eq_true, if_false, List.append_nil, Tracker.searching, hgrid]
    rfl

/-- New sync settings restart the tracker (R21, R23). -/
theorem State.restartTracker_eq (y : SyncSettings) (c : AbortCause) :
    s.restartTracker y c =
      { s with
        sync := y
        qualifier := .reset
        tracker := s.tracker.searching 1 s.now
        front := if s.tracker.grid.isSome then s.front.stopped else s.front
        gap := if s.tracker.grid.isSome then s.gap.stopped else s.gap
        transit :=
          { s.transit with
            engine := s.transit.engine ++ .abort c :: (if s.tracker.grid.isSome then [.gridStop] else [])
            raises := s.transit.raises ++ [.sync]
            changes := s.transit.changes ++ s.searchChanges } } := by
  have hqualifier (t : State) (h : t.qualifier = .reset) (n : Nat) : t.qualifierAt n = .reset := by
    unfold State.qualifierAt
    split
    · exact h
    · rfl
  unfold State.restartTracker
  rw [State.enterSearch_eq, hqualifier _ (by rfl)]
  simp only [State.tellEngine, State.raise, List.append_assoc, List.singleton_append]
  rfl

end Search

/-! ### LOAD-DEFAULTS after the Engine's abort (R83, R217) -/

theorem State.foldl_defaultSubject_eq (s : State) :
    Subject.all.foldl State.defaultSubject s =
      { s with
        transit :=
          { s.transit with
            orders := s.transit.orders ++ ([.g0, .g1, .g2, .g3, .bus] : List Subject).map fun i => (i, .loadDefaults)
            clearings := s.transit.clearings ++ ([.g0, .g1, .g2, .g3] : List Group).map fun g => (g, .loadDefaults) } } := by
  simp [Subject.all, State.defaultSubject, State.clearingFor_eq, State.order, clearingOf, Subject.group?]

theorem State.loadDefaults_eq (s : State) :
    s.loadDefaults =
      let t := s.abortForDefaults
      { t with
        freeIndex := s.freeIndex + 1
        sync := .default
        qualifier := .reset
        tracker := t.tracker.searching 1 t.now
        front := if t.tracker.grid.isSome then t.front.stopped else t.front
        gap := if t.tracker.grid.isSome then t.gap.stopped else t.gap
        table := tableReset defaultProfiles
        lines := t.lines.restart defaultLines t.now
        notices := t.notices.replace .default
        settings := { t.settings with source := .defaults }
        transit :=
          { t.transit with
            engine := t.transit.engine ++ .abort .loadDefaults :: (if t.tracker.grid.isSome then [.gridStop] else [])
            orders := t.transit.orders ++ ([.g0, .g1, .g2, .g3, .bus] : List Subject).map fun i => (i, .loadDefaults)
            clearings := t.transit.clearings ++ ([.g0, .g1, .g2, .g3] : List Group).map fun g => (g, .loadDefaults)
            raises := t.transit.raises ++ [.sync] ++ [.profile]
            changes := t.transit.changes ++ t.searchChanges } } := by
  unfold State.loadDefaults
  dsimp only
  rw [State.restartTracker_eq, State.foldl_defaultSubject_eq]
  rfl

/-! ### Owners and the controller's state -/

/-- An owner that neither reads nor changes the state of the Link Controller. -/
def IgnoresLinkState (own : State → Answer × State) : Prop := ∀ s x, own (s.linkTo x) = ((own s).1, (own s).2.linkTo x)

section Operations

variable (s : State) (x : LinkState)

theorem State.linkTo_restartTracker (y : SyncSettings) (c : AbortCause) :
    (s.linkTo x).restartTracker y c = (s.restartTracker y c).linkTo x := by
  rw [State.restartTracker_eq, State.restartTracker_eq]
  rfl

theorem State.linkTo_stageWindow (w : Nat) : (s.linkTo x).stageWindow w = (s.stageWindow w).linkTo x := by
  unfold State.stageWindow
  by_cases hrunning : s.engine.running = true
  · rw [if_pos hrunning, if_pos (by exact hrunning)]
    rfl
  · rw [if_neg hrunning, if_neg (by exact hrunning)]
    rfl

theorem State.linkTo_activate (i : Subject) (p : Profile) : (s.linkTo x).activate i p = (s.activate i p).linkTo x := by
  rw [State.activate_eq, State.activate_eq]
  rfl

theorem State.linkTo_enableSubject (i : Subject) : (s.linkTo x).enableSubject i = (s.enableSubject i).linkTo x := by
  by_cases hstate : (s.table.get i).state = .disabled
  · rw [State.enableSubject_of_disabled hstate, State.enableSubject_of_disabled (by exact hstate)]
    rfl
  · rw [State.enableSubject_of_enabled hstate, State.enableSubject_of_enabled (by exact hstate)]

theorem State.linkTo_disableSubject (i : Subject) : (s.linkTo x).disableSubject i = (s.disableSubject i).linkTo x := by
  cases hstate : (s.table.get i).state with
  | disabled => rw [State.disableSubject_of_disabled hstate, State.disableSubject_of_disabled (by exact hstate)]
  | waiting =>
    rw [State.disableSubject_of_waiting hstate, State.disableSubject_of_waiting (by exact hstate)]
    rfl
  | measuring =>
    rw [State.disableSubject_of_measuring hstate, State.disableSubject_of_measuring (by exact hstate)]
    rfl

theorem State.linkTo_stageProfile (i : Subject) (p : Profile) :
    (s.linkTo x).stageProfile i p = ((s.stageProfile i p).1.linkTo x, (s.stageProfile i p).2) := by
  by_cases hstate : (s.table.get i).state = .measuring
  · rw [State.stageProfile_of_measuring hstate, State.stageProfile_of_measuring (by exact hstate)]
    rfl
  · rw [State.stageProfile_of_other hstate, State.stageProfile_of_other (by exact hstate), State.linkTo_activate]

theorem State.linkTo_setGapGroup (g : Group) (y : GapGroup) : (s.linkTo x).setGapGroup g y = (s.setGapGroup g y).linkTo x := by
  rw [State.setGapGroup_eq, State.setGapGroup_eq]
  rfl

theorem State.linkTo_captureSubject (i : Subject) (wanted : Bool) :
    (s.linkTo x).captureSubject i wanted = ((s.captureSubject i wanted).1, (s.captureSubject i wanted).2.linkTo x) := by
  cases hroom : s.store.room with
  | some kept =>
    rw [State.captureSubject_of_room hroom rfl, State.captureSubject_of_room (by exact hroom) rfl]
    rfl
  | none =>
    rw [State.captureSubject_of_no_room hroom, State.captureSubject_of_no_room (by exact hroom)]
    rfl

theorem State.linkTo_retainRecord (n : Nat) (flag : Bool) :
    (s.linkTo x).retainRecord n flag = ((s.retainRecord n flag).1, (s.retainRecord n flag).2.linkTo x) := by
  unfold State.retainRecord
  rw [show (s.linkTo x).store.find n = s.store.find n from rfl]
  cases s.store.find n <;> rfl

theorem State.linkTo_abortWindow : (s.linkTo x).abortWindow = s.abortWindow.linkTo x := by
  cases hrunning : s.engine.running with
  | true =>
    rw [State.abortWindow_of_running hrunning, State.abortWindow_of_running (by exact hrunning)]
    rfl
  | false => rw [State.abortWindow_of_idle hrunning, State.abortWindow_of_idle (by exact hrunning)]

theorem State.linkTo_foldl_nameOne (names : List Subject) :
    names.foldl State.nameOne (s.linkTo x) = (names.foldl State.nameOne s).linkTo x := by
  induction names generalizing s with
  | nil => rfl
  | cons i rest ih =>
    have hone : (s.linkTo x).nameOne i = (s.nameOne i).linkTo x := by
      rw [State.nameOne_eq, State.nameOne_eq]
      rfl
    rw [List.foldl_cons, List.foldl_cons, hone, ih]

theorem State.linkTo_abortForDefaults : (s.linkTo x).abortForDefaults = s.abortForDefaults.linkTo x := by
  have hengine : (s.linkTo x).defaultEngine = s.defaultEngine.linkTo x := by
    unfold State.defaultEngine
    rw [State.linkTo_abortWindow]
    rfl
  have hnamings (t : State) : (t.linkTo x).takeNamings = t.takeNamings.linkTo x :=
    State.linkTo_foldl_nameOne { t with transit := { t.transit with namings := [] } } x t.transit.namings.flatten
  unfold State.abortForDefaults
  by_cases hfirst : (s.engine.running && Config.tableTakesAbortFirst s.freeIndex) = true
  · rw [if_pos hfirst, if_pos (by exact hfirst), hengine, hnamings]
  · rw [if_neg hfirst, if_neg (by exact hfirst), hengine]

theorem State.linkTo_loadDefaults : (s.linkTo x).loadDefaults = s.loadDefaults.linkTo x := by
  rw [State.loadDefaults_eq, State.loadDefaults_eq, State.linkTo_abortForDefaults]
  rfl

end Operations

/-- No owner reads or changes the state of the Link Controller. -/
theorem ownerTakes_ignores (k : RequestKind) (body : List Byte) : IgnoresLinkState (ownerTakes k body) := by
  intro s x
  cases k with
  | setSync =>
    unfold ownerTakes ownSetSync
    dsimp only
    split
    · rfl
    · rw [State.linkTo_restartTracker]
  | setWindow =>
    unfold ownerTakes ownSetWindow
    dsimp only
    rw [State.linkTo_stageWindow]
    split <;> rfl
  | setProfile =>
    unfold ownerTakes ownSetProfile
    dsimp only
    split
    · rfl
    · rw [State.linkTo_stageProfile]
  | readProfile =>
    unfold ownerTakes ownReadProfile
    dsimp only
    split
    · rfl
    · split <;> rfl
  | enable =>
    unfold ownerTakes ownEnable
    dsimp only
    split
    · rfl
    · rw [State.linkTo_enableSubject]
      rfl
  | disable =>
    unfold ownerTakes ownDisable
    dsimp only
    split
    · rfl
    · rw [State.linkTo_disableSubject]
      rfl
  | readResult =>
    unfold ownerTakes ownReadResult
    dsimp only
    split <;> rfl
  | clearGap =>
    unfold ownerTakes ownClearGap
    dsimp only
    split
    · rfl
    · rw [State.linkTo_setGapGroup]
      rfl
  | capture =>
    unfold ownerTakes ownCapture
    dsimp only
    split
    · rfl
    · split
      · exact State.linkTo_captureSubject _ _ _ _
      · exact State.linkTo_captureSubject _ _ _ _
      · rfl
  | readRecord =>
    simp only [ownerTakes, ownReadRecord, State.linkTo_fields]
    split
    · rfl
    · split <;> rfl
  | readWave =>
    simp only [ownerTakes, ownReadWave, State.linkTo_fields]
    split
    · rfl
    · split
      · rfl
      · split
        · rfl
        · split
          · rfl
          · split <;> rfl
  | retain => exact State.linkTo_retainRecord _ _ _ _
  | release => exact State.linkTo_retainRecord _ _ _ _
  | markLast =>
    simp only [ownerTakes, ownMarkLast, State.linkTo_fields]
    split
    · rfl
    · split <;> rfl
  | purge =>
    simp only [ownerTakes, ownPurge, State.linkTo_fields]
    split <;> rfl
  | setNotices =>
    unfold ownerTakes ownSetNotices
    dsimp only
    split <;> rfl
  | fetchNotices =>
    unfold ownerTakes ownFetchNotices
    dsimp only
    split <;> rfl
  | setLines =>
    unfold ownerTakes ownSetLines
    dsimp only
    split <;> rfl
  | loadDefaults => exact congrArg (Prod.mk _) (State.linkTo_loadDefaults s x)
  | identify | readStatus | clearCounters | readSync | retainMap | markFirst | readLines | saveSettings | restart => rfl

/-! ### A dispatched frame and the controller's state (R187 to R193) -/

section Dispatch

variable (s : State) (x : LinkState)

theorem State.linkTo_countRequest (kind : Byte) : (s.linkTo x).countRequest kind = (s.countRequest kind).linkTo x := by
  unfold State.countRequest
  cases kindOf kind with
  | none => rfl
  | some k => cases hkeeps : k.keepsMarks <;> simp [hkeeps, State.linkTo]

theorem answerRequest_ignores (kind : Byte) (body : List Byte) : IgnoresLinkState (answerRequest kind body) := by
  intro s x
  unfold answerRequest
  cases kindOf kind with
  | none => rfl
  | some k =>
    dsimp only
    cases lengthRefusal k body with
    | some refusal => rfl
    | none =>
      dsimp only
      rw [ownerTakes_ignores]
      by_cases hbusy : (k.inBusySet && s.settings.saving) = true
      · rw [if_pos hbusy, if_pos (by exact hbusy)]
      · rw [if_neg hbusy, if_neg (by exact hbusy)]

/-- What a dispatched frame leaves does not depend on the state of the controller that met it. -/
theorem State.linkTo_dispatch (t : Nat) (broadcast : Bool) (tag kind : Byte) (body : List Byte) :
    (s.linkTo x).dispatch t broadcast tag kind body = s.dispatch t broadcast tag kind body := by
  unfold State.dispatch
  rw [State.linkTo_countRequest, answerRequest_ignores]
  cases broadcast with
  | false => rfl
  | true =>
    generalize answerRequest kind body (s.countRequest kind) = r
    show (r.2.linkTo x).afterBroadcast = r.2.afterBroadcast
    unfold State.afterBroadcast
    by_cases hpending : r.2.settings.restartPending = true
    · rw [if_pos hpending, if_pos (by exact hpending)]
      rfl
    · rw [if_neg hpending, if_neg (by exact hpending)]
      rfl

theorem State.linkTo_meetFrame (kind : Byte) (f : Frame) : (s.linkTo x).meetFrame kind f = s.meetFrame kind f := by
  unfold State.meetFrame
  split
  · rfl
  · exact State.linkTo_dispatch _ _ _ _ _ _ _

end Dispatch

end Sys2Proof.Machine
end

