-- ==== Sys2Proof/Proofs/WholeFrames.lean ====
section
/-! PROOFS. The end of a good frame (chapter 9, R185 to R187, R193), and whole frames that are not simply heard (R181 to R183, R195, R196,
R203, R215, R218). -/

namespace Sys2Proof.Machine

section Frames

variable {s : State} {f : Frame} {kind : Byte}

/-- A frame that begins in HUNT is met there (R215). -/
theorem State.receiveFrame_of_hunt (hstate : s.link.state = .hunt) (hbegan : s.link.huntFrom ≤ s.link.startTick f) :
    s.receiveFrame kind f = (s.reach f.time).meetFrame kind f := by
  rw [← Link.startByteTick_eq] at hbegan
  simp only [State.receiveFrame, hstate, if_pos hbegan]

theorem State.meetFrame_of_long (h : 240 < f.body.length) : s.meetFrame kind f = s.framingError := if_pos h

theorem State.meetFrame_of_short (h : f.body.length ≤ 240) : s.meetFrame kind f = s.dispatch f.time f.broadcast f.tag kind f.body :=
  if_neg (Nat.not_lt.2 h)

end Frames

/-! ### The last character of a good frame (R185 to R187) -/

section LastCharacter

variable {s : State} {t : Nat} {address tag kind hi : Byte} {body got : List Byte}

/-- A whole frame before its last check byte. -/
theorem whole_frame_eq {payload : List Byte} {lo hi' : Byte} (hgot : got ++ [hi] = payload ++ [lo, hi']) : got = payload ++ [lo] ∧ hi = hi' := by
  have h : got ++ [hi] = (payload ++ [lo]) ++ [hi'] := by simpa using hgot
  obtain ⟨h1, h2⟩ := List.append_inj' h rfl
  exact ⟨h1, List.singleton_inj.1 h2⟩

/-- The check of a whole good frame dispatches its request. -/
theorem State.checkFrame_of_good (broadcast : Bool) (hbody : body.length ≤ 240)
    (hgot : got ++ [hi] = (address :: tag :: kind :: b8 body.length :: body)
      ++ le16 (crc16 (address :: tag :: kind :: b8 body.length :: body)).toNat) :
    s.checkFrame t broadcast (got ++ [hi]) = s.dispatch t broadcast tag kind body := by
  rw [hgot]
  generalize hpayload : address :: tag :: kind :: b8 body.length :: body = payload
  have hlength : payload.length = 4 + body.length := by
    rw [← hpayload]
    simp only [List.length_cons]
    omega
  have hn : u8At (payload ++ le16 (crc16 payload).toNat) 3 = body.length := by
    rw [u8At_append_left (by omega), ← hpayload]
    exact toNat_b8 _ (by omega)
  have htake : (payload ++ le16 (crc16 payload).toNat).take (4 + body.length) = payload := by rw [← hlength, List.take_left]
  have hcheck : (crc16 payload).toNat = u8At (payload ++ le16 (crc16 payload).toNat) (4 + body.length)
      + 256 * u8At (payload ++ le16 (crc16 payload).toNat) (5 + body.length) := by
    have hvalue := (crc16 payload).isLt
    have hlo : u8At (payload ++ le16 (crc16 payload).toNat) (4 + body.length) = (crc16 payload).toNat % 256 := by
      simp [u8At, List.getD_eq_getElem?_getD, ← hlength, le16, b8]
    have hhi : u8At (payload ++ le16 (crc16 payload).toNat) (5 + body.length) = (crc16 payload).toNat / 256 % 256 := by
      have hnext : 5 + body.length = payload.length + 1 := by omega
      simp [u8At, List.getD_eq_getElem?_getD, hnext, le16, b8]
    omega
  unfold State.checkFrame
  dsimp only
  rw [hn, htake, if_pos hcheck, ← hpayload]
  rfl

/-- What the last character of a good frame leaves is what its request leaves in HUNT. -/
theorem State.characterAt_of_good {last : Nat} {cls : AddrClass} {f : Frame} (hstate : s.link.state = .receive got cls last)
    (hintime : t ≤ last + 20000 + s.link.characterTicks) (hbody : body.length ≤ 240)
    (hgot : got ++ [hi] = (address :: tag :: kind :: b8 body.length :: body)
      ++ le16 (crc16 (address :: tag :: kind :: b8 body.length :: body)).toNat)
    (hcls : cls = .own ∨ cls = .broadcast) (hf : f = { time := t, broadcast := decide (cls = .broadcast), tag := tag, body := body })
    (hbegan : s.link.huntFrom ≤ s.link.startTick f) :
    s.characterAt t hi false = (s.linkTo .hunt).receiveFrame kind f := by
  have hfbody : f.body.length ≤ 240 := by rw [hf]; exact hbody
  have hdispatch : (s.linkTo .hunt).receiveFrame kind f = (s.reach t).dispatch t (decide (cls = .broadcast)) tag kind body := by
    rw [State.receiveFrame_of_hunt (s := s.linkTo .hunt) rfl hbegan, State.meetFrame_of_short hfbody, hf]
    exact State.linkTo_dispatch (s.reach t) .hunt _ _ _ _ _
  have hwhole : 4 ≤ got.length ∧ got.length + 1 = 6 + u8At got 3 := by
    obtain ⟨hfront, -⟩ := whole_frame_eq (lo := b8 _) (hi' := b8 _) hgot
    have hn : u8At got 3 = body.length := by
      rw [hfront]
      exact toNat_b8 _ (by omega)
    rw [hn, hfront]
    simp only [List.length_append, List.length_cons, List.length_nil]
    omega
  obtain ⟨hfour, hwhole⟩ := hwhole
  have hsome : got ≠ [] := by rintro rfl; simp at hfour
  rw [hdispatch, State.characterAt_of_receive hstate hintime, if_neg Bool.false_ne_true, if_neg hsome,
    State.placeCharacter_of_complete hwhole]
  rcases hcls with rfl | rfl
  · exact State.checkFrame_of_good false hbody hgot
  · exact State.checkFrame_of_good true hbody hgot

theorem lastCharacter : Says.LastCharacter := by
  intro s t last address tag kind hi body got cls f hstate hintime hbody hgot hcls hf hbegan
  have hgood := State.characterAt_of_good hstate hintime hbody hgot hcls hf hbegan
  refine ⟨?_, fun _ => ?_⟩
  · rintro k rfl
    rw [exec_character, exec_row, hgood]
    rfl
  · rw [exec_character, hgood]
    rfl

/-- Settles O41: the last character of a good frame carries out its request, and the check value is R185's. -/
theorem charactersDispatchTheFrame : Obligations.CharactersDispatchTheFrame := ⟨lastCharacter, checkValue⟩

end LastCharacter

/-! ### The characters of a whole frame (11.1, R179) -/

section Characters

variable (k : Link) (kind : Byte) (f : Frame)

theorem frameBytes_eq (address tag kind : Byte) (body : List Byte) :
    frameBytes address tag kind body =
      0xC5 :: ([address, tag, kind, b8 body.length] ++ body) ++ bytesOf 2 (checkByRule ([address, tag, kind, b8 body.length] ++ body)) := by
  rw [← crc16_eq, ← le16_eq]
  rfl

theorem setWidth_address (a : BitVec 4) : a.setWidth 8 = BitVec.ofNat 8 a.toNat := (BitVec.ofNat_toNat 8 a).symm

theorem Link.frameCharacters_eq : k.frameCharacters kind f = k.charactersOf kind f := by
  unfold Link.frameCharacters Link.charactersOf
  rw [Link.timed_eq k f.time _ 0, frameBytes_eq, setWidth_address]
  rfl

/-- The characters that end after a tick, taken one by one (R181). -/
theorem State.takeRest_eq (s : State) (first : Nat) :
    takesCharacters ((s.link.charactersOf kind f).filter fun c => decide (first ≤ c.1)) s = .next (s.takeRest kind f first) := by
  rw [takesCharacters_eq, ← Link.frameCharacters_eq]
  rfl

end Characters

/-! ### Frames outside HUNT (R181 to R183, R195, R196, R203, R215, R218) -/

section Outside

variable {s : State} {f : Frame} {kind : Byte}

/-- A row of a whole frame, of a defined or an undefined kind, is the reception of the frame. -/
theorem exec_frameRow {row : Instr} (h : (∃ k : RequestKind, row = k.row f ∧ kind = k.code) ∨ row = .undefinedKind kind f) (s : State) :
    exec row s = .next (s.receiveFrame kind f) := by
  rcases h with ⟨k, rfl, rfl⟩ | rfl
  · exact exec_row k f s
  · rfl

theorem State.receiveFrame_of_deaf (h : s.link.state = .off ∨ ∃ r b, s.link.state = .send r b) :
    s.receiveFrame kind f = s.reach f.time := by
  rcases h with h | ⟨r, b, h⟩
  · simp only [State.receiveFrame, h]
  · simp only [State.receiveFrame, h]

theorem State.receiveFrame_of_begun_before (hstate : s.link.state = .hunt) (h : s.link.startTick f < s.link.huntFrom) :
    s.receiveFrame kind f = s.takeRest kind f s.link.huntFrom := by
  rw [← Link.startByteTick_eq] at h
  simp only [State.receiveFrame, hstate, if_neg (Nat.not_le.2 h)]

theorem State.receiveFrame_of_collected {got : List Byte} {cls : AddrClass} {last : Nat} (hstate : s.link.state = .receive got cls last)
    (hbegan : s.link.huntFrom ≤ s.link.startTick f) (hlast : s.link.startTick f ≤ last) :
    s.receiveFrame kind f = (s.reach f.time).meetFrame kind f := by
  rw [← Link.startByteTick_eq] at hbegan hlast
  simp only [State.receiveFrame, hstate, if_pos (And.intro hbegan hlast)]

theorem State.receiveFrame_of_later {got : List Byte} {cls : AddrClass} {last : Nat} (hstate : s.link.state = .receive got cls last)
    (h : s.link.startTick f < s.link.huntFrom ∨ last < s.link.startTick f) : s.receiveFrame kind f = s.takeRest kind f (last + 1) := by
  rw [← Link.startByteTick_eq] at h
  have hnot : ¬(s.link.huntFrom ≤ s.link.startByteTick f ∧ s.link.startByteTick f ≤ last) := by omega
  simp only [State.receiveFrame, hstate, if_neg hnot]

theorem State.receiveFrame_of_held {reply : List Byte} {start : Nat} (hstate : s.link.state = .turnaround reply start)
    (h : s.link.startTick f < s.link.huntFrom ∨ s.link.startTick f < start) : s.receiveFrame kind f = s.takeRest kind f (start + 1) := by
  rw [← Link.startByteTick_eq] at h
  have hnot : ¬(s.link.huntFrom ≤ s.link.startByteTick f ∧ start ≤ s.link.startByteTick f) := by omega
  simp only [State.receiveFrame, hstate, if_neg hnot]

/-- A frame that begins in TURNAROUND cancels the held reply (R195), or begins the reset of a RESTART (R218). -/
theorem State.receiveFrame_of_cancel {reply : List Byte} {start : Nat} (hstate : s.link.state = .turnaround reply start)
    (hbegan : s.link.huntFrom ≤ s.link.startTick f) (hlater : start ≤ s.link.startTick f) :
    s.receiveFrame kind f =
      if s.settings.restartPending then (s.reach (s.link.startTick f)).cancelReply .hunt
      else ((s.reach f.time).cancelReply .hunt).meetFrame kind f := by
  rw [← Link.startByteTick_eq] at hbegan hlater ⊢
  simp only [State.receiveFrame, hstate, if_pos (And.intro hbegan hlater)]

theorem State.cancelReply_of_quiet {next : LinkState} (h : s.settings.restartPending = false) :
    s.cancelReply next = { s with link := { s.link with state := next, cancels := countUp16 s.link.cancels } } := by
  unfold State.cancelReply
  exact if_neg (by simp [h])

/-- The reset of a RESTART begins at a tick, whatever the Link Controller was in (R218). -/
theorem State.cancelReply_isReset {next : LinkState} (h : s.settings.restartPending = true) (t : Nat) :
    isReset s .request (max s.now t) ((s.reach t).cancelReply next) := by
  have hcancel : (s.reach t).cancelReply next =
      ({ s.reach t with link := { s.link with state := next, cancels := satInc16 s.link.cancels } } : State).beginReset .request := if_pos h
  rw [hcancel]
  exact State.beginReset_isReset { s.reach t with link := { s.link with state := next, cancels := satInc16 s.link.cancels } } .request

theorem State.characterAt_of_turnaround {reply : List Byte} {start t : Nat} {v : Byte} {e : Bool}
    (h : s.link.state = .turnaround reply start) :
    s.characterAt t v e =
      if v = 0xC5 ∧ e = false then (s.reach t).cancelReply (.receive [] .unknown t) else s.reach t := by
  simp only [State.characterAt, State.lapse, State.takeCharacter, State.reach_fields, h]
  rfl

/-- Settles O42: whole frames in every state but the HUNT that hears them, and start bytes in TURNAROUND. -/
theorem framesOutsideHunt : Obligations.FramesOutsideHunt := by
  intro s row kind f hrow
  have hreceives := exec_frameRow hrow
  refine ⟨fun hdeaf => ?_, fun hhunt => ⟨fun hbefore => ?_, fun hbegan hlong => ?_⟩,
    fun got cls last hreceive => ⟨fun hbegan hlast => ?_, fun hlater => ?_⟩, fun reply start hheld =>
      ⟨fun hbefore => ?_, fun hbegan hlater => ⟨fun hquiet => ?_, fun hpending => ?_⟩, fun t v e hother => ?_, fun t hquiet => ?_,
        fun t hpending => ?_⟩⟩
  · rw [hreceives, State.receiveFrame_of_deaf hdeaf]
    rfl
  · rw [hreceives, State.receiveFrame_of_begun_before hhunt hbefore, State.takeRest_eq]
  · rw [hreceives, State.receiveFrame_of_hunt hhunt hbegan, State.meetFrame_of_long hlong]
    simp only [State.framingError, State.reach, ← hhunt, satInc16_eq]
  · rw [hreceives, hreceives, State.receiveFrame_of_collected hreceive hbegan hlast, ← State.linkTo_meetFrame _ .hunt]
    exact congrArg _ (State.receiveFrame_of_hunt (s := s.linkTo .hunt) rfl hbegan).symm
  · rw [hreceives, State.receiveFrame_of_later hreceive hlater, ← State.takeRest_eq]
    rfl
  · rw [hreceives, State.receiveFrame_of_held hheld hbefore, ← State.takeRest_eq]
    rfl
  · rw [hreceives, hreceives, State.receiveFrame_of_cancel hheld hbegan hlater, if_neg (by simp [hquiet]),
      State.cancelReply_of_quiet (by exact hquiet)]
    exact congrArg _ (State.receiveFrame_of_hunt
      (s := { s with link := { s.link with state := .hunt, cancels := countUp16 s.link.cancels } }) rfl hbegan).symm
  · rw [hreceives, State.receiveFrame_of_cancel hheld hbegan hlater, if_pos hpending]
    exact ⟨_, rfl, State.cancelReply_isReset hpending _⟩
  · have hnot : ¬(v = 0xC5 ∧ e = false) := by rintro ⟨rfl, rfl⟩; simp at hother
    rw [exec_character, State.characterAt_of_turnaround hheld, if_neg hnot]
    rfl
  · rw [exec_character, State.characterAt_of_turnaround hheld, if_pos ⟨rfl, rfl⟩, State.cancelReply_of_quiet (by exact hquiet)]
    rfl
  · rw [exec_character, State.characterAt_of_turnaround hheld, if_pos ⟨rfl, rfl⟩]
    exact ⟨_, rfl, State.cancelReply_isReset hpending t⟩

end Outside

end Sys2Proof.Machine
end

