-- ==== Sys2Proof/Proofs/Replies.lean ====
section
/-! PROOFS. Replies: when they begin and end (R194, R196, R218), their frame (R197, R198), and the levels they drive (R179, R196, R227). -/

namespace Sys2Proof.Machine

section Replies

variable {s : State} {reply : List Byte} {start : Nat}

/-! ### REPLY_BEGIN and REPLY_END -/

theorem exec_replyBegin_of_turnaround (h : s.link.state = .turnaround reply start) (time : Nat) :
    exec (.replyBegin time) s =
      if start + 5000 ≤ time ∧ time ≤ start + 50000 then .next ((s.reach time).linkTo (.send reply time)) else .next s := by
  simp only [exec, execReplyBegin, h]

theorem exec_replyEnd_of_send (h : s.link.state = .send reply start) :
    exec .replyEnd s =
      if s.settings.restartPending then .next ((s.reach (start + s.link.charTicks reply.length)).beginReset .request)
      else .next ((s.reach (start + s.link.charTicks reply.length)).huntAt (start + s.link.charTicks reply.length)) := by
  simp only [exec, execReplyEnd, h]
  rfl

theorem replyBeginAndEnd : Says.ReplyBeginAndEnd := by
  intro s time
  refine ⟨fun hno => ?_, fun hno => ?_, fun reply start hheld => ⟨fun hearly => ?_, fun hfrom hto => ?_⟩,
    fun reply start ticks baud hsend hbaud hmore hless => ?_⟩
  · show execReplyBegin time s = .next s
    unfold execReplyBegin
    split
    next h => exact absurd h (hno _ _)
    all_goals rfl
  · show execReplyEnd s = .next s
    unfold execReplyEnd
    split
    next h => exact absurd h (hno _ _)
    all_goals rfl
  · rw [exec_replyBegin_of_turnaround hheld, if_neg (by omega)]
  · rw [exec_replyBegin_of_turnaround hheld, if_pos ⟨hfrom, hto⟩]
    rfl
  · have hticks := s.link.charTicks_eq reply.length ticks baud hbaud hmore hless
    rw [exec_replyEnd_of_send hsend, hticks]
    refine ⟨fun hquiet => ?_, fun hpending => ?_⟩
    · rw [hquiet]
      rfl
    · rw [if_pos hpending]
      exact ⟨_, rfl, State.beginReset_isReset (s.reach (start + ticks)) .request⟩

/-! ### The reply frame -/

/-- The refusal codes have the numbers of R198. -/
theorem RefusalCode.code_of_mem : ∀ x ∈ ([(.unknown, 1), (.length, 2), (.argument, 3), (.state, 4), (.busy, 5), (.sequence, 6), (.notfound, 7),
    (.range, 8)] : List (RefusalCode × Nat)), x.1.code = BitVec.ofNat 8 x.2 := by decide

theorem replyFrame : Says.ReplyFrame := by
  rintro address tag kind answer replyKind body payload rfl hanswer
  rcases hanswer with ⟨rfl, rfl⟩ | ⟨code, detail, n, rfl, rfl, rfl, hcode⟩
  · rw [replyBytes, frameBytes_eq, setWidth_address]
    rfl
  · rw [replyBytes, frameBytes_eq, setWidth_address, RefusalCode.code_of_mem _ hcode]
    rfl

/-! ### The line -/

theorem State.txd_of_character {v : Byte} (h : s.link.state = .send reply start)
    (hv : reply[(s.now - start) * s.link.baud / 10000000 / 10]? = some v) :
    s.txd = charBit v ((s.now - start) * s.link.baud / 10000000 % 10) := by
  simp only [State.txd, h, hv]

theorem State.txd_of_end (h : s.link.state = .send reply start) (hnone : reply[(s.now - start) * s.link.baud / 10000000 / 10]? = none) :
    s.txd = true := by
  simp only [State.txd, h, hnone]

theorem charBit_eq (v : Byte) {bit : Nat} (h : bit < 10) :
    charBit v bit = if bit = 0 then false else if bit = 9 then true else v.getLsbD (bit - 1) := by
  unfold charBit
  by_cases hstop : bit = 9
  · rw [hstop]
    rfl
  · rw [if_neg hstop, if_pos (by omega : bit ≤ 8)]

theorem lineLevels : Says.LineLevels := by
  rintro s baud rfl
  refine ⟨fun hno => ?_, fun reply start hsend => ⟨?_, fun k bit v hv hbit hfrom hto => ?_, fun hafter => ?_⟩⟩
  · unfold State.de State.txd
    cases h : s.link.state with
    | send r b => exact absurd h (hno r b)
    | off | hunt | receive _ _ _ | turnaround _ _ => exact ⟨rfl, rfl⟩
  · simp only [State.de, hsend]
  · have hk : (s.now - start) * s.link.baud / 10000000 = 10 * k + bit := Nat.div_eq_of_lt_le hfrom hto
    have hcharacter : (10 * k + bit) / 10 = k := by omega
    have hplace : (10 * k + bit) % 10 = bit := by omega
    rw [State.txd_of_character hsend (by rw [hk, hcharacter, hv]), hk, hplace]
    exact charBit_eq v hbit
  · have hend : reply.length ≤ (s.now - start) * s.link.baud / 10000000 / 10 := by
      rw [Nat.div_div_eq_div_mul, Nat.le_div_iff_mul_le (by decide)]
      exact hafter
    exact State.txd_of_end hsend (List.getElem?_eq_none hend)

/-- Settles O43: when replies begin and end, their frame, and the levels they drive. -/
theorem replyBeginsAndEnds : Obligations.ReplyBeginsAndEnds := ⟨replyBeginAndEnd, replyFrame, lineLevels⟩

end Replies

end Sys2Proof.Machine
end

