-- ==== Sys2Proof/Proofs/Reports.lean ====
section
/-! PROOFS. The requests that report the block as a whole: IDENTIFY (R220), READ-STATUS (R107, R200, R225), CLEAR-COUNTERS (R202) and
READ-SYNC (R14, R22), with the encodings of fields (R222). -/

namespace Sys2Proof.Machine

/-! ### The codes of the enumerations (R222) -/

theorem Source.code_eq (x : Source) : Source.code x = sourceCode x := by cases x <;> rfl

theorem Polarity.code_eq (x : Polarity) : Polarity.code x = polarityCode x := by cases x <;> rfl

theorem TrackerState.code_eq (x : TrackerState) : TrackerState.code x = trackerCode x := by cases x <;> rfl

theorem SubjectState.code_eq (x : SubjectState) : SubjectState.code x = subjectStateCode x := by cases x <;> rfl

theorem Condition.code_eq (x : Condition) : Condition.code x = conditionCode x := by cases x <;> rfl

theorem LastOutcome.code_eq (x : LastOutcome) : LastOutcome.code x = outcomeCode x := by cases x <;> rfl

theorem View.code_eq (x : View) : View.code x = viewCode x := by cases x <;> rfl

theorem Quantity.code_eq (x : Quantity) : Quantity.code x = quantityCode x := by cases x <;> rfl

theorem RecordKind.code_eq (x : RecordKind) : RecordKind.code x = recordKindCode x := by cases x <;> rfl

theorem Cause.code_eq (x : Cause) : Cause.code x = causeCode x := by cases x <;> rfl

theorem SettingsSource.code_eq (x : SettingsSource) : SettingsSource.code x = settingsSourceCode x := by cases x <;> rfl

theorem SaveResult.code_eq (x : SaveResult) : SaveResult.code x = saveCode x := by cases x <;> rfl

theorem fieldEncodings : Says.FieldEncodings :=
  ⟨fun n => ⟨b8_eq n, le16_eq n, le32_eq n⟩, fun x => ⟨codeBytes_eq x, meanBytes_eq x⟩, flagByte_eq, sectorByte_eq, rfl, rfl,
    Channel.number_eq, rfl, Source.code_eq, Polarity.code_eq, TrackerState.code_eq, SubjectState.code_eq, Condition.code_eq,
    LastOutcome.code_eq, View.code_eq, Quantity.code_eq, RecordKind.code_eq, Selection.code_eq, syncBytes_eq⟩

/-! ### The parts of the reports -/

section Parts

variable (s : State)

theorem Tracker.frequency_eq (k : Tracker) : k.frequency = match k.grid with | some g => 10000000000 / g.period | none => 0 := by
  unfold Tracker.frequency
  cases k.grid <;> rfl

theorem Engine.pendingByte_eq (e : Engine) : e.pendingByte = match e.pendingW with | some w => b8 w | none => 0 := by
  unfold Engine.pendingByte
  cases e.pendingW <;> rfl

theorem CaptureStore.retainedCount_eq (st : CaptureStore) : st.retainedCount = st.entries.countP fun e => e.retained :=
  List.countP_eq_length_filter.symm

/-- A subject's flags: gap-any, which BUS has not, and pending profile (R225). -/
theorem State.subjectFlags_eq (i : Subject) :
    s.subjectFlags i =
      b8 ((if (match i with
            | .g0 => anyLatchSet (s.gap.groups.get .g0)
            | .g1 => anyLatchSet (s.gap.groups.get .g1)
            | .g2 => anyLatchSet (s.gap.groups.get .g2)
            | .g3 => anyLatchSet (s.gap.groups.get .g3)
            | .bus => false) then 1 else 0)
        + (if (s.table.get i).pendingProfile.isSome then 2 else 0)) := by
  refine congrArg (fun gapAny : Bool => b8 ((if gapAny then 1 else 0) + (if (s.table.get i).pendingProfile.isSome then 2 else 0))) ?_
  cases i with
  | bus => rfl
  | g0 | g1 | g2 | g3 => exact GapGroup.gapAny_eq _

theorem State.subjectStatus_eq (i : Subject) :
    s.subjectStatus i =
      [subjectStateCode (s.table.get i).state, conditionCode (s.verdicts.get i).condition, b8 (s.verdicts.get i).counter,
        s.subjectFlags i] := by
  rw [State.subjectStatus, SubjectState.code_eq, Condition.code_eq]

end Parts

/-! ### The requests -/

section Requests

variable {s : State} {f : Frame}

theorem identify : Says.Identify := by
  intro s f hhears hbody
  rw [← Cause.code_eq, ← SettingsSource.code_eq, ← flagByte_eq, ← le32_eq]
  exact exec_row_answers .identify hhears hbody rfl

theorem readStatus : Says.ReadStatus := by
  intro s f hhears hbody
  refine (exec_row_answers .readStatus hhears hbody rfl).trans ?_
  refine congrArg (fun bytes => Host.Outcome.next ((s.counted .readStatus f).answered .readStatus f (.accept bytes))) ?_
  have hsubjects := funext (s.counted .readStatus f).subjectStatus_eq
  rw [State.statusBytes, hsubjects, TrackerState.code_eq, Source.code_eq, Tracker.frequency_eq, Engine.pendingByte_eq,
    CaptureStore.retainedCount_eq, SaveResult.code_eq, flagByte_eq, flagByte_eq, flagByte_eq, flagByte_eq]
  simp only [State.subjectFlags_eq, Tracker.counterBytes, Link.counterBytes, List.append_assoc]
  rfl

theorem clearCounters : Says.ClearCounters := fun _ _ hhears hbody => exec_row_answers .clearCounters hhears hbody rfl

/-- Settles O45: the requests that report the block as a whole, and the encodings of fields. -/
theorem identifyStatusAndCounters : Obligations.IdentifyStatusAndCounters := ⟨identify, readStatus, clearCounters, fieldEncodings⟩

/-- Settles O46: what READ-SYNC reports. -/
theorem readSync : Obligations.ReadSync := by
  intro s f period next frequency searchTime hhears hbody hgrid hsearch
  have hperiods : s.tracker.period = period ∧ s.tracker.nextPeriod = next ∧ s.tracker.frequency = frequency := by
    unfold Tracker.period Tracker.nextPeriod Tracker.frequency
    cases h : s.tracker.grid with
    | some g =>
      rw [h] at hgrid
      obtain ⟨rfl, rfl, rfl⟩ := hgrid
      exact ⟨rfl, rfl, rfl⟩
    | none =>
      rw [h] at hgrid
      obtain ⟨rfl, rfl, rfl⟩ := hgrid
      exact ⟨rfl, rfl, rfl⟩
  have htime : (s.counted .readSync f).searchTime = searchTime := by
    unfold State.searchTime
    have hstart : (s.counted .readSync f).tracker.searchStart = s.tracker.searchStart := rfl
    rw [hstart]
    cases h : s.tracker.searchStart with
    | some start =>
      rw [h] at hsearch
      exact hsearch.symm
    | none =>
      rw [h] at hsearch
      exact hsearch.symm
  obtain ⟨rfl, rfl, rfl⟩ := hperiods
  rw [← htime, ← TrackerState.code_eq, ← Source.code_eq, ← syncBytes_eq]
  exact exec_row_answers .readSync hhears hbody rfl

end Requests

end Sys2Proof.Machine
end

