-- ==== Sys2Proof/Proofs/SetSync.lean ====
section
/-! PROOFS. SET-SYNC (R6, R21, R189), and a save from its acceptance to its completion (R52, R87, R207 to R209). -/

namespace Sys2Proof.Machine

/-! ### SET-SYNC -/

section SetSync

variable {s : State} {f : Frame}

theorem State.searchChanges_eq (s : State) :
    s.searchChanges = if s.tracker.state = .locked ∨ s.tracker.state = .holdover then [.syncAbsent true] else [] := by
  unfold State.searchChanges
  cases s.tracker.state <;> rfl

/-- A body that the walk refuses (R189). -/
theorem exec_setSync_of_error (h : s.hears f) (hsaving : s.settings.saving = false) {e : RefusalCode × Nat}
    (herror : walkSync f.body = .error e) :
    exec (.setSync f) s = .next ((s.counted .setSync f).answered .setSync f (.refuse e.1 e.2)) := by
  refine exec_row_answers .setSync h rfl ?_ (hbusy := fun _ => hsaving)
  simp only [ownerTakes, ownSetSync, herror]

/-- Accepted settings restart the tracker (R21). -/
theorem exec_setSync_of_ok (h : s.hears f) (hsaving : s.settings.saving = false) {y : SyncSettings} (hok : walkSync f.body = .ok y) :
    exec (.setSync f) s = .next (((s.counted .setSync f).restartTracker y .setSync).answered .setSync f (.accept [])) := by
  refine exec_row_answers .setSync h rfl ?_ (hbusy := fun _ => hsaving) (haddress := ?_) (hpending := ?_)
  · simp only [ownerTakes, ownSetSync, hok]
  · rw [State.restartTracker_eq]
    rfl
  · rw [State.restartTracker_eq]
    rfl

theorem setSyncCarriedOut : Says.SetSyncCarriedOut := by
  intro s f hhears hsaving
  refine ⟨fun code detail herror => exec_setSync_of_error hhears hsaving herror, fun y hok => ?_⟩
  rw [exec_setSync_of_ok hhears hsaving hok, State.restartTracker_eq, State.searchChanges_eq]
  rfl

theorem setSyncRefused : Says.SetSyncRefused := by
  intro s f hhears hsaving
  refine ⟨fun x hfirst => ?_, fun hpass hsurplus => ?_⟩
  · rw [BodyField.refusal_eq]
    exact exec_setSync_of_error hhears hsaving ((walkSync_checks f.body).fails x hfirst)
  · exact exec_setSync_of_error hhears hsaving (((walkSync_checks f.body).goes_on hpass).trans (endAt_of_lt hsurplus))

/-- Settles O47: what SET-SYNC is refused with, and what an accepted one does. -/
theorem setSync : Obligations.SetSync := ⟨setSyncCarriedOut, setSyncRefused⟩

end SetSync

/-! ### A save -/

section Save

variable {s : State}

theorem saveSettings : Says.SaveSettings := by
  intro s f hhears hbody hsaving
  exact ⟨(s.counted .saveSettings f).savedSettings, rfl, rfl, rfl, rfl, fun i => PerSubject.get_ofFn _ i,
    exec_row_answers .saveSettings hhears hbody rfl (hbusy := fun _ => hsaving)⟩

theorem checksAgree_iff {contents : WorkingSettings} {check snapshot : Word16} :
    checksAgree contents check snapshot = true ↔ crc16 (Config.imageBytes contents) = snapshot ∧ check = snapshot := by
  simp [checksAgree, settingsCheck]

/-- The image as a save leaves it (R209). -/
theorem Snapshot.verified_eq {x : Snapshot} {contents : WorkingSettings} {check : Word16} {ok : Bool}
    (h : ok = true ↔ crc16 (Config.imageBytes contents) = x.check ∧ check = x.check) :
    x.verified contents check =
      if ok then { contents := x.contents, check := x.check, mark := true } else { contents := contents, check := check, mark := false } := by
  have hagree : checksAgree contents check x.check = ok := by rw [Bool.eq_iff_iff, checksAgree_iff, h]
  rw [Snapshot.verified, hagree]
  rfl

theorem exec_saveCompletion {x : Snapshot} (h : s.settings.snapshot = some x) (time : Nat) (contents : WorkingSettings) (check : Word16) :
    exec (.saveCompletion time contents check) s =
      if x.accepted ≤ time ∧ time ≤ x.accepted + 1500000 then
        .next (({ s.reach time with settings := s.settings.complete (x.verified contents check) } : State).raise .save)
      else .next s := by
  simp only [exec, execSaveCompletion, h]
  rfl

theorem saveCompletion : Says.SaveCompletion := by
  intro s time contents check
  refine ⟨fun hnone => ?_, fun x hx => ⟨fun hout => ?_, fun ok hfrom hto hok => ?_⟩⟩
  · simp only [exec, execSaveCompletion, hnone]
  · rw [exec_saveCompletion hx, if_neg (by omega)]
  · rw [exec_saveCompletion hx, if_pos ⟨hfrom, hto⟩, Snapshot.verified_eq hok]
    cases ok <;> rfl

/-- Settles O48: a save from its acceptance to its completion. -/
theorem saveSettingsAndCompletion : Obligations.SaveSettingsAndCompletion := ⟨saveSettings, saveCompletion⟩

end Save

end Sys2Proof.Machine
end

