-- ==== Sys2Proof/Proofs/Defaults.lean ====
section
/-! PROOFS. LOAD-DEFAULTS (R52, R82, R83, R167, R178, R217). -/

namespace Sys2Proof.Machine

/-! ### The abort of the running window -/

section Abort

variable {s : State}

/-- LOAD-DEFAULTS at an Engine that runs no window (R52). -/
theorem State.defaultEngine_of_idle (h : s.engine.running = false) :
    s.defaultEngine = { s with engine := { s.engine with w := 4, pendingW := none } } := by
  rw [State.defaultEngine, State.abortWindow_of_idle h]
  rfl

/-- LOAD-DEFAULTS at an Engine that runs a window (R45, R52). -/
theorem State.defaultEngine_of_running (h : s.engine.running = true) :
    s.defaultEngine =
      { s with
        engine := s.engine.idleWith 4 s.engine.windowNumber false
        transit :=
          { s.transit with
            raises := s.transit.raises ++ s.engine.profileNotice
            namings := s.transit.namings ++ s.engine.namingOf
            aborts := s.transit.aborts ++ s.engine.participants.map (·.subject) } } := by
  rw [State.defaultEngine, State.abortWindow_of_running h]
  rfl

theorem State.defaultEngine_engine (s : State) :
    s.defaultEngine.engine =
      if s.engine.running then s.engine.idleWith 4 s.engine.windowNumber false else { s.engine with w := 4, pendingW := none } := by
  cases h : s.engine.running with
  | true => rw [State.defaultEngine_of_running h, if_pos rfl]
  | false => rw [State.defaultEngine_of_idle h, if_neg Bool.false_ne_true]

theorem Engine.namingOf_flatten (e : Engine) : e.namingOf.flatten = e.participants.map (·.subject) := by
  unfold Engine.namingOf
  cases e.participants <;> simp

/-- The Subject Table takes the naming of the abort before LOAD-DEFAULTS itself (R71, R78, R80). -/
theorem State.takeNamings_transit (hnodup : s.transit.namings.flatten.Nodup) :
    s.takeNamings.transit =
      ({ s.transit with namings := [] } : Transit).withActivations (s.transit.namings.flatten.filter fun i => (s.table.get i).activates) := by
  rw [State.takeNamings, State.foldl_nameOne_eq _ hnodup]

theorem State.abortForDefaults_of_first (h : (s.engine.running && Config.tableTakesAbortFirst s.freeIndex) = true) :
    s.abortForDefaults = s.defaultEngine.takeNamings := if_pos h

theorem State.abortForDefaults_of_not_first (h : ¬(s.engine.running && Config.tableTakesAbortFirst s.freeIndex) = true) :
    s.abortForDefaults = s.defaultEngine := if_neg h

theorem State.abortForDefaults_engine (s : State) :
    s.abortForDefaults.engine =
      if s.engine.running then s.engine.idleWith 4 s.engine.windowNumber false else { s.engine with w := 4, pendingW := none } := by
  rw [← State.defaultEngine_engine]
  by_cases h : (s.engine.running && Config.tableTakesAbortFirst s.freeIndex) = true
  · rw [State.abortForDefaults_of_first h]
    simp only [State.takeNamings_keeps]
  · rw [State.abortForDefaults_of_not_first h]

end Abort

/-! ### What the other blocks do, and what they hand on -/

/-- What LOAD-DEFAULTS itself hands on, after what the abort handed on. -/
def State.handsOnAfter (s : State) (x : Transit) : Transit :=
  { x with
    engine := x.engine ++ .abort .loadDefaults :: (if s.tracker.grid.isSome then [.gridStop] else [])
    orders := x.orders ++ ([.g0, .g1, .g2, .g3, .bus] : List Subject).map fun i => (i, .loadDefaults)
    clearings := x.clearings ++ ([.g0, .g1, .g2, .g3] : List Group).map fun g => (g, .loadDefaults)
    raises := x.raises ++ [.sync] ++ [.profile]
    changes := x.changes ++ s.searchChanges }

/-- An accepted LOAD-DEFAULTS (R217). -/
theorem State.loadDefaults_parts (s : State) :
    s.loadDefaults =
      { s with
        freeIndex := s.freeIndex + 1
        sync := .default
        qualifier := .reset
        tracker := s.tracker.searching 1 s.now
        front := if s.tracker.grid.isSome then s.front.stopped else s.front
        gap := if s.tracker.grid.isSome then s.gap.stopped else s.gap
        engine :=
          if s.engine.running then s.engine.idleWith 4 s.engine.windowNumber false else { s.engine with w := 4, pendingW := none }
        table := tableReset defaultProfiles
        lines := s.lines.restart defaultLines s.now
        notices := s.notices.replace .default
        settings := { s.settings with source := .defaults }
        transit := s.handsOnAfter s.abortForDefaults.transit } := by
  rw [State.loadDefaults_eq]
  simp only [State.abortForDefaults_keeps, State.abortForDefaults_engine, State.handsOnAfter, State.searchChanges]

section HandsOn

variable {s : State} {activated : List Subject}

theorem State.handsOnDefaults_of_idle (h : s.engine.running = false) :
    s.handsOnAfter s.abortForDefaults.transit = s.handsOnDefaults false activated := by
  rw [State.abortForDefaults_of_not_first (by simp [h]), State.defaultEngine_of_idle h]
  simp [State.handsOnAfter, State.handsOnDefaults, State.searchChanges_eq, h]

/-- The naming of the abort stays in flight. -/
theorem State.handsOnDefaults_of_not_first (h : s.engine.running = true) (hlast : ¬Config.tableTakesAbortFirst s.freeIndex = true) :
    s.handsOnAfter s.abortForDefaults.transit = s.handsOnDefaults false activated := by
  rw [State.abortForDefaults_of_not_first (by simp [hlast]), State.defaultEngine_of_running h]
  simp [State.handsOnAfter, State.handsOnDefaults, State.searchChanges_eq, h]

/-- The table takes the naming of the abort first, which activates the pending profiles of MEASURING participants. -/
theorem State.handsOnDefaults_of_first (h : s.engine.running = true) (hfirst : Config.tableTakesAbortFirst s.freeIndex = true)
    (hnamings : s.transit.namings = []) (hnodup : (s.engine.participants.map (·.subject)).Nodup)
    (hactivated : activated = (s.engine.participants.map (·.subject)).filter fun i => (s.table.get i).activates) :
    s.handsOnAfter s.abortForDefaults.transit = s.handsOnDefaults true activated := by
  have hflatten : s.defaultEngine.transit.namings.flatten = s.engine.participants.map (·.subject) := by
    rw [State.defaultEngine_of_running h, ← Engine.namingOf_flatten]
    simp only [hnamings, List.nil_append]
  have htransit : s.defaultEngine.takeNamings.transit =
      ({ s.defaultEngine.transit with namings := [] } : Transit).withActivations activated := by
    rw [State.takeNamings_transit (by rwa [hflatten]), hflatten, hactivated, State.defaultEngine_of_running h]
  rw [State.abortForDefaults_of_first (by simp [h, hfirst]), htransit, State.defaultEngine_of_running h]
  simp only [State.handsOnAfter, State.handsOnDefaults, State.searchChanges_eq, h, Transit.withActivations, if_true, List.append_assoc]
  rfl

end HandsOn

/-- No item of a default line is selected (R156). -/
theorem not_someItemTrue_default (l : LineId) (x : Indications) : ¬someItemTrue (defaultLines.get l) x := by
  rw [defaultLines_get]
  have hsubject (i : Subject) : lineDefaults.subjects.get i = .none := by cases i <;> rfl
  have hgap (g : Group) : lineDefaults.gaps.get g = false := by cases g <;> rfl
  rintro (⟨i, h, -⟩ | ⟨i, h, -⟩ | ⟨g, h, -⟩ | ⟨h, -⟩)
  · exact Selection.noConfusion ((hsubject i).symm.trans h)
  · exact Selection.noConfusion ((hsubject i).symm.trans h)
  · exact Bool.noConfusion ((hgap g).symm.trans h)
  · exact Bool.noConfusion h

/-- Settles O49: every part of the working settings is its default at once, with each order that R83 leaves open. -/
theorem loadDefaults : Obligations.LoadDefaults := by
  intro s f activated hhears hbody hsaving hactivated
  have howner : ownerTakes .loadDefaults [] (s.counted .loadDefaults f) = (.accept [], (s.counted .loadDefaults f).loadDefaults) := rfl
  rw [State.loadDefaults_parts] at howner
  refine ⟨_, exec_row_answers .loadDefaults hhears hbody howner (hbusy := fun _ => hsaving), rfl, rfl, rfl, rfl, fun i => ?_, ?_, ?_, ?_, rfl,
    rfl, rfl, rfl, rfl, rfl, rfl, rfl, rfl, rfl, rfl, rfl, ?_, ?_⟩
  · cases i <;> rfl
  · exact defaultLines_get
  · intro l
    refine (State.setLines_run_of_false (s := s.counted .loadDefaults f) (not_someItemTrue_default l _)).trans ?_
    rw [defaultLines_get]
    rfl
  · rfl
  · exact fun hidle => State.handsOnDefaults_of_idle (s := s.counted .loadDefaults f) hidle
  · intro hrunning hnamings hnodup
    by_cases hfirst : Config.tableTakesAbortFirst s.freeIndex = true
    · exact .inr (State.handsOnDefaults_of_first (s := s.counted .loadDefaults f) hrunning hfirst hnamings hnodup hactivated)
    · exact .inl (State.handsOnDefaults_of_not_first (s := s.counted .loadDefaults f) hrunning hfirst)

end Sys2Proof.Machine
end

