-- ==== Sys2Proof/Proofs/Resets.lean ====
section
/-! PROOFS. Resets: how they begin (R211, R212, R218, R227), end (R179, R213, R214), and the end of start-up (R215). -/

namespace Sys2Proof.Machine

/-! ### The begin of a reset -/

section Begin

variable {s : State}

theorem exec_powerReset_of_low {time x : Nat} (h : x < 2850) : exec (.powerReset time x) s = .next ((s.reach time).beginReset .power) :=
  if_pos h

theorem exec_powerReset_of_supply {time x : Nat} (h : 2850 ≤ x) : exec (.powerReset time x) s = .next ((s.reach time).watchRelease x) :=
  if_neg (Nat.not_lt.2 h)

theorem State.watchRelease_of_other {x : Nat} (h : ∀ b, s.phase ≠ .inReset .power b) : s.watchRelease x = s := by
  unfold State.watchRelease
  split
  next hphase => exact absurd hphase (h _)
  all_goals rfl

/-- The detector watches a POWER reset's supply (R227). -/
theorem State.watchRelease_of_power {x b : Nat} (h : s.phase = .inReset .power b) :
    s.watchRelease x = { s with supplyGood := if 2950 < x then some (s.supplyGood.getD s.now) else none } := by
  simp only [State.watchRelease, h]

/-- A heard RESTART sets the mark (R218). -/
theorem answerRequest_restart {f : Frame} (hbody : f.body = []) (hsaving : s.settings.saving = false) :
    answerRequest (RequestKind.code .restart) f.body s =
      (.accept [], { s with settings := { s.settings with restartPending := true } }) := by
  rw [answerRequest_of_checks .restart f.body s (by rw [hbody]; rintro n ⟨⟩; rfl) fun _ => hsaving]
  rfl

theorem exec_restart {f : Frame} (h : s.hears f) (hbody : f.body = []) (hsaving : s.settings.saving = false) :
    exec (.restart f) s =
      .next (if f.broadcast then
          ({ s.counted .restart f with settings := { s.settings with restartPending := true } } : State).beginReset .request
        else
          ({ s.counted .restart f with settings := { s.settings with restartPending := true } } : State).linkTo
            (.turnaround (replyBytes s.link.address f.tag (RequestKind.code .restart) (.accept [])) f.time)) := by
  refine (exec_row .restart f s).trans ?_
  rw [State.receiveFrame_of_hears .restart f s h, answerRequest_restart hbody (by exact hsaving)]
  rfl

/-- Settles O50: how resets begin. -/
theorem resetsBegin : Obligations.ResetsBegin := by
  intro s time x
  refine ⟨fun hsupply hphase => ?_, fun b hsupply hlow hphase => ?_, fun b hgood hphase => ?_, fun hlow => ?_, fun hshort => ?_,
    fun hlong => ?_, fun f hhears hbody hsaving => ⟨fun hown => ?_, fun hbroadcast => ?_⟩⟩
  · rw [exec_powerReset_of_supply hsupply, State.watchRelease_of_other (by exact hphase)]
    rfl
  · rw [exec_powerReset_of_supply hsupply, State.watchRelease_of_power (by exact hphase), if_neg (Nat.not_lt.2 hlow)]
    rfl
  · rw [exec_powerReset_of_supply (by omega), State.watchRelease_of_power (by exact hphase), if_pos hgood]
    simp only [State.reach_fields]
    cases s.supplyGood <;> rfl
  · exact ⟨_, exec_powerReset_of_low hlow, State.beginReset_isReset (s.reach time) .power⟩
  · exact if_neg (Nat.not_le.2 hshort)
  · exact ⟨_, if_pos hlong, State.beginReset_isReset (s.reach time) .pin⟩
  · rw [exec_restart hhears hbody hsaving, hown]
    simp only [State.answered, hown]
    rfl
  · rw [exec_restart hhears hbody hsaving, hbroadcast]
    exact ⟨_, rfl, State.beginReset_isReset
      { s.counted .restart f with settings := { s.settings with restartPending := true } } .request⟩

end Begin

/-! ### The end of a reset -/

section End

variable {s : State} {time : Nat}

theorem State.resetEndsAt_iff {c : Cause} {began : Nat} :
    s.resetEndsAt c began time = true ↔
      (c = .power ∧ ∃ good, s.supplyGood = some good ∧ time = good + 20000) ∨ (c = .pin ∧ began ≤ time)
        ∨ (c = .request ∧ time = began + 1000) := by
  cases c with
  | power =>
    simp only [State.resetEndsAt, Bool.and_eq_true, beq_iff_eq, decide_eq_true_eq, true_and, reduceCtorEq, false_and, or_false]
    constructor
    · rintro ⟨hgood, hlate⟩
      exact ⟨_, hgood, by omega⟩
    · rintro ⟨good, hgood, rfl⟩
      exact ⟨by rw [hgood, Nat.add_sub_cancel], by omega⟩
  | pin => simp [State.resetEndsAt]
  | request => simp [State.resetEndsAt]

/-- The start-up test of the image (R214). -/
theorem Image.passes_iff {m : Image} :
    m.passes = true ↔ m.mark = true ∧ crc16 (Config.imageBytes m.contents) = m.check ∧ contentsLegal m.contents := by
  rw [← contentsOk_iff]
  simp [Image.passes, settingsCheck, and_assoc]

theorem exec_resetEnd {c : Cause} {began : Nat} (h : s.phase = .inReset c began) (straps : Straps) :
    exec (.resetEnd time straps) s =
      if s.resetEndsAt c began time then .next ((s.reach time).beginStartUp time straps) else .next s := by
  simp only [exec, execResetEnd, h]

theorem resetEnd : Says.ResetEnd := by
  intro s time straps
  refine ⟨fun hno => ?_, fun c began hphase => ⟨fun hnot => ?_, fun hends good w hgood hw => ?_⟩⟩
  · show execResetEnd time straps s = .next s
    unfold execResetEnd
    split
    next h => exact absurd h (hno _ _)
    all_goals rfl
  · rw [exec_resetEnd hphase, if_neg]
    rw [State.resetEndsAt_iff]
    rintro (⟨rfl, good, hgood, htime⟩ | ⟨rfl, hlow⟩ | ⟨rfl, htime⟩)
    · simp_all
    · simp at hnot
      omega
    · simp at hnot
      omega
  · have hpasses : s.settings.image.passes = good := by rw [Bool.eq_iff_iff, Image.passes_iff, hgood]
    have hloaded : s.settings.image.loaded = w := by
      rw [hw, Image.loaded, hpasses, WorkingSettings.default_eq]
    refine ⟨tableReset w.profiles, ⟨.reset, .reset, .reset, .reset⟩, .ofFn fun _ => .clear, fun i => ?_, fun l => ?_, fun x => ?_, ?_⟩
    · rw [tableReset, PerSubject.get_ofFn]
      rfl
    · cases l <;> rfl
    · rw [PerClass.get_ofFn]
      rfl
    · rw [exec_resetEnd hphase, if_pos (State.resetEndsAt_iff.2 hends), State.beginStartUp]
      simp only [State.reach_fields, hloaded, hpasses]
      rfl

end End

/-! ### The end of start-up -/

section StartUp

variable {s : State} {time : Nat}

/-- An entry of the Subject Table after start-up (R86). -/
def SubjectEntry.started (e : SubjectEntry) : SubjectEntry :=
  if e.active.enabledAtStart = true then { e with state := .waiting } else e

theorem State.startSubject_eq (s : State) (i : Subject) :
    s.startSubject i =
      { s with
        table := s.table.set i (s.table.get i).started
        transit :=
          { s.transit with
            orders := s.transit.orders ++ if (s.table.get i).active.enabledAtStart then [(i, .startUp)] else [] } } := by
  unfold State.startSubject SubjectEntry.started
  dsimp only
  split
  · rfl
  · rw [PerSubject.set_get, List.append_nil]

/-- The subjects enabled at start become WAITING and are ordered enabled (R86, R89). -/
theorem State.foldl_startSubject_eq (s : State) {subjects : List Subject} (h : subjects.Nodup) :
    subjects.foldl State.startSubject s =
      { s with
        table := .ofFn fun i => if i ∈ subjects then (s.table.get i).started else s.table.get i
        transit :=
          { s.transit with
            orders := s.transit.orders
              ++ (subjects.filter fun i => (s.table.get i).active.enabledAtStart).map fun i => (i, .startUp) } } := by
  induction subjects generalizing s with
  | nil =>
    have htable : s.table = .ofFn fun i => s.table.get i := PerSubject.ext_get fun i => by rw [PerSubject.get_ofFn]
    simp [← htable]
  | cons i rest ih =>
    obtain ⟨hnew, hrest⟩ := List.nodup_cons.1 h
    have hother {j : Subject} (hj : j ∈ rest) : (s.table.set i (s.table.get i).started).get j = s.table.get j := by
      rw [PerSubject.get_set, if_neg]
      rintro rfl
      exact hnew hj
    have hfilter : rest.filter (fun j => ((s.table.set i (s.table.get i).started).get j).active.enabledAtStart) =
        rest.filter fun j => (s.table.get j).active.enabledAtStart :=
      List.filter_congr fun j hj => by rw [hother hj]
    have htable : (PerSubject.ofFn fun j =>
          if j ∈ rest then ((s.table.set i (s.table.get i).started).get j).started else (s.table.set i (s.table.get i).started).get j) =
        .ofFn fun j => if j ∈ i :: rest then (s.table.get j).started else s.table.get j :=
      PerSubject.ext_get fun j => by
        simp only [PerSubject.get_ofFn, List.mem_cons]
        by_cases hj : j ∈ rest
        · rw [if_pos hj, if_pos (.inr hj), hother hj]
        · by_cases hji : j = i <;> simp [hj, hji, hnew]
    have horders : (if (s.table.get i).active.enabledAtStart then [(i, VerdictOrder.startUp)] else [])
          ++ (rest.filter fun j => (s.table.get j).active.enabledAtStart).map (fun j => (j, VerdictOrder.startUp)) =
        ((i :: rest).filter fun j => (s.table.get j).active.enabledAtStart).map fun j => (j, VerdictOrder.startUp) := by
      rw [List.filter_cons]
      split <;> rfl
    rw [List.foldl_cons, State.startSubject_eq, ih _ hrest]
    simp only [htable, hfilter, ← horders, List.append_assoc]

theorem exec_endOfStartUp {began : Nat} (h : s.phase = .startUp began) :
    exec (.endOfStartUp time) s =
      if began ≤ time ∧ time ≤ began + 250000 then .next ((s.reach time).endStartUp time) else .next s := by
  simp only [exec, execEndOfStartUp, h]

/-- The end of start-up, out of SEARCH and without a grid (R215). -/
theorem State.endStartUp_eq (hgrid : s.tracker.grid = none) (hstate : s.tracker.state = .search) :
    s.endStartUp time =
      { s with
        phase := .running
        qualifier := .reset
        tracker := s.tracker.searching 1 s.now
        table := .ofFn fun i => (s.table.get i).started
        transit :=
          { s.transit with
            orders := s.transit.orders
              ++ (Subject.all.filter fun i => (s.table.get i).active.enabledAtStart).map fun i => (i, .startUp) }
        lines := s.lines.restart s.lines.settings s.now
        notices := s.notices.take .restart
        link := { s.link with state := .hunt, huntFrom := time } } := by
  have hall (i : Subject) : i ∈ Subject.all := by cases i <;> decide
  unfold State.endStartUp
  dsimp only
  rw [State.enterSearch_of_search hstate hgrid, State.foldl_startSubject_eq _ (by decide)]
  simp only [hall, if_true]
  rfl

theorem endOfStartUp : Says.EndOfStartUp := by
  intro s time
  refine ⟨fun hno => ?_, fun began hphase => ⟨fun hout => ?_, fun hfrom hto hgrid hstate =>
    ⟨.ofFn fun i => (s.table.get i).started, (s.lines.restart s.lines.settings (max s.now time)).run,
      s.notices.latches.set .restart (s.notices.latches.get .restart).raised, fun i => ?_, fun l => ?_, fun l => ?_, fun c => ?_, ?_⟩⟩⟩
  · show execEndOfStartUp time s = .next s
    unfold execEndOfStartUp
    split
    next h => exact absurd h (hno _)
    all_goals rfl
  · rw [exec_endOfStartUp hphase, if_neg (by omega)]
  · rw [PerSubject.get_ofFn]
    rfl
  · exact State.setLines_run_of_true (s := s.reach time)
  · exact State.setLines_run_of_false (s := s.reach time)
  · rw [PerClass.get_set]
    rfl
  · rw [exec_endOfStartUp hphase, if_pos ⟨hfrom, hto⟩, State.endStartUp_eq (by exact hgrid) (by exact hstate)]
    rfl

/-- Settles O51: a reset's end, and the end of start-up. -/
theorem resetEndAndStartUp : Obligations.ResetEndAndStartUp := ⟨resetEnd, endOfStartUp⟩

end StartUp

end Sys2Proof.Machine
end
